-- ==== Sys2Proof/Word.lean ====
section
/-!
DEFINITION. The word types of the MC68040 (00_scope.md rules R8, R9): byte 8, word 16, long word 32 bits, the sizes an
integer operand can have, and a bank of eight like registers.
-/
namespace Sys2Proof

/-- A byte (R8). -/
abbrev Byte := BitVec 8
/-- A word, also an instruction word (R8). -/
abbrev Word := BitVec 16
/-- A long word, also an address (R8, 20_memory.md R80). -/
abbrev Long := BitVec 32
/-- A 3-bit register number. -/
abbrev RegNo := BitVec 3

/-- The operand size of an integer instruction (R8). -/
inductive Size where
  | byte | word | long
  deriving DecidableEq, Repr, Inhabited

/-- Its number of bytes. -/
def Size.bytes : Size → Nat
  | .byte => 1 | .word => 2 | .long => 4

/-- Its number of bits. -/
def Size.bits : Size → Nat
  | .byte => 8 | .word => 16 | .long => 32

/-- Eight registers of one kind, numbered 0 to 7. -/
structure Bank (α : Type) where
  r0 : α
  r1 : α
  r2 : α
  r3 : α
  r4 : α
  r5 : α
  r6 : α
  r7 : α
  deriving DecidableEq, Repr, Inhabited

/-- Register `i` of the bank. -/
def Bank.get {α : Type} (b : Bank α) (i : RegNo) : α :=
  match i.toNat with
  | 0 => b.r0 | 1 => b.r1 | 2 => b.r2 | 3 => b.r3 | 4 => b.r4 | 5 => b.r5 | 6 => b.r6 | _ => b.r7

/-- The bank with register `i` replaced. -/
def Bank.set {α : Type} (b : Bank α) (i : RegNo) (v : α) : Bank α :=
  match i.toNat with
  | 0 => { b with r0 := v } | 1 => { b with r1 := v } | 2 => { b with r2 := v } | 3 => { b with r3 := v }
  | 4 => { b with r4 := v } | 5 => { b with r5 := v } | 6 => { b with r6 := v } | _ => { b with r7 := v }

/-- A bank whose registers all hold `v`. -/
def Bank.fill {α : Type} (v : α) : Bank α := ⟨v, v, v, v, v, v, v, v⟩

/-- A bank filled from a function of the register number. -/
def Bank.ofFn {α : Type} (f : Nat → α) : Bank α := ⟨f 0, f 1, f 2, f 3, f 4, f 5, f 6, f 7⟩

/-- A floating-point data register's contents in extended precision: sign, 15-bit biased exponent, 64-bit mantissa with
an explicit integer bit (10_state.md R34). -/
structure FpReal where
  sign : Bool
  exp : BitVec 15
  man : BitVec 64
  deriving DecidableEq, Repr, Inhabited

/-- WBTEMP with its sticky bit (42_fp_instructions.md R291): sign, 16-bit exponent, 67-bit mantissa, SBIT. -/
structure WbTemp where
  wbts : Bool
  wbte : BitVec 16
  wbtm : BitVec 67
  sbit : Bool
  deriving DecidableEq, Repr, Inhabited

end Sys2Proof
end

