-- ==== Sys2Proof/Syntax.lean ====
section
/-!
DEFINITION. The instructions: one constructor of `Instr` per row of spec/opcode_table.json, with the operands the row's
format gives it (30_encoding.md R128-R131, R140, R141).
-/
namespace Sys2Proof

/-- A general register operand: `a rrr` of an extension word. -/
inductive Reg where
  | d (n : RegNo)
  | a (n : RegNo)
  deriving DecidableEq, Repr, Inhabited

/-- The index register of a brief or full extension word: register, W/L bit, scale (R141). -/
structure IndexReg where
  reg : Reg
  long : Bool
  scale : BitVec 2
  deriving DecidableEq, Repr, Inhabited

/-- A base or outer displacement of the full format: none, one sign-extended word, one long word (R141). -/
inductive Disp where
  | none
  | word (d : Word)
  | long (d : Long)
  deriving DecidableEq, Repr, Inhabited

/-- The `iii` field of the full format: no memory indirection, pre-indexed, post-indexed, each with its outer
displacement. With the index suppressed the pre-indexed codes are plain memory indirection (R141). -/
inductive Indirect where
  | no
  | pre (od : Disp)
  | post (od : Disp)
  deriving DecidableEq, Repr, Inhabited

/-- The extension words of the indexed modes (R141). -/
inductive IndexExt where
  | brief (x : IndexReg) (d8 : Byte)
  | full (x : IndexReg) (baseSuppress indexSuppress : Bool) (bd : Disp) (ind : Indirect)
  deriving DecidableEq, Repr, Inhabited

/-- An effective address, the twelve modes of R140. An immediate operand keeps its words as they stand after the
operation and command words. -/
inductive Ea where
  | dn (r : RegNo)
  | an (r : RegNo)
  | ind (r : RegNo)
  | postInc (r : RegNo)
  | preDec (r : RegNo)
  | disp (r : RegNo) (d : Word)
  | index (r : RegNo) (x : IndexExt)
  | absW (a : Word)
  | absL (a : Long)
  | pcDisp (d : Word)
  | pcIndex (x : IndexExt)
  | imm (ws : List Word)
  deriving DecidableEq, Repr, Inhabited

/-- The source data formats of a floating-point operand, SRC codes 0 to 6 (R130). -/
inductive FpFmt where
  | l | s | x | p | w | d | b
  deriving DecidableEq, Repr, Inhabited

/-- The destination formats of FMOVE FPn,<ea>, codes 0 to 7: packed decimal with a static or a dynamic k-factor (R130). -/
inductive FpOutFmt where
  | l | s | x | pStatic | w | d | b | pDynamic
  deriving DecidableEq, Repr, Inhabited

/-- The twelve kinds of effective address that the mode and register bits name (R140). -/
inductive EaKind where
  | dn | an | ind | postInc | preDec | disp | index | absW | absL | pcDisp | pcIndex | imm
  deriving DecidableEq, Repr, Inhabited

/-- The kind of an effective address. -/
def Ea.kind : Ea → EaKind
  | .dn _ => .dn | .an _ => .an | .ind _ => .ind | .postInc _ => .postInc | .preDec _ => .preDec
  | .disp _ _ => .disp | .index _ _ => .index | .absW _ => .absW | .absL _ => .absL
  | .pcDisp _ => .pcDisp | .pcIndex _ => .pcIndex | .imm _ => .imm

/-- The classes of effective address an instruction can accept (R140: "Which modes an instruction accepts is per
instruction"). -/
inductive EaClass where
  /-- every mode but An -/
  | data
  /-- Dn and the writable memory modes -/
  | dataAlterable
  /-- the writable memory modes -/
  | memAlterable
  /-- the memory modes without side effect -/
  | control
  /-- the writable ones of these, or -(An) -/
  | controlAlterableOrPre
  /-- the memory modes without side effect, or (An)+ -/
  | controlOrPost
  /-- a floating-point source: data modes, Dn only for B, W, L, S -/
  | fpSource (fmt : FpFmt)
  /-- a floating-point destination: data alterable modes, Dn only for B, W, L, S -/
  | fpDest (fmt : FpOutFmt)
  /-- the source of a control register move that selects `sel` -/
  | toCr (sel : BitVec 3)
  /-- the destination of a control register move that selects `sel` -/
  | fromCr (sel : BitVec 3)
  deriving DecidableEq, Repr, Inhabited

/-- The source of a floating-point instruction: a register (opclass 000) or an operand at an effective address in a
format (opclass 010) (R123). -/
inductive FpSrc where
  | reg (m : RegNo)
  | ea (fmt : FpFmt) (ea : Ea)
  deriving DecidableEq, Repr, Inhabited

/-- The instructions of spec/opcode_table.json, in the table's order. -/
inductive Instr where
  -- 40_trap_instructions.md
  | trap (n : BitVec 4)
  | trapccW (cc : BitVec 4) (d : Word)
  | trapccL (cc : BitVec 4) (d : Long)
  | trapcc (cc : BitVec 4)
  | trapv
  | chkW (ea : Ea) (dn : RegNo)
  | chkL (ea : Ea) (dn : RegNo)
  | chk2 (sz : Size) (ea : Ea) (rn : Reg)
  | divuW (ea : Ea) (dn : RegNo)
  | divsW (ea : Ea) (dn : RegNo)
  | divuL (ea : Ea) (dq dr : RegNo)
  | divuL64 (ea : Ea) (dq dr : RegNo)
  | divsL (ea : Ea) (dq dr : RegNo)
  | divsL64 (ea : Ea) (dq dr : RegNo)
  | bkpt (n : RegNo)
  | illegal
  | aLine (w : BitVec 12)
  | fLine (w : BitVec 12)
  -- 41_system_instructions.md
  | rte
  | stop (imm : Word)
  | reset
  | nop
  | oriSr (imm : Word)
  | andiSr (imm : Word)
  | eoriSr (imm : Word)
  | moveToSr (ea : Ea)
  | moveFromSr (ea : Ea)
  | moveToUsp (an : RegNo)
  | moveFromUsp (an : RegNo)
  | movecFrom (rc : BitVec 12) (rn : Reg)
  | movecTo (rc : BitVec 12) (rn : Reg)
  | movesLoad (sz : Size) (ea : Ea) (rn : Reg)
  | movesStore (sz : Size) (rn : Reg) (ea : Ea)
  | cinv (caches scope : BitVec 2) (an : RegNo)
  | cpush (caches scope : BitVec 2) (an : RegNo)
  | pflush (op : BitVec 2) (an : RegNo)
  | ptest (read : Bool) (an : RegNo)
  | movemStore (long : Bool) (mask : Word) (ea : Ea)
  | movemLoad (long : Bool) (mask : Word) (ea : Ea)
  | move16PostPost (ax ay : RegNo)
  | move16PostAbs (ay : RegNo) (addr : Long)
  | move16AbsPost (addr : Long) (ay : RegNo)
  | move16IndAbs (ay : RegNo) (addr : Long)
  | move16AbsInd (addr : Long) (ay : RegNo)
  | tas (ea : Ea)
  | cas (sz : Size) (dc du : RegNo) (ea : Ea)
  | cas2 (long : Bool) (rn1 : Reg) (dc1 du1 : RegNo) (rn2 : Reg) (dc2 du2 : RegNo)
  -- 42_fp_instructions.md, register destination
  | fmove (src : FpSrc) (dst : RegNo)
  | fsmove (src : FpSrc) (dst : RegNo)
  | fdmove (src : FpSrc) (dst : RegNo)
  | fabs (src : FpSrc) (dst : RegNo)
  | fsabs (src : FpSrc) (dst : RegNo)
  | fdabs (src : FpSrc) (dst : RegNo)
  | fneg (src : FpSrc) (dst : RegNo)
  | fsneg (src : FpSrc) (dst : RegNo)
  | fdneg (src : FpSrc) (dst : RegNo)
  | fsqrt (src : FpSrc) (dst : RegNo)
  | fssqrt (src : FpSrc) (dst : RegNo)
  | fdsqrt (src : FpSrc) (dst : RegNo)
  | fadd (src : FpSrc) (dst : RegNo)
  | fsadd (src : FpSrc) (dst : RegNo)
  | fdadd (src : FpSrc) (dst : RegNo)
  | fsub (src : FpSrc) (dst : RegNo)
  | fssub (src : FpSrc) (dst : RegNo)
  | fdsub (src : FpSrc) (dst : RegNo)
  | fmul (src : FpSrc) (dst : RegNo)
  | fsmul (src : FpSrc) (dst : RegNo)
  | fdmul (src : FpSrc) (dst : RegNo)
  | fdiv (src : FpSrc) (dst : RegNo)
  | fsdiv (src : FpSrc) (dst : RegNo)
  | fddiv (src : FpSrc) (dst : RegNo)
  | fcmp (src : FpSrc) (dst : RegNo)
  | ftst (src : FpSrc) (dst : RegNo)
  -- unimplemented MC68881/MC68882 instructions (R263)
  | fint (src : FpSrc) (dst : RegNo)
  | fsinh (src : FpSrc) (dst : RegNo)
  | fintrz (src : FpSrc) (dst : RegNo)
  | flognp1 (src : FpSrc) (dst : RegNo)
  | fetoxm1 (src : FpSrc) (dst : RegNo)
  | ftanh (src : FpSrc) (dst : RegNo)
  | fatan (src : FpSrc) (dst : RegNo)
  | fasin (src : FpSrc) (dst : RegNo)
  | fatanh (src : FpSrc) (dst : RegNo)
  | fsin (src : FpSrc) (dst : RegNo)
  | ftan (src : FpSrc) (dst : RegNo)
  | fetox (src : FpSrc) (dst : RegNo)
  | ftwotox (src : FpSrc) (dst : RegNo)
  | ftentox (src : FpSrc) (dst : RegNo)
  | flogn (src : FpSrc) (dst : RegNo)
  | flog10 (src : FpSrc) (dst : RegNo)
  | flog2 (src : FpSrc) (dst : RegNo)
  | fcosh (src : FpSrc) (dst : RegNo)
  | facos (src : FpSrc) (dst : RegNo)
  | fcos (src : FpSrc) (dst : RegNo)
  | fgetexp (src : FpSrc) (dst : RegNo)
  | fgetman (src : FpSrc) (dst : RegNo)
  | fmod (src : FpSrc) (dst : RegNo)
  | fsgldiv (src : FpSrc) (dst : RegNo)
  | frem (src : FpSrc) (dst : RegNo)
  | fscale (src : FpSrc) (dst : RegNo)
  | fsglmul (src : FpSrc) (dst : RegNo)
  | fsincos (src : FpSrc) (dst fpc : RegNo)
  | fmovecr (ofs : BitVec 7) (dst : RegNo)
  -- moves out and between register files
  | fmoveOut (fmt : FpOutFmt) (src : RegNo) (k : BitVec 7) (ea : Ea)
  | fmoveToCr (sel : BitVec 3) (ea : Ea)
  | fmoveFromCr (sel : BitVec 3) (ea : Ea)
  | fmovemLoad (ctl dyn : Bool) (list : Byte) (ea : Ea)
  | fmovemStore (ctl dyn : Bool) (list : Byte) (ea : Ea)
  -- conditional instructions
  | fbccW (p : BitVec 5) (d : Word)
  | fbccL (p : BitVec 5) (d : Long)
  | fnop
  | fscc (p : BitVec 5) (ea : Ea)
  | fdbcc (p : BitVec 5) (dn : RegNo) (d : Word)
  | ftrapccW (p : BitVec 5) (d : Word)
  | ftrapccL (p : BitVec 5) (d : Long)
  | ftrapcc (p : BitVec 5)
  -- state frames
  | fsave (ea : Ea)
  | frestore (ea : Ea)
  deriving DecidableEq, Repr, Inhabited

end Sys2Proof
end

