-- ==== Sys2Proof/Decode.lean ====
section
/-!
DEFINITION. The decoder, total on every list of instruction words, and after it the encoder (30_encoding.md R120-R143 and
spec/opcode_table.json). The decoder asks for one more word when the words it has do not decide, names the words it
rejects as illegal (R126), and sends the words that no rule of the spec claims to `exec_other` (92 D2).
-/
namespace Sys2Proof

/-! ### Reading instruction words -/

/-- Why the words given are not one of the table's instructions. -/
inductive DecodeErr where
  /-- the words so far do not decide: the decoder needs the next word -/
  | more
  /-- an operation word the table claims with a mode, field or extension that no row accepts: illegal instruction (R126) -/
  | illegal
  /-- an instruction of the M68000 family that the spec does not describe: `exec_other` (92 D2) -/
  | other
  deriving DecidableEq, Repr, Inhabited

/-- What a part of the decoder gives: what it read and the words that are left. -/
abbrev Dec (α : Type) := Except DecodeErr (α × List Word)

/-- The next word. -/
def takeWord : List Word → Dec Word
  | [] => .error .more
  | w :: ws => .ok (w, ws)

/-- The next long word, its more significant word first (R85). -/
def takeLong : List Word → Dec Long
  | hi :: lo :: ws => .ok (hi ++ lo, ws)
  | _ => .error .more

/-- The next `n` words. -/
def takeWords : Nat → List Word → Dec (List Word)
  | 0, ws => .ok ([], ws)
  | _ + 1, [] => .error .more
  | n + 1, w :: ws =>
    match takeWords n ws with
    | .ok (vs, rest) => .ok (w :: vs, rest)
    | .error e => .error e

/-- The big-endian words of a list of bytes (R85); an odd byte at the end is dropped. -/
def wordsOfBytes : List Byte → List Word
  | hi :: lo :: bs => (hi ++ lo) :: wordsOfBytes bs
  | _ => []

/-- The field of `len` bits of a word whose least significant bit is bit `lo` (R9). -/
def field (w : Word) (lo len : Nat) : BitVec len := w.extractLsb' lo len

/-- The register of an `a rrr` pair. -/
def regOf (a : Bool) (n : RegNo) : Reg := if a then .a n else .d n

/-- The register in bits 15:12 of an extension word. -/
def regField (w : Word) : Reg := regOf (w.getLsbD 15) (field w 12 3)

/-! ### Effective addresses -/

/-- The kind of effective address that a mode and a register field name (R140). -/
def eaKindOf (mode reg : BitVec 3) : Option EaKind :=
  match mode.toNat with
  | 0 => some .dn
  | 1 => some .an
  | 2 => some .ind
  | 3 => some .postInc
  | 4 => some .preDec
  | 5 => some .disp
  | 6 => some .index
  | _ =>
    match reg.toNat with
    | 0 => some .absW
    | 1 => some .absL
    | 2 => some .pcDisp
    | 3 => some .pcIndex
    | 4 => some .imm
    | _ => none

/-- The source formats that a data register can hold (42 R264: "Dn (formats B, W, L, S only)"). -/
def fmtInDn : FpFmt → Bool
  | .b | .w | .l | .s => true
  | .x | .p | .d => false

/-- The destination formats that a data register can hold (42 R277). -/
def outFmtInDn : FpOutFmt → Bool
  | .b | .w | .l | .s => true
  | _ => false

/-- How many control registers a 3-bit selection names (42 R278). -/
def selCount (sel : BitVec 3) : Nat :=
  (sel.getLsbD 2).toNat + (sel.getLsbD 1).toNat + (sel.getLsbD 0).toNat

/-- Whether a class of effective addresses takes a kind. Stated by the spec for CHK, CHK2, MOVE to and from SR, MOVES,
FScc, FSAVE, FRESTORE and the control register moves, PRESUMED from the family for the rest (log entry 11). -/
def eaAccepts (c : EaClass) (k : EaKind) : Bool :=
  match c, k with
  | .data, .an => false
  | .data, _ => true
  | .dataAlterable, .an | .dataAlterable, .pcDisp | .dataAlterable, .pcIndex | .dataAlterable, .imm => false
  | .dataAlterable, _ => true
  | .memAlterable, .dn | .memAlterable, .an | .memAlterable, .pcDisp | .memAlterable, .pcIndex | .memAlterable, .imm => false
  | .memAlterable, _ => true
  | .control, .ind | .control, .disp | .control, .index | .control, .absW | .control, .absL | .control, .pcDisp
  | .control, .pcIndex => true
  | .control, _ => false
  | .controlAlterableOrPre, .ind | .controlAlterableOrPre, .disp | .controlAlterableOrPre, .index
  | .controlAlterableOrPre, .absW | .controlAlterableOrPre, .absL | .controlAlterableOrPre, .preDec => true
  | .controlAlterableOrPre, _ => false
  | .controlOrPost, .ind | .controlOrPost, .disp | .controlOrPost, .index | .controlOrPost, .absW
  | .controlOrPost, .absL | .controlOrPost, .pcDisp | .controlOrPost, .pcIndex | .controlOrPost, .postInc => true
  | .controlOrPost, _ => false
  | .fpSource fmt, .dn => fmtInDn fmt
  | .fpSource _, .an => false
  | .fpSource _, _ => true
  | .fpDest fmt, .dn => outFmtInDn fmt
  | .fpDest _, .an | .fpDest _, .pcDisp | .fpDest _, .pcIndex | .fpDest _, .imm => false
  | .fpDest _, _ => true
  | .toCr sel, .dn => selCount sel == 1
  | .toCr sel, .an => sel == 1
  | .toCr _, _ => true
  | .fromCr sel, .dn => selCount sel == 1
  | .fromCr sel, .an => sel == 1
  | .fromCr _, .pcDisp | .fromCr _, .pcIndex | .fromCr _, .imm => false
  | .fromCr _, _ => true

/-- The kind named by the low six bits of an operation word, where the class takes it. -/
def acceptedKind (c : EaClass) (w : Word) : Option EaKind :=
  match eaKindOf (field w 3 3) (field w 0 3) with
  | some k => if eaAccepts c k then some k else none
  | none => none

/-- The base displacement that a `zz` field announces; 00 is reserved (R141). -/
def decodeBd (zz : BitVec 2) (ws : List Word) : Dec Disp :=
  match zz.toNat with
  | 1 => .ok (.none, ws)
  | 2 => match takeWord ws with
    | .ok (d, ws) => .ok (.word d, ws)
    | .error e => .error e
  | 3 => match takeLong ws with
    | .ok (d, ws) => .ok (.long d, ws)
    | .error e => .error e
  | _ => .error .illegal

/-- Whether an `iii` field is reserved: 100, and 1xx with the index suppressed (R141). -/
def indReserved (indexSuppress : Bool) (iii : BitVec 3) : Bool := iii == 4 || (indexSuppress && iii.getLsbD 2)

/-- The memory indirection that an `iii` field that is not reserved announces (R141). -/
def decodeInd (iii : BitVec 3) (ws : List Word) : Dec Indirect :=
  if iii = 0 then .ok (.no, ws)
  else match decodeBd (iii.extractLsb' 0 2) ws with
    | .ok (od, ws) => .ok (if iii.getLsbD 2 then .post od else .pre od, ws)
    | .error e => .error e

/-- The extension words of an indexed mode (R141). A reserved index word is illegal as soon as it is fetched, before its
displacement words are (log entry 12). -/
def decodeIndex (ws : List Word) : Dec IndexExt :=
  match takeWord ws with
  | .error e => .error e
  | .ok (x, ws) =>
    let idx : IndexReg := { reg := regField x, long := x.getLsbD 11, scale := field x 9 2 }
    if x.getLsbD 8 then
      if x.getLsbD 3 || indReserved (x.getLsbD 6) (field x 0 3) then .error .illegal
      else match decodeBd (field x 4 2) ws with
        | .error e => .error e
        | .ok (bd, ws) =>
          match decodeInd (field x 0 3) ws with
          | .error e => .error e
          | .ok (ind, ws) => .ok (.full idx (x.getLsbD 7) (x.getLsbD 6) bd ind, ws)
    else .ok (.brief idx (field x 0 8), ws)

/-- The effective address of kind `k` with register field `r`; an immediate operand takes `immWords` words (R140). -/
def decodeEa (k : EaKind) (r : RegNo) (immWords : Nat) (ws : List Word) : Dec Ea :=
  match k with
  | .dn => .ok (.dn r, ws)
  | .an => .ok (.an r, ws)
  | .ind => .ok (.ind r, ws)
  | .postInc => .ok (.postInc r, ws)
  | .preDec => .ok (.preDec r, ws)
  | .disp => match takeWord ws with
    | .ok (d, ws) => .ok (.disp r d, ws)
    | .error e => .error e
  | .index => match decodeIndex ws with
    | .ok (x, ws) => .ok (.index r x, ws)
    | .error e => .error e
  | .absW => match takeWord ws with
    | .ok (d, ws) => .ok (.absW d, ws)
    | .error e => .error e
  | .absL => match takeLong ws with
    | .ok (d, ws) => .ok (.absL d, ws)
    | .error e => .error e
  | .pcDisp => match takeWord ws with
    | .ok (d, ws) => .ok (.pcDisp d, ws)
    | .error e => .error e
  | .pcIndex => match decodeIndex ws with
    | .ok (x, ws) => .ok (.pcIndex x, ws)
    | .error e => .error e
  | .imm => match takeWords immWords ws with
    | .ok (vs, ws) => .ok (.imm vs, ws)
    | .error e => .error e

/-- The effective address in an operation word, then the instruction built from it. -/
def withEa (c : EaClass) (w : Word) (immWords : Nat) (mk : Ea → Instr) (ws : List Word) : Dec Instr :=
  match acceptedKind c w with
  | none => .error .illegal
  | some k =>
    match decodeEa k (field w 0 3) immWords ws with
    | .ok (ea, ws) => .ok (mk ea, ws)
    | .error e => .error e

/-- The same with one extension word between the operation word and the EA's words. `mk` reads the extension word. -/
def withExtEa (c : EaClass) (w : Word) (immWords : Nat) (mk : Word → Except DecodeErr (Ea → Instr)) (ws : List Word) :
    Dec Instr :=
  match acceptedKind c w with
  | none => .error .illegal
  | some _ =>
    match takeWord ws with
    | .error e => .error e
    | .ok (x, ws) =>
      match mk x with
      | .error e => .error e
      | .ok f => withEa c w immWords f ws

/-- An instruction with one extension word. -/
def withWord (mk : Word → Except DecodeErr Instr) (ws : List Word) : Dec Instr :=
  match takeWord ws with
  | .error e => .error e
  | .ok (x, ws) =>
    match mk x with
    | .error e => .error e
    | .ok i => .ok (i, ws)

/-- An instruction with a long word after the words read so far. -/
def withLong (mk : Long → Instr) (ws : List Word) : Dec Instr :=
  match takeLong ws with
  | .error e => .error e
  | .ok (x, ws) => .ok (mk x, ws)

/-! ### Line 0 -/

/-- The size coded 00 byte, 01 word, 10 long (MOVES, CHK2). -/
def sizeOf012 (ss : BitVec 2) : Option Size :=
  match ss.toNat with
  | 0 => some .byte | 1 => some .word | 2 => some .long | _ => none

/-- The size coded 01 byte, 10 word, 11 long (CAS). -/
def sizeOf123 (ss : BitVec 2) : Option Size :=
  match ss.toNat with
  | 1 => some .byte | 2 => some .word | 3 => some .long | _ => none

/-- MOVES (R208): the extension word is `a rrr d 00000000000`. -/
def decodeMoves (sz : Size) (x : Word) : Except DecodeErr (Ea → Instr) :=
  if field x 0 11 ≠ 0 then .error .illegal
  else if x.getLsbD 11 then .ok (fun ea => .movesStore sz (regField x) ea)
  else .ok (fun ea => .movesLoad sz ea (regField x))

/-- CHK2 (R165): bit 11 of the extension word is 1; 0 is CMP2, which the spec does not describe. -/
def decodeChk2 (sz : Size) (x : Word) : Except DecodeErr (Ea → Instr) :=
  if ¬ x.getLsbD 11 then .error .other
  else if field x 0 11 ≠ 0 then .error .illegal
  else .ok (fun ea => .chk2 sz ea (regField x))

/-- CAS (R223): the extension word is `0000000 uuu 000 ccc`. -/
def decodeCas (sz : Size) (x : Word) : Except DecodeErr (Ea → Instr) :=
  if x &&& 0xFE38 ≠ 0 then .error .illegal
  else .ok (fun ea => .cas sz (field x 0 3) (field x 6 3) ea)

/-- CAS2 (R224): two extension words `a nnn 000 uuu 000 ccc`; a first word with a reserved bit is illegal before the second is
fetched (log entry 12). -/
def decodeCas2 (long : Bool) (ws : List Word) : Dec Instr :=
  match takeWord ws with
  | .error e => .error e
  | .ok (x, ws) =>
    if x &&& 0x0E38 ≠ 0 then .error .illegal
    else match takeWord ws with
      | .error e => .error e
      | .ok (y, ws) =>
        if y &&& 0x0E38 ≠ 0 then .error .illegal
        else .ok (.cas2 long (regField x) (field x 0 3) (field x 6 3) (regField y) (field y 0 3) (field y 6 3), ws)

/-- The number of words of an immediate operand of a size. -/
def immWordsOf : Size → Nat
  | .long => 2
  | _ => 1

/-- Operation words with bits 15:12 = $0. -/
def decodeLine0 (w : Word) (ws : List Word) : Dec Instr :=
  if w = 0x007C then withWord (fun x => .ok (.oriSr x)) ws
  else if w = 0x027C then withWord (fun x => .ok (.andiSr x)) ws
  else if w = 0x0A7C then withWord (fun x => .ok (.eoriSr x)) ws
  else if w = 0x0CFC then decodeCas2 false ws
  else if w = 0x0EFC then decodeCas2 true ws
  else if w &&& 0xFF00 = 0x0E00 ∧ field w 6 2 ≠ 3 then
    match sizeOf012 (field w 6 2) with
    | some sz => withExtEa .memAlterable w 0 (decodeMoves sz) ws
    | none => .error .other
  else if w &&& 0xF9C0 = 0x08C0 then
    match sizeOf123 (field w 9 2) with
    | some sz => withExtEa .memAlterable w 0 (decodeCas sz) ws
    | none => .error .other
  else if w &&& 0xF9C0 = 0x00C0 then
    match sizeOf012 (field w 9 2) with
    | some sz => withExtEa .control w 0 (decodeChk2 sz) ws
    | none => .error .other
  else .error .other

/-! ### Lines 4, 5 and 8 -/

/-- DIVU.L, DIVS.L (R167): the extension word is `0 qqq t z 0000000 rrr`. -/
def decodeDivl (x : Word) : Except DecodeErr (Ea → Instr) :=
  if x &&& 0x83F8 ≠ 0 then .error .illegal
  else
    let dq := field x 12 3
    let dr := field x 0 3
    .ok (fun ea =>
      match x.getLsbD 11, x.getLsbD 10 with
      | false, false => .divuL ea dq dr
      | false, true => .divuL64 ea dq dr
      | true, false => .divsL ea dq dr
      | true, true => .divsL64 ea dq dr)

/-- The instructions of line 4 whose operation word is fixed but for a register or vector number. -/
def decodeLine4Fixed (w : Word) (ws : List Word) : Option (Dec Instr) :=
  if w = 0x4AFC then some (.ok (.illegal, ws))
  else if w = 0x4E70 then some (.ok (.reset, ws))
  else if w = 0x4E71 then some (.ok (.nop, ws))
  else if w = 0x4E72 then some (withWord (fun x => .ok (.stop x)) ws)
  else if w = 0x4E73 then some (.ok (.rte, ws))
  else if w = 0x4E76 then some (.ok (.trapv, ws))
  else if w = 0x4E7A then some (withWord (fun x => .ok (.movecFrom (field x 0 12) (regField x))) ws)
  else if w = 0x4E7B then some (withWord (fun x => .ok (.movecTo (field x 0 12) (regField x))) ws)
  else if w &&& 0xFFF0 = 0x4E40 then some (.ok (.trap (field w 0 4), ws))
  else if w &&& 0xFFF8 = 0x4E60 then some (.ok (.moveToUsp (field w 0 3), ws))
  else if w &&& 0xFFF8 = 0x4E68 then some (.ok (.moveFromUsp (field w 0 3), ws))
  else if w &&& 0xFFF8 = 0x4848 then some (.ok (.bkpt (field w 0 3), ws))
  else none

/-- Operation words with bits 15:12 = $4. MOVEM with a Dn mode is EXT, which the spec does not describe. -/
def decodeLine4 (w : Word) (ws : List Word) : Dec Instr :=
  match decodeLine4Fixed w ws with
  | some r => r
  | none =>
    if w &&& 0xF1C0 = 0x4180 then withEa .data w 1 (fun ea => .chkW ea (field w 9 3)) ws
    else if w &&& 0xF1C0 = 0x4100 then withEa .data w 2 (fun ea => .chkL ea (field w 9 3)) ws
    else if w &&& 0xFFC0 = 0x46C0 then withEa .data w 1 .moveToSr ws
    else if w &&& 0xFFC0 = 0x40C0 then withEa .dataAlterable w 0 .moveFromSr ws
    else if w &&& 0xFFC0 = 0x4AC0 then withEa .dataAlterable w 0 .tas ws
    else if w &&& 0xFFC0 = 0x4C40 then withExtEa .data w 2 decodeDivl ws
    else if w &&& 0xFF80 = 0x4880 then
      if field w 3 3 = 0 then .error .other
      else withExtEa .controlAlterableOrPre w 0 (fun x => .ok (fun ea => .movemStore (w.getLsbD 6) x ea)) ws
    else if w &&& 0xFF80 = 0x4C80 then
      withExtEa .controlOrPost w 0 (fun x => .ok (fun ea => .movemLoad (w.getLsbD 6) x ea)) ws
    else .error .other

/-- Operation words with bits 15:12 = $5: TRAPcc (R162). -/
def decodeLine5 (w : Word) (ws : List Word) : Dec Instr :=
  if w &&& 0xF0FF = 0x50FA then withWord (fun x => .ok (.trapccW (field w 8 4) x)) ws
  else if w &&& 0xF0FF = 0x50FB then withLong (fun x => .trapccL (field w 8 4) x) ws
  else if w &&& 0xF0FF = 0x50FC then .ok (.trapcc (field w 8 4), ws)
  else .error .other

/-- Operation words with bits 15:12 = $8: DIVU.W, DIVS.W (R166). -/
def decodeLine8 (w : Word) (ws : List Word) : Dec Instr :=
  if w &&& 0xF1C0 = 0x80C0 then withEa .data w 1 (fun ea => .divuW ea (field w 9 3)) ws
  else if w &&& 0xF1C0 = 0x81C0 then withEa .data w 1 (fun ea => .divsW ea (field w 9 3)) ws
  else .error .other

/-! ### Line F -/

/-- The source format of an SRC code; 111 is FMOVECR (R130). -/
def fmtOf (c : BitVec 3) : Option FpFmt :=
  match c.toNat with
  | 0 => some .l | 1 => some .s | 2 => some .x | 3 => some .p | 4 => some .w | 5 => some .d | 6 => some .b | _ => none

/-- The destination format of a code (R130). -/
def outFmtOf (c : BitVec 3) : FpOutFmt :=
  match c.toNat with
  | 0 => .l | 1 => .s | 2 => .x | 3 => .pStatic | 4 => .w | 5 => .d | 6 => .b | _ => .pDynamic

/-- The number of words of an immediate operand of a floating-point format (R140). -/
def fmtImmWords : FpFmt → Nat
  | .b | .w => 1
  | .l | .s => 2
  | .d => 4
  | .x | .p => 6

/-- The instruction of a CMD value but FSINCOS (R130). -/
def cmdCtor (cmd : BitVec 7) : Option (FpSrc → RegNo → Instr) :=
  match cmd.toNat with
  | 0x00 => some .fmove
  | 0x40 => some .fsmove
  | 0x44 => some .fdmove
  | 0x18 => some .fabs
  | 0x58 => some .fsabs
  | 0x5C => some .fdabs
  | 0x1A => some .fneg
  | 0x5A => some .fsneg
  | 0x5E => some .fdneg
  | 0x04 => some .fsqrt
  | 0x41 => some .fssqrt
  | 0x45 => some .fdsqrt
  | 0x22 => some .fadd
  | 0x62 => some .fsadd
  | 0x66 => some .fdadd
  | 0x28 => some .fsub
  | 0x68 => some .fssub
  | 0x6C => some .fdsub
  | 0x23 => some .fmul
  | 0x63 => some .fsmul
  | 0x67 => some .fdmul
  | 0x20 => some .fdiv
  | 0x60 => some .fsdiv
  | 0x64 => some .fddiv
  | 0x38 => some .fcmp
  | 0x3A => some .ftst
  | 0x01 => some .fint
  | 0x02 => some .fsinh
  | 0x03 => some .fintrz
  | 0x06 => some .flognp1
  | 0x08 => some .fetoxm1
  | 0x09 => some .ftanh
  | 0x0A => some .fatan
  | 0x0C => some .fasin
  | 0x0D => some .fatanh
  | 0x0E => some .fsin
  | 0x0F => some .ftan
  | 0x10 => some .fetox
  | 0x11 => some .ftwotox
  | 0x12 => some .ftentox
  | 0x14 => some .flogn
  | 0x15 => some .flog10
  | 0x16 => some .flog2
  | 0x19 => some .fcosh
  | 0x1C => some .facos
  | 0x1D => some .fcos
  | 0x1E => some .fgetexp
  | 0x1F => some .fgetman
  | 0x21 => some .fmod
  | 0x24 => some .fsgldiv
  | 0x25 => some .frem
  | 0x26 => some .fscale
  | 0x27 => some .fsglmul
  | _ => none

/-- The instruction of a CMD value, FSINCOS with its second destination in the low three bits (R130). -/
def cmdInstr (cmd : BitVec 7) : Option (FpSrc → RegNo → Instr) :=
  if cmd.extractLsb' 3 4 = 6 then some (fun s d => .fsincos s d (cmd.extractLsb' 0 3)) else cmdCtor cmd

/-- A general floating-point instruction with its command word (R123, R130). With opclass 000 the EA field is not used
(log entry 13). With opclass 011 bits 6:0 are given a meaning only as the k-factor of P; that any value of them is accepted and
ignored for another format, and of bits 3:0 for P with a dynamic k-factor, is the model's choice (log entry 62). -/
def decodeGeneral (w cw : Word) (ws : List Word) : Dec Instr :=
  let src := field cw 10 3
  let dst := field cw 7 3
  let cmd := field cw 0 7
  match (field cw 13 3).toNat with
  | 0 =>
    match cmdInstr cmd with
    | some mk => .ok (mk (.reg src) dst, ws)
    | none => .error .illegal
  | 2 =>
    match fmtOf src with
    | none => if w = 0xF200 then .ok (.fmovecr cmd dst, ws) else .error .illegal
    | some fmt =>
      match cmdInstr cmd with
      | some mk => withEa (.fpSource fmt) w (fmtImmWords fmt) (fun ea => mk (.ea fmt ea) dst) ws
      | none => .error .illegal
  | 3 => withEa (.fpDest (outFmtOf src)) w 0 (fun ea => .fmoveOut (outFmtOf src) dst cmd ea) ws
  | 4 =>
    if field cw 0 10 ≠ 0 then .error .illegal
    else withEa (.toCr src) w (2 * selCount src) (.fmoveToCr src) ws
  | 5 =>
    if field cw 0 10 ≠ 0 then .error .illegal
    else withEa (.fromCr src) w 0 (.fmoveFromCr src) ws
  | 6 =>
    if field cw 8 3 ≠ 0 then .error .illegal
    else withEa .controlOrPost w 0 (.fmovemLoad (cw.getLsbD 12) (cw.getLsbD 11) (field cw 0 8)) ws
  | 7 =>
    if field cw 8 3 ≠ 0 then .error .illegal
    else withEa .controlAlterableOrPre w 0 (.fmovemStore (cw.getLsbD 12) (cw.getLsbD 11) (field cw 0 8)) ws
  | _ => .error .illegal

/-- The predicate of a condition word `0000000000 pppppp`; codes $20 to $3F are not legal (R131). -/
def predOf (x : Word) : Option (BitVec 5) :=
  if field x 5 11 = 0 then some (field x 0 5) else none

/-- A conditional instruction whose predicate is in the next word (R122). -/
def withPred (mk : BitVec 5 → List Word → Dec Instr) (ws : List Word) : Dec Instr :=
  match takeWord ws with
  | .error e => .error e
  | .ok (x, ws) =>
    match predOf x with
    | some p => mk p ws
    | none => .error .illegal

/-- FDBcc, FTRAPcc and FScc (F-FDBCC, F-FTRAPCC, F-FSCC). -/
def decodeFpCond (w : Word) (ws : List Word) : Dec Instr :=
  if field w 3 3 = 1 then withPred (fun p ws => withWord (fun d => .ok (.fdbcc p (field w 0 3) d)) ws) ws
  else if w = 0xF27A then withPred (fun p ws => withWord (fun d => .ok (.ftrapccW p d)) ws) ws
  else if w = 0xF27B then withPred (fun p ws => withLong (fun d => .ftrapccL p d) ws) ws
  else if w = 0xF27C then withPred (fun p ws => .ok (.ftrapcc p, ws)) ws
  else match acceptedKind .dataAlterable w with
    | none => .error .illegal
    | some _ => withPred (fun p ws => withEa .dataAlterable w 0 (.fscc p) ws) ws

/-- Floating-point operation words, coprocessor ID 001 (R122, R128, R134). -/
def decodeFp (w : Word) (ws : List Word) : Dec Instr :=
  match (field w 6 3).toNat with
  | 0 =>
    match takeWord ws with
    | .error e => .error e
    | .ok (cw, ws) => decodeGeneral w cw ws
  | 1 => decodeFpCond w ws
  | 2 =>
    if w.getLsbD 5 then .error .illegal
    else withWord (fun d => .ok (if w = 0xF280 ∧ d = 0 then .fnop else .fbccW (field w 0 5) d)) ws
  | 3 =>
    if w.getLsbD 5 then .error .illegal
    else withLong (fun d => .fbccL (field w 0 5) d) ws
  | 4 => withEa .controlAlterableOrPre w 0 .fsave ws
  | 5 => withEa .controlOrPost w 0 .frestore ws
  | _ => .error .illegal

/-- The F-line instructions that are not floating-point: CINV, CPUSH, PFLUSH, PTEST, MOVE16 (R133), then the
floating-point ones. -/
def decodeLineF (w : Word) (ws : List Word) : Dec Instr :=
  if w &&& 0xFF20 = 0xF400 then
    if field w 3 2 = 0 then .error .illegal else .ok (.cinv (field w 6 2) (field w 3 2) (field w 0 3), ws)
  else if w &&& 0xFF20 = 0xF420 then
    if field w 3 2 = 0 then .error .illegal else .ok (.cpush (field w 6 2) (field w 3 2) (field w 0 3), ws)
  else if w &&& 0xFFE0 = 0xF500 then .ok (.pflush (field w 3 2) (field w 0 3), ws)
  else if w &&& 0xFFB8 = 0xF528 then .ok (.ptest (w.getLsbD 6) (field w 0 3), ws)
  else if w &&& 0xFFF8 = 0xF620 then
    withWord (fun x => if x &&& 0x8FFF = 0x8000 then .ok (.move16PostPost (field w 0 3) (field x 12 3)) else .error .illegal) ws
  else if w &&& 0xFFF8 = 0xF600 then withLong (fun a => .move16PostAbs (field w 0 3) a) ws
  else if w &&& 0xFFF8 = 0xF608 then withLong (fun a => .move16AbsPost a (field w 0 3)) ws
  else if w &&& 0xFFF8 = 0xF610 then withLong (fun a => .move16IndAbs (field w 0 3) a) ws
  else if w &&& 0xFFF8 = 0xF618 then withLong (fun a => .move16AbsInd a (field w 0 3)) ws
  else if w &&& 0xFE00 = 0xF200 then decodeFp w ws
  else .error .illegal

/-! ### The decoder -/

/-- The instruction at the head of a list of words, and the words after it. An F-line word that matches no legal
instruction is the table's last F-line row (R126, R173). -/
def decode (ws : List Word) : Dec Instr :=
  match ws with
  | [] => .error .more
  | w :: ws =>
    match (field w 12 4).toNat with
    | 0 => decodeLine0 w ws
    | 4 => decodeLine4 w ws
    | 5 => decodeLine5 w ws
    | 8 => decodeLine8 w ws
    | 10 => .ok (.aLine (field w 0 12), ws)
    | 15 =>
      match decodeLineF w ws with
      | .error .illegal => .ok (.fLine (field w 0 12), ws)
      | r => r
    | _ => .error .other

/-- Whether an operation word alone shows a privileged instruction (Table 9-3; 40_trap_instructions.md R174, 92 D36): in
user mode nothing after it is fetched (60_exceptions.md R431). -/
def privilegedWord (w : Word) : Bool :=
  w = 0x007C || w = 0x027C || w = 0x0A7C || w = 0x4E70 || w = 0x4E72 || w = 0x4E73 || w = 0x4E7A || w = 0x4E7B ||
  w &&& 0xFFF0 = 0x4E60 ||
  (w &&& 0xFF00 = 0x0E00 && field w 6 2 != 3 && (acceptedKind .memAlterable w).isSome) ||
  (w &&& 0xFFC0 = 0x46C0 && (acceptedKind .data w).isSome) ||
  (w &&& 0xFFC0 = 0x40C0 && (acceptedKind .dataAlterable w).isSome) ||
  (w &&& 0xFF00 = 0xF400 && field w 3 2 != 0) ||
  w &&& 0xFFE0 = 0xF500 || w &&& 0xFFB8 = 0xF528 ||
  (w &&& 0xFFC0 = 0xF300 && (acceptedKind .controlAlterableOrPre w).isSome) ||
  (w &&& 0xFFC0 = 0xF340 && (acceptedKind .controlOrPost w).isSome)

/-- The longest instruction, in words (R127). -/
def maxWords : Nat := 11

/-- The words of an instruction whose bits are `w` as spec/opcode_table.json numbers them: the first word is bits 15:0,
the second bits 31:16, and so on; every bit from `nbits` on is 0. -/
def tableWords (nbits w : Nat) : List Word :=
  (List.range maxWords).map fun k => BitVec.ofNat 16 ((w % 2 ^ nbits) / 2 ^ (16 * k))

/-- The bytes of a list of words as memory holds them (R85). -/
def bytesOfWords : List Word → List Byte
  | [] => []
  | w :: ws => field w 8 8 :: field w 0 8 :: bytesOfWords ws

/-- The instruction the decoder reads from the bytes of a table word. -/
def decodeTableWord (nbits w : Nat) : Option Instr :=
  match decode (wordsOfBytes (bytesOfWords (tableWords nbits w))) with
  | .ok (i, _) => some i
  | .error _ => none

/-! ### The encoder -/

/-- The `a rrr` bits of a register. -/
def regBits : Reg → BitVec 4
  | .d n => 0#1 ++ n
  | .a n => 1#1 ++ n

/-- The `zz` or outer-displacement code of a displacement. -/
def dispBits : Disp → BitVec 2
  | .none => 1
  | .word _ => 2
  | .long _ => 3

/-- The two words of a long word, the more significant first. -/
def longWords (a : Long) : List Word := [a.extractLsb' 16 16, a.extractLsb' 0 16]

/-- The words of a displacement. -/
def dispWords : Disp → List Word
  | .none => []
  | .word d => [d]
  | .long d => longWords d

/-- The `iii` bits of an indirection. -/
def indBits : Indirect → BitVec 3
  | .no => 0
  | .pre od => 0#1 ++ dispBits od
  | .post od => 1#1 ++ dispBits od

/-- The words of an indirection's outer displacement. -/
def indWords : Indirect → List Word
  | .no => []
  | .pre od | .post od => dispWords od

/-- The extension words of an indexed mode (R141). -/
def indexWords : IndexExt → List Word
  | .brief x d8 => [regBits x.reg ++ BitVec.ofBool x.long ++ x.scale ++ 0#1 ++ d8]
  | .full x bs is bd ind =>
    (regBits x.reg ++ BitVec.ofBool x.long ++ x.scale ++ 1#1 ++ BitVec.ofBool bs ++ BitVec.ofBool is ++ dispBits bd ++ 0#1
      ++ indBits ind) :: (dispWords bd ++ indWords ind)

/-- The mode and register bits of an effective address (R140). -/
def eaBits : Ea → BitVec 6
  | .dn r => 0#3 ++ r
  | .an r => 1#3 ++ r
  | .ind r => 2#3 ++ r
  | .postInc r => 3#3 ++ r
  | .preDec r => 4#3 ++ r
  | .disp r _ => 5#3 ++ r
  | .index r _ => 6#3 ++ r
  | .absW _ => 7#3 ++ 0#3
  | .absL _ => 7#3 ++ 1#3
  | .pcDisp _ => 7#3 ++ 2#3
  | .pcIndex _ => 7#3 ++ 3#3
  | .imm _ => 7#3 ++ 4#3

/-- The extension words of an effective address (R140). -/
def eaWords : Ea → List Word
  | .dn _ | .an _ | .ind _ | .postInc _ | .preDec _ => []
  | .disp _ d | .absW d | .pcDisp d => [d]
  | .absL a => longWords a
  | .index _ x | .pcIndex x => indexWords x
  | .imm ws => ws

/-- The size code 00 byte, 01 word, 10 long. -/
def sizeBits012 : Size → BitVec 2
  | .byte => 0 | .word => 1 | .long => 2

/-- The size code 01 byte, 10 word, 11 long. -/
def sizeBits123 : Size → BitVec 2
  | .byte => 1 | .word => 2 | .long => 3

/-- The code of a source format. -/
def fmtBits : FpFmt → BitVec 3
  | .l => 0 | .s => 1 | .x => 2 | .p => 3 | .w => 4 | .d => 5 | .b => 6

/-- The code of a destination format. -/
def outFmtBits : FpOutFmt → BitVec 3
  | .l => 0 | .s => 1 | .x => 2 | .pStatic => 3 | .w => 4 | .d => 5 | .b => 6 | .pDynamic => 7

/-- The command word of an arithmetic instruction (R123). -/
def commandWord (cmd : BitVec 7) (src : FpSrc) (dst : RegNo) : Word :=
  match src with
  | .reg m => 0#3 ++ m ++ dst ++ cmd
  | .ea fmt _ => 2#3 ++ fmtBits fmt ++ dst ++ cmd

/-- The words of an arithmetic or unimplemented instruction with a register destination (F-FGEN). -/
def encodeGeneral (cmd : BitVec 7) (src : FpSrc) (dst : RegNo) : List Word :=
  match src with
  | .reg _ => [0xF200, commandWord cmd src dst]
  | .ea _ ea => (0x3C8#10 ++ eaBits ea) :: commandWord cmd src dst :: eaWords ea

/-- The command word of FMOVE FPn,<ea> (R277). -/
def moveOutWord (fmt : FpOutFmt) (src : RegNo) (k : BitVec 7) : Word := 3#3 ++ outFmtBits fmt ++ src ++ k

/-- The condition word of a predicate (R128). -/
def predWord (p : BitVec 5) : Word := 0#11 ++ p

/-- The words of an instruction (R128 and spec/opcode_table.json). -/
def encode (i : Instr) : List Word :=
  match i with
  | .trap n => [0x4E4#12 ++ n]
  | .trapccW cc d => [5#4 ++ cc ++ 0xFA#8, d]
  | .trapccL cc d => (5#4 ++ cc ++ 0xFB#8) :: longWords d
  | .trapcc cc => [5#4 ++ cc ++ 0xFC#8]
  | .trapv => [0x4E76]
  | .chkW ea dn => (4#4 ++ dn ++ 6#3 ++ eaBits ea) :: eaWords ea
  | .chkL ea dn => (4#4 ++ dn ++ 4#3 ++ eaBits ea) :: eaWords ea
  | .chk2 sz ea rn => (0#5 ++ sizeBits012 sz ++ 3#3 ++ eaBits ea) :: (regBits rn ++ 0x800#12) :: eaWords ea
  | .divuW ea dn => (8#4 ++ dn ++ 3#3 ++ eaBits ea) :: eaWords ea
  | .divsW ea dn => (8#4 ++ dn ++ 7#3 ++ eaBits ea) :: eaWords ea
  | .divuL ea dq dr => (0x131#10 ++ eaBits ea) :: (0#1 ++ dq ++ 0#9 ++ dr) :: eaWords ea
  | .divuL64 ea dq dr => (0x131#10 ++ eaBits ea) :: (0#1 ++ dq ++ 0x80#9 ++ dr) :: eaWords ea
  | .divsL ea dq dr => (0x131#10 ++ eaBits ea) :: (0#1 ++ dq ++ 0x100#9 ++ dr) :: eaWords ea
  | .divsL64 ea dq dr => (0x131#10 ++ eaBits ea) :: (0#1 ++ dq ++ 0x180#9 ++ dr) :: eaWords ea
  | .bkpt n => [0x909#13 ++ n]
  | .illegal => [0x4AFC]
  | .aLine w => [10#4 ++ w]
  | .fLine w => [15#4 ++ w]
  | .rte => [0x4E73]
  | .stop imm => [0x4E72, imm]
  | .reset => [0x4E70]
  | .nop => [0x4E71]
  | .oriSr imm => [0x007C, imm]
  | .andiSr imm => [0x027C, imm]
  | .eoriSr imm => [0x0A7C, imm]
  | .moveToSr ea => (0x11B#10 ++ eaBits ea) :: eaWords ea
  | .moveFromSr ea => (0x103#10 ++ eaBits ea) :: eaWords ea
  | .moveToUsp an => [0x9CC#13 ++ an]
  | .moveFromUsp an => [0x9CD#13 ++ an]
  | .movecFrom rc rn => [0x4E7A, regBits rn ++ rc]
  | .movecTo rc rn => [0x4E7B, regBits rn ++ rc]
  | .movesLoad sz ea rn => (0x0E#8 ++ sizeBits012 sz ++ eaBits ea) :: (regBits rn ++ 0#12) :: eaWords ea
  | .movesStore sz rn ea => (0x0E#8 ++ sizeBits012 sz ++ eaBits ea) :: (regBits rn ++ 0x800#12) :: eaWords ea
  | .cinv kk ss an => [0xF4#8 ++ kk ++ 0#1 ++ ss ++ an]
  | .cpush kk ss an => [0xF4#8 ++ kk ++ 1#1 ++ ss ++ an]
  | .pflush op an => [0x7A8#11 ++ op ++ an]
  | .ptest rd an => [0x1EA#9 ++ BitVec.ofBool rd ++ 5#3 ++ an]
  | .movemStore l mask ea => (0x91#9 ++ BitVec.ofBool l ++ eaBits ea) :: mask :: eaWords ea
  | .movemLoad l mask ea => (0x99#9 ++ BitVec.ofBool l ++ eaBits ea) :: mask :: eaWords ea
  | .move16PostPost ax ay => [0x1EC4#13 ++ ax, 1#1 ++ ay ++ 0#12]
  | .move16PostAbs ay a => (0x1EC0#13 ++ ay) :: longWords a
  | .move16AbsPost a ay => (0x1EC1#13 ++ ay) :: longWords a
  | .move16IndAbs ay a => (0x1EC2#13 ++ ay) :: longWords a
  | .move16AbsInd a ay => (0x1EC3#13 ++ ay) :: longWords a
  | .tas ea => (0x12B#10 ++ eaBits ea) :: eaWords ea
  | .cas sz dc du ea => (1#5 ++ sizeBits123 sz ++ 3#3 ++ eaBits ea) :: (0#7 ++ du ++ 0#3 ++ dc) :: eaWords ea
  | .cas2 l rn1 dc1 du1 rn2 dc2 du2 =>
    [if l then 0x0EFC else 0x0CFC, regBits rn1 ++ 0#3 ++ du1 ++ 0#3 ++ dc1, regBits rn2 ++ 0#3 ++ du2 ++ 0#3 ++ dc2]
  | .fmove src dst => encodeGeneral 0x00 src dst
  | .fsmove src dst => encodeGeneral 0x40 src dst
  | .fdmove src dst => encodeGeneral 0x44 src dst
  | .fabs src dst => encodeGeneral 0x18 src dst
  | .fsabs src dst => encodeGeneral 0x58 src dst
  | .fdabs src dst => encodeGeneral 0x5C src dst
  | .fneg src dst => encodeGeneral 0x1A src dst
  | .fsneg src dst => encodeGeneral 0x5A src dst
  | .fdneg src dst => encodeGeneral 0x5E src dst
  | .fsqrt src dst => encodeGeneral 0x04 src dst
  | .fssqrt src dst => encodeGeneral 0x41 src dst
  | .fdsqrt src dst => encodeGeneral 0x45 src dst
  | .fadd src dst => encodeGeneral 0x22 src dst
  | .fsadd src dst => encodeGeneral 0x62 src dst
  | .fdadd src dst => encodeGeneral 0x66 src dst
  | .fsub src dst => encodeGeneral 0x28 src dst
  | .fssub src dst => encodeGeneral 0x68 src dst
  | .fdsub src dst => encodeGeneral 0x6C src dst
  | .fmul src dst => encodeGeneral 0x23 src dst
  | .fsmul src dst => encodeGeneral 0x63 src dst
  | .fdmul src dst => encodeGeneral 0x67 src dst
  | .fdiv src dst => encodeGeneral 0x20 src dst
  | .fsdiv src dst => encodeGeneral 0x60 src dst
  | .fddiv src dst => encodeGeneral 0x64 src dst
  | .fcmp src dst => encodeGeneral 0x38 src dst
  | .ftst src dst => encodeGeneral 0x3A src dst
  | .fint src dst => encodeGeneral 0x01 src dst
  | .fsinh src dst => encodeGeneral 0x02 src dst
  | .fintrz src dst => encodeGeneral 0x03 src dst
  | .flognp1 src dst => encodeGeneral 0x06 src dst
  | .fetoxm1 src dst => encodeGeneral 0x08 src dst
  | .ftanh src dst => encodeGeneral 0x09 src dst
  | .fatan src dst => encodeGeneral 0x0A src dst
  | .fasin src dst => encodeGeneral 0x0C src dst
  | .fatanh src dst => encodeGeneral 0x0D src dst
  | .fsin src dst => encodeGeneral 0x0E src dst
  | .ftan src dst => encodeGeneral 0x0F src dst
  | .fetox src dst => encodeGeneral 0x10 src dst
  | .ftwotox src dst => encodeGeneral 0x11 src dst
  | .ftentox src dst => encodeGeneral 0x12 src dst
  | .flogn src dst => encodeGeneral 0x14 src dst
  | .flog10 src dst => encodeGeneral 0x15 src dst
  | .flog2 src dst => encodeGeneral 0x16 src dst
  | .fcosh src dst => encodeGeneral 0x19 src dst
  | .facos src dst => encodeGeneral 0x1C src dst
  | .fcos src dst => encodeGeneral 0x1D src dst
  | .fgetexp src dst => encodeGeneral 0x1E src dst
  | .fgetman src dst => encodeGeneral 0x1F src dst
  | .fmod src dst => encodeGeneral 0x21 src dst
  | .fsgldiv src dst => encodeGeneral 0x24 src dst
  | .frem src dst => encodeGeneral 0x25 src dst
  | .fscale src dst => encodeGeneral 0x26 src dst
  | .fsglmul src dst => encodeGeneral 0x27 src dst
  | .fsincos src dst c => encodeGeneral (6#4 ++ c) src dst
  | .fmovecr ofs dst => [0xF200, 0x17#6 ++ dst ++ ofs]
  | .fmoveOut fmt src k ea => (0x3C8#10 ++ eaBits ea) :: moveOutWord fmt src k :: eaWords ea
  | .fmoveToCr sel ea => (0x3C8#10 ++ eaBits ea) :: (4#3 ++ sel ++ 0#10) :: eaWords ea
  | .fmoveFromCr sel ea => (0x3C8#10 ++ eaBits ea) :: (5#3 ++ sel ++ 0#10) :: eaWords ea
  | .fmovemLoad ctl dyn list ea =>
    (0x3C8#10 ++ eaBits ea) :: (6#3 ++ BitVec.ofBool ctl ++ BitVec.ofBool dyn ++ 0#3 ++ list) :: eaWords ea
  | .fmovemStore ctl dyn list ea =>
    (0x3C8#10 ++ eaBits ea) :: (7#3 ++ BitVec.ofBool ctl ++ BitVec.ofBool dyn ++ 0#3 ++ list) :: eaWords ea
  | .fbccW p d => [0x3CA#10 ++ 0#1 ++ p, d]
  | .fbccL p d => (0x3CB#10 ++ 0#1 ++ p) :: longWords d
  | .fnop => [0xF280, 0]
  | .fscc p ea => (0x3C9#10 ++ eaBits ea) :: predWord p :: eaWords ea
  | .fdbcc p dn d => [0x1E49#13 ++ dn, predWord p, d]
  | .ftrapccW p d => [0xF27A, predWord p, d]
  | .ftrapccL p d => 0xF27B :: predWord p :: longWords d
  | .ftrapcc p => [0xF27C, predWord p]
  | .fsave ea => (0x3CC#10 ++ eaBits ea) :: eaWords ea
  | .frestore ea => (0x3CD#10 ++ eaBits ea) :: eaWords ea

end Sys2Proof
end

