-- ==== Sys2Proof/Config.lean ====
section
/-!
DEFINITION. What the implementation or the platform fixes: the open parameters of 92_eei_decisions.md section 2 and the
free values (log entry 4). An `opaque` constant here has no body: no proof can see what it is, so a theorem about the
model holds for every value it could have. A parameter that the spec constrains is an opaque constant put through a
function that gives every allowed value and no other.
-/
namespace Sys2Proof.Config

/-! ### Free values, indexed by `State.freeCount` (log entry 4) -/

/-- A free bit. -/
opaque freeBit : Nat → Bool
/-- A free byte. -/
opaque freeByte : Nat → Byte
/-- A free word. -/
opaque freeWord : Nat → Word
/-- A free long word. -/
opaque freeLong : Nat → Long
/-- A free 64-bit value. -/
opaque freeQuad : Nat → BitVec 64
/-- A free 67-bit mantissa (WBTM). -/
opaque freeWbtm : Nat → BitVec 67
/-- A free byte of a run of bytes that starts at an index: the bytes of a frame that no field covers. -/
opaque freeFrameByte : Nat → Nat → Byte

/-- A free extended-precision value. -/
def freeReal (n : Nat) : FpReal :=
  { sign := freeBit n, exp := (freeWord n).setWidth 15, man := freeQuad n }

/-- A free WBTEMP. -/
def freeWbTemp (n : Nat) : WbTemp :=
  { wbts := freeBit n, wbte := freeWord n, wbtm := freeWbtm n, sbit := freeBit (n + 1) }

/-! ### Address translation (20_memory.md R96, R213; 92 D3; log entry 6) -/

/-- The registers that translation may depend on (92 D3). -/
structure TransRegs where
  tc : Word
  urp : Long
  srp : Long
  itt0 : Long
  itt1 : Long
  dtt0 : Long
  dtt1 : Long
  deriving DecidableEq, Repr, Inhabited

/-- `Translate` with translation enabled: a physical address, or none for an ATC fault. It may depend on the translation
registers and on memory, and is given the transfer modifier, whether the access is a write, whether it is locked, and
the logical address. -/
opaque translate : TransRegs → List (Nat × Byte) → BitVec 3 → Bool → Bool → Long → Option Long

/-- What `Translate` answers before the first PFLUSH after a reset (70_reset_and_hazards.md R611): a free answer, indexed by
`State.freeCount` (log entry 59). -/
opaque staleTranslation : Nat → Option Long

/-- `TranslateStatus`: what PTEST reports into MMUSR (41_system_instructions.md R213). -/
opaque translateStatus : TransRegs → List (Nat × Byte) → BitVec 3 → Bool → Long → Long

/-! ### The floating-point unit's parameters (log entries 33, 34) -/

/-- Any byte, from which the version number is made. -/
opaque fpuVersionRaw : Byte
/-- `FPU_VERSION`: 8 bits, nonzero (92 D22). -/
def fpuVersion : Byte := if fpuVersionRaw = 0 then 1 else fpuVersionRaw

/-- `CU_SAVEPC_CONTINUE` (43_fp_exceptions.md R309). -/
opaque cuSavepcContinue : Word

/-- Any number, from which the null frame's size is made. -/
opaque nullFrameRaw : Nat
/-- `NULL_FRAME_BYTES`: a multiple of 4, at least 4, with a size byte that can hold what follows the first long word
(92 D34). -/
def nullFrameBytes : Nat := 4 * (nullFrameRaw % 64 + 1)

/-- Any number, from which the idle frame's size is made. -/
opaque idleSizeRaw : Nat
/-- `UNIMP_SIZE` (42_fp_instructions.md R282). -/
def unimpSize : Nat := 0x28
/-- `BUSY_SIZE` (R282). -/
def busySize : Nat := 0x60
/-- `IDLE_SIZE`: a multiple of 4 that a size byte can hold, other than the two sizes the source gives, so that the size
byte tells the kinds apart (92 D34; DEDUCED, log entry 34). -/
def idleSize : Nat :=
  let n := 4 * (idleSizeRaw % 64)
  if n = unimpSize ∨ n = busySize then 0 else n

/-! The position of the fields in the busy and the unimplemented frame (R282; 92 D34). -/

/-- The fields of a state frame (42_fp_instructions.md R283-R291). -/
inductive FpuField where
  | cmdreg1b | cmdreg3b | cuSavepc | e1 | e3 | t | stag | dtag | fpiarcu
  | ets | ete | etm | fpts | fpte | fptm
  | wbts | wbte15 | wbte | wbtm66 | wbtm | wbtm1 | wbtm0 | sbit
  deriving DecidableEq, Repr, Inhabited

/-- The width of a field in bits. -/
def FpuField.width : FpuField → Nat
  | .cmdreg1b => 16 | .cmdreg3b => 11 | .cuSavepc => 16 | .e1 => 1 | .e3 => 1 | .t => 1 | .stag => 3 | .dtag => 3
  | .fpiarcu => 32 | .ets => 1 | .ete => 15 | .etm => 64 | .fpts => 1 | .fpte => 15 | .fptm => 64
  | .wbts => 1 | .wbte15 => 1 | .wbte => 15 | .wbtm66 => 1 | .wbtm => 64 | .wbtm1 => 1 | .wbtm0 => 1 | .sbit => 1

/-- The fields of the unimplemented frame (R282). -/
def unimpFields : List FpuField :=
  [.cmdreg1b, .ets, .ete, .etm, .stag, .fpts, .fpte, .fptm, .dtag, .e1, .fpiarcu]

/-- The fields of the busy frame: all of R283-R291. -/
def busyFields : List FpuField :=
  unimpFields ++ [.cmdreg3b, .cuSavepc, .e3, .t, .wbts, .wbte15, .wbte, .wbtm66, .wbtm, .wbtm1, .wbtm0, .sbit]

/-- Whether positions, counted in bits from the byte after the first long word, put the fields inside `size` bytes
without overlap. -/
def layoutOk (fields : List FpuField) (size : Nat) (pos : FpuField → Nat) : Bool :=
  fields.all (fun f => pos f + f.width ≤ 8 * size) &&
  decide (fields.Pairwise fun f g => pos f + f.width ≤ pos g ∨ pos g + g.width ≤ pos f)

/-- The positions of fields laid out one after the other from bit `start`. -/
def packFrom (start : Nat) : List FpuField → FpuField → Nat
  | [], _ => start
  | g :: gs, f => if f = g then start else packFrom (start + g.width) gs f

/-- Any positions in the unimplemented frame. -/
opaque unimpLayoutRaw : FpuField → Nat
/-- Any positions in the busy frame. -/
opaque busyLayoutRaw : FpuField → Nat

/-- `frame_layout` of the unimplemented frame: the raw positions where they are allowed, else the fields in a row. -/
def unimpLayout (f : FpuField) : Nat :=
  if layoutOk unimpFields unimpSize unimpLayoutRaw then unimpLayoutRaw f else packFrom 0 unimpFields f

/-- `frame_layout` of the busy frame. -/
def busyLayout (f : FpuField) : Nat :=
  if layoutOk busyFields busySize busyLayoutRaw then busyLayoutRaw f else packFrom 0 busyFields f

/-- Any mapping of command bits, from which `cmd3b` is made. -/
opaque cmd3bRaw : BitVec 7 → BitVec 7
/-- Whether a mapping of command bits is injective and sends $05 to $21 (30_encoding.md R124). -/
def cmd3bOk (f : BitVec 7 → BitVec 7) : Bool :=
  f 0x05 == 0x21 && decide (∀ x y, f x = f y → x = y)
/-- `cmd3b` (92 D24): the raw mapping where it is allowed, else one mapping that is. -/
def cmd3b (x : BitVec 7) : BitVec 7 := if cmd3bOk cmd3bRaw then cmd3bRaw x else x ^^^ 0x24

/-- `TTR_MASK` (41_system_instructions.md R207). -/
opaque ttrMask : Long
/-- `RP_MASK` (R207). -/
opaque rpMask : Long

/-- Where in WBTEMP the rounded integer of a move to B, W or L sits is not stated (R291; log entry 31). -/
opaque packInteger : Int → WbTemp

end Sys2Proof.Config
end

