-- ==== Sys2Proof/Machine/State.lean ====
section
/-!
DEFINITION. The machine's state: every piece of architectural state the spec names (10_state.md), the environment's moves
as data, and the state after reset (R65). Plain data only.
-/
namespace Sys2Proof.Machine

/-- The integer registers and the three stack pointers (R20, R21). A7 has no storage of its own: it names one of the three
(R25). -/
structure Regs where
  d : Bank Long
  a0 : Long
  a1 : Long
  a2 : Long
  a3 : Long
  a4 : Long
  a5 : Long
  a6 : Long
  usp : Long
  msp : Long
  isp : Long
  deriving DecidableEq, Repr, Inhabited

/-- The control registers (R26-R32). -/
structure Ctl where
  vbr : Long
  cacr : Long
  tc : Word
  itt0 : Long
  itt1 : Long
  dtt0 : Long
  dtt1 : Long
  urp : Long
  srp : Long
  mmusr : Long
  sfc : BitVec 3
  dfc : BitVec 3
  deriving DecidableEq, Repr, Inhabited

/-- The floating-point registers of the programming model (R34-R37). -/
structure FpRegs where
  fp : Bank FpReal
  fpcr : Long
  fpsr : Long
  fpiar : Long
  deriving DecidableEq, Repr, Inhabited

/-- The mode of the floating-point unit (R38). Busy is 'an exception is pending' and is read off `Fpu.pending` (log entry
28). -/
inductive FpuMode where
  | null | idle | unimp
  deriving DecidableEq, Repr, Inhabited

/-- The unit that detected an exception (R287). -/
inductive FpUnit where
  | e1 | e3
  deriving DecidableEq, Repr, Inhabited

/-- A posted floating-point exception: its vector (49 to 55), its unit, and whether it was reported as a post-instruction
exception (R38). -/
structure Pending where
  vector : Byte
  unit : FpUnit
  post : Bool
  deriving DecidableEq, Repr, Inhabited

/-- The internal floating-point state that FSAVE exposes (R38). -/
structure Fpu where
  mode : FpuMode
  pending : Option Pending
  cmdreg1b : Word
  cmdreg3b : BitVec 11
  cuSavepc : Word
  e1 : Bool
  e3 : Bool
  t : Bool
  etemp : FpReal
  fptemp : FpReal
  stag : BitVec 3
  dtag : BitVec 3
  fpiarcu : Long
  wbtemp : WbTemp
  deriving DecidableEq, Repr, Inhabited

/-- The run state of the processor (R39). -/
inductive RunState where
  | running | stopped | halted | inReset
  deriving DecidableEq, Repr, Inhabited

/-- Interrupt recognition state (R40): the level of the last sample, the one before it, the pending interrupt, and the
remembered transition to level 7. -/
structure Irq where
  ipl : BitVec 3
  iplPrev : BitVec 3
  pending : Option (BitVec 3)
  nmiLatch : Bool
  deriving DecidableEq, Repr, Inhabited

/-- What a device answers to an interrupt acknowledge cycle (60_exceptions.md R444). -/
inductive IackAnswer where
  | vector (n : Byte)
  | avec
  | tea
  deriving DecidableEq, Repr, Inhabited

/-- A range of physical addresses that the platform answers with TEA (92 D4; log entry 7): which transfer types and
modifiers (none for all), and whether for reads or for writes. -/
structure TeaRule where
  lo : Long
  hi : Long
  tt : Option (BitVec 2)
  tm : Option (BitVec 3)
  reads : Bool
  writes : Bool
  deriving DecidableEq, Repr, Inhabited

/-- The environment's move at one bus transfer of the processor (20_memory.md R86, R98, R100; 92 D4, D6; log entry 60). -/
structure BusInput where
  /-- writes that other bus masters make before the transfer -/
  writes : List (Long × Byte)
  /-- the transfer ends in TEA, whatever the ranges in force say -/
  tea : Bool
  deriving DecidableEq, Repr, Inhabited

/-- The environment's moves at one instruction boundary (00_scope.md R12; log entry 8). -/
structure BoundaryInput where
  /-- RSTI asserted -/
  rsti : Bool
  /-- the debounced interrupt request level -/
  ipl : BitVec 3
  /-- what the device answers if its interrupt is acknowledged at this boundary -/
  iack : IackAnswer
  /-- writes that another bus master makes before this boundary -/
  writes : List (Long × Byte)
  /-- a new set of TEA ranges, if it changes -/
  tea : Option (List TeaRule)
  deriving DecidableEq, Repr, Inhabited

/-- An event the processor emits (R170, R204, R210-R212, R444; log entry 9). -/
inductive Output where
  | breakpointAcknowledge (n : BitVec 3)
  | interruptAcknowledge (level : BitVec 3)
  | resetOut
  | cacheInvalidate (caches scope : BitVec 2) (addr : Long)
  | cachePush (caches scope : BitVec 2) (addr : Long)
  | atcFlush (op : BitVec 2) (addr : Long) (dfc : BitVec 3)
  deriving DecidableEq, Repr, Inhabited

/-- The environment as data: its moves still to come at instruction boundaries and at bus transfers, the TEA ranges in force,
the events so far, newest first. -/
structure Env where
  inputs : List BoundaryInput
  bus : List BusInput
  tea : List TeaRule
  outputs : List Output
  deriving DecidableEq, Repr, Inhabited

/-- The whole machine. -/
structure State where
  regs : Regs
  ctl : Ctl
  fp : FpRegs
  fpu : Fpu
  irq : Irq
  env : Env
  pc : Long
  sr : Word
  run : RunState
  /-- a trace exception is due at the end of the instruction just executed (R41) -/
  tracePending : Bool
  /-- the address that a restarted MOVEM uses (41_system_instructions.md R201, R220) -/
  movemRestart : Option Long
  /-- memory: the bytes that are not 0, by rising address (20_memory.md R80; log entry 3) -/
  mem : List Host.Cell
  /-- the bytes that this processor has written and that have not had a CPUSH, a CINV and a change of flow since, each with
  which of these it has had, in the form of memory (20_memory.md R103; log entry 58) -/
  modified : List Host.Cell
  /-- a PFLUSH has come since the last reset (41_system_instructions.md R212, 70_reset_and_hazards.md R611; log entry 59) -/
  atcFlushed : Bool
  /-- the number of free values drawn so far (log entry 4) -/
  freeCount : Nat
  deriving DecidableEq, Repr, Inhabited

/-- Why the machine stops where the spec names no exception. -/
inductive Fault where
  /-- Raised by RTE alone: a chain of throwaway frames (format $1) so long that it has come back to a stack pointer it
  has read before, so that R200's loop never ends. Safe: the hardware never completes this RTE either (log entry 23). -/
  | rteNeverEnds
  deriving DecidableEq, Repr, Inhabited

/-- Why the model has no step, where the spec itself says `refuse`. -/
inductive Refusal where
  /-- Raised by an arm of `exec` whose instruction has no meaning yet. Safe: nothing is claimed of it. -/
  | notModelled (mnemonic : String)
  /-- Raised by `step` before an instruction that begins with T1 = T0 = 1: 93 U1, "Undefined, Reserved", treatment
  `refuse`. Safe: the model claims nothing of such a program (log entry 14). -/
  | reservedTraceMode
  /-- Raised when a result must be rounded and FPCR.PREC = 11: 93 U12, treatment `refuse`. Safe (log entry 15). -/
  | undefinedPrecision
  /-- Raised by RTE from a format $7 frame with CP and CU, or CM and another bit: 93 U17, "operation of the RTE
  instruction is undefined", treatment `refuse`. Safe (log entry 16). -/
  | undefinedContinuation
  /-- Raised by the fetch of an instruction word that this processor has written, with no CPUSH, CINV and change of flow since:
  92 D8, treatment `refuse` (20_memory.md R103, 70_reset_and_hazards.md R624). Safe (log entries 17, 58). -/
  | modifiedCode
  deriving DecidableEq, Repr, Inhabited

/-- The state after reset: every value R65 states, and for the registers it leaves 'unspecified' the value that log
entries 1 and 2 name. -/
def State.reset : State :=
  { regs := { d := Bank.fill 0, a0 := 0, a1 := 0, a2 := 0, a3 := 0, a4 := 0, a5 := 0, a6 := 0, usp := 0, msp := 0, isp := 0 }
    ctl := { vbr := 0, cacr := 0, tc := 0x4000, itt0 := 0, itt1 := 0, dtt0 := 0, dtt1 := 0, urp := 0, srp := 0,
             mmusr := 0, sfc := 0, dfc := 0 }
    fp := { fp := Bank.fill ⟨false, 0, 0⟩, fpcr := 0, fpsr := 0, fpiar := 0 }
    fpu := { mode := .null, pending := none, cmdreg1b := 0, cmdreg3b := 0, cuSavepc := 0, e1 := false, e3 := false,
             t := false, etemp := ⟨false, 0, 0⟩, fptemp := ⟨false, 0, 0⟩, stag := 0, dtag := 0, fpiarcu := 0,
             wbtemp := ⟨false, 0, 0, false⟩ }
    irq := { ipl := 0, iplPrev := 0, pending := none, nmiLatch := false }
    env := { inputs := [], bus := [], tea := [], outputs := [] }
    pc := 0
    sr := 0x2700
    run := .running
    tracePending := false
    movemRestart := none
    mem := []
    modified := []
    atcFlushed := false
    freeCount := 0 }

end Sys2Proof.Machine
end

