-- ==== Sys2Proof/Machine/Ops.lean ====
section
/-!
DEFINITION. The named operations: memory as a canonical list (20_memory.md), registers and the active stack pointer
(10_state.md R25), bus accesses with translation and TEA (20_memory.md R96, R98), free values, and taking an exception
(60_exceptions.md R400, R405, R411, R460, R461; 61_access_fault_recovery.md R500, R520, R521).
-/
namespace Sys2Proof.Machine

/-! ### Memory as a list of cells (20_memory.md R80; log entry 3) -/

/-- The byte at an address; an address with no cell reads as 0 (log entry 3). -/
def Memory.read : List Host.Cell → Nat → Byte
  | [], _ => 0
  | c :: cs, a => if a = c.1 then c.2 else if a < c.1 then 0 else Memory.read cs a

/-- A cell put in front, unless its byte is the one an unlisted address reads as. -/
def Memory.cons (a : Nat) (b : Byte) (m : List Host.Cell) : List Host.Cell :=
  if b = 0 then m else (a, b) :: m

/-- Memory with one byte written. -/
def Memory.write : List Host.Cell → Nat → Byte → List Host.Cell
  | [], a, b => Memory.cons a b []
  | c :: cs, a, b =>
    if a = c.1 then Memory.cons a b cs
    else if a < c.1 then Memory.cons a b (c :: cs)
    else c :: Memory.write cs a b

/-- The canonical form: addresses of 32 bits strictly rising, no byte that is 0. -/
abbrev Memory.wf (m : List Host.Cell) : Prop :=
  m.Pairwise (fun c c' => c.1 < c'.1) ∧ ∀ c ∈ m, c.1 < 2 ^ 32 ∧ c.2 ≠ 0

/-- Memory with a list of bytes written at physical addresses, in order. -/
def Memory.writes (m : List Host.Cell) : List (Long × Byte) → List Host.Cell
  | [] => m
  | w :: ws => Memory.writes (Memory.write m w.1.toNat w.2) ws

/-- Memory with a function of its address applied to every listed byte. -/
def Memory.mapBytes (f : Nat → Byte → Byte) : List Host.Cell → List Host.Cell
  | [] => []
  | c :: cs => Memory.cons c.1 (f c.1 c.2) (Memory.mapBytes f cs)

/-! ### Bytes and values (20_memory.md R85) -/

/-- The big-endian value of a list of bytes. -/
def valueOfBytes : List Byte → Nat
  | [] => 0
  | b :: bs => b.toNat * 256 ^ bs.length + valueOfBytes bs

/-- The low `n` bytes of a value, most significant first. -/
def bytesOfValue : Nat → Nat → List Byte
  | 0, _ => []
  | n + 1, v => BitVec.ofNat 8 (v / 256 ^ n) :: bytesOfValue n v

/-- A value of an operand size, sign-extended to 32 bits. -/
def sextLong (sz : Size) (v : Long) : Long :=
  match sz with
  | .byte => (v.setWidth 8).signExtend 32
  | .word => (v.setWidth 16).signExtend 32
  | .long => v

/-- The low bits of a long word that an operand size keeps. -/
def zextLong (sz : Size) (v : Long) : Long :=
  match sz with
  | .byte => (v.setWidth 8).setWidth 32
  | .word => (v.setWidth 16).setWidth 32
  | .long => v

/-- A long word whose low bits are replaced by those of another. -/
def mergeLow (sz : Size) (old new : Long) : Long :=
  match sz with
  | .byte => old.extractLsb' 8 24 ++ new.setWidth 8
  | .word => old.extractLsb' 16 16 ++ new.setWidth 16
  | .long => new

/-! ### The status register (10_state.md R23) -/

/-- The bits of SR that exist (92 D20). -/
def srMask : Word := 0xF71F
/-- SR.S. -/
def srS (sr : Word) : Bool := sr.getLsbD 13
/-- SR.M. -/
def srM (sr : Word) : Bool := sr.getLsbD 12
/-- SR.T1. -/
def srT1 (sr : Word) : Bool := sr.getLsbD 15
/-- SR.T0. -/
def srT0 (sr : Word) : Bool := sr.getLsbD 14
/-- SR.I2:I0. -/
def srI (sr : Word) : BitVec 3 := sr.extractLsb' 8 3

/-- A write of SR: the bits that do not exist are dropped (92 D20). -/
def State.writeSr (v : Word) (s : State) : State := { s with sr := v &&& srMask }

/-- Step 1 of exception processing on SR: S set, T1 and T0 cleared (60_exceptions.md R400, R401). -/
def enterSupervisor (sr : Word) : Word := (sr ||| 0x2000) &&& 0x3FFF

/-! ### Registers -/

/-- The three stack pointers (10_state.md R21). -/
inductive StackSel where
  | usp | msp | isp
  deriving DecidableEq, Repr, Inhabited

/-- The stack pointer that A7 names (10_state.md R25). -/
def activeStack (sr : Word) : StackSel :=
  if srS sr then (if srM sr then .msp else .isp) else .usp

/-- One of the three stack pointers. -/
def State.getStack (k : StackSel) (s : State) : Long :=
  match k with
  | .usp => s.regs.usp | .msp => s.regs.msp | .isp => s.regs.isp

/-- A write of one of the three stack pointers. -/
def State.setStack (k : StackSel) (v : Long) (s : State) : State :=
  match k with
  | .usp => { s with regs := { s.regs with usp := v } }
  | .msp => { s with regs := { s.regs with msp := v } }
  | .isp => { s with regs := { s.regs with isp := v } }

/-- The active stack pointer (10_state.md R25). -/
def State.sp (s : State) : Long := s.getStack (activeStack s.sr)

/-- A write of the active stack pointer. -/
def State.setSp (v : Long) (s : State) : State := s.setStack (activeStack s.sr) v

/-- Data register `n`. -/
def State.getD (n : RegNo) (s : State) : Long := s.regs.d.get n

/-- A write of data register `n`. -/
def State.setD (n : RegNo) (v : Long) (s : State) : State :=
  { s with regs := { s.regs with d := s.regs.d.set n v } }

/-- A write of the low bits of data register `n`. -/
def State.setDLow (sz : Size) (n : RegNo) (v : Long) (s : State) : State :=
  s.setD n (mergeLow sz (s.getD n) v)

/-- Address register `n`; A7 is the active stack pointer. -/
def State.getA (n : RegNo) (s : State) : Long :=
  match n.toNat with
  | 0 => s.regs.a0 | 1 => s.regs.a1 | 2 => s.regs.a2 | 3 => s.regs.a3
  | 4 => s.regs.a4 | 5 => s.regs.a5 | 6 => s.regs.a6 | _ => s.sp

/-- A write of address register `n`. -/
def State.setA (n : RegNo) (v : Long) (s : State) : State :=
  match n.toNat with
  | 0 => { s with regs := { s.regs with a0 := v } }
  | 1 => { s with regs := { s.regs with a1 := v } }
  | 2 => { s with regs := { s.regs with a2 := v } }
  | 3 => { s with regs := { s.regs with a3 := v } }
  | 4 => { s with regs := { s.regs with a4 := v } }
  | 5 => { s with regs := { s.regs with a5 := v } }
  | 6 => { s with regs := { s.regs with a6 := v } }
  | _ => s.setSp v

/-- A general register. -/
def State.getR (r : Reg) (s : State) : Long :=
  match r with
  | .d n => s.getD n
  | .a n => s.getA n

/-- A write of all 32 bits of a general register. -/
def State.setR (r : Reg) (v : Long) (s : State) : State :=
  match r with
  | .d n => s.setD n v
  | .a n => s.setA n v

/-- A floating-point data register. -/
def State.getFp (n : RegNo) (s : State) : FpReal := s.fp.fp.get n

/-- A write of a floating-point data register. -/
def State.setFp (n : RegNo) (v : FpReal) (s : State) : State :=
  { s with fp := { s.fp with fp := s.fp.fp.set n v } }

/-- An event emitted (log entry 9). -/
def State.emit (o : Output) (s : State) : State :=
  { s with env := { s.env with outputs := o :: s.env.outputs } }

/-! ### Bus accesses (20_memory.md R81, R82, R86, R89, R96, R98) -/

/-- The transfer modifier of data accesses (R82). -/
def tmData (sr : Word) : BitVec 3 := if srS sr then 5 else 1
/-- The transfer modifier of instruction fetches (R82). -/
def tmInstr (sr : Word) : BitVec 3 := if srS sr then 6 else 2

/-- The size of an access (R89). -/
inductive TSize where
  | byte | word | long | line
  deriving DecidableEq, Repr, Inhabited

/-- The access size of an operand size. -/
def TSize.ofSize : Size → TSize
  | .byte => .byte | .word => .word | .long => .long

/-- Its number of bytes. -/
def TSize.bytes : TSize → Nat
  | .byte => 1 | .word => 2 | .long => 4 | .line => 16

/-- The SIZE code of SSW and WBnS (R89). -/
def TSize.code : TSize → BitVec 2
  | .long => 0 | .byte => 1 | .word => 2 | .line => 3

/-- One access of the processor, as R520 records it. -/
structure Access where
  addr : Long
  size : TSize
  tt : BitVec 2
  tm : BitVec 3
  write : Bool
  locked : Bool
  deriving DecidableEq, Repr, Inhabited

/-- What a faulted access leaves in the write-back slots (R521). -/
inductive WriteBack where
  | none
  /-- WB1D of a faulted write of one, two or four bytes, memory-aligned -/
  | one (data : Long)
  /-- PD0 to PD3 of a faulted MOVE16 write -/
  | line (pd0 pd1 pd2 pd3 : Long)
  deriving DecidableEq, Repr, Inhabited

/-- The continuation a frame carries (R506-R509): none, or one of CM, CT, CU, CP with its EA field. -/
inductive Continuation where
  | none
  | cm (ea : Long)
  | ct (ea : Long)
  | cu (ea : Long)
  | cp (ea : Long)
  deriving DecidableEq, Repr, Inhabited

/-- An access fault with the parameters of R520. -/
structure AccessFault where
  acc : Access
  atc : Bool
  ma : Bool
  wb : WriteBack
  cont : Continuation
  deriving DecidableEq, Repr, Inhabited

/-- The bus transfers of an access: offset and length of each. R86 says "two or three bus transfers" for a misaligned operand
and no more; that they are byte and byte, word and word, or byte, word and byte, in rising order, is the model's choice (log
entry 18). -/
def transfersOf (a : Long) : TSize → List (Nat × Nat)
  | .byte => [(0, 1)]
  | .word => if a.getLsbD 0 then [(0, 1), (1, 1)] else [(0, 2)]
  | .long =>
    if a.getLsbD 0 then [(0, 1), (1, 2), (3, 1)]
    else if a.getLsbD 1 then [(0, 2), (2, 2)]
    else [(0, 4)]
  | .line => [(0, 16)]

/-! Other bus masters (R86, R100; log entry 60). -/

/-- The bus with no more moves listed: nobody writes, no TEA but that of the ranges in force. -/
def quietBus : BusInput := { writes := [], tea := false }

/-- The environment's next move at a bus transfer. -/
def State.busNow (s : State) : BusInput := s.env.bus.headD quietBus

/-- The environment has made that move; inside a locked sequence other masters are kept off the bus (R90; 92 D6). -/
def State.busMove (locked : Bool) (s : State) : State :=
  { s with mem := if locked then s.mem else Memory.writes s.mem s.busNow.writes
           env := { s.env with bus := s.env.bus.tail } }

/-! Bytes that the processor writes, and the instruction stream (R103; log entry 58). -/

/-- The bit of a byte that this processor has written. -/
def codeWritten : Byte := 1
/-- The bit of a CPUSH of the data cache that has covered the byte since. -/
def codePushed : Byte := 2
/-- The bit of a CINV of the instruction cache that has covered it since. -/
def codeInvalidated : Byte := 4
/-- The bit of a change of flow since. -/
def codeFlow : Byte := 8
/-- All four. -/
def codeVisible : Byte := 15

/-- What one of the three acts makes of a byte's record. When all three have come, in whatever order, the record is empty and the
byte may be executed: neither R103 nor 92 D8 gives them an order. -/
def afterAct (act b : Byte) : Byte :=
  if b = 0 ∨ b ||| act = codeVisible then 0 else b ||| act

/-- Bytes written by this processor at physical addresses. -/
def State.writeBytes (ws : List (Long × Byte)) (s : State) : State :=
  { s with mem := Memory.writes s.mem ws
           modified := Memory.writes s.modified (ws.map fun w => (w.1, codeWritten)) }

/-- One of the three acts has come, for the bytes that it covers. -/
def State.recordAct (act : Byte) (covered : Nat → Bool) (s : State) : State :=
  { s with modified := Memory.mapBytes (fun a b => if covered a then afterAct act b else b) s.modified }

/-- A change of flow, which counts for every byte (R103). -/
def State.flowChanged (s : State) : State := s.recordAct codeFlow fun _ => true

/-- Whether an instruction word at physical addresses has been written and not made visible since (92 D8). -/
def State.isModified (s : State) (as : List Long) : Bool := as.any fun a => Memory.read s.modified a.toNat != 0

/-- The registers translation depends on. -/
def State.transRegs (s : State) : Config.TransRegs :=
  { tc := s.ctl.tc, urp := s.ctl.urp, srp := s.ctl.srp, itt0 := s.ctl.itt0, itt1 := s.ctl.itt1,
    dtt0 := s.ctl.dtt0, dtt1 := s.ctl.dtt1 }

/-- Whether TC.E and the enables of the four transparent translation registers are all 0 (R96). -/
def State.translationOff (s : State) : Bool :=
  !s.ctl.tc.getLsbD 15 && !s.ctl.itt0.getLsbD 15 && !s.ctl.itt1.getLsbD 15 && !s.ctl.dtt0.getLsbD 15 &&
    !s.ctl.dtt1.getLsbD 15

/-- Whether an access with a transfer modifier is translated: function codes outside 1, 2, 5, 6 are not (92 D3). -/
def tmTranslated (tm : BitVec 3) : Bool := tm == 1 || tm == 2 || tm == 5 || tm == 6

/-- `Translate` (R96): the identity while translation is off; the read of a locked sequence is checked as a write (R90). With
TC.E set and no PFLUSH since reset the answer is free (70_reset_and_hazards.md R611; log entry 59). -/
def State.translate (s : State) (acc : Access) (a : Long) : Option Long × State :=
  if s.translationOff || !tmTranslated acc.tm then (some a, s)
  else if s.ctl.tc.getLsbD 15 && !s.atcFlushed then
    (Config.staleTranslation s.freeCount, { s with freeCount := s.freeCount + 1 })
  else (Config.translate s.transRegs s.mem acc.tm (acc.write || acc.locked) acc.locked a, s)

/-- Whether two ranges of addresses meet. -/
def rangesMeet (lo hi lo' hi' : Nat) : Bool := lo ≤ hi' && lo' ≤ hi

/-- `Bus` (R98): whether a transfer of `n` bytes at physical address `p` ends in TEA. -/
def State.busTea (s : State) (acc : Access) (p : Long) (n : Nat) : Bool :=
  s.env.tea.any fun r =>
    (if acc.write then r.writes else r.reads) && (r.tt == none || r.tt == some acc.tt) &&
      (r.tm == none || r.tm == some acc.tm) && rangesMeet r.lo.toNat r.hi.toNat p.toNat (p.toNat + n - 1)

/-- The number of the page an address is in: pages of 8K bytes when TC.P is set, else of 4K (10_state.md R29). -/
def State.pageOf (s : State) (a : Long) : Nat :=
  if s.ctl.tc.getLsbD 14 then a.toNat / 8192 else a.toNat / 4096

/-- Bus accesses that end in a value or in an access fault; what other masters did meanwhile stays either way. -/
abbrev BusM := EStateM AccessFault State

/-- A read of the state between accesses. -/
def busFetch {α : Type} (f : State → α) : BusM α := fun s => .ok (f s) s

/-- The state is changed between accesses. -/
def busUpdate (f : State → State) : BusM Unit := fun s => .ok () (f s)

/-- One bus transfer of `n` bytes at offset `off`: other masters move, then the physical address or the fault (R98, R504,
R505). -/
def transfer (acc : Access) (off n : Nat) : BusM Long := fun s =>
  let a := acc.addr + BitVec.ofNat 32 off
  let r := (s.busMove acc.locked).translate acc a
  match r.1 with
  | none => .error { acc := acc, atc := true, ma := s.pageOf a != s.pageOf acc.addr, wb := .none, cont := .none } r.2
  | some p =>
    if s.busNow.tea || r.2.busTea acc p n then
      .error { acc := acc, atc := false, ma := false, wb := .none, cont := .none } r.2
    else .ok p r.2

/-- The physical addresses of the bytes of a transfer. -/
def transferAddrs (p : Long) (n : Nat) : List Long := (List.range n).map fun i => p + BitVec.ofNat 32 i

/-- The transfers of an access one after the other, up to the first that faults, each with what is then done at its physical
addresses, given its offset (R98). -/
def overTransfers {α : Type} (acc : Access) (act : Nat → List Long → BusM (List α)) : List (Nat × Nat) → BusM (List α)
  | [] => pure []
  | t :: ts => do
    let p ← transfer acc t.1 t.2
    let x ← act t.1 (transferAddrs p t.2)
    let xs ← overTransfers acc act ts
    pure (x ++ xs)

/-- The physical addresses of the bytes of an access, nothing read or written there. -/
def route (acc : Access) : BusM (List Long) :=
  overTransfers acc (fun _ as => pure as) (transfersOf acc.addr acc.size)

/-- `MemRead` of an access (R98): the bytes, lowest address first. -/
def loadBytes (acc : Access) : BusM (List Byte) :=
  overTransfers acc (fun _ as => busFetch fun s => as.map fun a => Memory.read s.mem a.toNat)
    (transfersOf acc.addr acc.size)

/-- The value of a list of bytes as a long word. -/
def longOfBytes (bs : List Byte) : Long := BitVec.ofNat 32 (valueOfBytes bs)

/-- `MemRead` of one, two or four bytes, as a zero-extended long word. -/
def load (acc : Access) : BusM Long := do
  let bs ← loadBytes acc
  pure (longOfBytes bs)

/-- WB1D: the operand in the byte lanes of its address (61_access_fault_recovery.md R514, R515). -/
def alignData (a : Long) (sz : TSize) (v : Long) : Long :=
  let x := match sz with
    | .byte => v <<< 24
    | .word => v <<< 16
    | _ => v
  x.rotateRight (8 * (a.toNat % 4))

/-- What a faulted write leaves in the write-back slots (R521). -/
def writeBackOf (acc : Access) (bs : List Byte) : WriteBack :=
  match acc.size with
  | .line => .line (longOfBytes (bs.take 4)) (longOfBytes ((bs.drop 4).take 4)) (longOfBytes ((bs.drop 8).take 4))
      (longOfBytes ((bs.drop 12).take 4))
  | sz => .one (alignData acc.addr sz (longOfBytes bs))

/-- A write's fault has what it leaves in the write-back slots (R521). -/
def withWriteBack {α : Type} (acc : Access) (bs : List Byte) (m : BusM α) : BusM α := fun s =>
  match m s with
  | .error f t => .error { f with wb := writeBackOf acc bs } t
  | r => r

/-- The bytes of one transfer of a store written; it gives nothing. -/
def storeTransfer (bs : List Byte) (off : Nat) (as : List Long) : BusM (List Unit) := do
  busUpdate (State.writeBytes (as.zip (bs.drop off)))
  pure []

/-- `MemWrite` of an access (R98). The transfers before one that faults have reached memory (log entry 18). -/
def storeBytes (acc : Access) (bs : List Byte) : BusM Unit :=
  withWriteBack acc bs do
    let _ ← overTransfers acc (storeTransfer bs) (transfersOf acc.addr acc.size)
    pure ()

/-- `MemWrite` of one, two or four bytes of a long word. -/
def store (acc : Access) (v : Long) : BusM Unit := storeBytes acc (bytesOfValue acc.size.bytes v.toNat)

/-- A supervisor data access of exception processing (60_exceptions.md R400). -/
def supervisorAccess (a : Long) (sz : TSize) (write : Bool) : Access :=
  { addr := a, size := sz, tt := 0, tm := 5, write := write, locked := false }

/-! ### Taking an exception (60_exceptions.md R400-R412) -/

/-- The format of an exception's frame with its further field (R411). -/
inductive Format where
  | zero
  | two (address : Long)
  | three (ea : Long)
  deriving DecidableEq, Repr, Inhabited

/-- What becomes of an exception whose own processing faults (R460). -/
inductive ExcClass where
  /-- groups 2 and 3: the instruction is restarted from its beginning -/
  | restart
  /-- RTE's format error: restarted, with the frames already popped gone (41_system_instructions.md R202) -/
  | keep
  /-- trace: the access error frame has CT set -/
  | trace
  /-- unimplemented floating-point instruction: CU -/
  | unimp
  /-- floating-point post-instruction: CP -/
  | post
  /-- address error: double bus fault -/
  | address
  deriving DecidableEq, Repr, Inhabited

/-- An exception to be taken: vector, class, stacked PC, format. RTE's continuation of a pending exception rewrites a frame
in place: `inPlace` then gives the stack, the address the frame starts at, and the SR image (R201). -/
structure Exc where
  vector : Byte
  cls : ExcClass
  stackedPc : Long
  format : Format
  inPlace : Option (StackSel × Long × Word) := none
  deriving DecidableEq, Repr, Inhabited

/-- The fields of a frame from its lowest address: size and value of each. -/
abbrev FrameFields := List (TSize × Long)

/-- The number of bytes of a frame. -/
def frameSize : FrameFields → Nat
  | [] => 0
  | f :: fs => f.1.bytes + frameSize fs

/-- The word at +$06: the format and the vector offset, 4 times the vector (R411). -/
def formatWord (fmt : BitVec 4) (vector : Byte) : Word := fmt ++ (vector.setWidth 12 <<< 2)

/-- The four words every frame begins with (R411). -/
def frameHead (sr : Word) (pc : Long) (fmt : BitVec 4) (vector : Byte) : FrameFields :=
  [(.word, sr.setWidth 32), (.long, pc), (.word, (formatWord fmt vector).setWidth 32)]

/-- The fields of a frame of format $0, $2 or $3 (R411). -/
def frameFields (sr : Word) (e : Exc) : FrameFields :=
  match e.format with
  | .zero => frameHead sr e.stackedPc 0 e.vector
  | .two a => frameHead sr e.stackedPc 2 e.vector ++ [(.long, a)]
  | .three a => frameHead sr e.stackedPc 3 e.vector ++ [(.long, a)]

/-- The bytes a frame would write, each with its physical address, or the fault of the first access that faults. Nothing is
written yet: a frame appears as a unit (R403; log entry 45). -/
def planFrame (a : Long) : FrameFields → BusM (List (Long × Byte))
  | [] => pure []
  | f :: fs => do
    let acc := supervisorAccess a f.1 true
    let bs := bytesOfValue f.1.bytes f.2.toNat
    let as ← withWriteBack acc bs (route acc)
    let ws ← planFrame (a + BitVec.ofNat 32 f.1.bytes) fs
    pure (as.zip bs ++ ws)

/-- A frame to be written: the stack whose pointer will name it, its lowest address, its fields. -/
structure Frame where
  stack : StackSel
  addr : Long
  fields : FrameFields
  deriving DecidableEq, Repr, Inhabited

/-- A frame pushed on a stack (R403). -/
def State.frameBelow (s : State) (k : StackSel) (fs : FrameFields) : Frame :=
  { stack := k, addr := s.getStack k - BitVec.ofNat 32 (frameSize fs), fields := fs }

/-- The bytes of frames, one after the other. -/
def planFrames : List Frame → BusM (List (Long × Byte))
  | [] => pure []
  | f :: fs => do
    let ws ← planFrame f.addr f.fields
    let vs ← planFrames fs
    pure (ws ++ vs)

/-- The address of a vector (R405). -/
def State.vectorAddr (s : State) (vector : Byte) : Long := s.ctl.vbr + (vector.setWidth 32 <<< 2)

/-- What exception processing will do once none of its accesses has faulted: the bytes of its frames, and where the vector is. -/
structure Entry where
  bytes : List (Long × Byte)
  vector : List Long
  deriving DecidableEq, Repr, Inhabited

/-- The accesses of steps 3 and 4 of exception processing (R400), none of which has changed anything yet. -/
def planEntry (frames : List Frame) (vector : Byte) : BusM Entry := do
  let ws ← planFrames frames
  let a ← busFetch fun s => s.vectorAddr vector
  let as ← route (supervisorAccess a .long false)
  pure { bytes := ws, vector := as }

/-- Steps 3 and 4 of exception processing done (R400, R405): the frames in memory, their stack pointers, the program counter
from the vector table as it then is (log entry 45), nothing to trace, running, a change of flow. -/
def State.enter (frames : List Frame) (e : Entry) (s : State) : State :=
  let s1 := s.writeBytes e.bytes
  let s2 := frames.foldl (fun t f => t.setStack f.stack f.addr) s1
  ({ s2 with pc := longOfBytes (e.vector.map fun a => Memory.read s2.mem a.toNat), tracePending := false,
             run := .running } : State).flowChanged

/-- An attempt at exception processing: the state entered with the state just before its frames and the vector read were
done, or the fault of one of its accesses with the state it leaves. -/
abbrev Attempt := Except (AccessFault × State) (State × State)

/-- Steps 3 and 4 of exception processing attempted. -/
def State.attempt (s : State) (frames : List Frame) (vector : Byte) : Attempt :=
  match planEntry frames vector s with
  | .ok e t => .ok (t.enter frames e, t)
  | .error f t => .error (f, t)

/-- The frame of an exception: below the active supervisor stack pointer, or at the place that RTE gives (R201). -/
def State.frameOf (s : State) (e : Exc) : Frame :=
  match e.inPlace with
  | none => s.frameBelow (activeStack (enterSupervisor s.sr)) (frameFields s.sr e)
  | some (k, a, image) => { stack := k, addr := a, fields := frameFields image e }

/-- Steps 1, 3 and 4 of exception processing attempted (R400). -/
def State.tryException (s : State) (e : Exc) : Attempt :=
  ({ s with sr := enterSupervisor s.sr } : State).attempt [s.frameOf e] e.vector

/-- The halted processor after a double bus fault: SR as step 1 left it, the active stack pointer and PC free, memory as it
was (R424; log entry 27). -/
def State.halt (s : State) : State :=
  let s1 : State := { s with sr := enterSupervisor s.sr, pc := Config.freeLong s.freeCount, run := .halted,
                             tracePending := false, freeCount := s.freeCount + 2 }
  s1.setSp (Config.freeLong (s.freeCount + 1))

/-- The end of an exception that, if its processing faults or its vector is odd, halts the processor with memory as it was
before its frame (R424, R461). -/
def State.enterOrHalt : Attempt → State
  | .error (_, t) => t.halt
  | .ok (u, t) => if u.pc.getLsbD 0 then t.halt else u

/-- An address error (R424, R425, R461). -/
def State.takeAddressError (s : State) (stackedPc target : Long) : State :=
  State.enterOrHalt (s.tryException { vector := 3, cls := .address, stackedPc := stackedPc,
                                      format := .two (target &&& 0xFFFFFFFE) })

/-! The format $7 frame (61_access_fault_recovery.md R500, R503, R520, R521). -/

/-- The special status word (R503); bit 7, and CT beside CU or CP, are free. -/
def sswOf (f : AccessFault) (n : Nat) : Word :=
  let cp := match f.cont with | .cp _ => true | _ => false
  let cu := match f.cont with | .cu _ => true | _ => false
  let cm := match f.cont with | .cm _ => true | _ => false
  let ct := match f.cont with
    | .ct _ => true
    | .cu _ | .cp _ => Config.freeBit (n + 1)
    | _ => false
  BitVec.ofBool cp ++ BitVec.ofBool cu ++ BitVec.ofBool ct ++ BitVec.ofBool cm ++ BitVec.ofBool f.ma ++
    BitVec.ofBool f.atc ++ BitVec.ofBool f.acc.locked ++ BitVec.ofBool (!f.acc.write) ++
    BitVec.ofBool (Config.freeBit n) ++ f.acc.size.code ++ f.acc.tt ++ f.acc.tm

/-- The EA field (R502): free with no continuation. -/
def eaFieldOf (f : AccessFault) (n : Nat) : Long :=
  match f.cont with
  | .none => Config.freeLong n
  | .cm ea | .ct ea | .cu ea | .cp ea => ea

/-- WB1S (R510, R521). -/
def wb1sOf (f : AccessFault) : Byte :=
  match f.wb with
  | .one _ => 1#1 ++ f.acc.size.code ++ f.acc.tt ++ f.acc.tm
  | _ => 0

/-- The fields of the format $7 frame (R500); the fields R521 calls 'any value' are free, indexed from `n`. -/
def accessFrame (sr : Word) (pc : Long) (f : AccessFault) (n : Nat) : FrameFields :=
  let free (k : Nat) : Long := Config.freeLong (n + k)
  let wb1a : Long := match f.wb with | .one _ => f.acc.addr | _ => free 5
  let pd0 : Long := match f.wb with | .one d => d | .line d _ _ _ => d | .none => free 6
  let pd1 : Long := match f.wb with | .line _ d _ _ => d | _ => free 7
  let pd2 : Long := match f.wb with | .line _ _ d _ => d | _ => free 8
  let pd3 : Long := match f.wb with | .line _ _ _ d => d | _ => free 9
  frameHead sr pc 7 2 ++
    [(.long, eaFieldOf f n), (.word, (sswOf f n).setWidth 32), (.word, 0), (.word, 0),
     (.word, (wb1sOf f).setWidth 32), (.long, f.acc.addr), (.long, free 1), (.long, free 2), (.long, free 3),
     (.long, free 4), (.long, wb1a), (.long, pd0), (.long, pd1), (.long, pd2), (.long, pd3)]

/-- The access fault exception (R422) with a given SR image and stacked PC: a fault on its own accesses or an odd vector
is a double bus fault (R424, R461). -/
def State.takeAccessFault (s : State) (image : Word) (stackedPc : Long) (f : AccessFault) : State :=
  let s1 : State := { s with sr := enterSupervisor s.sr, freeCount := s.freeCount + 10 }
  State.enterOrHalt (s1.attempt [s1.frameBelow (activeStack s1.sr) (accessFrame image stackedPc f s.freeCount)] 2)

/-- The continuation that an exception hands to the access fault that its own processing raises (R460). -/
def continuationOf (e : Exc) : Continuation :=
  match e.cls, e.format with
  | .trace, .two a => .ct a
  | .unimp, .two a => .cu a
  | .post, .three a => .cp a
  | _, _ => .none

/-- Taking an exception that an instruction at `ia` raised, `regs0` being the registers as that instruction found them:
R400, with R460 for a fault of its own accesses (log entry 24). The vector is loaded whole (R405): an odd one halts the
processor if the exception is an address error (R424, R461), and is otherwise found when the handler's first word is to be
fetched, in a later step (log entry 26). -/
def State.takeException (s : State) (ia : Long) (regs0 : Regs) (e : Exc) : State :=
  match s.tryException e with
  | .ok (u, t) => if e.cls = .address ∧ u.pc.getLsbD 0 then t.halt else u
  | .error (f, t) =>
    let t' : State := { t with sr := s.sr }
    match e.cls with
    | .address => t.halt
    | .trace | .unimp | .post => t'.takeAccessFault s.sr e.stackedPc { f with cont := continuationOf e }
    | .keep => t'.takeAccessFault s.sr ia f
    | .restart => ({ t' with regs := regs0 } : State).takeAccessFault s.sr ia f

/-! ### The instruction monad -/

/-- How an instruction can end before it completes. -/
inductive Abort where
  | access (f : AccessFault)
  | exc (e : Exc)
  | refused (r : Refusal)
  | fault (f : Fault)
  deriving DecidableEq, Repr, Inhabited

/-- The body of an instruction: it reads and writes the state until it completes or aborts, and an abort keeps what has
been done. -/
abbrev M := EStateM Abort State

/-- How an instruction that completes leaves the program counter (R436). -/
inductive Flow where
  /-- on to the next instruction -/
  | seq
  /-- on to the next instruction, after an SR manipulation -/
  | srChange
  /-- a change of flow -/
  | jump (target : Long)
  deriving DecidableEq, Repr, Inhabited

/-- Whether a completed instruction is traced: T1 T0 = 1 0 traces every one, 0 1 a change of flow (R435, R436). The
reserved mode 1 1 does not reach this point in a step (log entry 14). -/
def traceApplies (sr : Word) (f : Flow) : Bool :=
  (srT1 sr && !srT0 sr) || (!srT1 sr && srT0 sr && f != .seq)

/-- An address error raised by an instruction that computed an odd target (R425). -/
def addressErrorExc (ia target : Long) : Exc :=
  { vector := 3, cls := .address, stackedPc := ia, format := .two (target &&& 0xFFFFFFFE) }

/-- The end of an instruction that completed: its program counter, an address error for an odd target, and the trace
that is due (R425, R435). An SR manipulation counts as the change of flow of 20_memory.md R103 as a jump does: the spec does not
say so there, and the model takes R436's list of what changes the flow (92 D26); R623 has an SR change refill the pipe (log
entry 58). -/
def State.complete (s : State) (ia next : Long) (sr0 : Word) (regs0 : Regs) (f : Flow) : State :=
  match f with
  | .seq => { s with pc := next, tracePending := traceApplies sr0 f }
  | .srChange => ({ s with pc := next, tracePending := traceApplies sr0 f } : State).flowChanged
  | .jump t =>
    if t.getLsbD 0 then s.takeException ia regs0 (addressErrorExc ia t)
    else ({ s with pc := t, tracePending := traceApplies sr0 f } : State).flowChanged

/-- The end of an instruction at `ia` that did not complete, in the state in which it stopped; `regs0` are the registers it
found. An access fault stacks the address of the instruction, which restarts (R408, R422). -/
def State.aborted (s : State) (ia : Long) (regs0 : Regs) (a : Abort) : Host.Outcome State Fault Refusal :=
  match a with
  | .access f => .next (s.takeAccessFault s.sr ia f)
  | .exc e => .next (s.takeException ia regs0 e)
  | .refused r => .refused r
  | .fault r => .fault r

/-- One instruction of `words` words at the program counter: its body, then its completion or the exception it raised. The
body is given the address of the next instruction. -/
def runInstr (words : Nat) (body : Long → M Flow) (s : State) : Host.Outcome State Fault Refusal :=
  let next := s.pc + BitVec.ofNat 32 (2 * words)
  match body next s with
  | .ok f s' => .next (s'.complete s.pc next s.sr s.regs f)
  | .error a s' => s'.aborted s.pc s.regs a

/-- The state is changed. -/
def update (f : State → State) : M Unit := fun s => .ok () (f s)

/-- A read of the state. -/
def fetch {α : Type} (f : State → α) : M α := fun s => .ok (f s) s

/-- The instruction raises an exception. -/
def raise {α : Type} (e : Exc) : M α := fun s => .error (.exc e) s

/-- The model refuses. -/
def refuse {α : Type} (r : Refusal) : M α := fun s => .error (.refused r) s

/-- A free value: a constant of Config at the counter, which advances (log entry 4). -/
def draw {α : Type} (f : Nat → α) : M α := fun s => .ok (f s.freeCount) { s with freeCount := s.freeCount + 1 }

/-- Bus accesses as part of an instruction: a fault ends it. -/
def access {α : Type} (m : BusM α) : M α := fun s =>
  match m s with
  | .ok a t => .ok a t
  | .error f t => .error (.access f) t

/-- A read of memory as part of the instruction. -/
def memRead (acc : Access) : M Long := access (load acc)

/-- A read of a line. -/
def memReadBytes (acc : Access) : M (List Byte) := access (loadBytes acc)

/-- A write of memory as part of the instruction. -/
def memWrite (acc : Access) (v : Long) : M Unit := access (store acc v)

/-- A write of a line. -/
def memWriteBytes (acc : Access) (bs : List Byte) : M Unit := access (storeBytes acc bs)

/-- The start of a locked sequence: other masters move once more before it (20_memory.md R90; log entry 60). -/
def lockBus : M Unit := update (State.busMove false)

/-- An operand access of the current mode. -/
def dataAccess (a : Long) (sz : TSize) (write : Bool) : M Access :=
  fetch fun s => { addr := a, size := sz, tt := 0, tm := tmData s.sr, write := write, locked := false }

/-- An operand read (R82). -/
def readData (a : Long) (sz : Size) : M Long := do
  memRead (← dataAccess a (.ofSize sz) false)

/-- An operand write (R82). -/
def writeData (a : Long) (sz : Size) (v : Long) : M Unit := do
  memWrite (← dataAccess a (.ofSize sz) true) v

/-- The address `k` bytes after another. -/
def addrPlus (a : Long) (k : Nat) : Long := a + BitVec.ofNat 32 k

/-- A sequence of long-word reads (R89), from the lowest address up. R89 gives such a sequence no order; this one, which
decides the fault that is reported, is the model's choice (log entry 61). -/
def readLongs (a : Long) : Nat → M (List Long)
  | 0 => pure []
  | n + 1 => do
    let v ← readData a .long
    let vs ← readLongs (addrPlus a 4) n
    pure (v :: vs)

/-- A sequence of long-word writes (R89, R521), from the lowest address up. Neither rule gives such a sequence an order; this
one, which decides the fault that is reported and what has reached memory before it, is the model's choice (log entry 61). -/
def writeLongs (a : Long) : List Long → M Unit
  | [] => pure ()
  | v :: vs => do
    writeData a .long v
    writeLongs (addrPlus a 4) vs

/-! ### Exceptions that instructions raise -/

/-- Privilege violation (R431). -/
def privilegeExc (ia : Long) : Exc := { vector := 8, cls := .restart, stackedPc := ia, format := .zero }

/-- Illegal instruction (R427). -/
def illegalExc (ia : Long) : Exc := { vector := 4, cls := .restart, stackedPc := ia, format := .zero }

/-- A privileged instruction: in user mode the privilege violation, in supervisor mode the rest (41_system_instructions.md
R209). -/
def requireSupervisor : M Unit := fun s =>
  if srS s.sr then .ok () s else .error (.exc (privilegeExc s.pc)) s

/-! ### Return from exception (41_system_instructions.md R200-R202) -/

/-- The data access with which RTE reads a frame: supervisor data, or user data once a throwaway frame has led to the user
stack (92 D29). -/
def rteAccess (sr : Word) (a : Long) (sz : TSize) : Access :=
  { addr := a, size := sz, tt := 0, tm := tmData sr, write := false, locked := false }

/-- What a format $7 frame makes RTE do (R201): pop it, pop it and hand over the address of a MOVEM, or go on with a pending
trace, unimplemented or post-instruction exception. -/
inductive Frame7 where
  | plain
  | movem
  | trace
  | unimp
  | post
  deriving DecidableEq, Repr, Inhabited

/-- The continuation bits of an SSW image; none where R201 leaves the operation undefined (93 U17; log entry 16). -/
def frame7Of (ssw : Word) : Option Frame7 :=
  let cp := ssw.getLsbD 15
  let cu := ssw.getLsbD 14
  let ct := ssw.getLsbD 13
  let cm := ssw.getLsbD 12
  if (cp && cu) || (cm && (cp || cu || ct)) then none
  else if cp then some .post
  else if cu then some .unimp
  else if ct then some .trace
  else if cm then some .movem
  else some .plain

/-- The frame at the active stack pointer popped: the pointer that was active moves, then SR is written (R200). -/
def popFrame (bytes : Nat) (image : Word) : M Unit :=
  update fun s => (s.setSp (addrPlus s.sp bytes)).writeSr image

/-- The vectors of a floating-point post-instruction exception (60_exceptions.md R412). -/
def postVectors : List Byte := [49, 51, 52, 53, 54, 55]

/-- The vector with which RTE continues a post-instruction exception (R201): that of the pending exception. With none pending
the spec names no vector: the model takes a free one of those that such an exception can have (log entry 50). -/
def postVector : M Byte := do
  let pending ← fetch fun s => s.fpu.pending
  match pending with
  | some p => pure p.vector
  | none => do
    let k ← draw Config.freeByte
    pure (postVectors.getD (k.toNat % 6) 49)

/-- RTE through a format $7 frame (R201), its first eight bytes read already. A fault of the rewritten frame or of the vector
read finds the frame popped, so the new access error frame is below the stack pointer as popped (log entry 51). -/
def rteFrame7 (image : Word) (pc' : Long) : M Flow := do
  let sr ← fetch State.sr
  let sp ← fetch State.sp
  let ea ← memRead (rteAccess sr (addrPlus sp 8) .long)
  let ssw ← memRead (rteAccess sr (addrPlus sp 12) .word)
  match frame7Of (ssw.setWidth 16) with
  | none => refuse .undefinedContinuation
  | some k =>
    popFrame 60 image
    let place := some (activeStack sr, addrPlus sp 48, image)
    match k with
    | .plain => pure (.jump pc')
    | .movem => do
      update fun s => { s with movemRestart := some ea }
      pure (.jump pc')
    | .trace => raise { vector := 9, cls := .trace, stackedPc := pc', format := .two ea, inPlace := place }
    | .unimp => raise { vector := 11, cls := .unimp, stackedPc := pc', format := .two ea, inPlace := place }
    | .post => do
      let vector ← postVector
      raise { vector := vector, cls := .post, stackedPc := pc', format := .three ea, inPlace := place }

/-- The loop of RTE (R200), with at most `fuel` throwaway frames. -/
def rteLoop (ia : Long) : Nat → M Flow
  | 0 => fun s => .error (.fault .rteNeverEnds) s
  | fuel + 1 => do
    let sr ← fetch State.sr
    let sp ← fetch State.sp
    let image ← memRead (rteAccess sr sp .word)
    let pc' ← memRead (rteAccess sr (addrPlus sp 2) .long)
    let fv ← memRead (rteAccess sr (addrPlus sp 6) .word)
    let image := image.setWidth 16
    match (fv.extractLsb' 12 4).toNat with
    | 0 => do
      popFrame 8 image
      pure (.jump pc')
    | 1 => do
      popFrame 8 image
      rteLoop ia fuel
    | 2 => do
      popFrame 12 image
      pure (.jump pc')
    | 3 => do
      popFrame 12 image
      pure (.jump pc')
    | 7 => rteFrame7 image pc'
    | _ => raise { vector := 14, cls := .keep, stackedPc := ia, format := .zero }

/-- The longest chain of throwaway frames that can end: the three stack pointers move by 8 and S, M choose among them, so
after 2^89 frames one has been read twice with the same memory (log entry 23). -/
def rteFuel : Nat := 2 ^ 89

end Sys2Proof.Machine
end

