-- ==== Sys2Proof/Machine/Flags.lean ====
section
/-!
DEFINITION. Flag computations: the condition codes of SR (10_state.md R24; 40_trap_instructions.md R162-R167;
41_system_instructions.md R222-R224) and the bytes of FPSR (10_state.md R36; 42_fp_instructions.md R264, R270;
43_fp_exceptions.md R300, R303).
-/
namespace Sys2Proof.Machine

/-! ### Condition codes -/

/-- CCR.N. -/
def ccN (sr : Word) : Bool := sr.getLsbD 3
/-- CCR.Z. -/
def ccZ (sr : Word) : Bool := sr.getLsbD 2
/-- CCR.V. -/
def ccV (sr : Word) : Bool := sr.getLsbD 1
/-- CCR.C. -/
def ccC (sr : Word) : Bool := sr.getLsbD 0

/-- SR with N, Z, V, C replaced; X and the upper byte stay. -/
def withNzvc (sr : Word) (n z v c : Bool) : Word :=
  sr.extractLsb' 4 12 ++ BitVec.ofBool n ++ BitVec.ofBool z ++ BitVec.ofBool v ++ BitVec.ofBool c

/-- N, Z, V, C written. -/
def State.setNzvc (n z v c : Bool) (s : State) : State := { s with sr := withNzvc s.sr n z v c }

/-- The integer conditions (R162). -/
def condTrue (cc : BitVec 4) (sr : Word) : Bool :=
  let n := ccN sr
  let z := ccZ sr
  let v := ccV sr
  let c := ccC sr
  match cc.toNat with
  | 0 => true
  | 1 => false
  | 2 => !c && !z
  | 3 => c || z
  | 4 => !c
  | 5 => c
  | 6 => !z
  | 7 => z
  | 8 => !v
  | 9 => v
  | 10 => !n
  | 11 => n
  | 12 => n == v
  | 13 => n != v
  | 14 => !z && n == v
  | _ => z || n != v

/-- The sign bit of a value of an operand size. -/
def signBit (sz : Size) (v : Long) : Bool := v.getLsbD (sz.bits - 1)

/-- N, Z, V, C of the subtraction `m - d` (R223). -/
def subFlags (sz : Size) (m d : Long) : Bool × Bool × Bool × Bool :=
  let r := zextLong sz (m - d)
  (signBit sz r, r == 0, signBit sz m != signBit sz d && signBit sz r != signBit sz m,
    decide ((zextLong sz m).toNat < (zextLong sz d).toNat))

/-! ### FPSR and FPCR (10_state.md R35, R36) -/

/-- The bits of FPCR that exist (42_fp_instructions.md R278). -/
def fpcrMask : Long := 0x0000FFF0
/-- The bits of FPSR that exist (R278). -/
def fpsrMask : Long := 0x0FFFFFF8

/-- The exceptions with a status and an enable bit, by their bit number in FPSR and FPCR (43_fp_exceptions.md R300). -/
inductive FpExc where
  | bsun | snan | operr | ovfl | unfl | dz | inex2 | inex1
  deriving DecidableEq, Repr, Inhabited

/-- The bit of an exception in FPSR.EXC and in FPCR.ENABLE (R300). -/
def FpExc.bit : FpExc → Nat
  | .bsun => 15 | .snan => 14 | .operr => 13 | .ovfl => 12 | .unfl => 11 | .dz => 10 | .inex2 => 9 | .inex1 => 8

/-- The vector of an exception (R300). -/
def FpExc.vector : FpExc → Byte
  | .bsun => 48 | .snan => 54 | .operr => 52 | .ovfl => 53 | .unfl => 51 | .dz => 50 | .inex2 => 49 | .inex1 => 49

/-- Whether an exception's EXC bit is set. -/
def excSet (fpsr : Long) (x : FpExc) : Bool := fpsr.getLsbD x.bit

/-- Whether an exception's trap is enabled. -/
def trapEnabled (fpcr : Long) (x : FpExc) : Bool := fpcr.getLsbD x.bit

/-- An EXC bit set. -/
def State.setExc (x : FpExc) (s : State) : State :=
  { s with fp := { s.fp with fpsr := s.fp.fpsr ||| (1 <<< x.bit) } }

/-- The EXC byte cleared (42_fp_instructions.md R261). -/
def State.clearExc (s : State) : State := { s with fp := { s.fp with fpsr := s.fp.fpsr &&& 0xFFFF00FF } }

/-- FPSR with the condition code byte replaced. -/
def withFpcc (fpsr : Long) (n z i nan : Bool) : Long :=
  fpsr.extractLsb' 28 4 ++ BitVec.ofBool n ++ BitVec.ofBool z ++ BitVec.ofBool i ++ BitVec.ofBool nan ++
    fpsr.extractLsb' 0 24

/-- The floating-point condition codes written (42_fp_instructions.md R264). -/
def State.setFpcc (n z i nan : Bool) (s : State) : State :=
  { s with fp := { s.fp with fpsr := withFpcc s.fp.fpsr n z i nan } }

/-- The accrued exception byte after an instruction (43_fp_exceptions.md R303). -/
def accrueBits (fpsr : Long) : Long :=
  let iop := excSet fpsr .bsun || excSet fpsr .snan || excSet fpsr .operr
  let unfl := excSet fpsr .unfl && excSet fpsr .inex2
  let inex := excSet fpsr .inex1 || excSet fpsr .inex2 || excSet fpsr .ovfl
  fpsr ||| (BitVec.ofBool iop ++ BitVec.ofBool (excSet fpsr .ovfl) ++ BitVec.ofBool unfl ++
    BitVec.ofBool (excSet fpsr .dz) ++ BitVec.ofBool inex ++ 0#3).setWidth 32

/-- EXC accrued into AEXC (R303). -/
def State.accrue (s : State) : State := { s with fp := { s.fp with fpsr := accrueBits s.fp.fpsr } }

/-- FPSR.N. -/
def fpN (fpsr : Long) : Bool := fpsr.getLsbD 27
/-- FPSR.Z. -/
def fpZ (fpsr : Long) : Bool := fpsr.getLsbD 26
/-- FPSR.NAN. -/
def fpNan (fpsr : Long) : Bool := fpsr.getLsbD 24

/-- The floating-point predicates by their low four bits (42_fp_instructions.md R270). -/
def fpTruth (p : BitVec 5) (fpsr : Long) : Bool :=
  let n := fpN fpsr
  let z := fpZ fpsr
  let nan := fpNan fpsr
  match p.toNat % 16 with
  | 0 => false
  | 1 => z
  | 2 => !(nan || z || n)
  | 3 => z || !(nan || n)
  | 4 => n && !(nan || z)
  | 5 => z || (n && !nan)
  | 6 => !(nan || z)
  | 7 => !nan
  | 8 => nan
  | 9 => nan || z
  | 10 => nan || !(n || z)
  | 11 => nan || z || !n
  | 12 => nan || (n && !z)
  | 13 => nan || z || n
  | 14 => !z
  | _ => true

/-- The AEXC.IOP bit set with EXC.BSUN (43_fp_exceptions.md R312). -/
def State.setBsun (s : State) : State :=
  { s with fp := { s.fp with fpsr := s.fp.fpsr ||| 0x00008080 } }

end Sys2Proof.Machine
end

