-- ==== Sys2Proof/Machine/Operands.lean ====
section
/-!
DEFINITION. Operand forms: the twelve effective address modes (30_encoding.md R140, R141), the operands read and written
through them, and the operands of floating-point instructions (42_fp_instructions.md R262, R264).
-/
namespace Sys2Proof.Machine

/-- Where an operand is. -/
inductive Place where
  | d (r : RegNo)
  | a (r : RegNo)
  | mem (addr : Long)
  | imm (ws : List Word)
  deriving DecidableEq, Repr, Inhabited

/-- An operand found: its place, and the address register that the mode also writes, which happens after the
instruction's last access (92 D5; log entry 19). -/
structure Located where
  place : Place
  step : Option (RegNo × Long)
  deriving DecidableEq, Repr, Inhabited

/-- The value of an index register with its scale (R141). -/
def indexValue (x : IndexReg) (s : State) : Long :=
  let v := s.getR x.reg
  (if x.long then v else (v.setWidth 16).signExtend 32) <<< x.scale.toNat

/-- The value of a displacement (R141). -/
def dispValue : Disp → Long
  | .none => 0
  | .word d => d.signExtend 32
  | .long d => d

/-- The address of an indexed mode from its base (R141). -/
def indexAddr (base : Long) (x : IndexExt) : M Long :=
  match x with
  | .brief i d8 => do
    let iv ← fetch (indexValue i)
    pure (base + iv + d8.signExtend 32)
  | .full i bs is bd ind => do
    let iv ← if is then pure 0 else fetch (indexValue i)
    let b := (if bs then 0 else base) + dispValue bd
    match ind with
    | .no => pure (b + iv)
    | .pre od => do
      let p ← readData (b + iv) .long
      pure (p + dispValue od)
    | .post od => do
      let p ← readData b .long
      pure (p + iv + dispValue od)

/-- The step of (An)+ and -(An) for an operand of `bytes` bytes: a byte on A7 steps by 2 (R140). -/
def stepOf (bytes : Nat) (r : RegNo) : Nat := if bytes = 1 ∧ r = 7 then 2 else bytes

/-- The effective address computed for an operand of `bytes` bytes; `ext` is the address of the EA's first extension word
(R140). -/
def locate (ea : Ea) (bytes : Nat) (ext : Long) : M Located :=
  match ea with
  | .dn r => pure { place := .d r, step := none }
  | .an r => pure { place := .a r, step := none }
  | .ind r => do
    let a ← fetch (State.getA r)
    pure { place := .mem a, step := none }
  | .postInc r => do
    let a ← fetch (State.getA r)
    pure { place := .mem a, step := some (r, addrPlus a (stepOf bytes r)) }
  | .preDec r => do
    let a ← fetch (State.getA r)
    let a' := a - BitVec.ofNat 32 (stepOf bytes r)
    pure { place := .mem a', step := some (r, a') }
  | .disp r d => do
    let a ← fetch (State.getA r)
    pure { place := .mem (a + d.signExtend 32), step := none }
  | .index r x => do
    let a ← fetch (State.getA r)
    let m ← indexAddr a x
    pure { place := .mem m, step := none }
  | .absW w => pure { place := .mem (w.signExtend 32), step := none }
  | .absL a => pure { place := .mem a, step := none }
  | .pcDisp d => pure { place := .mem (ext + d.signExtend 32), step := none }
  | .pcIndex x => do
    let m ← indexAddr ext x
    pure { place := .mem m, step := none }
  | .imm ws => pure { place := .imm ws, step := none }

/-- The address register that the mode writes. -/
def commit (l : Located) : M Unit :=
  match l.step with
  | none => pure ()
  | some (r, v) => update (State.setA r v)

/-- The value of the words of an immediate operand (R140). -/
def immValue : List Word → Nat
  | [] => 0
  | w :: ws => w.toNat * 65536 ^ ws.length + immValue ws

/-- The low bits of an operand, zero-extended. -/
def readPlace (sz : Size) (p : Place) : M Long :=
  match p with
  | .d r => fetch fun s => zextLong sz (s.getD r)
  | .a r => fetch fun s => zextLong sz (s.getA r)
  | .mem a => readData a sz
  | .imm ws => pure (zextLong sz (BitVec.ofNat 32 (immValue ws)))

/-- An operand written: the low bits of Dn, all of An, or memory. -/
def writePlace (sz : Size) (p : Place) (v : Long) : M Unit :=
  match p with
  | .d r => update (State.setDLow sz r v)
  | .a r => update (State.setA r (sextLong sz v))
  | .mem a => writeData a sz v
  | .imm _ => pure ()

/-- A source operand of a size, its mode's side effect included. -/
def readOperand (ea : Ea) (sz : Size) (ext : Long) : M Long := do
  let l ← locate ea sz.bytes ext
  let v ← readPlace sz l.place
  commit l
  pure v

/-- A destination operand written, its mode's side effect included. -/
def writeOperand (ea : Ea) (sz : Size) (ext : Long) (v : Long) : M Unit := do
  let l ← locate ea sz.bytes ext
  writePlace sz l.place v
  commit l

/-- The address of an operand in memory; 0 for one that is not, which no instruction that uses this accepts. -/
def placeAddr : Place → Long
  | .mem a => a
  | _ => 0

/-- The address of the first extension word of an EA that follows the operation word and `k` fixed words. -/
def extAddr (k : Nat) : M Long := fetch fun s => addrPlus s.pc (2 + 2 * k)

/-- The number of words of an instruction with `k` fixed extension words and an EA. -/
def eaLength (k : Nat) (ea : Ea) : Nat := 1 + k + (eaWords ea).length

/-- A locked access of an instruction (20_memory.md R90). -/
def lockedAccess (a : Long) (sz : Size) (write : Bool) : M Access :=
  fetch fun s => { addr := a, size := .ofSize sz, tt := 0, tm := tmData s.sr, write := write, locked := true }

/-- A locked read, translated as a write (R90). -/
def readLocked (a : Long) (sz : Size) : M Long := do
  memRead (← lockedAccess a sz false)

/-- A locked write (R90). -/
def writeLocked (a : Long) (sz : Size) (v : Long) : M Unit := do
  memWrite (← lockedAccess a sz true) v

end Sys2Proof.Machine
end

