-- ==== Sys2Proof/Machine/FpCore.lean ====
section
/-!
DEFINITION. The floating-point unit's common parts: operand formats and tags (42_fp_instructions.md R262, R264), exact
results and their rounding (43_fp_exceptions.md R324, R325, R350), posting an exception (R301), and the delivery of a
result (R340).
-/
namespace Sys2Proof.Machine

/-! ### Extended-precision values (10_state.md R34; 42_fp_instructions.md R262) -/

/-- Tag code Normalized. -/
def tagNormalized : BitVec 3 := 0
/-- Tag code Zero. -/
def tagZero : BitVec 3 := 1
/-- Tag code Infinity. -/
def tagInfinity : BitVec 3 := 2
/-- Tag code NAN. -/
def tagNan : BitVec 3 := 3
/-- Tag code of an extended denormalized or unnormalized input. -/
def tagUnnormal : BitVec 3 := 4
/-- Tag code of a single or double denormalized input. -/
def tagDenormal : BitVec 3 := 5

/-- The tag of an extended-precision value (R262). -/
def tagOf (x : FpReal) : BitVec 3 :=
  if x.exp = 0x7FFF then (if x.man.extractLsb' 0 63 = 0 then tagInfinity else tagNan)
  else if x.man.getLsbD 63 then tagNormalized
  else if x.exp = 0 ∧ x.man = 0 then tagZero
  else tagUnnormal

/-- Whether a value is a NAN. -/
def isNan (x : FpReal) : Bool := tagOf x == tagNan
/-- Whether a value is a signaling NAN: its SNAN bit, mantissa bit 62, is 0 (R262). -/
def isSnan (x : FpReal) : Bool := isNan x && !x.man.getLsbD 62
/-- Whether a value is an infinity. -/
def isInf (x : FpReal) : Bool := tagOf x == tagInfinity
/-- Whether a value is a zero. -/
def isZero (x : FpReal) : Bool := tagOf x == tagZero

/-- A NAN with its SNAN bit set (43_fp_exceptions.md R313). -/
def quieten (x : FpReal) : FpReal := { x with man := x.man ||| 0x4000000000000000 }

/-- Zero of a sign. -/
def fpZero (sign : Bool) : FpReal := { sign := sign, exp := 0, man := 0 }
/-- Infinity of a sign (R323). -/
def fpInf (sign : Bool) : FpReal := { sign := sign, exp := 0x7FFF, man := 0 }
/-- The NAN an operand error delivers (R314). -/
def fpNanDefault : FpReal := { sign := false, exp := 0x7FFF, man := 0xFFFFFFFFFFFFFFFF }

/-- The bias of the extended format. -/
def fpBias : Int := 0x3FFF

/-- The exact value of an integer (R262). -/
def fpOfInt (n : Int) : FpReal :=
  let m := n.natAbs
  if m = 0 then fpZero false
  else
    let k := Nat.log2 m
    { sign := decide (n < 0), exp := BitVec.ofNat 15 (0x3FFF + k), man := BitVec.ofNat 64 (m * 2 ^ (63 - k)) }

/-- The 96-bit memory image of an extended value, as three long words (R262). -/
def extLongs (x : FpReal) : List Long :=
  [BitVec.ofBool x.sign ++ x.exp ++ 0#16, x.man.extractLsb' 32 32, x.man.extractLsb' 0 32]

/-- The extended value of a 96-bit memory image (R262). -/
def fpOfLongs (l0 l1 l2 : Long) : FpReal :=
  { sign := l0.getLsbD 31, exp := l0.extractLsb' 16 15, man := l1 ++ l2 }

/-! ### Source operands -/

/-- A source operand: its extended value, its tag, and, for packed decimal, its three long words as they stand (R262, R288,
R289). -/
structure FpOperand where
  val : FpReal
  tag : BitVec 3
  packed : Option (Long × Long × Long)
  deriving DecidableEq, Repr, Inhabited

/-- An extended value as an operand. -/
def operandOf (x : FpReal) : FpOperand := { val := x, tag := tagOf x, packed := none }

/-- The bytes of a source format (R262). -/
def fmtBytes : FpFmt → Nat
  | .b => 1 | .w => 2 | .l => 4 | .s => 4 | .d => 8 | .x => 12 | .p => 12

/-- A single-precision operand (R262). A denormalized one has its fraction in ETM[62:40] and an exponent field that is not
recoverable, so free (R310; log entry 32). -/
def fpOfSingle (v : Long) : M FpOperand :=
  let sign := v.getLsbD 31
  let e := v.extractLsb' 23 8
  let f := v.extractLsb' 0 23
  if e = 0xFF then pure (operandOf { sign := sign, exp := 0x7FFF, man := 0#1 ++ f ++ 0#40 })
  else if e ≠ 0 then
    pure (operandOf { sign := sign, exp := e.setWidth 15 + 0x3F80, man := 1#1 ++ f ++ 0#40 })
  else if f = 0 then pure (operandOf (fpZero sign))
  else do
    let ete ← draw Config.freeWord
    pure { val := { sign := sign, exp := ete.setWidth 15, man := 0#1 ++ f ++ 0#40 }, tag := tagDenormal, packed := none }

/-- A double-precision operand (R262, R310). -/
def fpOfDouble (hi lo : Long) : M FpOperand :=
  let v : BitVec 64 := hi ++ lo
  let sign := v.getLsbD 63
  let e := v.extractLsb' 52 11
  let f := v.extractLsb' 0 52
  if e = 0x7FF then pure (operandOf { sign := sign, exp := 0x7FFF, man := 0#1 ++ f ++ 0#11 })
  else if e ≠ 0 then
    pure (operandOf { sign := sign, exp := e.setWidth 15 + 0x3C00, man := 1#1 ++ f ++ 0#11 })
  else if f = 0 then pure (operandOf (fpZero sign))
  else do
    let ete ← draw Config.freeWord
    pure { val := { sign := sign, exp := ete.setWidth 15, man := 0#1 ++ f ++ 0#11 }, tag := tagDenormal, packed := none }

/-- A packed decimal operand: not interpreted. What ETS, ETE, the rest of ETEMP and STAG hold is free (R288, R290). -/
def fpOfPacked (l0 l1 l2 : Long) : M FpOperand := do
  let x ← draw Config.freeReal
  let t ← draw Config.freeByte
  pure { val := { x with man := l1 ++ l2 }, tag := t.setWidth 3, packed := some (l0, l1, l2) }

/-- The operand made of the long words of a format (R262). -/
def operandOfLongs (fmt : FpFmt) (ls : List Long) : M FpOperand :=
  match fmt, ls with
  | .b, v :: _ => pure (operandOf (fpOfInt (v.setWidth 8).toInt))
  | .w, v :: _ => pure (operandOf (fpOfInt (v.setWidth 16).toInt))
  | .l, v :: _ => pure (operandOf (fpOfInt v.toInt))
  | .s, v :: _ => fpOfSingle v
  | .d, hi :: lo :: _ => fpOfDouble hi lo
  | .x, l0 :: l1 :: l2 :: _ => pure (operandOf (fpOfLongs l0 l1 l2))
  | .p, l0 :: l1 :: l2 :: _ => fpOfPacked l0 l1 l2
  | _, _ => pure (operandOf (fpZero false))

/-- The operand size of a format of at most four bytes. -/
def fmtSize : FpFmt → Size
  | .b => .byte | .w => .word | _ => .long

/-- The long words of a place in a format: one for B, W, L and S, two for D, three for X and P (R264). -/
def readFpLongs (fmt : FpFmt) (p : Place) : M (List Long) :=
  match p with
  | .mem a => do
    match fmtBytes fmt with
    | 8 => readLongs a 2
    | 12 => readLongs a 3
    | _ => do
      let v ← readData a (fmtSize fmt)
      pure [v]
  | .imm ws =>
    let v := immValue ws
    match fmtBytes fmt with
    | 8 => pure [BitVec.ofNat 32 (v / 2 ^ 32), BitVec.ofNat 32 v]
    | 12 => pure [BitVec.ofNat 32 (v / 2 ^ 64), BitVec.ofNat 32 (v / 2 ^ 32), BitVec.ofNat 32 v]
    | _ => pure [BitVec.ofNat 32 v]
  | .d r => fetch fun s => [s.getD r]
  | .a r => fetch fun s => [s.getA r]

/-- A source operand with the address of its memory operand, if it has one (R264 `FpSource`). -/
def fpSource (src : FpSrc) : M (FpOperand × Option Long) :=
  match src with
  | .reg m => do
    let x ← fetch (State.getFp m)
    pure (operandOf x, none)
  | .ea fmt ea => do
    let ext ← extAddr 1
    let l ← locate ea (fmtBytes fmt) ext
    let ls ← readFpLongs fmt l.place
    commit l
    let o ← operandOfLongs fmt ls
    pure (o, match l.place with | .mem a => some a | _ => none)

/-- The number of words of an instruction with a command word and a source (R127). -/
def fpLength (src : FpSrc) : Nat :=
  match src with
  | .reg _ => 2
  | .ea _ ea => eaLength 1 ea

/-! ### Exact results and rounding -/

/-- An exact non-zero magnitude as R350 holds it: the exponent in the extended bias, the 64-bit mantissa with guard and
round below it (66 bits, the top one 1), and the sticky bit. -/
structure Inter where
  exp : Int
  man : Nat
  sticky : Bool
  deriving DecidableEq, Repr, Inhabited

/-- The magnitude `num / den * 2 ^ s`, `num` and `den` not 0. -/
def interOfRatio (num den : Nat) (s : Int) : Inter :=
  let l : Int := (Nat.log2 num : Int) - Nat.log2 den
  let k : Int := 66 - l
  let n := if 0 ≤ k then num * 2 ^ k.toNat else num
  let d := if 0 ≤ k then den else den * 2 ^ (-k).toNat
  let q := n / d
  let r := n % d
  if 2 ^ 66 ≤ q then { exp := l + s + fpBias, man := q / 2, sticky := q % 2 != 0 || r != 0 }
  else { exp := l - 1 + s + fpBias, man := q, sticky := r != 0 }

/-- The integer square root of `x`, whose root is below `acc + 2 ^ n`, bit by bit from bit `n - 1`. -/
def isqrtFrom (x : Nat) : Nat → Nat → Nat
  | 0, acc => acc
  | n + 1, acc => isqrtFrom x n (if (acc + 2 ^ n) * (acc + 2 ^ n) ≤ x then acc + 2 ^ n else acc)

/-- The power of 2 that the mantissa of a normalized value counts. -/
def unitExp (x : FpReal) : Int := (x.exp.toNat : Int) - fpBias - 63

/-- The exact square root of the magnitude of a normalized value (42_fp_instructions.md R271). -/
def interSqrt (x : FpReal) : Inter :=
  let e := unitExp x
  let odd := e % 2 != 0
  let m := if odd then x.man.toNat * 2 else x.man.toNat
  let h : Int := (if odd then e - 1 else e) / 2
  let v := m * 2 ^ 72
  let r := isqrtFrom v 70 0
  let i := interOfRatio r 1 (h - 36)
  { i with sticky := i.sticky || r * r != v }

/-- The exact magnitude of a normalized value. -/
def interOf (x : FpReal) : Inter := interOfRatio x.man.toNat 1 (unitExp x)

/-- The exact sum of two values that are normalized or zero, as an integer times a power of 2. -/
def exactSum (x y : FpReal) : Int × Int :=
  let e := min (unitExp x) (unitExp y)
  let part (z : FpReal) : Int :=
    let m : Int := (z.man.toNat * 2 ^ (unitExp z - e).toNat : Nat)
    if z.sign then -m else m
  (part x + part y, e)

/-- Rounding precision (10_state.md R35). -/
inductive Prec where
  | x | d | s
  deriving DecidableEq, Repr, Inhabited

/-- Mantissa bits of a precision (43_fp_exceptions.md R324, R340). -/
def Prec.bits : Prec → Nat
  | .x => 64 | .d => 53 | .s => 24

/-- FPCR.PREC; 11 is undefined (93 U12). -/
def precOf (fpcr : Long) : Option Prec :=
  match (fpcr.extractLsb' 6 2).toNat with
  | 0 => some .x | 1 => some .s | 2 => some .d | _ => none

/-- The rounding modes (R324). -/
inductive RoundMode where
  | rn | rz | rm | rp
  deriving DecidableEq, Repr, Inhabited

/-- FPCR.RND. -/
def roundModeOf (fpcr : Long) : RoundMode :=
  match (fpcr.extractLsb' 4 2).toNat with
  | 0 => .rn | 1 => .rz | 2 => .rm | _ => .rp

/-- Whether the rounding algorithm adds 1 to the least significant bit (R325). -/
def roundUp (mode : RoundMode) (sign lsb guard round sticky : Bool) : Bool :=
  if !guard && !round && !sticky then false
  else match mode with
    | .rm => sign
    | .rp => !sign
    | .rz => false
    | .rn => guard && (round || sticky || lsb)

/-- A rounded magnitude: exponent, 64-bit mantissa, whether it was inexact. -/
structure Rounded where
  exp : Int
  man : BitVec 64
  inexact : Bool
  deriving DecidableEq, Repr, Inhabited

/-- The guard, round and sticky bits of a magnitude at a boundary of `p` mantissa bits (R350). -/
def grsAt (p : Nat) (i : Inter) : Bool × Bool × Bool :=
  let cut := 66 - p
  (i.man.testBit (cut - 1), i.man.testBit (cut - 2), i.sticky || i.man % 2 ^ (cut - 2) != 0)

/-- `Round` (R325) at a boundary of `p` mantissa bits. -/
def roundAt (p : Nat) (mode : RoundMode) (sign : Bool) (i : Inter) : Rounded :=
  let cut := 66 - p
  let hi := i.man / 2 ^ cut
  let g := grsAt p i
  let up := roundUp mode sign (hi % 2 == 1) g.1 g.2.1 g.2.2
  let hi' := if up then hi + 1 else hi
  let inexact := g.1 || g.2.1 || g.2.2
  if hi' = 2 ^ p then { exp := i.exp + 1, man := BitVec.ofNat 64 (2 ^ 63), inexact := inexact }
  else { exp := i.exp, man := BitVec.ofNat 64 (hi' * 2 ^ (64 - p)), inexact := inexact }

/-- A magnitude rounded to an integer, and whether that changed it (R304 `RoundToInteger`). -/
def roundToInteger (mode : RoundMode) (x : FpReal) : Int × Bool :=
  let e := unitExp x
  let m := x.man.toNat
  let r : Nat × Bool :=
    if 0 ≤ e then (m * 2 ^ e.toNat, false)
    else
      let k := (-e).toNat
      let hi := m / 2 ^ k
      let guard := m.testBit (k - 1)
      let rest := m % 2 ^ (k - 1) != 0
      (if roundUp mode x.sign (hi % 2 == 1) guard false rest then hi + 1 else hi, guard || rest)
  (if x.sign then -(r.1 : Int) else r.1, r.2)

/-- Least exponents that are too small (R304, R319): for S and D the test is at most, for X below 0. -/
def underflows (p : Prec) (e : Int) : Bool :=
  match p with
  | .x => e < 0
  | .d => e ≤ 0x3C00
  | .s => e ≤ 0x3F80

/-- Exponents that are too large (R304, R316). -/
def overflows (p : Prec) (e : Int) : Bool :=
  match p with
  | .x => 0x7FFF ≤ e
  | .d => 0x43FF ≤ e
  | .s => 0x407F ≤ e

/-- The low 15 bits of an exponent (92 D43). -/
def exp15 (e : Int) : BitVec 15 := BitVec.ofInt 15 e

/-! ### Common steps and posting (42_fp_instructions.md R260, R261, R292; 43_fp_exceptions.md R301, R302) -/

/-- The pre-instruction exception of the floating-point instruction at `ia` (43_fp_exceptions.md R301). -/
def preInstructionExc (vector : Byte) (ia : Long) : Exc :=
  { vector := vector, cls := .restart, stackedPc := ia, format := .zero }

/-- Steps 4 and 5 of R260: a pending exception is reported; the null mode becomes idle. -/
def fpCommon : M Unit := fun s =>
  match s.fpu.pending with
  | some p => .error (.exc (preInstructionExc p.vector s.pc)) s
  | none => .ok () (if s.fpu.mode = .null then { s with fpu := { s.fpu with mode := .idle } } else s)

/-- The step common to the arithmetic instructions: FPIAR written and EXC cleared (R261; log entry 30). -/
def fpBegin (ia : Long) : M Unit :=
  update fun s => ({ s with fp := { s.fp with fpiar := ia } } : State).clearExc

/-- The fields of a state frame that an exception's case does not define are free (R292). -/
def freeFpu (u : Fpu) (n : Nat) : Fpu :=
  { u with cmdreg1b := Config.freeWord (n + 3), cmdreg3b := (Config.freeWord (n + 4)).setWidth 11,
           cuSavepc := Config.freeWord (n + 5), etemp := Config.freeReal n, fptemp := Config.freeReal (n + 1),
           wbtemp := Config.freeWbTemp (n + 6), stag := (Config.freeByte n).setWidth 3,
           dtag := (Config.freeByte (n + 1)).setWidth 3, fpiarcu := Config.freeLong n }

/-- The FPU once an exception has been posted: the fields its case defines, over free ones (R292; log entry 29). -/
def postedFpu (s : State) (ia : Long) (vector : Byte) (unit : FpUnit) (post : Bool) (fill : Fpu → Fpu) : Fpu :=
  let u := fill (freeFpu s.fpu s.freeCount)
  { u with pending := some { vector := vector, unit := unit, post := post }, e1 := unit == .e1, e3 := unit == .e3,
           t := post, fpiarcu := ia }

/-- An exception posted (R301; for a move out, R302, which then also takes it). -/
def postExc (ia : Long) (vector : Byte) (unit : FpUnit) (post : Bool) (fill : Fpu → Fpu) : M Unit :=
  update fun s => { s with fpu := postedFpu s ia vector unit post fill, freeCount := s.freeCount + 8 }

/-- The condition codes of a withheld result are free (93 U19). -/
def freeFpcc : M Unit := do
  let n ← draw Config.freeBit
  let z ← draw Config.freeBit
  let i ← draw Config.freeBit
  let nan ← draw Config.freeBit
  update (State.setFpcc n z i nan)

/-- CMDREG1B of a command word: FSQRT's $04 becomes $05 (R284). -/
def cmd1bOf (cw : Word) : Word := if cw.extractLsb' 0 7 = 4 then cw ||| 1 else cw

/-- CMDREG3B of a command word (R285). -/
def cmd3bOf (cw : Word) : BitVec 11 := 0#1 ++ cw.extractLsb' 7 3 ++ Config.cmd3b ((cmd1bOf cw).extractLsb' 0 7)

/-- The command word put into the register of the unit (R284, R285). -/
def withCommand (unit : FpUnit) (cw : Word) (u : Fpu) : Fpu :=
  match unit with
  | .e1 => { u with cmdreg1b := cmd1bOf cw }
  | .e3 => { u with cmdreg3b := cmd3bOf cw }

/-- The condition codes of a value (R264). -/
def setFpccOf (x : FpReal) (s : State) : State := s.setFpcc x.sign (isZero x) (isInf x) (isNan x)

/-- A result stored in a floating-point data register, with its condition codes (R264). -/
def fpStore (dst : RegNo) (x : FpReal) : M Unit := update fun s => setFpccOf x (s.setFp dst x)

/-- WBTEMP of a magnitude (R291, R340). -/
def wbTempOf (sign : Bool) (e15 : Bool) (e : Int) (man : BitVec 64) (guard round sticky : Bool) : WbTemp :=
  { wbts := sign, wbte := BitVec.ofBool e15 ++ exp15 e,
    wbtm := 0#1 ++ man ++ BitVec.ofBool guard ++ BitVec.ofBool round, sbit := sticky }

/-- `Finish` (43_fp_exceptions.md R340): a non-zero exact result delivered to a register. An inexact result that overflows sets
EXC.INEX2 too (log entry 56); the command word is among the fields that an inexact trap fills (log entry 57). -/
def finish (ia : Long) (cw : Word) (unit : FpUnit) (sign : Bool) (v : Inter) (prec : Option Prec) (dst : RegNo) :
    M Unit := do
  match prec with
  | none => refuse .undefinedPrecision
  | some p => do
    let fpcr ← fetch fun s => s.fp.fpcr
    let mode := roundModeOf fpcr
    if underflows p v.exp then
      update (State.setExc .unfl)
      let man := BitVec.ofNat 64 (v.man / 4)
      let g := grsAt 64 v
      let fill : Fpu → Fpu := fun u =>
        match unit with
        | .e1 => { u with fptemp := { sign := sign, exp := exp15 v.exp, man := man }, stag := tagNormalized }
        | .e3 => { u with wbtemp := wbTempOf sign true v.exp man g.1 g.2.1 g.2.2 }
      postExc ia FpExc.unfl.vector unit false (fun u => fill (withCommand unit cw u))
      freeFpcc
    else
      let r := roundAt p.bits mode sign v
      if r.inexact then update (State.setExc .inex2)
      if overflows p r.exp then
        update (State.setExc .ovfl)
        let fill : Fpu → Fpu := fun u =>
          match unit with
          | .e1 => { u with etemp := { sign := sign, exp := exp15 r.exp, man := r.man }, stag := tagNormalized }
          | .e3 => { u with wbtemp := wbTempOf sign false r.exp r.man false false false }
        postExc ia FpExc.ovfl.vector unit false (fun u => fill (withCommand unit cw u))
        freeFpcc
      else
        fpStore dst { sign := sign, exp := exp15 r.exp, man := r.man }
        if r.inexact && trapEnabled fpcr .inex2 then
          postExc ia FpExc.inex2.vector unit false (withCommand unit cw)
    update State.accrue

/-! ### The arithmetic instructions (42_fp_instructions.md R264-R272) -/

/-- The operations. -/
inductive FpOp where
  | move | abs | neg | sqrt | add | sub | mul | div | cmp | tst
  deriving DecidableEq, Repr, Inhabited

/-- Whether an operation has a destination operand besides its source. -/
def FpOp.dyadic : FpOp → Bool
  | .add | .sub | .mul | .div | .cmp => true
  | _ => false

/-- Whether an operation writes a register. -/
def FpOp.stores : FpOp → Bool
  | .cmp | .tst => false
  | _ => true

/-- What an arithmetic instruction works on, its operands fetched. -/
structure FpJob where
  ia : Long
  cw : Word
  op : FpOp
  src : FpOperand
  dst : RegNo
  /-- the destination operand -/
  dval : FpReal
  /-- the precision its form forces (FS, FD), else none: FPCR's -/
  form : Option Prec
  deriving DecidableEq, Repr, Inhabited

/-- The operands and tags of a state frame (R306, R313, R314). -/
def withOperands (j : FpJob) (etemp fptemp : FpReal) (u : Fpu) : Fpu :=
  let u1 := { u with cmdreg1b := cmd1bOf j.cw, etemp := etemp, stag := j.src.tag }
  if j.op.dyadic then { u1 with fptemp := fptemp, dtag := tagOf j.dval } else u1

/-- FPTEMP with the upper 32 bits of a packed operand; its other bits are those that were there, which are free (R289,
R306). -/
def withPacked (j : FpJob) (u : Fpu) : Fpu :=
  match j.src.packed with
  | none => u
  | some (l0, _, _) => { u with fptemp := { u.fptemp with man := u.fptemp.man.extractLsb' 32 32 ++ l0 } }

/-- Whether an operand is of an unimplemented data type (43_fp_exceptions.md R305). -/
def FpJob.unsupported (j : FpJob) : Bool :=
  j.src.packed.isSome || j.src.tag == tagUnnormal || j.src.tag == tagDenormal ||
    (j.op.dyadic && tagOf j.dval == tagUnnormal)

/-- The unimplemented data type exception of opclass 0x0 posted (R305, R306). -/
def postUnsupported (j : FpJob) : M Unit :=
  postExc j.ia 55 .e1 false fun u =>
    let u1 := { u with cmdreg1b := cmd1bOf j.cw, etemp := j.src.val }
    let u2 := if j.src.packed.isSome then u1 else { u1 with stag := j.src.tag }
    let u3 := if j.op.dyadic then { u2 with dtag := tagOf j.dval } else u2
    if j.src.packed.isSome then withPacked j u3
    else if j.op.dyadic then { u3 with fptemp := j.dval } else u3

/-- A result stored, or for FCMP and FTST the condition codes alone (R264, R272). -/
def deliver (j : FpJob) (x : FpReal) : M Unit :=
  match j.op with
  | .cmp => update (State.setFpcc false (isZero x) false (isNan x))
  | .tst => update (setFpccOf x)
  | _ => fpStore j.dst x

/-- A withheld result: its condition codes are free, but FCMP and FTST have none to withhold (R313; 93 U19). -/
def withhold (j : FpJob) (x : FpReal) : M Unit :=
  if j.op.stores then freeFpcc else deliver j x

/-- SNAN with a floating-point register destination (43_fp_exceptions.md R313). -/
def doSnan (j : FpJob) (nan : FpReal) : M Unit := do
  update (State.setExc .snan)
  let fpcr ← fetch fun s => s.fp.fpcr
  if trapEnabled fpcr .snan then
    let set (x : FpReal) : FpReal := if isSnan x then quieten x else x
    postExc j.ia FpExc.snan.vector .e1 false (withOperands j (set j.src.val) (set j.dval))
    withhold j (quieten nan)
  else deliver j (quieten nan)
  update State.accrue

/-- OPERR with a floating-point register destination (R314). -/
def doOperr (j : FpJob) : M Unit := do
  update (State.setExc .operr)
  let fpcr ← fetch fun s => s.fp.fpcr
  if trapEnabled fpcr .operr then
    postExc j.ia FpExc.operr.vector .e1 false (withOperands j j.src.val j.dval)
    freeFpcc
  else fpStore j.dst fpNanDefault
  update State.accrue

/-- DZ (R323). -/
def doDz (j : FpJob) (sign : Bool) : M Unit := do
  update (State.setExc .dz)
  let fpcr ← fetch fun s => s.fp.fpcr
  if trapEnabled fpcr .dz then
    postExc j.ia FpExc.dz.vector .e1 false fun u =>
      { u with cmdreg1b := cmd1bOf j.cw, etemp := j.src.val, stag := j.src.tag, fptemp := j.dval }
    freeFpcc
  else fpStore j.dst (fpInf sign)
  update State.accrue

/-- `RoundPrec` (R264). -/
def roundPrec (form : Option Prec) (fpcr : Long) : Option Prec :=
  match form with
  | some p => some p
  | none => precOf fpcr

/-- A special result, which is stored as it is (R264). -/
def special (j : FpJob) (x : FpReal) : M Unit := do
  fpStore j.dst x
  update State.accrue

/-- A normalized result delivered by `Finish`. -/
def finishJob (j : FpJob) (unit : FpUnit) (sign : Bool) (v : Inter) : M Unit := do
  let fpcr ← fetch fun s => s.fp.fpcr
  finish j.ia j.cw unit sign v (roundPrec j.form fpcr) j.dst

/-- FMOVE, FABS, FNEG with the sign of the result (R265, R266). -/
def doMove (j : FpJob) (sign : Bool) : M Unit :=
  let x := { j.src.val with sign := sign }
  if isZero x || isInf x then special j x else finishJob j .e1 sign (interOf x)

/-- FADD, and FSUB with the source's sign inverted (R267). Of two infinities of one sign the destination's is the result: the
rule names one infinity only (log entry 55). -/
def doAdd (j : FpJob) (s : FpReal) : M Unit := do
  let d := j.dval
  if isInf d && isInf s then
    if d.sign != s.sign then doOperr j else special j d
  else if isInf d then special j d
  else if isInf s then special j s
  else
    let r := exactSum d s
    if r.1 = 0 then
      let fpcr ← fetch fun s => s.fp.fpcr
      let sign := if isZero d && isZero s && d.sign == s.sign then d.sign else roundModeOf fpcr == .rm
      special j (fpZero sign)
    else finishJob j .e3 (decide (r.1 < 0)) (interOfRatio r.1.natAbs 1 r.2)

/-- FMUL (R268). -/
def doMul (j : FpJob) : M Unit :=
  let d := j.dval
  let s := j.src.val
  let sign := d.sign != s.sign
  if (isZero d && isInf s) || (isInf d && isZero s) then doOperr j
  else if isInf d || isInf s then special j (fpInf sign)
  else if isZero d || isZero s then special j (fpZero sign)
  else finishJob j .e3 sign (interOfRatio (d.man.toNat * s.man.toNat) 1 (unitExp d + unitExp s))

/-- FDIV (R269). -/
def doDiv (j : FpJob) : M Unit :=
  let d := j.dval
  let s := j.src.val
  let sign := d.sign != s.sign
  if (isZero d && isZero s) || (isInf d && isInf s) then doOperr j
  else if isInf d then special j (fpInf sign)
  else if isZero s then doDz j sign
  else if isInf s || isZero d then special j (fpZero sign)
  else finishJob j .e3 sign (interOfRatio d.man.toNat s.man.toNat (unitExp d - unitExp s))

/-- FSQRT (R271). -/
def doSqrt (j : FpJob) : M Unit :=
  let s := j.src.val
  if isZero s then special j s
  else if s.sign then doOperr j
  else if isInf s then special j s
  else finishJob j .e3 false (interSqrt s)

/-- FCMP of operands that are no NANs (R272): the sign and the zero of `d - s`. -/
def doCmp (j : FpJob) : M Unit := do
  let d := j.dval
  let s := j.src.val
  let order : Int :=
    if isInf d && isInf s then (if d.sign == s.sign then 0 else if d.sign then -1 else 1)
    else if isInf d then (if d.sign then -1 else 1)
    else if isInf s then (if s.sign then 1 else -1)
    else (exactSum d { s with sign := !s.sign }).1
  update (State.setFpcc (decide (order < 0)) (order == 0) false false)
  update State.accrue

/-- The operation itself, on operands that are no NANs. -/
def operate (j : FpJob) : M Unit :=
  match j.op with
  | .move => doMove j j.src.val.sign
  | .abs => doMove j false
  | .neg => doMove j (!j.src.val.sign)
  | .sqrt => doSqrt j
  | .add => doAdd j j.src.val
  | .sub => doAdd j { j.src.val with sign := !j.src.val.sign }
  | .mul => doMul j
  | .div => doDiv j
  | .cmp => doCmp j
  | .tst => do
    update (setFpccOf j.src.val)
    update State.accrue

/-- An arithmetic instruction from the point after operand fetch: FPIAR and EXC, then the checks of R264 in their order,
then the operation. -/
def runJob (j : FpJob) : M Unit := do
  fpBegin j.ia
  let dnan := j.op.dyadic && isNan j.dval
  let nan := if dnan then j.dval else j.src.val
  if j.unsupported then postUnsupported j
  else if isSnan j.src.val || (j.op.dyadic && isSnan j.dval) then doSnan j nan
  else if isNan j.src.val || dnan then
    deliver j nan
    update State.accrue
  else operate j

/-- An arithmetic instruction with a register destination (R264). -/
def fpArith (op : FpOp) (form : Option Prec) (cmd : BitVec 7) (src : FpSrc) (dst : RegNo) (s : State) :
    Host.Outcome State Fault Refusal :=
  runInstr (fpLength src) (fun _ => do
    fpCommon
    let o ← fpSource src
    let d ← fetch (State.getFp dst)
    let ia ← fetch State.pc
    runJob { ia := ia, cw := commandWord cmd src dst, op := op, src := o.1, dst := dst, dval := d, form := form }
    pure .seq) s

end Sys2Proof.Machine
end

