-- ==== Sys2Proof/Machine/FpState.lean ====
section
/-!
DEFINITION. FSAVE, FRESTORE and the state frames (42_fp_instructions.md R280-R293; 43_fp_exceptions.md R341), and the
floating-point unit's reset state (R281; 10_state.md R65).
-/
namespace Sys2Proof.Machine

open Config (FpuField)

/-! ### The fields of a frame (R283-R291) -/

/-- A field of the FPU as a number. -/
def fpuFieldValue (f : FpuField) (u : Fpu) : Nat :=
  match f with
  | .cmdreg1b => u.cmdreg1b.toNat
  | .cmdreg3b => u.cmdreg3b.toNat
  | .cuSavepc => u.cuSavepc.toNat
  | .e1 => u.e1.toNat
  | .e3 => u.e3.toNat
  | .t => u.t.toNat
  | .stag => u.stag.toNat
  | .dtag => u.dtag.toNat
  | .fpiarcu => u.fpiarcu.toNat
  | .ets => u.etemp.sign.toNat
  | .ete => u.etemp.exp.toNat
  | .etm => u.etemp.man.toNat
  | .fpts => u.fptemp.sign.toNat
  | .fpte => u.fptemp.exp.toNat
  | .fptm => u.fptemp.man.toNat
  | .wbts => u.wbtemp.wbts.toNat
  | .wbte15 => (u.wbtemp.wbte.getLsbD 15).toNat
  | .wbte => (u.wbtemp.wbte.extractLsb' 0 15).toNat
  | .wbtm66 => (u.wbtemp.wbtm.getLsbD 66).toNat
  | .wbtm => (u.wbtemp.wbtm.extractLsb' 2 64).toNat
  | .wbtm1 => (u.wbtemp.wbtm.getLsbD 1).toNat
  | .wbtm0 => (u.wbtemp.wbtm.getLsbD 0).toNat
  | .sbit => u.wbtemp.sbit.toNat

/-- A field of the FPU set from a number. -/
def setFpuField (f : FpuField) (v : Nat) (u : Fpu) : Fpu :=
  let b := v % 2 == 1
  let w := u.wbtemp
  let m := w.wbtm
  match f with
  | .cmdreg1b => { u with cmdreg1b := BitVec.ofNat 16 v }
  | .cmdreg3b => { u with cmdreg3b := BitVec.ofNat 11 v }
  | .cuSavepc => { u with cuSavepc := BitVec.ofNat 16 v }
  | .e1 => { u with e1 := b }
  | .e3 => { u with e3 := b }
  | .t => { u with t := b }
  | .stag => { u with stag := BitVec.ofNat 3 v }
  | .dtag => { u with dtag := BitVec.ofNat 3 v }
  | .fpiarcu => { u with fpiarcu := BitVec.ofNat 32 v }
  | .ets => { u with etemp := { u.etemp with sign := b } }
  | .ete => { u with etemp := { u.etemp with exp := BitVec.ofNat 15 v } }
  | .etm => { u with etemp := { u.etemp with man := BitVec.ofNat 64 v } }
  | .fpts => { u with fptemp := { u.fptemp with sign := b } }
  | .fpte => { u with fptemp := { u.fptemp with exp := BitVec.ofNat 15 v } }
  | .fptm => { u with fptemp := { u.fptemp with man := BitVec.ofNat 64 v } }
  | .wbts => { u with wbtemp := { w with wbts := b } }
  | .wbte15 => { u with wbtemp := { w with wbte := BitVec.ofBool b ++ w.wbte.extractLsb' 0 15 } }
  | .wbte => { u with wbtemp := { w with wbte := w.wbte.extractLsb' 15 1 ++ BitVec.ofNat 15 v } }
  | .wbtm66 => { u with wbtemp := { w with wbtm := BitVec.ofBool b ++ m.extractLsb' 0 66 } }
  | .wbtm => { u with wbtemp := { w with wbtm := m.extractLsb' 66 1 ++ BitVec.ofNat 64 v ++ m.extractLsb' 0 2 } }
  | .wbtm1 => { u with wbtemp := { w with wbtm := m.extractLsb' 2 65 ++ BitVec.ofBool b ++ m.extractLsb' 0 1 } }
  | .wbtm0 => { u with wbtemp := { w with wbtm := m.extractLsb' 1 66 ++ BitVec.ofBool b } }
  | .sbit => { u with wbtemp := { w with sbit := b } }

/-- Bit `i` of a frame's body, counted from its first byte's most significant bit: the bit of the field that lies there,
none where no field does (R282). -/
def frameBit (fields : List FpuField) (pos : FpuField → Nat) (u : Fpu) (i : Nat) : Option Bool :=
  match fields.find? fun f => pos f ≤ i && i < pos f + f.width with
  | none => none
  | some f => some ((fpuFieldValue f u).testBit (f.width - 1 - (i - pos f)))

/-- The number whose bits, most significant first, are `f 0` to `f (n - 1)`. -/
def numOfBits (f : Nat → Bool) : Nat → Nat
  | 0 => 0
  | n + 1 => 2 * numOfBits f n + (f n).toNat

/-- Byte `k` of a frame's body; a bit that no field covers is free (93 U10). -/
def frameByte (fields : List FpuField) (pos : FpuField → Nat) (u : Fpu) (free : Nat) (k : Nat) : Byte :=
  BitVec.ofNat 8 (numOfBits (fun j =>
    (frameBit fields pos u (8 * k + j)).getD ((Config.freeFrameByte free k).getLsbD (7 - j))) 8)

/-- The four kinds of state frame (R282). -/
inductive FrameKind where
  | null | idle | unimp | busy
  deriving DecidableEq, Repr, Inhabited

/-- The number of bytes after the first long word. -/
def bodySize : FrameKind → Nat
  | .null => Config.nullFrameBytes - 4
  | .idle => Config.idleSize
  | .unimp => Config.unimpSize
  | .busy => Config.busySize

/-- The fields of a kind. -/
def frameFieldsOf : FrameKind → List FpuField
  | .unimp => Config.unimpFields
  | .busy => Config.busyFields
  | _ => []

/-- The positions of a kind's fields. -/
def layoutOf : FrameKind → FpuField → Nat
  | .unimp => Config.unimpLayout
  | _ => Config.busyLayout

/-- The first long word of a frame: version (0 for the null frame), size byte, reserved bits free (R282; 92 D22). -/
def frameHeader (k : FrameKind) (free : Nat) : Long :=
  (if k = .null then 0#8 else Config.fpuVersion) ++ BitVec.ofNat 8 (bodySize k) ++ Config.freeWord free

/-- Long word `j` of a frame's body. -/
def frameLong (k : FrameKind) (u : Fpu) (free j : Nat) : Long :=
  let byte (i : Nat) : Byte := frameByte (frameFieldsOf k) (layoutOf k) u free (4 * j + i)
  byte 0 ++ byte 1 ++ byte 2 ++ byte 3

/-- `BuildFrame` (R282): the long words of a frame. -/
def buildFrame (k : FrameKind) (u : Fpu) (free : Nat) : List Long :=
  frameHeader k free :: (List.range (bodySize k / 4)).map (frameLong k u free)

/-- Bit `i` of a list of long words. -/
def longsBit (ls : List Long) (i : Nat) : Bool := ((ls[i / 32]?).getD 0).getLsbD (31 - i % 32)

/-- The value of a field in a body. -/
def fieldOfBody (pos : FpuField → Nat) (ls : List Long) (f : FpuField) : Nat :=
  numOfBits (fun j => longsBit ls (pos f + j)) f.width

/-- The FPU's fields loaded from a body (R281). -/
def loadFields (pos : FpuField → Nat) (ls : List Long) : List FpuField → Fpu → Fpu
  | [], u => u
  | f :: fs, u => loadFields pos ls fs (setFpuField f (fieldOfBody pos ls f) u)

/-! ### FSAVE -/

/-- Which frame FSAVE writes (R280; 92 D33). -/
def frameKindOf (u : Fpu) : FrameKind :=
  if u.mode = .unimp then .unimp
  else if u.pending.isSome then .busy
  else if u.mode = .null then .null
  else .idle

/-- The FPU after FSAVE (R280). -/
def afterSave (u : Fpu) : Fpu :=
  { u with pending := none, mode := if u.mode = .null then .null else .idle }

/-- FSAVE (R280). The CU_SAVEPC it stores has no defined value (93 U8). R280 says of the frame's long-word transfers "order not
stated"; that it is written from its lowest address up is the model's choice (log entry 61). -/
def execFsave (ea : Ea) (s : State) : Host.Outcome State Fault Refusal :=
  runInstr (eaLength 0 ea) (fun _ => do
    requireSupervisor
    let u ← fetch fun s => s.fpu
    let free ← draw id
    let _ ← draw id
    let k := frameKindOf u
    let ls := buildFrame k { u with cuSavepc := Config.freeWord (free + 1) } free
    let ext ← extAddr 0
    let l ← locate ea (4 + bodySize k) ext
    writeLongs (placeAddr l.place) ls
    commit l
    update fun s => { s with fpu := afterSave s.fpu }
    pure .seq) s

/-! ### FRESTORE -/

/-- The floating-point unit in its reset state: null, nothing pending; what the source states no reset value for is free,
indexed from `n` (R281; 10_state.md R65; log entries 5, 35). -/
def resetFpu (n : Nat) (s : State) : State :=
  { s with
    fp := { fp := Bank.ofFn fun i => Config.freeReal (n + 8 + 2 * i), fpcr := Config.freeLong (n + 1) &&& fpcrMask,
            fpsr := Config.freeLong (n + 2) &&& fpsrMask, fpiar := Config.freeLong (n + 3) }
    fpu := { freeFpu s.fpu n with
             mode := .null, pending := none, e1 := Config.freeBit (n + 30), e3 := Config.freeBit (n + 31),
             t := Config.freeBit (n + 32) } }

/-- The number of free values `resetFpu` uses. -/
def resetFpuDraws : Nat := 40

/-- Whether the format field of a command word names packed decimal (43_fp_exceptions.md R341). -/
def namesPacked (cw : Word) : Bool :=
  match (cw.extractLsb' 13 3).toNat, (cw.extractLsb' 10 3).toNat with
  | 2, 3 => true
  | 3, 3 => true
  | 3, 7 => true
  | _, _ => false

/-- Whether a command word is a move out in format B, W or L. -/
def movesOutInteger (cw : Word) : Bool :=
  cw.extractLsb' 13 3 == 3 && (cw.extractLsb' 10 3 == 0 || cw.extractLsb' 10 3 == 4 || cw.extractLsb' 10 3 == 6)

/-- Whether an exception whose EXC bit is set traps (R341). -/
def trapsOf (fpcr : Long) (cw : Word) (x : FpExc) : Bool :=
  trapEnabled fpcr x || x == .ovfl || x == .unfl || ((x == .snan || x == .operr) && movesOutInteger cw)

/-- The exceptions in priority order (R300, R341). -/
def fpExcOrder : List FpExc := [.bsun, .snan, .operr, .ovfl, .unfl, .dz, .inex2, .inex1]

/-- `TrapVector` of a restored busy frame (R341). -/
def trapVector (u : Fpu) (fpsr fpcr : Long) : Option Byte :=
  let odd (t : BitVec 3) : Bool := t == tagUnnormal || t == tagDenormal
  if u.e1 && (odd u.stag || odd u.dtag || namesPacked u.cmdreg1b) then some 55
  else
    match fpExcOrder.find? fun x => excSet fpsr x && trapsOf fpcr u.cmdreg1b x with
    | some x => some x.vector
    | none => none

/-- The arithmetic operation and form of the command bits of CMDREG1B, where FSQRT is $05 (R284). -/
def opOfCmd (cmd : BitVec 7) : Option (FpOp × Option Prec) :=
  match cmd.toNat with
  | 0x00 => some (.move, none) | 0x40 => some (.move, some .s) | 0x44 => some (.move, some .d)
  | 0x18 => some (.abs, none) | 0x58 => some (.abs, some .s) | 0x5C => some (.abs, some .d)
  | 0x1A => some (.neg, none) | 0x5A => some (.neg, some .s) | 0x5E => some (.neg, some .d)
  | 0x04 | 0x05 => some (.sqrt, none) | 0x41 => some (.sqrt, some .s) | 0x45 => some (.sqrt, some .d)
  | 0x22 => some (.add, none) | 0x62 => some (.add, some .s) | 0x66 => some (.add, some .d)
  | 0x28 => some (.sub, none) | 0x68 => some (.sub, some .s) | 0x6C => some (.sub, some .d)
  | 0x23 => some (.mul, none) | 0x63 => some (.mul, some .s) | 0x67 => some (.mul, some .d)
  | 0x20 => some (.div, none) | 0x60 => some (.div, some .s) | 0x64 => some (.div, some .d)
  | 0x38 => some (.cmp, none) | 0x3A => some (.tst, none)
  | _ => none

/-- Whether a command word is of opclass 000, or of opclass 010 with a source format: with SRC = 111 it is FMOVECR, no
arithmetic command (30_encoding.md R130). -/
def opclass0x0 (cw : Word) : Bool :=
  cw.extractLsb' 13 3 == 0 || (cw.extractLsb' 13 3 == 2 && cw.extractLsb' 10 3 != 7)

/-- The instruction that a restored busy frame completes, if it does (R293): source ETEMP, destination operand FPTEMP,
classified by value (log entry 36). -/
def continuedJob (u : Fpu) : Option FpJob :=
  if u.e1 || u.e3 || u.t || !opclass0x0 u.cmdreg1b || u.cuSavepc != Config.cuSavepcContinue then none
  else match opOfCmd (u.cmdreg1b.extractLsb' 0 7) with
    | none => none
    | some (op, form) =>
      let cw := if u.cmdreg1b.extractLsb' 0 7 = 5 then u.cmdreg1b ^^^ 1 else u.cmdreg1b
      some { ia := u.fpiarcu, cw := cw, op := op, src := operandOf u.etemp, dst := u.cmdreg1b.extractLsb' 7 3,
             dval := u.fptemp, form := form }

/-- What follows a restored busy frame (R293). With E1 and E3 both set the exception is E3's, which R287 has handlers look at
first (log entry 53). -/
def afterBusy : M Unit := do
  let u ← fetch fun s => s.fpu
  let fp ← fetch fun s => s.fp
  if u.e1 || u.e3 then
    let p : Option Pending := match trapVector u fp.fpsr fp.fpcr with
      | some v => some { vector := v, unit := if u.e3 then .e3 else .e1, post := false }
      | none => none
    update fun s => { s with fpu := { s.fpu with pending := p } }
  else match continuedJob u with
    | some j => runJob j
    | none => pure ()

/-- The kind of a frame by its first long word; none for a format error (R281). -/
def kindOfHeader (h : Long) : Option FrameKind :=
  let version := h.extractLsb' 24 8
  let size := (h.extractLsb' 16 8).toNat
  if version = 0 then some .null
  else if version ≠ Config.fpuVersion then none
  else if size = Config.unimpSize then some .unimp
  else if size = Config.busySize then some .busy
  else if size = Config.idleSize then some .idle
  else none

/-- The address register that FRESTORE (An)+ writes. -/
def restoreStep (ea : Ea) (v : Long) : M Unit :=
  match ea with
  | .postInc r => update (State.setA r v)
  | _ => pure ()

/-- FRESTORE (R281, R293): the whole frame is read before the FPU changes, from its lowest address up (log entry 61). -/
def execFrestore (ea : Ea) (s : State) : Host.Outcome State Fault Refusal :=
  runInstr (eaLength 0 ea) (fun _ => do
    requireSupervisor
    let ext ← extAddr 0
    let l ← locate ea 0 ext
    let a := placeAddr l.place
    let h ← readData a .long
    let ia ← fetch State.pc
    match kindOfHeader h with
    | none => raise { vector := 14, cls := .restart, stackedPc := ia, format := .zero }
    | some .null =>
      update fun s => { resetFpu s.freeCount s with freeCount := s.freeCount + resetFpuDraws }
      restoreStep ea (addrPlus a Config.nullFrameBytes)
      pure .seq
    | some k =>
      let ls ← readLongs (addrPlus a 4) (bodySize k / 4)
      restoreStep ea (addrPlus a (4 + bodySize k))
      update fun s =>
        { s with fpu := { loadFields (layoutOf k) ls (frameFieldsOf k) s.fpu with
                          mode := if k = .unimp then .unimp else .idle, pending := none } }
      if k = .busy then afterBusy
      pure .seq) s

end Sys2Proof.Machine
end

