-- ==== Sys2Proof/Machine/Boundary.lean ====
section
/-!
DEFINITION. What happens at an instruction boundary and outside the decoded instructions: the environment's moves (00_scope.md
R12), reset (60_exceptions.md R420), interrupts (R440-R447), instruction fetch (10_state.md R43; 60_exceptions.md R425), and
the instructions that the spec leaves to `exec_other` (92 D2).
-/
namespace Sys2Proof.Machine

/-! ### The environment (log entry 8) -/

/-- The boundary with no more moves listed: no reset, no request, no write. -/
def quietInput : BoundaryInput := { rsti := false, ipl := 0, iack := .avec, writes := [], tea := none }

/-- The environment's next move. -/
def State.input (s : State) : BoundaryInput := s.env.inputs.headD quietInput

/-- The state once the environment has made its move: other masters' writes and the TEA ranges. -/
def State.applyInput (s : State) : State :=
  let i := s.input
  { s with mem := Memory.writes s.mem i.writes
           env := { s.env with inputs := s.env.inputs.tail, tea := i.tea.getD s.env.tea } }

/-! ### Reset (60_exceptions.md R420) -/

/-- Steps 1 to 7 of reset: the values it states, and a free value for every register it does not name (10_state.md R65;
log entry 5). Memory is unchanged. -/
def State.resetRegisters (s : State) : State :=
  let n := s.freeCount
  let ttr (k : Nat) : Long := Config.freeLong (n + k) &&& Config.ttrMask &&& 0xFFFF7FFF
  let long (k : Nat) : Long := Config.freeLong (n + k)
  let s1 := resetFpu (n + 40) s
  { s1 with
    regs := { d := Bank.ofFn fun i => long i, a0 := long 8, a1 := long 9, a2 := long 10, a3 := long 11, a4 := long 12,
              a5 := long 13, a6 := long 14, usp := long 15, msp := long 16, isp := long 17 }
    ctl := { vbr := 0, cacr := 0, tc := 0x4000, itt0 := ttr 18, itt1 := ttr 19, dtt0 := ttr 20, dtt1 := ttr 21,
             urp := long 22 &&& Config.rpMask, srp := long 23 &&& Config.rpMask, mmusr := long 24,
             sfc := (Config.freeByte n).setWidth 3, dfc := (Config.freeByte (n + 1)).setWidth 3 }
    irq := { ipl := 0, iplPrev := 0, pending := none, nmiLatch := false }
    sr := 0x2700 ||| (Config.freeWord n &&& 0x001F)
    pc := long 25
    run := .running
    tracePending := false
    movemRestart := none
    atcFlushed := false
    freeCount := n + 40 + resetFpuDraws }

/-- The reset exception: ISP and PC from addresses 0 and 4; a fault on either read or an odd PC halts the processor (R420,
R424, R461). -/
def State.resetException (s : State) : State :=
  match load (supervisorAccess 0 .long false) s.resetRegisters with
  | .error _ t => { t with run := .halted }
  | .ok isp t =>
    match load (supervisorAccess 4 .long false) (t.setStack .isp isp) with
    | .error _ t => { t with run := .halted }
    | .ok pc t => if pc.getLsbD 0 then { t with run := .halted } else ({ t with pc := pc } : State).flowChanged

/-! ### Interrupts (60_exceptions.md R440-R445) -/

/-- The level that is recognised, given the sample, the mask and the latch (R441). -/
def recognised (level mask : BitVec 3) (latch : Bool) : Option (BitVec 3) :=
  if mask < level then some level else if latch then some 7 else none

/-- The level sampled at a boundary (R441). -/
def State.sample (s : State) (level : BitVec 3) : State :=
  let latch := s.irq.nmiLatch || (level == 7 && s.irq.iplPrev != 7)
  { s with irq := { ipl := level, iplPrev := level, pending := recognised level (srI s.sr) latch, nmiLatch := latch } }

/-- The vector number of an interrupt (R444). -/
def iackVector (level : BitVec 3) (answer : IackAnswer) : Byte :=
  match answer with
  | .vector n => n
  | .avec => 24 + level.setWidth 8
  | .tea => 24

/-- SR of step 1 of an interrupt: also the mask at the level being serviced (R445). -/
def interruptSr (sr : Word) (level : BitVec 3) : Word := (enterSupervisor sr &&& 0xF8FF) ||| (level.setWidth 16 <<< 8)

/-- The frames of an interrupt: format $0, and with M set format $1 on the interrupt stack as well (R445). -/
def State.interruptFrames (s : State) (vector : Byte) : List Frame :=
  if srM s.sr then
    [s.frameBelow .msp (frameHead s.sr s.pc 0 vector), s.frameBelow .isp (frameHead (s.sr ||| 0x2000) s.pc 1 vector)]
  else [s.frameBelow .isp (frameHead s.sr s.pc 0 vector)]

/-- The interrupt with a given vector attempted; M is clear afterwards (R445). -/
def State.tryInterrupt (s : State) (level : BitVec 3) (vector : Byte) : Attempt :=
  ({ s with sr := interruptSr s.sr level &&& 0xEFFF,
            irq := { s.irq with nmiLatch := s.irq.nmiLatch && level != 7 } } : State).attempt
    (s.interruptFrames vector) vector

/-- Interrupt exception processing (R444, R445), with R460 for a fault of its own accesses (log entry 25). An odd vector is
found when the handler's first word is to be fetched (R405, R461; log entry 26). -/
def State.takeInterrupt (s : State) (level : BitVec 3) (answer : IackAnswer) : State :=
  let s0 := s.emit (.interruptAcknowledge level)
  match s0.tryInterrupt level (iackVector level answer) with
  | .error (f, t) => ({ t with sr := s.sr, irq := s.irq } : State).takeAccessFault s.sr s.pc f
  | .ok (u, _) => u

/-! ### Instruction fetch (10_state.md R43; 92 D7) -/

/-- The access that fetches the instruction word at an address (R82; 61_access_fault_recovery.md R520). -/
def fetchAccess (sr : Word) (a : Long) : Access :=
  { addr := a, size := .word, tt := 0, tm := tmInstr sr, write := false, locked := false }

/-- The instruction word at an address, as it stands in memory when it is fetched. A word that this processor has written is
refused until a CPUSH of the data cache, a CINV of the instruction cache and a change of flow have followed, in any order
(20_memory.md R103; 70_reset_and_hazards.md R624; 92 D8; log entries 17, 58). -/
def fetchWord (a : Long) : M Word := fun s =>
  match route (fetchAccess s.sr a) s with
  | .error f t => .error (.access f) t
  | .ok as t =>
    if t.isModified as then .error (.refused .modifiedCode) t
    else .ok ((longOfBytes (as.map fun p => Memory.read t.mem p.toNat)).setWidth 16) t

/-- What instruction fetch and decoding come to. -/
inductive Fetched where
  | instr (i : Instr)
  | illegal
  /-- an instruction of `exec_other`, with the words fetched after its operation word -/
  | other (ws : List Word)
  deriving DecidableEq, Repr, Inhabited

/-- Words fetched one at a time as the decoder needs them (92 D7), `ws` being those fetched already. -/
def fetchInstr (ia : Long) : Nat → List Word → M Fetched
  | 0, _ => pure .illegal
  | fuel + 1, ws =>
    match decode ws with
    | .ok (i, _) => pure (.instr i)
    | .error .illegal => pure .illegal
    | .error .other => pure (.other ws.tail)
    | .error .more => do
      let w ← fetchWord (addrPlus ia (2 * ws.length))
      fetchInstr ia fuel (ws ++ [w])

/-! ### The instructions the spec leaves open (92 D2; log entry 10) -/

/-- The exceptions of 60_exceptions.md R412 that an instruction outside the opcode table can raise itself; A-line, F-line and
the floating-point ones belong to words that the table claims, and an illegal instruction is one before it has any effect. -/
inductive OtherExc where
  | trap (n : BitVec 4) (next : Long)
  | privilege
  | zeroDivide (next : Long)
  | chk (next : Long)
  | trapcc (next : Long)
  | addressError (target : Long)
  deriving DecidableEq, Repr, Inhabited

/-- The vector, frame and stacked program counter that R412 gives each of them, for the instruction at `ia`. -/
def OtherExc.toExc (ia : Long) : OtherExc → Exc
  | .trap n next => { vector := 32 + n.setWidth 8, cls := .restart, stackedPc := next, format := .zero }
  | .privilege => privilegeExc ia
  | .zeroDivide next => { vector := 5, cls := .restart, stackedPc := next, format := .two ia }
  | .chk next => { vector := 6, cls := .restart, stackedPc := next, format := .two ia }
  | .trapcc next => { vector := 7, cls := .restart, stackedPc := next, format := .two ia }
  | .addressError target => addressErrorExc ia target

/-- What an instruction of `exec_other` does: accesses to memory and writes of the registers, one after the other. It is data
of the model's parameter, never a part of State. -/
inductive OtherProg where
  /-- completed: the next PC and whether flow changed -/
  | done (target : Long) (flow : Bool)
  /-- an exception -/
  | raise (e : OtherExc)
  /-- a data read -/
  | load (addr : Long) (sz : Size) (k : Long → OtherProg)
  /-- a data write -/
  | store (addr : Long) (sz : Size) (v : Long) (k : OtherProg)
  | setD (n : RegNo) (v : Long) (k : OtherProg)
  | setA (n : RegNo) (v : Long) (k : OtherProg)
  /-- the condition codes -/
  | setCcr (v : Byte) (k : OtherProg)
  deriving Inhabited

/-- How `exec_other` reads an instruction: further words, until it is illegal, which has no other effect (40_trap_instructions.md
R171), or its program is known. -/
inductive OtherInstr where
  | illegal
  | word (k : Word → OtherInstr)
  | prog (p : OtherProg)
  deriving Inhabited

/-- `exec_other(state, ia, opword)`: uninterpreted (92 D2). -/
opaque execOther : State → Long → Word → OtherInstr

/-- The effect of an `exec_other` instruction: it reaches memory only through the access primitives and changes no SR bit
above the condition codes (92 D2). It gives the next PC and whether flow changed. -/
def runOther : OtherProg → M (Long × Bool)
  | .done t flow => pure (t, flow)
  | .raise e => fun s => .error (.exc (e.toExc s.pc)) s
  | .load a sz k => do
    let v ← readData a sz
    runOther (k v)
  | .store a sz v k => do
    writeData a sz v
    runOther k
  | .setD n v k => do
    update (State.setD n v)
    runOther k
  | .setA n v k => do
    update (State.setA n v)
    runOther k
  | .setCcr v k => do
    update fun s => { s with sr := (s.sr &&& 0xFFE0) ||| (v.setWidth 16 &&& 0x001F) }
    runOther k

/-- The words of an `exec_other` instruction from address `a` up, `ws` being those fetched already, then its effect. -/
def runOtherFrom (a : Long) (ws : List Word) : OtherInstr → M (Long × Bool)
  | .illegal => fun s => .error (.exc (illegalExc s.pc)) s
  | .word k => do
    let w ← match ws with
      | w :: _ => pure w
      | [] => fetchWord a
    runOtherFrom (addrPlus a 2) ws.tail (k w)
  | .prog p => runOther p

/-- An instruction that the spec leaves to `exec_other` (92 D2): its effect, then its completion or its exception. -/
def State.runOtherInstr (s : State) (w : Word) (ws : List Word) : Host.Outcome State Fault Refusal :=
  match runOtherFrom (addrPlus s.pc 2) ws (execOther s s.pc w) s with
  | .ok r t =>
    if r.1.getLsbD 0 then .next (t.takeException s.pc s.regs (addressErrorExc s.pc r.1))
    else if r.2 then .next ({ t with pc := r.1, tracePending := traceApplies s.sr (.jump r.1) } : State).flowChanged
    else .next { t with pc := r.1, tracePending := traceApplies s.sr .seq }
  | .error a t => t.aborted s.pc s.regs a

/-! ### The end of an instruction -/

/-- The trace exception of the instruction at `ia` (60_exceptions.md R435). -/
def traceExc (ia next : Long) : Exc := { vector := 9, cls := .trace, stackedPc := next, format := .two ia }

/-- The trace exception that an instruction left pending is taken in the same step (R410). -/
def finishStep (ia : Long) (o : Host.Outcome State Fault Refusal) : Host.Outcome State Fault Refusal :=
  match o with
  | .next s => if s.tracePending then .next (s.takeException ia s.regs (traceExc ia s.pc)) else .next s
  | o => o

end Sys2Proof.Machine
end

