-- ==== Sys2Proof/Machine/CacheMmu.lean ====
section
/-!
DEFINITION. Cache and translation-cache maintenance (41_system_instructions.md R210-R213): CINV, CPUSH, PFLUSH, PTEST.
-/
namespace Sys2Proof.Machine

/-- Whether a cache instruction of a scope covers a physical address: the line of 16 bytes that holds the one given, its page,
or all (R210). -/
def State.covers (s : State) (scope : BitVec 2) (addr : Long) (a : Nat) : Bool :=
  match scope.toNat with
  | 1 => a / 16 == addr.toNat / 16
  | 2 => s.pageOf (BitVec.ofNat 32 a) == s.pageOf addr
  | 3 => true
  | _ => false

/-- What a CINV makes of the bytes that this processor has written (20_memory.md R103; log entry 58). -/
def State.invalidateCode (caches scope : BitVec 2) (addr : Long) (s : State) : State :=
  if caches.getLsbD 1 then s.recordAct codeInvalidated (s.covers scope addr) else s

/-- What a CPUSH makes of them. -/
def State.pushCode (caches scope : BitVec 2) (addr : Long) (s : State) : State :=
  if caches.getLsbD 0 then s.recordAct codePushed (s.covers scope addr) else s

/-- CINV (R210): an event. No register and no memory changes; a CINV of the instruction cache counts for the bytes that this
processor has written (R103). -/
def execCinv (caches scope : BitVec 2) (an : RegNo) (s : State) : Host.Outcome State Fault Refusal :=
  runInstr 1 (fun _ => do
    requireSupervisor
    update fun s => (s.emit (.cacheInvalidate caches scope (s.getA an))).invalidateCode caches scope (s.getA an)
    pure .seq) s

/-- CPUSH (R211): an event; a CPUSH of the data cache counts for the bytes that this processor has written (R103). -/
def execCpush (caches scope : BitVec 2) (an : RegNo) (s : State) : Host.Outcome State Fault Refusal :=
  runInstr 1 (fun _ => do
    requireSupervisor
    update fun s => (s.emit (.cachePush caches scope (s.getA an))).pushCode caches scope (s.getA an)
    pure .seq) s

/-- PFLUSH (R212): an event. After it translation answers from the tables, whichever of the four operations it was
(70_reset_and_hazards.md R611; log entry 59). -/
def execPflush (op : BitVec 2) (an : RegNo) (s : State) : Host.Outcome State Fault Refusal :=
  runInstr 1 (fun _ => do
    requireSupervisor
    update fun s => { s.emit (.atcFlush op (s.getA an) s.ctl.dfc) with atcFlushed := true }
    pure .seq) s

/-- PTEST (R213). -/
def execPtest (read : Bool) (an : RegNo) (s : State) : Host.Outcome State Fault Refusal :=
  runInstr 1 (fun _ => do
    requireSupervisor
    update fun s =>
      { s with ctl := { s.ctl with mmusr := Config.translateStatus s.transRegs s.mem s.ctl.dfc (!read) (s.getA an) } }
    pure .seq) s

end Sys2Proof.Machine
end

