-- ==== Sys2Proof/Machine/FpArith.lean ====
section
/-!
DEFINITION. The floating-point arithmetic instructions with a register destination (42_fp_instructions.md R265-R272), each
in its three precisions: FPCR's, single (FS), double (FD).
-/
namespace Sys2Proof.Machine

/-- FMOVE (R265). -/
def execFmove (src : FpSrc) (dst : RegNo) (s : State) : Host.Outcome State Fault Refusal :=
  fpArith .move none 0x00 src dst s

/-- FSMOVE (R265). -/
def execFsmove (src : FpSrc) (dst : RegNo) (s : State) : Host.Outcome State Fault Refusal :=
  fpArith .move (some .s) 0x40 src dst s

/-- FDMOVE (R265). -/
def execFdmove (src : FpSrc) (dst : RegNo) (s : State) : Host.Outcome State Fault Refusal :=
  fpArith .move (some .d) 0x44 src dst s

/-- FABS (R266). -/
def execFabs (src : FpSrc) (dst : RegNo) (s : State) : Host.Outcome State Fault Refusal :=
  fpArith .abs none 0x18 src dst s

/-- FSABS (R266). -/
def execFsabs (src : FpSrc) (dst : RegNo) (s : State) : Host.Outcome State Fault Refusal :=
  fpArith .abs (some .s) 0x58 src dst s

/-- FDABS (R266). -/
def execFdabs (src : FpSrc) (dst : RegNo) (s : State) : Host.Outcome State Fault Refusal :=
  fpArith .abs (some .d) 0x5C src dst s

/-- FNEG (R266). -/
def execFneg (src : FpSrc) (dst : RegNo) (s : State) : Host.Outcome State Fault Refusal :=
  fpArith .neg none 0x1A src dst s

/-- FSNEG (R266). -/
def execFsneg (src : FpSrc) (dst : RegNo) (s : State) : Host.Outcome State Fault Refusal :=
  fpArith .neg (some .s) 0x5A src dst s

/-- FDNEG (R266). -/
def execFdneg (src : FpSrc) (dst : RegNo) (s : State) : Host.Outcome State Fault Refusal :=
  fpArith .neg (some .d) 0x5E src dst s

/-- FSQRT (R271). -/
def execFsqrt (src : FpSrc) (dst : RegNo) (s : State) : Host.Outcome State Fault Refusal :=
  fpArith .sqrt none 0x04 src dst s

/-- FSSQRT (R271). -/
def execFssqrt (src : FpSrc) (dst : RegNo) (s : State) : Host.Outcome State Fault Refusal :=
  fpArith .sqrt (some .s) 0x41 src dst s

/-- FDSQRT (R271). -/
def execFdsqrt (src : FpSrc) (dst : RegNo) (s : State) : Host.Outcome State Fault Refusal :=
  fpArith .sqrt (some .d) 0x45 src dst s

/-- FADD (R267). -/
def execFadd (src : FpSrc) (dst : RegNo) (s : State) : Host.Outcome State Fault Refusal :=
  fpArith .add none 0x22 src dst s

/-- FSADD (R267). -/
def execFsadd (src : FpSrc) (dst : RegNo) (s : State) : Host.Outcome State Fault Refusal :=
  fpArith .add (some .s) 0x62 src dst s

/-- FDADD (R267). -/
def execFdadd (src : FpSrc) (dst : RegNo) (s : State) : Host.Outcome State Fault Refusal :=
  fpArith .add (some .d) 0x66 src dst s

/-- FSUB (R267). -/
def execFsub (src : FpSrc) (dst : RegNo) (s : State) : Host.Outcome State Fault Refusal :=
  fpArith .sub none 0x28 src dst s

/-- FSSUB (R267). -/
def execFssub (src : FpSrc) (dst : RegNo) (s : State) : Host.Outcome State Fault Refusal :=
  fpArith .sub (some .s) 0x68 src dst s

/-- FDSUB (R267). -/
def execFdsub (src : FpSrc) (dst : RegNo) (s : State) : Host.Outcome State Fault Refusal :=
  fpArith .sub (some .d) 0x6C src dst s

/-- FMUL (R268). -/
def execFmul (src : FpSrc) (dst : RegNo) (s : State) : Host.Outcome State Fault Refusal :=
  fpArith .mul none 0x23 src dst s

/-- FSMUL (R268). -/
def execFsmul (src : FpSrc) (dst : RegNo) (s : State) : Host.Outcome State Fault Refusal :=
  fpArith .mul (some .s) 0x63 src dst s

/-- FDMUL (R268). -/
def execFdmul (src : FpSrc) (dst : RegNo) (s : State) : Host.Outcome State Fault Refusal :=
  fpArith .mul (some .d) 0x67 src dst s

/-- FDIV (R269). -/
def execFdiv (src : FpSrc) (dst : RegNo) (s : State) : Host.Outcome State Fault Refusal :=
  fpArith .div none 0x20 src dst s

/-- FSDIV (R269). -/
def execFsdiv (src : FpSrc) (dst : RegNo) (s : State) : Host.Outcome State Fault Refusal :=
  fpArith .div (some .s) 0x60 src dst s

/-- FDDIV (R269). -/
def execFddiv (src : FpSrc) (dst : RegNo) (s : State) : Host.Outcome State Fault Refusal :=
  fpArith .div (some .d) 0x64 src dst s

/-- FCMP (R272). -/
def execFcmp (src : FpSrc) (dst : RegNo) (s : State) : Host.Outcome State Fault Refusal :=
  fpArith .cmp none 0x38 src dst s

/-- FTST (R272). -/
def execFtst (src : FpSrc) (dst : RegNo) (s : State) : Host.Outcome State Fault Refusal :=
  fpArith .tst none 0x3A src dst s

end Sys2Proof.Machine
end

