-- ==== Sys2Proof/Machine/FpCond.lean ====
section
/-!
DEFINITION. The floating-point conditional instructions (42_fp_instructions.md R270, R273-R276; 43_fp_exceptions.md R312).
-/
namespace Sys2Proof.Machine

/-- `FpCond` (43_fp_exceptions.md R312): the pending check, the BSUN check for a non-aware predicate, the truth. -/
def fpCond (p : BitVec 5) : M Bool := do
  fpCommon
  let ia ← fetch State.pc
  let nan ← fetch fun s => fpNan s.fp.fpsr
  if p.getLsbD 4 && nan then
    update State.setBsun
    let fpcr ← fetch fun s => s.fp.fpcr
    if trapEnabled fpcr .bsun then raise (preInstructionExc FpExc.bsun.vector ia)
  fetch fun s => fpTruth p s.fp.fpsr

/-- A conditional branch to `target`: an odd target is an address error, taken or not (60_exceptions.md R425). -/
def branchTo (target : Long) (taken : Bool) : M Flow := do
  let ia ← fetch State.pc
  if taken then pure (.jump target)
  else if target.getLsbD 0 then raise (addressErrorExc ia target)
  else pure .seq

/-- FBcc with a displacement from the word after the operation word (R273). -/
def fpBranch (words : Nat) (p : BitVec 5) (d : Long) (s : State) : Host.Outcome State Fault Refusal :=
  runInstr words (fun _ => do
    let b ← fpCond p
    let ia ← fetch State.pc
    branchTo (addrPlus ia 2 + d) b) s

/-- FBcc.W (R273). -/
def execFbccW (p : BitVec 5) (d : Word) (s : State) : Host.Outcome State Fault Refusal :=
  fpBranch 2 p (d.signExtend 32) s

/-- FBcc.L (R273). -/
def execFbccL (p : BitVec 5) (d : Long) (s : State) : Host.Outcome State Fault Refusal := fpBranch 3 p d s

/-- FNOP (R273): the pending check and nothing else. -/
def execFnop (s : State) : Host.Outcome State Fault Refusal :=
  runInstr 2 (fun _ => do
    fpCommon
    pure .seq) s

/-- FScc (R275). -/
def execFscc (p : BitVec 5) (ea : Ea) (s : State) : Host.Outcome State Fault Refusal :=
  runInstr (eaLength 1 ea) (fun _ => do
    let b ← fpCond p
    let ext ← extAddr 1
    writeOperand ea .byte ext (if b then 0xFF else 0)
    pure .seq) s

/-- FDBcc (R276): the displacement counts from its own word. -/
def execFdbcc (p : BitVec 5) (dn : RegNo) (d : Word) (s : State) : Host.Outcome State Fault Refusal :=
  runInstr 3 (fun _ => do
    let b ← fpCond p
    let ia ← fetch State.pc
    let target := addrPlus ia 4 + d.signExtend 32
    if b then branchTo target false
    else
      let x ← fetch (State.getD dn)
      let c := x.setWidth 16 - (1 : Word)
      update (State.setDLow .word dn (c.setWidth 32))
      branchTo target (c != 0xFFFF)) s

/-- FTRAPcc taken or not (R274). -/
def fpTrap (words : Nat) (p : BitVec 5) (s : State) : Host.Outcome State Fault Refusal :=
  runInstr words (fun next => do
    let b ← fpCond p
    let ia ← fetch State.pc
    if b then raise { vector := 7, cls := .restart, stackedPc := next, format := .two ia } else pure .seq) s

/-- FTRAPcc.W #d (R274). -/
def execFtrapccW (p : BitVec 5) (_d : Word) (s : State) : Host.Outcome State Fault Refusal := fpTrap 3 p s

/-- FTRAPcc.L #d (R274). -/
def execFtrapccL (p : BitVec 5) (_d : Long) (s : State) : Host.Outcome State Fault Refusal := fpTrap 4 p s

/-- FTRAPcc (R274). -/
def execFtrapcc (p : BitVec 5) (s : State) : Host.Outcome State Fault Refusal := fpTrap 2 p s

end Sys2Proof.Machine
end

