-- ==== Sys2Proof/Machine/FpMove.lean ====
section
/-!
DEFINITION. Moves out of the floating-point registers and between register files: FMOVE FPn,ea (42_fp_instructions.md R277;
43_fp_exceptions.md R304), the control register moves (R278), FMOVEM of data registers (R279).
-/
namespace Sys2Proof.Machine

/-! ### FMOVE FPn,ea -/

/-- The bytes of a destination format (R262). -/
def outFmtBytes : FpOutFmt → Nat
  | .b => 1 | .w => 2 | .l => 4 | .s => 4 | .d => 8 | .x => 12 | .pStatic => 12 | .pDynamic => 12

/-- `pack` of a normalized value whose exponent is in the format's range: single (R304). -/
def packSingle (sign : Bool) (e : Int) (m : BitVec 64) : Long :=
  BitVec.ofBool sign ++ BitVec.ofInt 8 (e - 0x3F80) ++ m.extractLsb' 40 23

/-- `pack` of a normalized value: double (R304). -/
def packDouble (sign : Bool) (e : Int) (m : BitVec 64) : BitVec 64 :=
  BitVec.ofBool sign ++ BitVec.ofInt 11 (e - 0x3C00) ++ m.extractLsb' 11 52

/-- `Trunc` of a NAN, an infinity or a zero to single (R304). -/
def truncSingle (x : FpReal) : Long :=
  BitVec.ofBool x.sign ++ (if isZero x then 0#8 else 0xFF#8) ++ x.man.extractLsb' 40 23

/-- `Trunc` to double (R304). -/
def truncDouble (x : FpReal) : BitVec 64 :=
  BitVec.ofBool x.sign ++ (if isZero x then 0#11 else 0x7FF#11) ++ x.man.extractLsb' 11 52

/-- The two long words of a 64-bit image. -/
def quadLongs (v : BitVec 64) : List Long := [v.extractLsb' 32 32, v.extractLsb' 0 32]

/-- The precision of a real destination format. -/
def outPrec : FpOutFmt → Prec
  | .s => .s | .d => .d | _ => .x

/-- The long words of an infinity, a zero or a NAN in a real format (R304 `Trunc`). -/
def truncLongs (fmt : FpOutFmt) (x : FpReal) : List Long :=
  match fmt with
  | .s => [truncSingle x]
  | .d => quadLongs (truncDouble x)
  | _ => extLongs x

/-- The long words of a normalized value in a real format (R304 `pack`). -/
def packLongs (fmt : FpOutFmt) (sign : Bool) (e : Int) (m : BitVec 64) : List Long :=
  match fmt with
  | .s => [packSingle sign e m]
  | .d => quadLongs (packDouble sign e m)
  | _ => extLongs { sign := sign, exp := exp15 e, man := m }

/-- The number of bits of an integer format. -/
def outIntBits : FpOutFmt → Nat
  | .b => 8 | .w => 16 | _ => 32

/-- The operand size of a destination format of at most four bytes. -/
def outSize : FpOutFmt → Size
  | .b => .byte | .w => .word | _ => .long

/-- `Store` of R304: the long words of a result at its destination. -/
def storeOut (fmt : FpOutFmt) (p : Place) (ls : List Long) : M Unit :=
  match p with
  | .mem a =>
    match ls with
    | [v] => writeData a (outSize fmt) v
    | _ => writeLongs a ls
  | _ =>
    match ls with
    | v :: _ => writePlace (outSize fmt) p v
    | [] => pure ()

/-- An undefined result of a format (93 U16). -/
def freeOut (fmt : FpOutFmt) : M (List Long) := do
  let a ← draw Config.freeLong
  let b ← draw Config.freeLong
  match fmt with
  | .d => pure [a, b]
  | _ => pure [a]

/-- How a move out ends: the post-instruction exception it takes, if any, and whether FPTEMP and WBTEMP are among the
fields that its frame defines (R292). -/
structure OutEnd where
  vector : Option Byte
  fptemp : Bool
  wbtemp : Bool
  deriving DecidableEq, Repr, Inhabited

/-- No exception. -/
def outPlain : OutEnd := { vector := none, fptemp := false, wbtemp := false }
/-- An exception that defines no further field. -/
def outPost (vector : Byte) : OutEnd := { vector := some vector, fptemp := false, wbtemp := false }

/-- An inexact result traps when FPCR.INEX2 is set (R304). -/
def outInexact (fpcr : Long) (inexact : Bool) : OutEnd :=
  if inexact && trapEnabled fpcr .inex2 then outPost FpExc.inex2.vector else outPlain

/-- An undefined result stored (93 U16). -/
def storeFree (fmt : FpOutFmt) (p : Place) : M Unit := do
  let ls ← freeOut fmt
  storeOut fmt p ls

/-- R304 for a destination of format S, D or X. An inexact value that overflows sets EXC.INEX2 too (log entry 56). -/
def outReal (fmt : FpOutFmt) (p : Place) (x : FpReal) : M OutEnd := do
  let fpcr ← fetch fun s => s.fp.fpcr
  if isSnan x then
    update (State.setExc .snan)
    storeOut fmt p (truncLongs fmt (quieten x))
    update fun s => { s with fpu := { s.fpu with etemp := quieten x } }
    pure (if trapEnabled fpcr .snan then outPost FpExc.snan.vector else outPlain)
  else if isNan x || isInf x || isZero x then
    storeOut fmt p (truncLongs fmt x)
    pure outPlain
  else if outPrec fmt = .x then
    storeOut fmt p (extLongs x)
    pure outPlain
  else if underflows (outPrec fmt) x.exp.toNat then
    update (State.setExc .unfl)
    update fun s => { s with fpu := { s.fpu with fptemp := x } }
    storeFree fmt p
    pure { vector := some FpExc.unfl.vector, fptemp := true, wbtemp := false }
  else
    let r := roundAt (outPrec fmt).bits (roundModeOf fpcr) x.sign (interOf x)
    if r.inexact then update (State.setExc .inex2)
    if overflows (outPrec fmt) r.exp then
      update (State.setExc .ovfl)
      update fun s => { s with fpu := { s.fpu with etemp := { sign := x.sign, exp := exp15 r.exp, man := r.man } } }
      storeFree fmt p
      pure (outPost FpExc.ovfl.vector)
    else
      storeOut fmt p (packLongs fmt x.sign r.exp r.man)
      pure (outInexact fpcr r.inexact)

/-- R304 for a destination of format B, W or L; the bound `r <= -2^(n-1)` is the erratum of R315. -/
def outInteger (fmt : FpOutFmt) (p : Place) (x : FpReal) : M OutEnd := do
  let fpcr ← fetch fun s => s.fp.fpcr
  if isSnan x then
    update (State.setExc .snan)
    storeFree fmt p
    update fun s => { s with fpu := { s.fpu with etemp := quieten x } }
    pure (outPost FpExc.snan.vector)
  else if isNan x || isInf x then
    update (State.setExc .operr)
    storeFree fmt p
    pure (outPost FpExc.operr.vector)
  else if isZero x then
    storeOut fmt p [0]
    pure outPlain
  else
    let r := roundToInteger (roundModeOf fpcr) x
    let bound : Int := 2 ^ (outIntBits fmt - 1)
    if r.2 then update (State.setExc .inex2)
    update fun s => { s with fpu := { s.fpu with wbtemp := Config.packInteger r.1 } }
    if bound - 1 < r.1 ∨ r.1 ≤ -bound then
      update (State.setExc .operr)
      storeFree fmt p
      pure { vector := some FpExc.operr.vector, fptemp := false, wbtemp := true }
    else
      storeOut fmt p [BitVec.ofInt 32 r.1]
      pure (outInexact fpcr r.2)

/-- The body of R304 for a value and a destination. -/
def outBody (fmt : FpOutFmt) (p : Place) (x : FpReal) : M OutEnd :=
  if tagOf x = tagUnnormal then pure (outPost 55)
  else match fmt with
    | .pStatic | .pDynamic => pure (outPost 55)
    | .b | .w | .l => outInteger fmt p x
    | .s | .d | .x => outReal fmt p x

/-- The post-instruction exception of a move out posted and taken (43_fp_exceptions.md R302). -/
def raisePost (next : Long) (vector : Byte) (e : OutEnd) (ea : Option Long) : M Flow := do
  let ia ← fetch State.pc
  let old ← fetch fun s => s.fpu
  postExc ia vector .e1 true fun u =>
    { u with cmdreg1b := old.cmdreg1b, etemp := old.etemp, stag := old.stag,
             fptemp := if e.fptemp then old.fptemp else u.fptemp,
             wbtemp := if e.wbtemp then old.wbtemp else u.wbtemp }
  let free ← draw Config.freeLong
  raise { vector := vector, cls := .post, stackedPc := next, format := .three (ea.getD free) }

/-- FMOVE FPn,ea (42_fp_instructions.md R277; 43_fp_exceptions.md R304). -/
def execFmoveOut (fmt : FpOutFmt) (src : RegNo) (k : BitVec 7) (ea : Ea) (s : State) :
    Host.Outcome State Fault Refusal :=
  runInstr (eaLength 1 ea) (fun next => do
    fpCommon
    let ia ← fetch State.pc
    fpBegin ia
    let ext ← extAddr 1
    let l ← locate ea (outFmtBytes fmt) ext
    let x ← fetch (State.getFp src)
    update fun s =>
      { s with fpu := { s.fpu with cmdreg1b := moveOutWord fmt src k, etemp := x, stag := tagOf x, fpiarcu := ia } }
    let e ← outBody fmt l.place x
    commit l
    update State.accrue
    match e.vector with
    | none => pure .seq
    | some v => raisePost next v e (match l.place with | .mem a => some a | _ => none)) s

/-! ### Control register moves (R278) -/

/-- The control registers a selection names, in their order: FPCR, FPSR, FPIAR. -/
inductive FpCr where
  | fpcr | fpsr | fpiar
  deriving DecidableEq, Repr, Inhabited

/-- The selected registers in order (R278). -/
def selectedCrs (sel : BitVec 3) : List FpCr :=
  (if sel.getLsbD 2 then [.fpcr] else []) ++ (if sel.getLsbD 1 then [.fpsr] else []) ++
    (if sel.getLsbD 0 then [.fpiar] else [])

/-- A control register. -/
def getCr (r : FpCr) (s : State) : Long :=
  match r with
  | .fpcr => s.fp.fpcr | .fpsr => s.fp.fpsr | .fpiar => s.fp.fpiar

/-- A control register written; bits that do not exist are dropped (R278). -/
def setCr (r : FpCr) (v : Long) (s : State) : State :=
  match r with
  | .fpcr => { s with fp := { s.fp with fpcr := v &&& fpcrMask } }
  | .fpsr => { s with fp := { s.fp with fpsr := v &&& fpsrMask } }
  | .fpiar => { s with fp := { s.fp with fpiar := v } }

/-- Control registers written with a list of long words, in order. -/
def setCrs : List FpCr → List Long → State → State
  | r :: rs, v :: vs, s => setCrs rs vs (setCr r v s)
  | _, _, s => s

/-- The long words of a list of words. -/
def longsOfWords : List Word → List Long
  | hi :: lo :: ws => (hi ++ lo) :: longsOfWords ws
  | _ => []

/-- FMOVE or FMOVEM to control registers (R278): all long words are read before a register changes (92 D5). -/
def execFmoveToCr (sel : BitVec 3) (ea : Ea) (s : State) : Host.Outcome State Fault Refusal :=
  runInstr (eaLength 1 ea) (fun _ => do
    fpCommon
    let rs := selectedCrs sel
    let ext ← extAddr 1
    let l ← locate ea (4 * rs.length) ext
    let vs ← match l.place with
      | .mem a => readLongs a rs.length
      | .imm ws => pure (longsOfWords ws)
      | .d r => fetch fun s => [s.getD r]
      | .a r => fetch fun s => [s.getA r]
    commit l
    update (setCrs rs vs)
    pure .seq) s

/-- FMOVE or FMOVEM from control registers (R278). -/
def execFmoveFromCr (sel : BitVec 3) (ea : Ea) (s : State) : Host.Outcome State Fault Refusal :=
  runInstr (eaLength 1 ea) (fun _ => do
    fpCommon
    let rs := selectedCrs sel
    let ext ← extAddr 1
    let l ← locate ea (4 * rs.length) ext
    let vs ← fetch fun s => rs.map fun r => getCr r s
    match l.place, vs with
    | .mem a, _ => writeLongs a vs
    | .d r, v :: _ => update (State.setD r v)
    | .a r, v :: _ => update (State.setA r v)
    | _, _ => pure ()
    commit l
    pure .seq) s

/-! ### FMOVEM of the data registers (R279) -/

/-- The registers a list names, lowest address first: FP0 first. In postincrement and control order (`ctl`) bit 7 is FP0,
else bit 0 is (R279; log entry 40). -/
def fmovemRegs (ctl : Bool) (list : Byte) : List RegNo :=
  ((List.range 8).filter fun k => list.getLsbD (if ctl then 7 - k else k)).map fun k => BitVec.ofNat 3 k

/-- The list of an FMOVEM: in the command word, or in the low byte of the data register its bits 6:4 name (R279); bits 7 and 3:0
are then ignored (log entry 54). -/
def fmovemList (dyn : Bool) (list : Byte) (s : State) : Byte :=
  if dyn then (s.getD (list.extractLsb' 4 3)).setWidth 8 else list

/-- Registers read from memory, 12 bytes each, lowest address first. -/
def fmovemRead (a : Long) : Nat → M (List FpReal)
  | 0 => pure []
  | n + 1 => do
    let ls ← readLongs a 3
    let x := match ls with
      | [l0, l1, l2] => fpOfLongs l0 l1 l2
      | _ => fpZero false
    let xs ← fmovemRead (addrPlus a 12) n
    pure (x :: xs)

/-- Registers written to memory at an address that moves by `step`. -/
def fmovemWrite (step : Long) (a : Long) : List RegNo → M Unit
  | [] => pure ()
  | r :: rs => do
    let x ← fetch (State.getFp r)
    writeLongs a (extLongs x)
    fmovemWrite step (a + step) rs

/-- Data registers set from a list of values. -/
def setFps : List RegNo → List FpReal → State → State
  | r :: rs, x :: xs, s => setFps rs xs (s.setFp r x)
  | _, _, s => s

/-- FMOVEM ea,list (R279): no conversion, rounding or exception. -/
def execFmovemLoad (ctl dyn : Bool) (list : Byte) (ea : Ea) (s : State) : Host.Outcome State Fault Refusal :=
  runInstr (eaLength 1 ea) (fun _ => do
    fpCommon
    let ls ← fetch (fmovemList dyn list)
    let rs := fmovemRegs ctl ls
    let ext ← extAddr 1
    let l ← locate ea (12 * rs.length) ext
    let xs ← fmovemRead (placeAddr l.place) rs.length
    commit l
    update (setFps rs xs)
    pure .seq) s

/-- FMOVEM list,ea (R279): with -(An) the last register is written first. -/
def execFmovemStore (ctl dyn : Bool) (list : Byte) (ea : Ea) (s : State) : Host.Outcome State Fault Refusal :=
  runInstr (eaLength 1 ea) (fun _ => do
    fpCommon
    let ls ← fetch (fmovemList dyn list)
    let rs := fmovemRegs ctl ls
    let ext ← extAddr 1
    let l ← locate ea (12 * rs.length) ext
    let a := placeAddr l.place
    if ea.kind = .preDec then fmovemWrite (-12) (addrPlus a (12 * rs.length) - 12) rs.reverse
    else fmovemWrite 12 a rs
    commit l
    pure .seq) s

end Sys2Proof.Machine
end

