-- ==== Sys2Proof/Machine/FpUnimp.lean ====
section
/-!
DEFINITION. The floating-point instructions that the MC68040 leaves to software (42_fp_instructions.md R263): the operand
is fetched, the state frame's fields are filled, and the F-line exception with a format $2 frame is taken.
-/
namespace Sys2Proof.Machine

/-- FPTEMP and DTAG of an unimplemented instruction (R263 step 3): a dyadic one has its destination operand there; a packed
operand puts its upper 32 bits into FPTM, over free bits (93 U20). -/
def unimpOperands (dyadic : Bool) (o : FpOperand) (d : FpReal) (n : Nat) (u : Fpu) : Fpu :=
  let u1 := { u with etemp := o.val, stag := o.tag }
  let u2 := if dyadic then { u1 with fptemp := d, dtag := tagOf d } else u1
  match o.packed with
  | none => u2
  | some (l0, _, _) =>
    let x := Config.freeReal n
    { u2 with fptemp := { x with man := x.man.extractLsb' 32 32 ++ l0 } }

/-- Whether an operand of an unimplemented instruction is an unsupported data type, which E1 then says (R263, R287). -/
def unimpE1 (dyadic : Bool) (o : FpOperand) (d : FpReal) : Bool :=
  o.packed.isSome || o.tag == tagUnnormal || o.tag == tagDenormal || (dyadic && tagOf d == tagUnnormal)

/-- Steps 3 to 5 of R263. -/
def raiseUnimp (next : Long) (cw : Word) (address : Option Long) (e1 : Bool) (fill : Nat → Fpu → Fpu) : M Flow := do
  let ia ← fetch State.pc
  let free ← draw Config.freeLong
  update fun s =>
    let u := fill s.freeCount s.fpu
    { s with fpu := { u with e1 := e1, cmdreg1b := cw, fpiarcu := ia, mode := .unimp }, freeCount := s.freeCount + 2 }
  raise { vector := 11, cls := .unimp, stackedPc := next, format := .two (address.getD free) }

/-- An unimplemented instruction with a source operand (R263). The null mode has become idle before the operand is read (R260
step 5; log entry 52). -/
def fpUnimp (dyadic : Bool) (cmd : BitVec 7) (src : FpSrc) (dst : RegNo) (s : State) :
    Host.Outcome State Fault Refusal :=
  runInstr (fpLength src) (fun next => do
    fpCommon
    let o ← fpSource src
    let d ← fetch (State.getFp dst)
    raiseUnimp next (commandWord cmd src dst) o.2 (unimpE1 dyadic o.1 d) (unimpOperands dyadic o.1 d)) s

/-- FINT (R263). -/
def execFint (src : FpSrc) (dst : RegNo) (s : State) : Host.Outcome State Fault Refusal :=
  fpUnimp false 0x01 src dst s

/-- FSINH (R263). -/
def execFsinh (src : FpSrc) (dst : RegNo) (s : State) : Host.Outcome State Fault Refusal :=
  fpUnimp false 0x02 src dst s

/-- FINTRZ (R263). -/
def execFintrz (src : FpSrc) (dst : RegNo) (s : State) : Host.Outcome State Fault Refusal :=
  fpUnimp false 0x03 src dst s

/-- FLOGNP1 (R263). -/
def execFlognp1 (src : FpSrc) (dst : RegNo) (s : State) : Host.Outcome State Fault Refusal :=
  fpUnimp false 0x06 src dst s

/-- FETOXM1 (R263). -/
def execFetoxm1 (src : FpSrc) (dst : RegNo) (s : State) : Host.Outcome State Fault Refusal :=
  fpUnimp false 0x08 src dst s

/-- FTANH (R263). -/
def execFtanh (src : FpSrc) (dst : RegNo) (s : State) : Host.Outcome State Fault Refusal :=
  fpUnimp false 0x09 src dst s

/-- FATAN (R263). -/
def execFatan (src : FpSrc) (dst : RegNo) (s : State) : Host.Outcome State Fault Refusal :=
  fpUnimp false 0x0A src dst s

/-- FASIN (R263). -/
def execFasin (src : FpSrc) (dst : RegNo) (s : State) : Host.Outcome State Fault Refusal :=
  fpUnimp false 0x0C src dst s

/-- FATANH (R263). -/
def execFatanh (src : FpSrc) (dst : RegNo) (s : State) : Host.Outcome State Fault Refusal :=
  fpUnimp false 0x0D src dst s

/-- FSIN (R263). -/
def execFsin (src : FpSrc) (dst : RegNo) (s : State) : Host.Outcome State Fault Refusal :=
  fpUnimp false 0x0E src dst s

/-- FTAN (R263). -/
def execFtan (src : FpSrc) (dst : RegNo) (s : State) : Host.Outcome State Fault Refusal :=
  fpUnimp false 0x0F src dst s

/-- FETOX (R263). -/
def execFetox (src : FpSrc) (dst : RegNo) (s : State) : Host.Outcome State Fault Refusal :=
  fpUnimp false 0x10 src dst s

/-- FTWOTOX (R263). -/
def execFtwotox (src : FpSrc) (dst : RegNo) (s : State) : Host.Outcome State Fault Refusal :=
  fpUnimp false 0x11 src dst s

/-- FTENTOX (R263). -/
def execFtentox (src : FpSrc) (dst : RegNo) (s : State) : Host.Outcome State Fault Refusal :=
  fpUnimp false 0x12 src dst s

/-- FLOGN (R263). -/
def execFlogn (src : FpSrc) (dst : RegNo) (s : State) : Host.Outcome State Fault Refusal :=
  fpUnimp false 0x14 src dst s

/-- FLOG10 (R263). -/
def execFlog10 (src : FpSrc) (dst : RegNo) (s : State) : Host.Outcome State Fault Refusal :=
  fpUnimp false 0x15 src dst s

/-- FLOG2 (R263). -/
def execFlog2 (src : FpSrc) (dst : RegNo) (s : State) : Host.Outcome State Fault Refusal :=
  fpUnimp false 0x16 src dst s

/-- FCOSH (R263). -/
def execFcosh (src : FpSrc) (dst : RegNo) (s : State) : Host.Outcome State Fault Refusal :=
  fpUnimp false 0x19 src dst s

/-- FACOS (R263). -/
def execFacos (src : FpSrc) (dst : RegNo) (s : State) : Host.Outcome State Fault Refusal :=
  fpUnimp false 0x1C src dst s

/-- FCOS (R263). -/
def execFcos (src : FpSrc) (dst : RegNo) (s : State) : Host.Outcome State Fault Refusal :=
  fpUnimp false 0x1D src dst s

/-- FGETEXP (R263). -/
def execFgetexp (src : FpSrc) (dst : RegNo) (s : State) : Host.Outcome State Fault Refusal :=
  fpUnimp false 0x1E src dst s

/-- FGETMAN (R263). -/
def execFgetman (src : FpSrc) (dst : RegNo) (s : State) : Host.Outcome State Fault Refusal :=
  fpUnimp false 0x1F src dst s

/-- FMOD (R263). -/
def execFmod (src : FpSrc) (dst : RegNo) (s : State) : Host.Outcome State Fault Refusal :=
  fpUnimp true 0x21 src dst s

/-- FSGLDIV (R263). -/
def execFsgldiv (src : FpSrc) (dst : RegNo) (s : State) : Host.Outcome State Fault Refusal :=
  fpUnimp true 0x24 src dst s

/-- FREM (R263). -/
def execFrem (src : FpSrc) (dst : RegNo) (s : State) : Host.Outcome State Fault Refusal :=
  fpUnimp true 0x25 src dst s

/-- FSCALE (R263). -/
def execFscale (src : FpSrc) (dst : RegNo) (s : State) : Host.Outcome State Fault Refusal :=
  fpUnimp true 0x26 src dst s

/-- FSGLMUL (R263). -/
def execFsglmul (src : FpSrc) (dst : RegNo) (s : State) : Host.Outcome State Fault Refusal :=
  fpUnimp true 0x27 src dst s

/-- FSINCOS (R263): the second destination is in the low three bits of the command word. -/
def execFsincos (src : FpSrc) (dst fpc : RegNo) (s : State) : Host.Outcome State Fault Refusal :=
  fpUnimp false (6#4 ++ fpc) src dst s

/-- FMOVECR (R263): it has no operand, so none is of an unsupported data type and E1 is 0; what ETEMP and STAG hold is free (log
entry 39). -/
def execFmovecr (ofs : BitVec 7) (dst : RegNo) (s : State) : Host.Outcome State Fault Refusal :=
  runInstr 2 (fun next => do
    fpCommon
    raiseUnimp next (0x17#6 ++ dst ++ ofs) none false fun n u =>
      { u with etemp := Config.freeReal n, stag := (Config.freeByte n).setWidth 3 }) s

end Sys2Proof.Machine
end

