-- ==== Sys2Proof/Machine/System.lean ====
section
/-!
DEFINITION. System and special-register instructions (41_system_instructions.md R200-R209, R230): RTE, STOP, RESET, NOP,
the SR moves, MOVE USP, MOVEC, MOVES.
-/
namespace Sys2Proof.Machine

/-- RTE (R200-R202). -/
def execRte (s : State) : Host.Outcome State Fault Refusal :=
  runInstr 1 (fun _ => do
    requireSupervisor
    let ia ← fetch State.pc
    rteLoop ia rteFuel) s

/-- STOP #imm (R203, R438): traced, it loads SR and does not stop. -/
def execStop (imm : Word) (s : State) : Host.Outcome State Fault Refusal :=
  runInstr 2 (fun _ => do
    requireSupervisor
    let sr0 ← fetch State.sr
    update (State.writeSr imm)
    if traceApplies sr0 .srChange then pure .srChange
    else
      update fun s => { s with run := .stopped }
      pure .srChange) s

/-- RESET (R204). -/
def execReset (s : State) : Host.Outcome State Fault Refusal :=
  runInstr 1 (fun _ => do
    requireSupervisor
    update (State.emit .resetOut)
    pure .seq) s

/-- NOP (R230). -/
def execNop (s : State) : Host.Outcome State Fault Refusal :=
  runInstr 1 (fun _ => pure .seq) s

/-- SR written with a function of its value (R205). -/
def modifySr (f : Word → Word) (s : State) : Host.Outcome State Fault Refusal :=
  runInstr 2 (fun _ => do
    requireSupervisor
    update fun s => s.writeSr (f s.sr)
    pure .srChange) s

/-- ORI #imm,SR (R205). -/
def execOriSr (imm : Word) (s : State) : Host.Outcome State Fault Refusal := modifySr (fun v => v ||| imm) s

/-- ANDI #imm,SR (R205). -/
def execAndiSr (imm : Word) (s : State) : Host.Outcome State Fault Refusal := modifySr (fun v => v &&& imm) s

/-- EORI #imm,SR (R205). -/
def execEoriSr (imm : Word) (s : State) : Host.Outcome State Fault Refusal := modifySr (fun v => v ^^^ imm) s

/-- MOVE ea,SR (R205). -/
def execMoveToSr (ea : Ea) (s : State) : Host.Outcome State Fault Refusal :=
  runInstr (eaLength 0 ea) (fun _ => do
    requireSupervisor
    let ext ← extAddr 0
    let v ← readOperand ea .word ext
    update (State.writeSr (v.setWidth 16))
    pure .srChange) s

/-- MOVE SR,ea (R205). -/
def execMoveFromSr (ea : Ea) (s : State) : Host.Outcome State Fault Refusal :=
  runInstr (eaLength 0 ea) (fun _ => do
    requireSupervisor
    let ext ← extAddr 0
    let sr ← fetch State.sr
    writeOperand ea .word ext (sr.setWidth 32)
    pure .seq) s

/-- MOVE An,USP (R206). -/
def execMoveToUsp (an : RegNo) (s : State) : Host.Outcome State Fault Refusal :=
  runInstr 1 (fun _ => do
    requireSupervisor
    update fun s => s.setStack .usp (s.getA an)
    pure .seq) s

/-- MOVE USP,An (R206). -/
def execMoveFromUsp (an : RegNo) (s : State) : Host.Outcome State Fault Refusal :=
  runInstr 1 (fun _ => do
    requireSupervisor
    update fun s => s.setA an (s.getStack .usp)
    pure .seq) s

/-- A control register by its number, zero-extended; none for a number outside the table (R207). -/
def readControl (rc : BitVec 12) (s : State) : Option Long :=
  match rc.toNat with
  | 0x000 => some (s.ctl.sfc.setWidth 32)
  | 0x001 => some (s.ctl.dfc.setWidth 32)
  | 0x002 => some s.ctl.cacr
  | 0x003 => some (s.ctl.tc.setWidth 32)
  | 0x004 => some s.ctl.itt0
  | 0x005 => some s.ctl.itt1
  | 0x006 => some s.ctl.dtt0
  | 0x007 => some s.ctl.dtt1
  | 0x800 => some s.regs.usp
  | 0x801 => some s.ctl.vbr
  | 0x803 => some s.regs.msp
  | 0x804 => some s.regs.isp
  | 0x805 => some s.ctl.mmusr
  | 0x806 => some s.ctl.urp
  | 0x807 => some s.ctl.srp
  | _ => none

/-- A control register written, its bits kept as R207 says; none for a number outside the table. -/
def writeControl (rc : BitVec 12) (v : Long) (s : State) : Option State :=
  match rc.toNat with
  | 0x000 => some { s with ctl := { s.ctl with sfc := v.setWidth 3 } }
  | 0x001 => some { s with ctl := { s.ctl with dfc := v.setWidth 3 } }
  | 0x002 => some { s with ctl := { s.ctl with cacr := v &&& 0x80008000 } }
  | 0x003 => some { s with ctl := { s.ctl with tc := v.setWidth 16 &&& 0xC000 } }
  | 0x004 => some { s with ctl := { s.ctl with itt0 := v &&& Config.ttrMask } }
  | 0x005 => some { s with ctl := { s.ctl with itt1 := v &&& Config.ttrMask } }
  | 0x006 => some { s with ctl := { s.ctl with dtt0 := v &&& Config.ttrMask } }
  | 0x007 => some { s with ctl := { s.ctl with dtt1 := v &&& Config.ttrMask } }
  | 0x800 => some (s.setStack .usp v)
  | 0x801 => some { s with ctl := { s.ctl with vbr := v } }
  | 0x803 => some (s.setStack .msp v)
  | 0x804 => some (s.setStack .isp v)
  | 0x805 => some { s with ctl := { s.ctl with mmusr := v } }
  | 0x806 => some { s with ctl := { s.ctl with urp := v &&& Config.rpMask } }
  | 0x807 => some { s with ctl := { s.ctl with srp := v &&& Config.rpMask } }
  | _ => none

/-- MOVEC Rc,Rn (R207). -/
def execMovecFrom (rc : BitVec 12) (rn : Reg) (s : State) : Host.Outcome State Fault Refusal :=
  runInstr 2 (fun _ => do
    requireSupervisor
    let v ← fetch (readControl rc)
    let ia ← fetch State.pc
    match v with
    | none => raise (illegalExc ia)
    | some v =>
      update (State.setR rn v)
      pure .seq) s

/-- MOVEC Rn,Rc (R207). -/
def execMovecTo (rc : BitVec 12) (rn : Reg) (s : State) : Host.Outcome State Fault Refusal :=
  runInstr 2 (fun _ => do
    requireSupervisor
    let v ← fetch (State.getR rn)
    let s' ← fetch (writeControl rc v)
    let ia ← fetch State.pc
    match s' with
    | none => raise (illegalExc ia)
    | some s' =>
      update fun _ => s'
      pure .seq) s

/-- The function code a MOVES drives: 2 and 6 become data references (R208). -/
def movesFc (fc : BitVec 3) : BitVec 3 :=
  if fc = 2 then 1 else if fc = 6 then 5 else fc

/-- The access of a MOVES: transfer type 2 (R81, R208; log entry 37). -/
def movesAccess (fc : BitVec 3) (a : Long) (sz : Size) (write : Bool) : Access :=
  { addr := a, size := .ofSize sz, tt := 2, tm := movesFc fc, write := write, locked := false }

/-- MOVES ea,Rn (R208). -/
def execMovesLoad (sz : Size) (ea : Ea) (rn : Reg) (s : State) : Host.Outcome State Fault Refusal :=
  runInstr (eaLength 1 ea) (fun _ => do
    requireSupervisor
    let ext ← extAddr 1
    let l ← locate ea sz.bytes ext
    let fc ← fetch fun s => s.ctl.sfc
    let v ← memRead (movesAccess fc (placeAddr l.place) sz false)
    commit l
    match rn with
    | .d r => update (State.setDLow sz r v)
    | .a r => update (State.setA r (sextLong sz v))
    pure .seq) s

/-- MOVES Rn,ea (R208). -/
def execMovesStore (sz : Size) (rn : Reg) (ea : Ea) (s : State) : Host.Outcome State Fault Refusal :=
  runInstr (eaLength 1 ea) (fun _ => do
    requireSupervisor
    let ext ← extAddr 1
    let l ← locate ea sz.bytes ext
    let fc ← fetch fun s => s.ctl.dfc
    let v ← fetch (State.getR rn)
    memWrite (movesAccess fc (placeAddr l.place) sz true) v
    commit l
    pure .seq) s

end Sys2Proof.Machine
end

