-- ==== Sys2Proof/Machine/Transfer.lean ====
section
/-!
DEFINITION. MOVEM, MOVE16 and the locked instructions (41_system_instructions.md R220-R224).
-/
namespace Sys2Proof.Machine

/-! ### MOVEM (R220) -/

/-- The registers of a MOVEM in memory order, D0 to D7 then A0 to A7: number `k` of 16. -/
def movemReg (k : Nat) : Reg := if k < 8 then .d (BitVec.ofNat 3 k) else .a (BitVec.ofNat 3 (k - 8))

/-- The registers a mask names, in the order of their transfer: bit 0 is D0, but with -(An) bit 0 is A7 and the order is
reversed. -/
def movemRegs (reversed : Bool) (mask : Word) : List Reg :=
  ((List.range 16).filter fun k => mask.getLsbD k).map fun k => movemReg (if reversed then 15 - k else k)

/-- An access fault inside a MOVEM has CM set and the saved address in its EA field (61_access_fault_recovery.md R506). -/
def withMovemEa {α : Type} (ea : Long) (m : M α) : M α := fun s =>
  match m s with
  | .error (.access f) s' => .error (.access { f with cont := .cm ea }) s'
  | r => r

/-- The operand size of a MOVEM. -/
def movemSize (long : Bool) : Size := if long then .long else .word

/-- Registers stored one after the other, the address moving by `step`. -/
def movemStoreFrom (sz : Size) (step : Long) (a : Long) : List Reg → M Unit
  | [] => pure ()
  | r :: rs => do
    let v ← fetch (State.getR r)
    writeData a sz v
    movemStoreFrom sz step (a + step) rs

/-- Registers loaded one after the other; a word is sign-extended into all of the register. The register `base` of (An)+ is
not among those written: it is updated only when the whole instruction completes, past the last operand (log entry 38). -/
def movemLoadFrom (base : Option Reg) (sz : Size) (a : Long) : List Reg → M Unit
  | [] => pure ()
  | r :: rs => do
    let v ← readData a sz
    update fun s => if base = some r then s else s.setR r (sextLong sz v)
    movemLoadFrom base sz (addrPlus a sz.bytes) rs

/-- Whether a restarted MOVEM uses the address RTE handed over: modes 110, 111/010 and 111/011. -/
def movemRestartable : EaKind → Bool
  | .index | .pcDisp | .pcIndex => true
  | _ => false

/-- The operand of a MOVEM of `count` registers: its first address and the address register it writes. `movemRestart` is
consumed (log entry 38). -/
def movemLocate (ea : Ea) (sz : Size) (count : Nat) : M (Long × Option (RegNo × Long)) := do
  let restart ← fetch fun s => s.movemRestart
  let ext ← extAddr 1
  match ea with
  | .postInc r => do
    let a ← fetch (State.getA r)
    update fun s => { s with movemRestart := none }
    pure (a, some (r, addrPlus a (count * sz.bytes)))
  | .preDec r => do
    let a ← fetch (State.getA r)
    update fun s => { s with movemRestart := none }
    pure (a - BitVec.ofNat 32 sz.bytes, some (r, a - BitVec.ofNat 32 (count * sz.bytes)))
  | _ =>
    match restart with
    | some a =>
      if movemRestartable ea.kind then do
        update fun s => { s with movemRestart := none }
        pure (a, none)
      else do
        let l ← locate ea sz.bytes ext
        update fun s => { s with movemRestart := none }
        pure (placeAddr l.place, none)
    | none => do
      let l ← locate ea sz.bytes ext
      pure (placeAddr l.place, none)

/-- MOVEM list,ea (R220). -/
def execMovemStore (long : Bool) (mask : Word) (ea : Ea) (s : State) : Host.Outcome State Fault Refusal :=
  runInstr (eaLength 1 ea) (fun _ => do
    let sz := movemSize long
    let down := ea.kind == .preDec
    let regs := movemRegs down mask
    let l ← movemLocate ea sz regs.length
    let step : Long := if down then -(BitVec.ofNat 32 sz.bytes) else BitVec.ofNat 32 sz.bytes
    withMovemEa l.1 (movemStoreFrom sz step l.1 regs)
    match l.2 with
    | some (r, v) => update (State.setA r v)
    | none => pure ()
    pure .seq) s

/-- MOVEM ea,list (R220). -/
def execMovemLoad (long : Bool) (mask : Word) (ea : Ea) (s : State) : Host.Outcome State Fault Refusal :=
  runInstr (eaLength 1 ea) (fun _ => do
    let sz := movemSize long
    let regs := movemRegs false mask
    let l ← movemLocate ea sz regs.length
    withMovemEa l.1 (movemLoadFrom (l.2.map fun x => .a x.1) sz l.1 regs)
    match l.2 with
    | some (r, v) => update (State.setA r v)
    | none => pure ()
    pure .seq) s

/-! ### MOVE16 (R221) -/

/-- The access of a MOVE16: one line, transfer type 1, the address with its low four bits cleared. -/
def lineAccess (sr : Word) (a : Long) (write : Bool) : Access :=
  { addr := a &&& 0xFFFFFFF0, size := .line, tt := 1, tm := tmData sr, write := write, locked := false }

/-- A line copied. -/
def copyLine (src dst : Long) : M Unit := do
  let sr ← fetch State.sr
  let bs ← memReadBytes (lineAccess sr src false)
  memWriteBytes (lineAccess sr dst true) bs

/-- MOVE16 (Ax)+,(Ay)+ (R221). -/
def execMove16PostPost (ax ay : RegNo) (s : State) : Host.Outcome State Fault Refusal :=
  runInstr 2 (fun _ => do
    let a ← fetch (State.getA ax)
    let b ← fetch (State.getA ay)
    copyLine a b
    update fun s => (s.setA ax (addrPlus a 16)).setA ay (addrPlus b 16)
    pure .seq) s

/-- MOVE16 (Ay)+,xxx.L (R221). -/
def execMove16PostAbs (ay : RegNo) (addr : Long) (s : State) : Host.Outcome State Fault Refusal :=
  runInstr 3 (fun _ => do
    let a ← fetch (State.getA ay)
    copyLine a addr
    update (State.setA ay (addrPlus a 16))
    pure .seq) s

/-- MOVE16 xxx.L,(Ay)+ (R221). -/
def execMove16AbsPost (addr : Long) (ay : RegNo) (s : State) : Host.Outcome State Fault Refusal :=
  runInstr 3 (fun _ => do
    let a ← fetch (State.getA ay)
    copyLine addr a
    update (State.setA ay (addrPlus a 16))
    pure .seq) s

/-- MOVE16 (Ay),xxx.L (R221). -/
def execMove16IndAbs (ay : RegNo) (addr : Long) (s : State) : Host.Outcome State Fault Refusal :=
  runInstr 3 (fun _ => do
    let a ← fetch (State.getA ay)
    copyLine a addr
    pure .seq) s

/-- MOVE16 xxx.L,(Ay) (R221). -/
def execMove16AbsInd (addr : Long) (ay : RegNo) (s : State) : Host.Outcome State Fault Refusal :=
  runInstr 3 (fun _ => do
    let a ← fetch (State.getA ay)
    copyLine addr a
    pure .seq) s

/-! ### TAS, CAS, CAS2 (R222-R224) -/

/-- TAS (R222): the flags are of the byte as read; they are written once the byte has been stored (92 D5). -/
def execTas (ea : Ea) (s : State) : Host.Outcome State Fault Refusal :=
  runInstr (eaLength 0 ea) (fun _ => do
    let ext ← extAddr 0
    let l ← locate ea 1 ext
    let b ← match l.place with
      | .mem a => do
        lockBus
        let b ← readLocked a .byte
        writeLocked a .byte (b ||| 0x80)
        pure b
      | p => do
        let b ← readPlace .byte p
        writePlace .byte p (b ||| 0x80)
        pure b
    commit l
    update (State.setNzvc (b.getLsbD 7) (b == 0) false false)
    pure .seq) s

/-- The flags of a comparison written (R223). -/
def setSubFlags (sz : Size) (m d : Long) (s : State) : State :=
  let f := subFlags sz m d
  s.setNzvc f.1 f.2.1 f.2.2.1 f.2.2.2

/-- CAS Dc,Du,ea (R223). -/
def execCas (sz : Size) (dc du : RegNo) (ea : Ea) (s : State) : Host.Outcome State Fault Refusal :=
  runInstr (eaLength 1 ea) (fun _ => do
    let ext ← extAddr 1
    let l ← locate ea sz.bytes ext
    let a := placeAddr l.place
    lockBus
    let m ← readLocked a sz
    let c ← fetch (State.getD dc)
    let u ← fetch (State.getD du)
    if m = zextLong sz c then
      writeLocked a sz u
      commit l
    else
      writeLocked a sz m
      commit l
      update (State.setDLow sz dc m)
    update (setSubFlags sz m c)
    pure .seq) s

/-- CAS2 (R224): the flags are of the first comparison that fails, else of the second (log entry 43). -/
def execCas2 (long : Bool) (rn1 : Reg) (dc1 du1 : RegNo) (rn2 : Reg) (dc2 du2 : RegNo) (s : State) :
    Host.Outcome State Fault Refusal :=
  runInstr 3 (fun _ => do
    let sz : Size := if long then .long else .word
    let a1 ← fetch (State.getR rn1)
    let a2 ← fetch (State.getR rn2)
    lockBus
    let m1 ← readLocked a1 sz
    let m2 ← readLocked a2 sz
    let c1 ← fetch (State.getD dc1)
    let c2 ← fetch (State.getD dc2)
    let u1 ← fetch (State.getD du1)
    let u2 ← fetch (State.getD du2)
    if m1 = zextLong sz c1 ∧ m2 = zextLong sz c2 then
      writeLocked a1 sz u1
      writeLocked a2 sz u2
    else
      update fun s => (s.setDLow sz dc1 m1).setDLow sz dc2 m2
    if m1 = zextLong sz c1 then update (setSubFlags sz m2 c2) else update (setSubFlags sz m1 c1)
    pure .seq) s

end Sys2Proof.Machine
end

