-- ==== Sys2Proof/Machine/Traps.lean ====
section
/-!
DEFINITION. The instructions that trap (40_trap_instructions.md): TRAP, TRAPcc, TRAPV, CHK, CHK2, the divides, BKPT,
ILLEGAL, A-line and F-line.
-/
namespace Sys2Proof.Machine

/-- An instruction trap with the address of the instruction in its frame: format $2, stacked PC the next instruction
(60_exceptions.md R412, R426). -/
def trapExc (vector : Byte) (ia next : Long) : Exc :=
  { vector := vector, cls := .restart, stackedPc := next, format := .two ia }

/-- A trap taken on a condition of the state, else nothing (R162, R163). -/
def trapIf (vector : Byte) (next : Long) (cond : State → Bool) : M Flow := do
  let b ← fetch cond
  let ia ← fetch State.pc
  if b then raise (trapExc vector ia next) else pure .seq

/-- TRAP #n (R160). -/
def execTrap (n : BitVec 4) (s : State) : Host.Outcome State Fault Refusal :=
  runInstr 1 (fun next =>
    raise { vector := 32 + n.setWidth 8, cls := .restart, stackedPc := next, format := .zero }) s

/-- TRAPcc.W #d (R162). -/
def execTrapccW (cc : BitVec 4) (_d : Word) (s : State) : Host.Outcome State Fault Refusal :=
  runInstr 2 (fun next => trapIf 7 next fun s => condTrue cc s.sr) s

/-- TRAPcc.L #d (R162). -/
def execTrapccL (cc : BitVec 4) (_d : Long) (s : State) : Host.Outcome State Fault Refusal :=
  runInstr 3 (fun next => trapIf 7 next fun s => condTrue cc s.sr) s

/-- TRAPcc (R162). -/
def execTrapcc (cc : BitVec 4) (s : State) : Host.Outcome State Fault Refusal :=
  runInstr 1 (fun next => trapIf 7 next fun s => condTrue cc s.sr) s

/-- TRAPV (R163). -/
def execTrapv (s : State) : Host.Outcome State Fault Refusal :=
  runInstr 1 (fun next => trapIf 7 next fun s => ccV s.sr) s

/-- The signed value of the low bits of a long word. -/
def signedOf (sz : Size) (v : Long) : Int := (sextLong sz v).toInt

/-- CHK (R164): N as the rule gives it when it traps, else free; Z, V, C free (93 U5). -/
def chk (sz : Size) (ea : Ea) (dn : RegNo) (s : State) : Host.Outcome State Fault Refusal :=
  runInstr (eaLength 0 ea) (fun next => do
    let ext ← extAddr 0
    let b ← readOperand ea sz ext
    let v ← fetch (State.getD dn)
    let ia ← fetch State.pc
    let n ← draw Config.freeBit
    let z ← draw Config.freeBit
    let vv ← draw Config.freeBit
    let c ← draw Config.freeBit
    if signedOf sz v < 0 then
      update (State.setNzvc true z vv c)
      raise (trapExc 6 ia next)
    else if signedOf sz b < signedOf sz v then
      update (State.setNzvc false z vv c)
      raise (trapExc 6 ia next)
    else
      update (State.setNzvc n z vv c)
      pure .seq) s

/-- CHK.W (R164). -/
def execChkW (ea : Ea) (dn : RegNo) (s : State) : Host.Outcome State Fault Refusal := chk .word ea dn s

/-- CHK.L (R164). -/
def execChkL (ea : Ea) (dn : RegNo) (s : State) : Host.Outcome State Fault Refusal := chk .long ea dn s

/-- Whether a value is outside bounds, compared as signed or as unsigned numbers, whichever orders the bounds; none where
neither does (R165; log entry 20). All three are sign-extended from the size that is compared. -/
def outOfBounds (lower upper v : Long) : Option Bool :=
  if lower.toInt ≤ upper.toInt then some (decide (v.toInt < lower.toInt ∨ upper.toInt < v.toInt))
  else if lower.toNat ≤ upper.toNat then some (decide (v.toNat < lower.toNat ∨ upper.toNat < v.toNat))
  else none

/-- CHK2 (R165): N and V free (93 U5). -/
def execChk2 (sz : Size) (ea : Ea) (rn : Reg) (s : State) : Host.Outcome State Fault Refusal :=
  runInstr (eaLength 1 ea) (fun next => do
    let ext ← extAddr 1
    let l ← locate ea sz.bytes ext
    let lower ← readPlace sz l.place
    let upper ← readPlace sz (.mem (addrPlus (placeAddr l.place) sz.bytes))
    let r ← fetch (State.getR rn)
    let ia ← fetch State.pc
    let n ← draw Config.freeBit
    let vv ← draw Config.freeBit
    let cFree ← draw Config.freeBit
    let lower := sextLong sz lower
    let upper := sextLong sz upper
    let v := match rn with
      | .a _ => r
      | .d _ => sextLong sz r
    let c := (outOfBounds lower upper v).getD cFree
    update (State.setNzvc n (v == lower || v == upper) vv c)
    if c then raise (trapExc 6 ia next) else pure .seq) s

/-- A zero divisor (R166): N, Z, V free, C and X as they were (93 U5; log entry 21). -/
def divideByZero (next : Long) : M Flow := do
  let n ← draw Config.freeBit
  let z ← draw Config.freeBit
  let vv ← draw Config.freeBit
  let ia ← fetch State.pc
  update fun s => s.setNzvc n z vv (ccC s.sr)
  raise (trapExc 5 ia next)

/-- A quotient that does not fit (R166, R167): V set, C cleared, N and Z free, the registers unchanged. -/
def divideOverflow : M Flow := do
  let n ← draw Config.freeBit
  let z ← draw Config.freeBit
  update (State.setNzvc n z true false)
  pure .seq

/-- The word divides (R166). -/
def divideWord (signed : Bool) (ea : Ea) (dn : RegNo) (s : State) : Host.Outcome State Fault Refusal :=
  runInstr (eaLength 0 ea) (fun next => do
    let ext ← extAddr 0
    let d ← readOperand ea .word ext
    let x ← fetch (State.getD dn)
    if d = 0 then divideByZero next
    else
      let dividend : Int := if signed then x.toInt else x.toNat
      let divisor : Int := if signed then signedOf .word d else d.toNat
      let q := dividend.tdiv divisor
      let r := dividend.tmod divisor
      let fits := if signed then -32768 ≤ q ∧ q ≤ 32767 else q ≤ 0xFFFF
      if fits then
        let q16 := BitVec.ofInt 16 q
        update fun s => (s.setD dn (BitVec.ofInt 16 r ++ q16)).setNzvc (q16.getLsbD 15) (q16 == 0) false false
        pure .seq
      else divideOverflow) s

/-- DIVU.W (R166). -/
def execDivuW (ea : Ea) (dn : RegNo) (s : State) : Host.Outcome State Fault Refusal := divideWord false ea dn s

/-- DIVS.W (R166). -/
def execDivsW (ea : Ea) (dn : RegNo) (s : State) : Host.Outcome State Fault Refusal := divideWord true ea dn s

/-- The long divides (R167): a 32-bit dividend in Dq or a 64-bit one in Dr:Dq; the remainder goes to Dr when it is another
register than Dq. -/
def divideLong (signed wide : Bool) (ea : Ea) (dq dr : RegNo) (s : State) : Host.Outcome State Fault Refusal :=
  runInstr (eaLength 1 ea) (fun next => do
    let ext ← extAddr 1
    let d ← readOperand ea .long ext
    let xq ← fetch (State.getD dq)
    let xr ← fetch (State.getD dr)
    if d = 0 then divideByZero next
    else
      let dividend : Int :=
        if wide then (if signed then (xr ++ xq).toInt else (xr ++ xq).toNat)
        else (if signed then xq.toInt else xq.toNat)
      let divisor : Int := if signed then d.toInt else d.toNat
      let q := dividend.tdiv divisor
      let r := dividend.tmod divisor
      let fits := if signed then -2147483648 ≤ q ∧ q ≤ 2147483647 else q ≤ 0xFFFFFFFF
      if fits then
        let q32 := BitVec.ofInt 32 q
        update fun s =>
          let s1 := if dr = dq then s else s.setD dr (BitVec.ofInt 32 r)
          (s1.setD dq q32).setNzvc (q32.getLsbD 31) (q32 == 0) false false
        pure .seq
      else divideOverflow) s

/-- DIVU.L with a 32-bit dividend (R167). -/
def execDivuL (ea : Ea) (dq dr : RegNo) (s : State) : Host.Outcome State Fault Refusal :=
  divideLong false false ea dq dr s

/-- DIVU.L with a 64-bit dividend (R167). -/
def execDivuL64 (ea : Ea) (dq dr : RegNo) (s : State) : Host.Outcome State Fault Refusal :=
  divideLong false true ea dq dr s

/-- DIVS.L with a 32-bit dividend (R167). -/
def execDivsL (ea : Ea) (dq dr : RegNo) (s : State) : Host.Outcome State Fault Refusal :=
  divideLong true false ea dq dr s

/-- DIVS.L with a 64-bit dividend (R167). -/
def execDivsL64 (ea : Ea) (dq dr : RegNo) (s : State) : Host.Outcome State Fault Refusal :=
  divideLong true true ea dq dr s

/-- BKPT #n (R170): the acknowledge cycle, then the illegal instruction exception. -/
def execBkpt (n : RegNo) (s : State) : Host.Outcome State Fault Refusal :=
  runInstr 1 (fun _ => do
    update (State.emit (.breakpointAcknowledge n))
    let ia ← fetch State.pc
    raise (illegalExc ia)) s

/-- ILLEGAL (R171). -/
def execIllegal (s : State) : Host.Outcome State Fault Refusal :=
  runInstr 1 (fun _ => do
    let ia ← fetch State.pc
    raise (illegalExc ia)) s

/-- An A-line word (R172). -/
def execALine (_w : BitVec 12) (s : State) : Host.Outcome State Fault Refusal :=
  runInstr 1 (fun _ => do
    let ia ← fetch State.pc
    raise { vector := 10, cls := .restart, stackedPc := ia, format := .zero }) s

/-- An F-line word that is no legal instruction (R173). -/
def execFLine (_w : BitVec 12) (s : State) : Host.Outcome State Fault Refusal :=
  runInstr 1 (fun _ => do
    let ia ← fetch State.pc
    raise { vector := 11, cls := .restart, stackedPc := ia, format := .zero }) s

end Sys2Proof.Machine
end

