-- ==== Sys2Proof/Machine/Dispatch.lean ====
section
/-! DEFINITION. The dispatch: each instruction to its meaning. -/
namespace Sys2Proof.Machine

def exec (i : Instr) (s : State) : Host.Outcome State Fault Refusal :=
  match i with
  | .trap n => Sys2Proof.Machine.execTrap n s
  | .trapccW cc d => Sys2Proof.Machine.execTrapccW cc d s
  | .trapccL cc d => Sys2Proof.Machine.execTrapccL cc d s
  | .trapcc cc => Sys2Proof.Machine.execTrapcc cc s
  | .trapv => Sys2Proof.Machine.execTrapv s
  | .chkW ea dn => Sys2Proof.Machine.execChkW ea dn s
  | .chkL ea dn => Sys2Proof.Machine.execChkL ea dn s
  | .chk2 sz ea rn => Sys2Proof.Machine.execChk2 sz ea rn s
  | .divuW ea dn => Sys2Proof.Machine.execDivuW ea dn s
  | .divsW ea dn => Sys2Proof.Machine.execDivsW ea dn s
  | .divuL ea dq dr => Sys2Proof.Machine.execDivuL ea dq dr s
  | .divuL64 ea dq dr => Sys2Proof.Machine.execDivuL64 ea dq dr s
  | .divsL ea dq dr => Sys2Proof.Machine.execDivsL ea dq dr s
  | .divsL64 ea dq dr => Sys2Proof.Machine.execDivsL64 ea dq dr s
  | .bkpt n => Sys2Proof.Machine.execBkpt n s
  | .illegal => Sys2Proof.Machine.execIllegal s
  | .aLine w => Sys2Proof.Machine.execALine w s
  | .fLine w => Sys2Proof.Machine.execFLine w s
  | .rte => Sys2Proof.Machine.execRte s
  | .stop imm => Sys2Proof.Machine.execStop imm s
  | .reset => Sys2Proof.Machine.execReset s
  | .nop => Sys2Proof.Machine.execNop s
  | .oriSr imm => Sys2Proof.Machine.execOriSr imm s
  | .andiSr imm => Sys2Proof.Machine.execAndiSr imm s
  | .eoriSr imm => Sys2Proof.Machine.execEoriSr imm s
  | .moveToSr ea => Sys2Proof.Machine.execMoveToSr ea s
  | .moveFromSr ea => Sys2Proof.Machine.execMoveFromSr ea s
  | .moveToUsp an => Sys2Proof.Machine.execMoveToUsp an s
  | .moveFromUsp an => Sys2Proof.Machine.execMoveFromUsp an s
  | .movecFrom rc rn => Sys2Proof.Machine.execMovecFrom rc rn s
  | .movecTo rc rn => Sys2Proof.Machine.execMovecTo rc rn s
  | .movesLoad sz ea rn => Sys2Proof.Machine.execMovesLoad sz ea rn s
  | .movesStore sz rn ea => Sys2Proof.Machine.execMovesStore sz rn ea s
  | .cinv caches scope an => Sys2Proof.Machine.execCinv caches scope an s
  | .cpush caches scope an => Sys2Proof.Machine.execCpush caches scope an s
  | .pflush op an => Sys2Proof.Machine.execPflush op an s
  | .ptest read an => Sys2Proof.Machine.execPtest read an s
  | .movemStore long mask ea => Sys2Proof.Machine.execMovemStore long mask ea s
  | .movemLoad long mask ea => Sys2Proof.Machine.execMovemLoad long mask ea s
  | .move16PostPost ax ay => Sys2Proof.Machine.execMove16PostPost ax ay s
  | .move16PostAbs ay addr => Sys2Proof.Machine.execMove16PostAbs ay addr s
  | .move16AbsPost addr ay => Sys2Proof.Machine.execMove16AbsPost addr ay s
  | .move16IndAbs ay addr => Sys2Proof.Machine.execMove16IndAbs ay addr s
  | .move16AbsInd addr ay => Sys2Proof.Machine.execMove16AbsInd addr ay s
  | .tas ea => Sys2Proof.Machine.execTas ea s
  | .cas sz dc du ea => Sys2Proof.Machine.execCas sz dc du ea s
  | .cas2 long rn1 dc1 du1 rn2 dc2 du2 => Sys2Proof.Machine.execCas2 long rn1 dc1 du1 rn2 dc2 du2 s
  | .fmove src dst => Sys2Proof.Machine.execFmove src dst s
  | .fsmove src dst => Sys2Proof.Machine.execFsmove src dst s
  | .fdmove src dst => Sys2Proof.Machine.execFdmove src dst s
  | .fabs src dst => Sys2Proof.Machine.execFabs src dst s
  | .fsabs src dst => Sys2Proof.Machine.execFsabs src dst s
  | .fdabs src dst => Sys2Proof.Machine.execFdabs src dst s
  | .fneg src dst => Sys2Proof.Machine.execFneg src dst s
  | .fsneg src dst => Sys2Proof.Machine.execFsneg src dst s
  | .fdneg src dst => Sys2Proof.Machine.execFdneg src dst s
  | .fsqrt src dst => Sys2Proof.Machine.execFsqrt src dst s
  | .fssqrt src dst => Sys2Proof.Machine.execFssqrt src dst s
  | .fdsqrt src dst => Sys2Proof.Machine.execFdsqrt src dst s
  | .fadd src dst => Sys2Proof.Machine.execFadd src dst s
  | .fsadd src dst => Sys2Proof.Machine.execFsadd src dst s
  | .fdadd src dst => Sys2Proof.Machine.execFdadd src dst s
  | .fsub src dst => Sys2Proof.Machine.execFsub src dst s
  | .fssub src dst => Sys2Proof.Machine.execFssub src dst s
  | .fdsub src dst => Sys2Proof.Machine.execFdsub src dst s
  | .fmul src dst => Sys2Proof.Machine.execFmul src dst s
  | .fsmul src dst => Sys2Proof.Machine.execFsmul src dst s
  | .fdmul src dst => Sys2Proof.Machine.execFdmul src dst s
  | .fdiv src dst => Sys2Proof.Machine.execFdiv src dst s
  | .fsdiv src dst => Sys2Proof.Machine.execFsdiv src dst s
  | .fddiv src dst => Sys2Proof.Machine.execFddiv src dst s
  | .fcmp src dst => Sys2Proof.Machine.execFcmp src dst s
  | .ftst src dst => Sys2Proof.Machine.execFtst src dst s
  | .fint src dst => Sys2Proof.Machine.execFint src dst s
  | .fsinh src dst => Sys2Proof.Machine.execFsinh src dst s
  | .fintrz src dst => Sys2Proof.Machine.execFintrz src dst s
  | .flognp1 src dst => Sys2Proof.Machine.execFlognp1 src dst s
  | .fetoxm1 src dst => Sys2Proof.Machine.execFetoxm1 src dst s
  | .ftanh src dst => Sys2Proof.Machine.execFtanh src dst s
  | .fatan src dst => Sys2Proof.Machine.execFatan src dst s
  | .fasin src dst => Sys2Proof.Machine.execFasin src dst s
  | .fatanh src dst => Sys2Proof.Machine.execFatanh src dst s
  | .fsin src dst => Sys2Proof.Machine.execFsin src dst s
  | .ftan src dst => Sys2Proof.Machine.execFtan src dst s
  | .fetox src dst => Sys2Proof.Machine.execFetox src dst s
  | .ftwotox src dst => Sys2Proof.Machine.execFtwotox src dst s
  | .ftentox src dst => Sys2Proof.Machine.execFtentox src dst s
  | .flogn src dst => Sys2Proof.Machine.execFlogn src dst s
  | .flog10 src dst => Sys2Proof.Machine.execFlog10 src dst s
  | .flog2 src dst => Sys2Proof.Machine.execFlog2 src dst s
  | .fcosh src dst => Sys2Proof.Machine.execFcosh src dst s
  | .facos src dst => Sys2Proof.Machine.execFacos src dst s
  | .fcos src dst => Sys2Proof.Machine.execFcos src dst s
  | .fgetexp src dst => Sys2Proof.Machine.execFgetexp src dst s
  | .fgetman src dst => Sys2Proof.Machine.execFgetman src dst s
  | .fmod src dst => Sys2Proof.Machine.execFmod src dst s
  | .fsgldiv src dst => Sys2Proof.Machine.execFsgldiv src dst s
  | .frem src dst => Sys2Proof.Machine.execFrem src dst s
  | .fscale src dst => Sys2Proof.Machine.execFscale src dst s
  | .fsglmul src dst => Sys2Proof.Machine.execFsglmul src dst s
  | .fsincos src dst fpc => Sys2Proof.Machine.execFsincos src dst fpc s
  | .fmovecr ofs dst => Sys2Proof.Machine.execFmovecr ofs dst s
  | .fmoveOut fmt src k ea => Sys2Proof.Machine.execFmoveOut fmt src k ea s
  | .fmoveToCr sel ea => Sys2Proof.Machine.execFmoveToCr sel ea s
  | .fmoveFromCr sel ea => Sys2Proof.Machine.execFmoveFromCr sel ea s
  | .fmovemLoad ctl dyn list ea => Sys2Proof.Machine.execFmovemLoad ctl dyn list ea s
  | .fmovemStore ctl dyn list ea => Sys2Proof.Machine.execFmovemStore ctl dyn list ea s
  | .fbccW p d => Sys2Proof.Machine.execFbccW p d s
  | .fbccL p d => Sys2Proof.Machine.execFbccL p d s
  | .fnop => Sys2Proof.Machine.execFnop s
  | .fscc p ea => Sys2Proof.Machine.execFscc p ea s
  | .fdbcc p dn d => Sys2Proof.Machine.execFdbcc p dn d s
  | .ftrapccW p d => Sys2Proof.Machine.execFtrapccW p d s
  | .ftrapccL p d => Sys2Proof.Machine.execFtrapccL p d s
  | .ftrapcc p => Sys2Proof.Machine.execFtrapcc p s
  | .fsave ea => Sys2Proof.Machine.execFsave ea s
  | .frestore ea => Sys2Proof.Machine.execFrestore ea s

end Sys2Proof.Machine
end

