-- ==== Sys2Proof/Machine/Cycle.lean ====
section
/-!
DEFINITION. One instruction at the program counter: the checks in the order of 40_trap_instructions.md R174, fetch, decode,
execution, trace (60_exceptions.md R410).
-/
namespace Sys2Proof.Machine

/-- The instruction whose operation word `w` has been fetched. -/
def State.executeWord (s : State) (w : Word) : Host.Outcome State Fault Refusal :=
  if !srS s.sr && privilegedWord w then .next (s.takeException s.pc s.regs (privilegeExc s.pc))
  else match fetchInstr s.pc (maxWords + 1) [w] s with
    | .error a t => t.aborted s.pc s.regs a
    | .ok .illegal t => .next (t.takeException s.pc s.regs (illegalExc s.pc))
    | .ok (.other ws) t => finishStep s.pc (t.runOtherInstr w ws)
    | .ok (.instr i) t => finishStep s.pc (exec i t)

/-- One instruction: the reserved trace mode is refused (93 U1), an odd PC, which only an exception vector leaves, is an address
error (R174, R461; log entry 26), a faulting fetch an access fault. -/
def State.executeNext (s : State) : Host.Outcome State Fault Refusal :=
  if srT1 s.sr && srT0 s.sr then .refused .reservedTraceMode
  else if s.pc.getLsbD 0 then .next (s.takeAddressError s.pc s.pc)
  else match fetchWord s.pc s with
    | .error a t => t.aborted s.pc s.regs a
    | .ok w t => t.executeWord w

/-- A boundary of a running or stopped processor: the interrupt level is sampled, a recognised interrupt is taken, else the
next instruction is executed unless the processor is stopped (R410, R441). -/
def State.boundary (s : State) (i : BoundaryInput) : Host.Outcome State Fault Refusal :=
  let s1 := s.sample i.ipl
  match s1.irq.pending with
  | some level => .next (s1.takeInterrupt level i.iack)
  | none => if s1.run = .stopped then .next s1 else s1.executeNext

/-- One step of the processor, the environment's move made (R410; 70_reset_and_hazards.md R601). -/
def State.cycle (s : State) (i : BoundaryInput) : Host.Outcome State Fault Refusal :=
  if i.rsti then .next { s with run := .inReset }
  else match s.run with
    | .inReset => .next s.resetException
    | .halted => .next s
    | .running => s.boundary i
    | .stopped => s.boundary i

/-- Bytes placed at consecutive addresses from outside the program, which instruction fetch then sees (20_memory.md R103; log
entry 2). -/
def State.placeBytes (s : State) (a : Long) : List Byte → State
  | [] => s
  | b :: bs =>
    let placed : State := { s with mem := Memory.write s.mem a.toNat b, modified := Memory.write s.modified a.toNat 0 }
    placed.placeBytes (addrPlus a 1) bs

end Sys2Proof.Machine
end

