-- ==== Sys2Proof/Machine/Step.lean ====
section
/-! DEFINITION. The step function (60_exceptions.md R410), and an instruction placed where the next step fetches. -/
namespace Sys2Proof.Machine

/-- One step: the environment's next move, then reset, an exception, or one instruction (R410). -/
def step (s : State) : Host.Outcome State Fault Refusal := s.applyInput.cycle s.input

/-- The state with the instruction of a table word stored at the program counter, where the next step fetches: its `nbits`
bits, then zeros up to the longest instruction. It stands for the loading of a program from outside the machine (log entry
2). -/
def State.withFetchWord (s : State) (nbits w : Nat) : State :=
  s.placeBytes s.pc (bytesOfWords (tableWords nbits w))

end Sys2Proof.Machine
end

