-- ==== Sys2Proof/WellFormed.lean ====
section
/-!
DEFINITION. Which terms of `Instr` are instructions of the MC68040: the effective address is one the instruction accepts, an
immediate operand has the words of its size, an index word is not a reserved one (30_encoding.md R128, R140, R141).
-/
namespace Sys2Proof

/-- Whether an index word is none of the reserved ones: with the index suppressed there is no post-indexed form (R141). -/
def IndexExt.wf (x : IndexExt) : Bool :=
  match x with
  | .full _ _ true _ (.post _) => false
  | _ => true

/-- Whether an effective address is of a class, an immediate operand having `immWords` words. -/
def Ea.wf (c : EaClass) (immWords : Nat) (ea : Ea) : Bool :=
  eaAccepts c ea.kind &&
    match ea with
    | .imm ws => ws.length == immWords
    | .index _ x => x.wf
    | .pcIndex x => x.wf
    | _ => true

/-- Whether a floating-point source is one R264 allows. -/
def FpSrc.wf : FpSrc → Bool
  | .reg _ => true
  | .ea fmt e => e.wf (.fpSource fmt) (fmtImmWords fmt)

/-- Whether an operation word by itself is an F-line word that is no legal instruction (R126). -/
def fLineAlone (w : BitVec 12) : Bool := decide (decode [15#4 ++ w] = .ok (.fLine w, []))

/-- The well-formed instructions. -/
def Instr.wf (i : Instr) : Bool :=
  match i with
  | .trap _ => true
  | .trapccW _ _ => true
  | .trapccL _ _ => true
  | .trapcc _ => true
  | .trapv => true
  | .chkW ea _ => ea.wf .data 1
  | .chkL ea _ => ea.wf .data 2
  | .chk2 _ ea _ => ea.wf .control 0
  | .divuW ea _ => ea.wf .data 1
  | .divsW ea _ => ea.wf .data 1
  | .divuL ea _ _ => ea.wf .data 2
  | .divuL64 ea _ _ => ea.wf .data 2
  | .divsL ea _ _ => ea.wf .data 2
  | .divsL64 ea _ _ => ea.wf .data 2
  | .bkpt _ => true
  | .illegal => true
  | .aLine _ => true
  | .fLine w => fLineAlone w
  | .rte => true
  | .stop _ => true
  | .reset => true
  | .nop => true
  | .oriSr _ => true
  | .andiSr _ => true
  | .eoriSr _ => true
  | .moveToSr ea => ea.wf .data 1
  | .moveFromSr ea => ea.wf .dataAlterable 0
  | .moveToUsp _ => true
  | .moveFromUsp _ => true
  | .movecFrom _ _ => true
  | .movecTo _ _ => true
  | .movesLoad _ ea _ => ea.wf .memAlterable 0
  | .movesStore _ _ ea => ea.wf .memAlterable 0
  | .cinv _ scope _ => scope != 0
  | .cpush _ scope _ => scope != 0
  | .pflush _ _ => true
  | .ptest _ _ => true
  | .movemStore _ _ ea => ea.wf .controlAlterableOrPre 0
  | .movemLoad _ _ ea => ea.wf .controlOrPost 0
  | .move16PostPost _ _ => true
  | .move16PostAbs _ _ => true
  | .move16AbsPost _ _ => true
  | .move16IndAbs _ _ => true
  | .move16AbsInd _ _ => true
  | .tas ea => ea.wf .dataAlterable 0
  | .cas _ _ _ ea => ea.wf .memAlterable 0
  | .cas2 _ _ _ _ _ _ _ => true
  | .fmove src _ => src.wf
  | .fsmove src _ => src.wf
  | .fdmove src _ => src.wf
  | .fabs src _ => src.wf
  | .fsabs src _ => src.wf
  | .fdabs src _ => src.wf
  | .fneg src _ => src.wf
  | .fsneg src _ => src.wf
  | .fdneg src _ => src.wf
  | .fsqrt src _ => src.wf
  | .fssqrt src _ => src.wf
  | .fdsqrt src _ => src.wf
  | .fadd src _ => src.wf
  | .fsadd src _ => src.wf
  | .fdadd src _ => src.wf
  | .fsub src _ => src.wf
  | .fssub src _ => src.wf
  | .fdsub src _ => src.wf
  | .fmul src _ => src.wf
  | .fsmul src _ => src.wf
  | .fdmul src _ => src.wf
  | .fdiv src _ => src.wf
  | .fsdiv src _ => src.wf
  | .fddiv src _ => src.wf
  | .fcmp src _ => src.wf
  | .ftst src _ => src.wf
  | .fint src _ => src.wf
  | .fsinh src _ => src.wf
  | .fintrz src _ => src.wf
  | .flognp1 src _ => src.wf
  | .fetoxm1 src _ => src.wf
  | .ftanh src _ => src.wf
  | .fatan src _ => src.wf
  | .fasin src _ => src.wf
  | .fatanh src _ => src.wf
  | .fsin src _ => src.wf
  | .ftan src _ => src.wf
  | .fetox src _ => src.wf
  | .ftwotox src _ => src.wf
  | .ftentox src _ => src.wf
  | .flogn src _ => src.wf
  | .flog10 src _ => src.wf
  | .flog2 src _ => src.wf
  | .fcosh src _ => src.wf
  | .facos src _ => src.wf
  | .fcos src _ => src.wf
  | .fgetexp src _ => src.wf
  | .fgetman src _ => src.wf
  | .fmod src _ => src.wf
  | .fsgldiv src _ => src.wf
  | .frem src _ => src.wf
  | .fscale src _ => src.wf
  | .fsglmul src _ => src.wf
  | .fsincos src _ _ => src.wf
  | .fmovecr _ _ => true
  | .fmoveOut fmt _ _ ea => ea.wf (.fpDest fmt) 0
  | .fmoveToCr sel ea => ea.wf (.toCr sel) (2 * selCount sel)
  | .fmoveFromCr sel ea => ea.wf (.fromCr sel) 0
  | .fmovemLoad _ _ _ ea => ea.wf .controlOrPost 0
  | .fmovemStore _ _ _ ea => ea.wf .controlAlterableOrPre 0
  | .fbccW p d => p != 0 || d != 0
  | .fbccL _ _ => true
  | .fnop => true
  | .fscc _ ea => ea.wf .dataAlterable 0
  | .fdbcc _ _ _ => true
  | .ftrapccW _ _ => true
  | .ftrapccL _ _ => true
  | .ftrapcc _ => true
  | .fsave ea => ea.wf .controlAlterableOrPre 0
  | .frestore ea => ea.wf .controlOrPost 0

end Sys2Proof
end

