-- ==== Sys2Proof/Safety.lean ====
section
/-!
DEFINITION. The invariant of the machine, and the words in which the statements speak: bytes of memory, plain memory, an
instruction that goes on.
-/
namespace Sys2Proof.Machine

/-! ### The invariant -/

/-- SR holds only the bits that exist (10_state.md R23; 92 D20). -/
def srOk (s : State) : Prop := s.sr &&& ~~~srMask = 0

/-- The control registers hold only the bits that a write keeps (41_system_instructions.md R207). -/
def ctlOk (s : State) : Prop :=
  s.ctl.tc &&& 0x3FFF = 0 ∧ s.ctl.cacr &&& 0x7FFF7FFF = 0 ∧
  s.ctl.itt0 &&& ~~~Config.ttrMask = 0 ∧ s.ctl.itt1 &&& ~~~Config.ttrMask = 0 ∧
  s.ctl.dtt0 &&& ~~~Config.ttrMask = 0 ∧ s.ctl.dtt1 &&& ~~~Config.ttrMask = 0 ∧
  s.ctl.urp &&& ~~~Config.rpMask = 0 ∧ s.ctl.srp &&& ~~~Config.rpMask = 0

/-- FPCR and FPSR hold only the bits that exist (42_fp_instructions.md R278). -/
def fpOk (s : State) : Prop := s.fp.fpcr &&& ~~~fpcrMask = 0 ∧ s.fp.fpsr &&& ~~~fpsrMask = 0

/-- A pending floating-point exception has one of the vectors 48 to 55 (10_state.md R38). -/
def pendingOk (s : State) : Prop := ∀ p, s.fpu.pending = some p → 48 ≤ p.vector.toNat ∧ p.vector.toNat ≤ 55

/-- A processor that runs or is stopped has an even program counter, unless an odd exception vector has just been loaded: it
then runs, in supervisor mode and with T1 and T0 clear (60_exceptions.md R405, R425, R461). -/
def pcOk (s : State) : Prop :=
  s.run = .running ∨ s.run = .stopped → s.pc.getLsbD 0 = true →
    s.run = .running ∧ srS s.sr = true ∧ srT1 s.sr = false ∧ srT0 s.sr = false

/-- Between steps no trace exception is due (60_exceptions.md R410, R435). -/
def traceOk (s : State) : Prop := s.tracePending = false

/-- Memory and the record of the bytes that the processor has written are in their canonical form. -/
def State.memOk (s : State) : Prop := Memory.wf s.mem ∧ Memory.wf s.modified

/-- The invariant: memory in its canonical form, no register with a bit that does not exist, a program counter that is even
but for an odd exception vector, no trace exception left over. -/
def State.Inv (s : State) : Prop :=
  s.memOk ∧ srOk s ∧ ctlOk s ∧ fpOk s ∧ pendingOk s ∧ pcOk s ∧ traceOk s

/-! ### Memory as the statements see it (20_memory.md R85) -/

/-- The byte at an address. -/
def State.byteAt (s : State) (a : Long) : Byte := Memory.read s.mem a.toNat
/-- The big-endian word at an address. -/
def State.wordAt (s : State) (a : Long) : Word := s.byteAt a ++ s.byteAt (a + 1)
/-- The big-endian long word at an address. -/
def State.longAt (s : State) (a : Long) : Long :=
  s.byteAt a ++ s.byteAt (a + 1) ++ s.byteAt (a + 2) ++ s.byteAt (a + 3)

/-- The operand of a size at an address, zero-extended. -/
def State.valueAt (s : State) (a : Long) (sz : Size) : Long :=
  match sz with
  | .byte => (s.byteAt a).setWidth 32
  | .word => (s.wordAt a).setWidth 32
  | .long => s.longAt a

/-- The bytes of a long word, most significant first. -/
def longBytes (v : Long) : List Byte := bytesOfWords (longWords v)

/-- The low bytes of a long word that an operand size keeps, most significant first. -/
def operandBytes (sz : Size) (v : Long) : List Byte :=
  match sz with
  | .byte => [v.setWidth 8]
  | .word => bytesOfWords [v.setWidth 16]
  | .long => longBytes v

/-- What is recorded of a byte that this processor has written, a bit for the write and for each act that has followed it: 0 for
a byte not written, or one that may be executed (20_memory.md R103; log entry 58). -/
def State.recordAt (s : State) (a : Long) : Byte := Memory.read s.modified a.toNat

/-- `t` is `s` with the bytes `bs` stored from address `a` up, modulo 2^32: every other byte of memory reads as before, the
bytes stored are not yet visible to instruction fetch, and nothing else differs (20_memory.md R80, R85, R103; 92 D19). -/
def Stored (s t : State) (a : Long) (bs : List Byte) : Prop :=
  t = { s with mem := t.mem, modified := t.modified } ∧ t.memOk ∧ ∀ x : Long,
    t.byteAt x = (bs[(x - a).toNat]?).getD (s.byteAt x) ∧
    t.recordAt x = if (x - a).toNat < bs.length then codeWritten else s.recordAt x

/-- Translation off, no address that answers TEA, no other master on the bus: every access reaches memory as it stands
(20_memory.md R96, R98, R100). -/
def State.plain (s : State) : Prop := s.translationOff = true ∧ s.env.tea = [] ∧ s.env.bus = []

/-- The words at an address and after it are fetched from `s`, one after the other, and `t` is the state then. -/
def Fetches (a : Long) : List Word → State → State → Prop
  | [], s, t => t = s
  | w :: ws, s, t => ∃ u, fetchWord a s = .ok w u ∧ Fetches (addrPlus a 2) ws u t

/-! ### Instructions that complete -/

/-- The state `t` with the program counter after an instruction of `words` words that began at `s` and goes on to the next,
and with the trace that this leaves due (60_exceptions.md R435, R436). An SR manipulation is recorded as a change of flow
(20_memory.md R103), the model's choice (log entry 58). -/
def State.goOn (s : State) (words : Nat) (f : Flow) (t : State) : State :=
  let u := { t with pc := s.pc + BitVec.ofNat 32 (2 * words), tracePending := traceApplies s.sr f }
  match f with
  | .seq => u
  | .srChange | .jump _ => u.flowChanged

/-- The state `t` with the program counter where an instruction that began at `s` jumps to, with the trace that this leaves due,
and with the change of flow recorded for the bytes that the processor has written (60_exceptions.md R435, R436; 20_memory.md
R103). -/
def State.jumped (s : State) (target : Long) (t : State) : State :=
  ({ t with pc := target, tracePending := traceApplies s.sr (.jump target) } : State).flowChanged

/-- The address register that an addressing mode writes (30_encoding.md R140). -/
def applyStep (step : Option (RegNo × Long)) (s : State) : State :=
  match step with
  | none => s
  | some (r, v) => s.setA r v

/-- The condition codes of the subtraction `m - c` of two operands, from the numbers they stand for: N and Z of the difference,
V where the signed difference does not fit, C where a borrow is needed (41_system_instructions.md R223). -/
def State.compared (sz : Size) (m c : Long) (s : State) : State :=
  let difference : Int := signedOf sz m - signedOf sz c
  s.setNzvc (signBit sz (m - c)) (decide (difference = 0))
    (decide (difference < -2 ^ (sz.bits - 1) ∨ 2 ^ (sz.bits - 1) ≤ difference))
    (decide ((zextLong sz m).toNat < (zextLong sz c).toNat))

/-- The state after the steps common to floating-point instructions: the null mode becomes idle (42_fp_instructions.md
R260). -/
def State.fpAwake (s : State) : State :=
  if s.fpu.mode = .null then { s with fpu := { s.fpu with mode := .idle } } else s

/-- The privileged instructions (41_system_instructions.md R209; 60_exceptions.md R431). -/
def privilegedInstr (i : Instr) : Bool :=
  match i with
  | .rte | .stop _ | .reset | .oriSr _ | .andiSr _ | .eoriSr _ | .moveToSr _ | .moveFromSr _ | .moveToUsp _
  | .moveFromUsp _ | .movecFrom _ _ | .movecTo _ _ | .movesLoad _ _ _ | .movesStore _ _ _ | .cinv _ _ _
  | .cpush _ _ _ | .pflush _ _ | .ptest _ _ | .fsave _ | .frestore _ => true
  | _ => false

/-- Whether a conditional floating-point instruction takes the BSUN exception (43_fp_exceptions.md R312). -/
def State.bsunTraps (s : State) (p : BitVec 5) : Bool := p.getLsbD 4 && fpNan s.fp.fpsr && trapEnabled s.fp.fpcr .bsun

/-- The state after the test of a conditional floating-point instruction (43_fp_exceptions.md R312). -/
def State.fpTested (s : State) (p : BitVec 5) : State :=
  if p.getLsbD 4 && fpNan s.fp.fpsr then s.fpAwake.setBsun else s.fpAwake

/-- The arithmetic instructions with a register destination (42_fp_instructions.md R265-R272): operation, forced precision,
CMD, source, destination. -/
def fpArithmetic (i : Instr) : Option (FpOp × Option Prec × BitVec 7 × FpSrc × RegNo) :=
  match i with
  | .fmove src dst => some (.move, none, 0x00, src, dst)
  | .fsmove src dst => some (.move, some .s, 0x40, src, dst)
  | .fdmove src dst => some (.move, some .d, 0x44, src, dst)
  | .fabs src dst => some (.abs, none, 0x18, src, dst)
  | .fsabs src dst => some (.abs, some .s, 0x58, src, dst)
  | .fdabs src dst => some (.abs, some .d, 0x5C, src, dst)
  | .fneg src dst => some (.neg, none, 0x1A, src, dst)
  | .fsneg src dst => some (.neg, some .s, 0x5A, src, dst)
  | .fdneg src dst => some (.neg, some .d, 0x5E, src, dst)
  | .fsqrt src dst => some (.sqrt, none, 0x04, src, dst)
  | .fssqrt src dst => some (.sqrt, some .s, 0x41, src, dst)
  | .fdsqrt src dst => some (.sqrt, some .d, 0x45, src, dst)
  | .fadd src dst => some (.add, none, 0x22, src, dst)
  | .fsadd src dst => some (.add, some .s, 0x62, src, dst)
  | .fdadd src dst => some (.add, some .d, 0x66, src, dst)
  | .fsub src dst => some (.sub, none, 0x28, src, dst)
  | .fssub src dst => some (.sub, some .s, 0x68, src, dst)
  | .fdsub src dst => some (.sub, some .d, 0x6C, src, dst)
  | .fmul src dst => some (.mul, none, 0x23, src, dst)
  | .fsmul src dst => some (.mul, some .s, 0x63, src, dst)
  | .fdmul src dst => some (.mul, some .d, 0x67, src, dst)
  | .fdiv src dst => some (.div, none, 0x20, src, dst)
  | .fsdiv src dst => some (.div, some .s, 0x60, src, dst)
  | .fddiv src dst => some (.div, some .d, 0x64, src, dst)
  | .fcmp src dst => some (.cmp, none, 0x38, src, dst)
  | .ftst src dst => some (.tst, none, 0x3A, src, dst)
  | _ => none

/-- The unimplemented instructions with a source operand (42_fp_instructions.md R263): whether dyadic, CMD, source,
destination. -/
def fpUnimplemented (i : Instr) : Option (Bool × BitVec 7 × FpSrc × RegNo) :=
  match i with
  | .fint src dst => some (false, 0x01, src, dst)
  | .fsinh src dst => some (false, 0x02, src, dst)
  | .fintrz src dst => some (false, 0x03, src, dst)
  | .flognp1 src dst => some (false, 0x06, src, dst)
  | .fetoxm1 src dst => some (false, 0x08, src, dst)
  | .ftanh src dst => some (false, 0x09, src, dst)
  | .fatan src dst => some (false, 0x0A, src, dst)
  | .fasin src dst => some (false, 0x0C, src, dst)
  | .fatanh src dst => some (false, 0x0D, src, dst)
  | .fsin src dst => some (false, 0x0E, src, dst)
  | .ftan src dst => some (false, 0x0F, src, dst)
  | .fetox src dst => some (false, 0x10, src, dst)
  | .ftwotox src dst => some (false, 0x11, src, dst)
  | .ftentox src dst => some (false, 0x12, src, dst)
  | .flogn src dst => some (false, 0x14, src, dst)
  | .flog10 src dst => some (false, 0x15, src, dst)
  | .flog2 src dst => some (false, 0x16, src, dst)
  | .fcosh src dst => some (false, 0x19, src, dst)
  | .facos src dst => some (false, 0x1C, src, dst)
  | .fcos src dst => some (false, 0x1D, src, dst)
  | .fgetexp src dst => some (false, 0x1E, src, dst)
  | .fgetman src dst => some (false, 0x1F, src, dst)
  | .fmod src dst => some (true, 0x21, src, dst)
  | .fsgldiv src dst => some (true, 0x24, src, dst)
  | .frem src dst => some (true, 0x25, src, dst)
  | .fscale src dst => some (true, 0x26, src, dst)
  | .fsglmul src dst => some (true, 0x27, src, dst)
  | .fsincos src dst c => some (false, 0x30#7 ||| c.setWidth 7, src, dst)
  | _ => none

/-- The instructions that report a pending floating-point exception: all floating-point ones but FSAVE and FRESTORE
(42_fp_instructions.md R260). -/
def reportsPending (i : Instr) : Bool :=
  match i with
  | .fmovecr _ _ | .fmoveOut _ _ _ _ | .fmoveToCr _ _ | .fmoveFromCr _ _ | .fmovemLoad _ _ _ _ | .fmovemStore _ _ _ _
  | .fbccW _ _ | .fbccL _ _ | .fnop | .fscc _ _ | .fdbcc _ _ _ | .ftrapccW _ _ | .ftrapccL _ _ | .ftrapcc _ => true
  | i => (fpArithmetic i).isSome || (fpUnimplemented i).isSome

/-! ### Floating-point values as numbers (42_fp_instructions.md R262; 43_fp_exceptions.md R324) -/

/-- The number that a normalized value or a zero stands for. -/
def fpValue (x : FpReal) : ℚ :=
  (if x.sign then -1 else 1) * x.man.toNat * (2 : ℚ) ^ ((x.exp.toNat : Int) - 0x3FFF - 63)

/-- Whether a value is a normalized number (42_fp_instructions.md R262). -/
def isNormal (x : FpReal) : Bool := tagOf x == tagNormalized

/-- The numbers with at most `p` mantissa bits. -/
def hasPrecision (p : Nat) (q : ℚ) : Prop := ∃ m k : Int, |m| < 2 ^ p ∧ q = m * (2 : ℚ) ^ k

/-- `r` is the number of at most `p` mantissa bits that a rounding mode makes of an exact result (43_fp_exceptions.md R324),
which is given by the numbers below it and those above it, itself among both: the greatest below, the least above, the one of
these towards zero, or the nearest, and of two nearest the one whose last bit is 0. -/
def Rounds (mode : RoundMode) (p : Nat) (below above : ℚ → Prop) (r : ℚ) : Prop :=
  hasPrecision p r ∧
    match mode with
    | .rm => below r ∧ ∀ q, hasPrecision p q → below q → q ≤ r
    | .rp => above r ∧ ∀ q, hasPrecision p q → above q → r ≤ q
    | .rz => (below 0 → below r ∧ ∀ q, hasPrecision p q → below q → q ≤ r) ∧
        (above 0 → above r ∧ ∀ q, hasPrecision p q → above q → r ≤ q)
    | .rn => ∀ q, hasPrecision p q →
        (r < q → above ((r + q) / 2) ∧ (below ((r + q) / 2) → hasPrecision (p - 1) r)) ∧
        (q < r → below ((r + q) / 2) ∧ (above ((r + q) / 2) → hasPrecision (p - 1) r))

/-- The exponents of the normalized numbers of a precision, least and greatest (43_fp_exceptions.md R316, R319). -/
def expRange (p : Prec) : Int × Int :=
  match p with
  | .x => (-16383, 16383)
  | .d => (-1022, 1023)
  | .s => (-126, 127)

/-- The least and the greatest positive normalized number of a precision. -/
def normalRange (p : Prec) : ℚ × ℚ :=
  ((2 : ℚ) ^ (expRange p).1, (2 ^ p.bits - 1) * (2 : ℚ) ^ ((expRange p).2 - (p.bits - 1)))

/-- The exact result of an operation on numbers, but for the square root (42_fp_instructions.md R265-R269). -/
def exactResult (op : FpOp) (d s : ℚ) : ℚ :=
  match op with
  | .abs => |s|
  | .neg => -s
  | .add => d + s
  | .sub => d - s
  | .mul => d * s
  | .div => d / s
  | _ => s

/-- The unit that detects what is exceptional about a result: E1 for FMOVE, FABS and FNEG, E3 for the others
(43_fp_exceptions.md R317, R320, R326). -/
def FpOp.unit (op : FpOp) : FpUnit :=
  match op with
  | .move | .abs | .neg => .e1
  | _ => .e3

/-- The accrued exceptions that an instruction leaves in FPSR, from those that were there and from its own (43_fp_exceptions.md
R303). -/
def Accrued (old new : Long) : Prop :=
  new.getLsbD 7 = (old.getLsbD 7 || new.getLsbD 15 || new.getLsbD 14 || new.getLsbD 13) ∧
  new.getLsbD 6 = (old.getLsbD 6 || new.getLsbD 12) ∧
  new.getLsbD 5 = (old.getLsbD 5 || (new.getLsbD 11 && new.getLsbD 9)) ∧
  new.getLsbD 4 = (old.getLsbD 4 || new.getLsbD 10) ∧
  new.getLsbD 3 = (old.getLsbD 3 || new.getLsbD 8 || new.getLsbD 9 || new.getLsbD 12)

/-- The exception byte of FPSR. -/
def excByte (fpsr : Long) : Byte := fpsr.extractLsb' 8 8

/-- A result too small for a precision before it is rounded (43_fp_exceptions.md R319). -/
def TooSmall (p : Prec) (below above : ℚ → Prop) : Prop := ¬ below (normalRange p).1 ∧ ¬ above (-(normalRange p).1)

/-- A rounded result too large for a precision (43_fp_exceptions.md R316). -/
def TooLarge (p : Prec) (r : ℚ) : Prop := (normalRange p).2 < |r|

/-- What an operation makes of its exact result, which is not 0 and is given by the numbers below it and those above it
(43_fp_exceptions.md R316-R320, R324-R326, R340). One too small posts vector 51; else it is rounded, and one then too large
posts vector 53: the destination stays. Any other is delivered, normalized, with its sign in FPSR.N, and an inexact one posts
vector 49 where FPCR.INEX2 is set. That an inexact overflow sets EXC.INEX2 too is the model's choice (log entry 56). -/
def FpResult (s t : State) (dst : RegNo) (p : Prec) (unit : FpUnit) (below above : ℚ → Prop) : Prop :=
  let posted (vector : Byte) : Option Pending := some { vector := vector, unit := unit, post := false }
  (TooSmall p below above →
    t.getFp dst = s.getFp dst ∧ t.fpu.pending = posted 51 ∧ excByte t.fp.fpsr = 0x08) ∧
  (¬ TooSmall p below above →
    ∃ r : ℚ, Rounds (roundModeOf s.fp.fpcr) p.bits below above r ∧
      let inexact : Prop := ¬ (below r ∧ above r)
      (t.fp.fpsr.getLsbD 9 = true ↔ inexact) ∧
      (TooLarge p r → t.getFp dst = s.getFp dst ∧ t.fpu.pending = posted 53 ∧ excByte t.fp.fpsr &&& 0xFD = 0x10) ∧
      (¬ TooLarge p r → fpValue (t.getFp dst) = r ∧ isNormal (t.getFp dst) = true ∧
        t.fp.fpsr.extractLsb' 24 4 = BitVec.ofBool (t.getFp dst).sign ++ 0#3 ∧ excByte t.fp.fpsr &&& 0xFD = 0 ∧
        (inexact → s.fp.fpcr.getLsbD 9 = true → t.fpu.pending = posted 49) ∧
        (¬ inexact ∨ s.fp.fpcr.getLsbD 9 = false → t.fpu.pending = none)))

/-- How FMOVE to a destination at `l` ends, whether it goes on or takes an exception, `m` being the state with what it stored:
the addressing mode's register, FPSR with the exceptions `exc` and what they accrue, FPIAR, the floating-point unit, and nothing
else (42_fp_instructions.md R261, R277; 43_fp_exceptions.md R303, R304). -/
def MovedOut (s m t : State) (l : Located) (exc : Byte) : Prop :=
  t = { applyStep l.step m with fp := t.fp, fpu := t.fpu, freeCount := t.freeCount } ∧ t.fp.fp = s.fp.fp ∧
    t.fp.fpcr = s.fp.fpcr ∧ t.fp.fpiar = s.pc ∧ t.fp.fpsr.extractLsb' 16 16 = s.fp.fpsr.extractLsb' 16 16 ∧
    excByte t.fp.fpsr = exc ∧ Accrued s.fp.fpsr t.fp.fpsr

/-- It goes on to the next instruction. -/
def MoveOutEnds (i : Instr) (words : Nat) (s : State) (l : Located) (exc : Byte) (m : State) : Prop :=
  ∃ t, exec i s = .next (s.goOn words .seq t) ∧ MovedOut s m t l exc ∧ t.fpu.pending = none ∧ t.freeCount = m.freeCount

/-- It takes the post-instruction exception of a vector: format $3 with the address of the next instruction and that of the
destination, and the fields that the state frame then has (43_fp_exceptions.md R302, R304). -/
def MoveOutTraps (i : Instr) (words : Nat) (s : State) (l : Located) (src : RegNo) (cw : Word) (vector exc : Byte)
    (fields : Fpu → Prop) (m : State) : Prop :=
  ∃ (t : State) (address : Long), (∀ a, l.place = .mem a → address = a) ∧
    exec i s = .next (t.takeException s.pc s.regs
      { vector := vector, cls := .post, stackedPc := s.pc + BitVec.ofNat 32 (2 * words), format := .three address }) ∧
    MovedOut s m t l exc ∧ t.fpu.pending = some { vector := vector, unit := .e1, post := true } ∧
    t.fpu.stag = tagOf (s.getFp src) ∧ t.fpu.cmdreg1b = cw ∧ t.fpu.e1 = true ∧ t.fpu.e3 = false ∧ t.fpu.t = true ∧
    t.fpu.fpiarcu = s.pc ∧ fields t.fpu

/-- A value of an operand size written to the destination at `l`, and what then holds. -/
def WrittenAt (s : State) (l : Located) (sz : Size) (v : Long) (ends : State → Prop) : Prop :=
  (∀ a, l.place = .mem a → ∃ m, Stored s m a (operandBytes sz v) ∧ ends m) ∧
  (∀ r, l.place = .d r → ends (s.setDLow sz r v))

end Sys2Proof.Machine
end

