-- ==== Sys2Proof/Certificates/Slice0/Obligations.lean ====
section
/-! DEFINITION. The statements for the provers, by the files of the spec. -/
open Sys2Proof Sys2Proof.Machine

/-! ### Encoding (30_encoding.md) -/

/-- Decoding the words of a well-formed instruction gives it back and leaves what follows (30_encoding.md R120, R127, R128,
R140, R141). -/
def Obligations.DecodeEncode : Prop :=
  ∀ (i : Instr) (rest : List Word), i.wf = true → decode (encode i ++ rest) = .ok (i, rest)

/-- Words written out from the encodings of the spec decode to the instructions they stand for (30_encoding.md R123, R125,
R128, R130, R140, R141). Only the last is the model's choice: $F400, the pattern of CINV with scope 00, is an F-line word (log
entry 12). -/
def Obligations.WordsDecode : Prop :=
  -- TRAP #3, F-TRAP 0100 1110 0100 nnnn
  decode [0x4E43] = .ok (.trap 3, []) ∧
  -- CHK.W D1,D2: 0100 rrr 110 eeeeee
  decode [0x4581] = .ok (.chkW (.dn 1) 2, []) ∧
  -- DIVS.L (A0),D3:D2, 64-bit dividend: 0100 1100 01 eeeeee, then 0 qqq t z 0000000 rrr
  decode [0x4C50, 0x2C03] = .ok (.divsL64 (.ind 0) 2 3, []) ∧
  -- MOVES.B (A0),D0: 0000 1110 ss eeeeee, then a rrr d 00000000000
  decode [0x0E10, 0x0000] = .ok (.movesLoad .byte (.ind 0) (.d 0), []) ∧
  -- MOVEC D0,VBR
  decode [0x4E7B, 0x0801] = .ok (.movecTo 0x801 (.d 0), []) ∧
  -- CINVA, both caches: 1111 0100 kk 0 ss rrr
  decode [0xF4D8] = .ok (.cinv 3 3 0, []) ∧
  -- MOVEM.L D0/A7,-(A7): 0100 1000 11 eeeeee
  decode [0x48E7, 0x8001] = .ok (.movemStore true 0x8001 (.preDec 7), []) ∧
  -- CAS.W D1,D2,(A3): 0000 110 011 eeeeee, then 0000000 uuu 000 ccc
  decode [0x0CD3, 0x0081] = .ok (.cas .word 1 2 (.ind 3), []) ∧
  -- FADD.D 16(A1),FP2: command word 010 101 010 0100010
  decode [0xF229, 0x5522, 0x0010] = .ok (.fadd (.ea .d (.disp 1 0x10)) 2, []) ∧
  -- FSIN.X FP1,FP0: command word 000 001 000 0001110
  decode [0xF200, 0x040E] = .ok (.fsin (.reg 1) 0, []) ∧
  -- FMOVE.S FP1,(A0): command word 011 001 001 0000000
  decode [0xF210, 0x6480] = .ok (.fmoveOut .s 1 0 (.ind 0), []) ∧
  -- FBEQ.W *+6: 1111 001 010 pppppp
  decode [0xF281, 0x0004] = .ok (.fbccW 1 4, []) ∧
  -- FSAVE -(A7)
  decode [0xF327] = .ok (.fsave (.preDec 7), []) ∧
  -- an A-line word, and CINV's pattern with the scope that the spec does not define
  decode [0xA123] = .ok (.aLine 0x123, []) ∧ decode [0xF400] = .ok (.fLine 0x400, [])

/-- The first word of an instruction shows whether it is privileged (41_system_instructions.md R209; 40_trap_instructions.md
R174). -/
def Obligations.FirstWordShowsPrivilege : Prop :=
  (∀ i : Instr, i.wf = true → privilegedWord ((encode i).headD 0) = privilegedInstr i) ∧
  ∀ (w : Word) (ws rest : List Word) (i : Instr), decode (w :: ws) = .ok (i, rest) → privilegedInstr i = true →
    privilegedWord w = true

/-! ### The step (60_exceptions.md) -/

/-- A step at words that decode to a well-formed instruction is that instruction, in the state in which its words have been
fetched, then its trace. The environment has made its move and no interrupt is recognised (60_exceptions.md R410;
40_trap_instructions.md R174). -/
def Obligations.StepRunsDecoded : Prop :=
  ∀ (s t : State) (i : Instr) (ws : List Word),
    let s1 := s.applyInput.sample s.input.ipl
    s.run = .running → s.input.rsti = false → s1.irq.pending = none → (srT1 s.sr && srT0 s.sr) = false →
    s.pc.getLsbD 0 = false → Fetches s.pc ws s1 t → decode ws = .ok (i, []) → i.wf = true →
    srS s.sr = true ∨ privilegedWord (ws.headD 0) = false →
    step s = finishStep s.pc (exec i t)

/-- What a step does before or instead of an instruction. With T1 = T0 = 1 the model refuses (the spec's own treatment, log
entry 14); an odd program counter is an address error; an operation word or a further word that cannot be fetched is an
access fault, and one that the program has written and not made visible is refused (92 D8; log entries 17, 58). In user mode
the first word of a privileged instruction is a privilege violation, whatever follows it (that the operation word alone decides
is the model's reading, log entry 46). Words that decode to no instruction are an illegal instruction, on line F vector 11,
each with a format $0 frame and the address of the first word (30_encoding.md R126; 40_trap_instructions.md R171, R173, R174;
60_exceptions.md R422, R425, R427, R429, R431). -/
def Obligations.StepChecksBeforeExecuting : Prop :=
  ∀ s : State,
    let s1 := s.applyInput.sample s.input.ipl
    let takes (t : State) (vector : Byte) : Prop := step s = .next (t.takeException s.pc s.regs
      { vector := vector, cls := .restart, stackedPc := s.pc, format := .zero })
    let stops (o : EStateM.Result Abort State Word) : Prop :=
      (∀ f t, o = .error (.access f) t → step s = .next (t.takeAccessFault s.sr s.pc f)) ∧
      (∀ t, o = .error (.refused .modifiedCode) t → step s = .refused .modifiedCode)
    s.run = .running → s.input.rsti = false → s1.irq.pending = none →
    ((srT1 s.sr && srT0 s.sr) = true → step s = .refused .reservedTraceMode) ∧
    ((srT1 s.sr && srT0 s.sr) = false → s.pc.getLsbD 0 = true → step s = .next (s1.takeAddressError s.pc s.pc)) ∧
    ((srT1 s.sr && srT0 s.sr) = false → s.pc.getLsbD 0 = false →
      stops (fetchWord s.pc s1) ∧
      ∀ w t, fetchWord s.pc s1 = .ok w t →
        (srS s.sr = false → privilegedWord w = true → takes t 8) ∧
        (srS s.sr = true ∨ privilegedWord w = false → ∀ ws u, Fetches (addrPlus s.pc 2) ws t u →
          (∀ k < ws.length, decode (w :: ws.take k) = .error .more) →
          (decode (w :: ws) = .error .more → stops (fetchWord (addrPlus s.pc (2 * (ws.length + 1))) u)) ∧
          (decode (w :: ws) = .error .illegal → takes u 4) ∧
          (∀ x rest, decode (w :: ws) = .ok (.fLine x, rest) → takes u 11)))

/-- What a boundary does before any instruction: reset comes first, and the reset exception follows the release of RSTI; a
halted processor does nothing; an interrupt above the mask, or a remembered transition to level 7, is taken; a stopped
processor without one waits (60_exceptions.md R410, R424, R441; 70_reset_and_hazards.md R601). -/
def Obligations.BoundaryEvents : Prop :=
  ∀ s : State,
    let i := s.input
    let mask := (s.sr.extractLsb' 8 3).toNat
    let latch := s.irq.nmiLatch || (i.ipl == 7 && s.irq.iplPrev != 7)
    let sampled (p : Option (BitVec 3)) : State :=
      { s.applyInput with irq := { ipl := i.ipl, iplPrev := i.ipl, pending := p, nmiLatch := latch } }
    (i.rsti = true → step s = .next { s.applyInput with run := .inReset }) ∧
    (i.rsti = false → s.run = .inReset → step s = .next s.applyInput.resetException) ∧
    (i.rsti = false → s.run = .halted → step s = .next s.applyInput) ∧
    (i.rsti = false → s.run = .running ∨ s.run = .stopped →
      (mask < i.ipl.toNat → step s = .next ((sampled (some i.ipl)).takeInterrupt i.ipl i.iack)) ∧
      (i.ipl.toNat ≤ mask → latch = true → step s = .next ((sampled (some 7)).takeInterrupt 7 i.iack)) ∧
      (i.ipl.toNat ≤ mask → latch = false → s.run = .stopped → step s = .next (sampled none)))

/-- An instruction that leaves a trace due ends in the trace exception, of format $2 with the instruction's address; one that
does not ends as it is (60_exceptions.md R435). Which instructions leave one due: T1 T0 = 10 every instruction, 01 those that
change the flow or the status register (R436). That T1 T0 = 11 leaves none due is the model's choice: a step refuses that mode
before it runs an instruction (log entry 14). -/
def Obligations.TraceFollowsInstruction : Prop :=
  (∀ (ia : Long) (t : State), t.tracePending = true → finishStep ia (.next t) =
    .next (t.takeException ia t.regs { vector := 9, cls := .trace, stackedPc := t.pc, format := .two ia })) ∧
  (∀ (ia : Long) (t : State), t.tracePending = false → finishStep ia (.next t) = .next t) ∧
  (∀ (s : State) (n : Nat) (f : Flow) (t : State), (s.goOn n f t).tracePending = true ↔
    (s.sr.getLsbD 15 = true ∧ s.sr.getLsbD 14 = false) ∨
      (s.sr.getLsbD 15 = false ∧ s.sr.getLsbD 14 = true ∧ f ≠ .seq))

/-! ### Invariants -/

/-- Every step keeps the invariant, from every state that has it (10_state.md R23, R35, R36; 20_memory.md R80; 60_exceptions.md
R405, R425, R435, R461). That the program counter stays odd between the step that loads an odd vector and the next is the
model's reading (log entry 26). -/
def Obligations.StepKeepsInv : Prop := ∀ s t : State, s.Inv → step s = .next t → t.Inv

/-- The state after reset has the invariant. It rests on the values that the model names where the spec gives none: zeros in
the unspecified registers, the program counter and memory (log entries 1, 2, 3). -/
def Obligations.ResetInv : Prop := State.reset.Inv

/-- No step in user mode that ends in user mode changes a control register, a supervisor stack pointer or the upper byte of
the status register (41_system_instructions.md R209; 10_state.md R26, R33). -/
def Obligations.UserModeIsolation : Prop :=
  ∀ s t : State, srS s.sr = false → step s = .next t → srS t.sr = false →
    t.ctl = s.ctl ∧ t.regs.msp = s.regs.msp ∧ t.regs.isp = s.regs.isp ∧ t.sr.extractLsb' 8 8 = s.sr.extractLsb' 8 8

/-- In user mode every privileged instruction takes the privilege violation and does nothing else (41_system_instructions.md
R209; 60_exceptions.md R431). -/
def Obligations.PrivilegeViolation : Prop :=
  ∀ (i : Instr) (s : State), privilegedInstr i = true → srS s.sr = false →
    exec i s = .next (s.takeException s.pc s.regs { vector := 8, cls := .restart, stackedPc := s.pc, format := .zero })

/-! ### Exceptions (60_exceptions.md, 61_access_fault_recovery.md) -/

/-- Taking an exception: the status register, the stacked program counter, the format and vector offset and the address field
are in the frame below the supervisor stack pointer that M selects (or at the place that RTE gives), that pointer names the
frame, S is set and T1, T0 are cleared, the program counter is read from the vector table, flow has changed, and nothing else
differs. An odd vector is loaded like any other, its address error (vector 3, format $2, the odd address less 1 in the address
field) coming with the handler's first fetch, as the model reads the spec in a later step (log entry 26); but it halts the
processor if the exception is an address error itself (60_exceptions.md R400, R401, R403, R405, R411, R424, R425, R461). That
the vector is read after the frame is in memory, as the steps of R400 stand, is the model's choice, for R406 and 93 U23 say
that no proof may rely on that order (log entry 45); so for a frame that covers its own vector this says what the model does. -/
def Obligations.ExceptionEntry : Prop :=
  ∀ (s : State) (ia : Long) (regs0 : Regs) (e : Exc), s.plain → s.memOk →
    let field : BitVec 4 × List Word := match e.format with
      | .zero => (0, [])
      | .two a => (2, longWords a)
      | .three a => (3, longWords a)
    let frame (image : Word) : List Word :=
      [image] ++ longWords e.stackedPc ++ [field.1 ++ 0#2 ++ e.vector ++ 0#2] ++ field.2
    let k : StackSel := if srM s.sr then .msp else .isp
    let place : StackSel × Long × Word :=
      e.inPlace.getD (k, s.getStack k - BitVec.ofNat 32 (2 * (frame 0).length), s.sr)
    ∃ m, Stored s m place.2.1 (bytesOfWords (frame place.2.2)) ∧
      let t : State := ({ m.setStack place.1 place.2.1 with
        sr := (s.sr ||| 0x2000) &&& 0x3FFF, pc := m.longAt (s.ctl.vbr + 4 * e.vector.setWidth 32),
        tracePending := false, run := .running } : State).flowChanged
      (t.pc.getLsbD 0 = false ∨ e.cls ≠ .address → s.takeException ia regs0 e = t) ∧
      (t.pc.getLsbD 0 = true → e.cls = .address → s.takeException ia regs0 e = s.halt) ∧
      ∀ pc target, s.takeAddressError pc target = s.takeException ia regs0
        { vector := 3, cls := .address, stackedPc := pc, format := .two (target &&& 0xFFFFFFFE) }

/-- An interrupt: the mask is raised to its level; with M = 0 its format $0 frame is on the interrupt stack; with M = 1 that
frame is on the master stack, a format $1 frame whose status register has S set is on the interrupt stack, and M is cleared.
The level 7 memory is cleared by a level 7 interrupt. The program counter is read from the vector table whole, odd or even
(60_exceptions.md R405, R441, R444, R445, R461); that the address error of an odd one comes in a later step is the model's
reading (log entry 26). The vector is read after the frames are in memory, as the steps of R400 stand; that order is the
model's choice, for R406 and 93 U23 say that no proof may rely on it (log entry 45). -/
def Obligations.InterruptEntry : Prop :=
  ∀ (s : State) (level : BitVec 3) (answer : IackAnswer), s.plain → s.memOk →
    let vector : Byte := match answer with
      | .vector n => n
      | .avec => 24 + level.setWidth 8
      | .tea => 24
    let frame (image : Word) (fmt : BitVec 4) : List Byte :=
      bytesOfWords ([image] ++ longWords s.pc ++ [fmt ++ 0#2 ++ vector ++ 0#2])
    let s0 : State :=
      { s.emit (.interruptAcknowledge level) with irq := { s.irq with nmiLatch := s.irq.nmiLatch && level != 7 } }
    let entered (m : State) : State := ({ m with
      sr := ((s.sr ||| 0x2000) &&& 0x28FF) ||| (0#5 ++ level ++ 0#8), pc := m.longAt (s.ctl.vbr + 4 * vector.setWidth 32),
      tracePending := false, run := .running } : State).flowChanged
    (srM s.sr = false → ∃ m, Stored s0 m (s.regs.isp - 8) (frame s.sr 0) ∧
      s.takeInterrupt level answer = entered (m.setStack .isp (s.regs.isp - 8))) ∧
    (srM s.sr = true → ∃ m m', Stored s0 m (s.regs.msp - 8) (frame s.sr 0) ∧
      Stored m m' (s.regs.isp - 8) (frame (s.sr ||| 0x2000) 1) ∧
      s.takeInterrupt level answer = entered ((m'.setStack .msp (s.regs.msp - 8)).setStack .isp (s.regs.isp - 8)))

/-- An access fault: the 30 words of its format $7 frame, with the special status word, the continuation it carries, the fault
address and the write-back of a faulted write; an odd vector is a double bus fault. An instruction that reads or writes an
operand and meets one stacks its own address and leaves the registers as it found them, so that it restarts from its beginning
(60_exceptions.md R408, R422, R424; 61_access_fault_recovery.md R500, R503, R520, R521; 92 D5). The fields that the spec leaves
open are free values, ten of them (log entry 4); that the vector is read after the frame is in memory is R400's order, on which
R406 lets no proof rely (log entry 45). That an unimplemented floating-point instruction whose operand faults has made the null
mode idle before (fpAwake) is the model's choice: R260 gives the step to the implemented ones, R263 gives none (log entry 52). -/
def Obligations.AccessFaultFrame : Prop :=
  (∀ (s : State) (image : Word) (pc : Long) (f : AccessFault), s.plain → s.memOk →
    let k : StackSel := if srM s.sr then .msp else .isp
    let a := s.getStack k - 60
    ∃ (m : State) (ssw : Word) (wb1s : Byte) (ea wb3a wb3d wb2a wb2d wb1a d0 d1 d2 d3 : Long),
      Stored s m a (bytesOfWords ([image] ++ longWords pc ++ [0x7008] ++ longWords ea ++ [ssw, 0, 0, 0#8 ++ wb1s] ++
        longWords f.acc.addr ++ longWords wb3a ++ longWords wb3d ++ longWords wb2a ++ longWords wb2d ++ longWords wb1a ++
        longWords d0 ++ longWords d1 ++ longWords d2 ++ longWords d3)) ∧
      (ssw.extractLsb' 0 3 = f.acc.tm ∧ ssw.extractLsb' 3 2 = f.acc.tt ∧ ssw.extractLsb' 5 2 = f.acc.size.code ∧
        ssw.getLsbD 8 = !f.acc.write ∧ ssw.getLsbD 9 = f.acc.locked ∧ ssw.getLsbD 10 = f.atc ∧ ssw.getLsbD 11 = f.ma) ∧
      (match f.cont with
        | .none => ssw.extractLsb' 12 4 = 0
        | .cm x => ssw.extractLsb' 12 4 = 1 ∧ ea = x
        | .ct x => ssw.extractLsb' 12 4 = 2 ∧ ea = x
        | .cu x => ssw.extractLsb' 14 2 = 1 ∧ ssw.getLsbD 12 = false ∧ ea = x
        | .cp x => ssw.extractLsb' 14 2 = 2 ∧ ssw.getLsbD 12 = false ∧ ea = x) ∧
      (match f.wb with
        | .none => wb1s = 0
        | .one d => wb1s = 1#1 ++ f.acc.size.code ++ f.acc.tt ++ f.acc.tm ∧ wb1a = f.acc.addr ∧ d0 = d
        | .line x0 x1 x2 x3 => wb1s = 0 ∧ d0 = x0 ∧ d1 = x1 ∧ d2 = x2 ∧ d3 = x3) ∧
      let v := m.longAt (s.ctl.vbr + 8)
      (v.getLsbD 0 = false → s.takeAccessFault image pc f = ({ m.setStack k a with
        sr := (s.sr ||| 0x2000) &&& 0x3FFF, pc := v, tracePending := false, run := .running,
        freeCount := s.freeCount + 10 } : State).flowChanged) ∧
      (v.getLsbD 0 = true → (s.takeAccessFault image pc f).run = .halted ∧ (s.takeAccessFault image pc f).mem = s.mem)) ∧
  ∀ (s t : State) (f : AccessFault),
    let faults (i : Instr) : Prop := exec i s = .next (t.takeAccessFault s.sr s.pc f)
    let kept : Prop := t.regs = s.regs ∧ t.sr = s.sr ∧ t.ctl = s.ctl ∧ t.fp.fp = s.fp.fp
    (∀ ea, readOperand ea .word (addrPlus s.pc 2) s = .error (.access f) t →
      kept ∧ (∀ dn, ∀ i ∈ [Instr.chkW ea dn, .divuW ea dn, .divsW ea dn], faults i) ∧
      (srS s.sr = true → faults (.moveToSr ea))) ∧
    (∀ ea dn, readOperand ea .long (addrPlus s.pc 2) s = .error (.access f) t → kept ∧ faults (.chkL ea dn)) ∧
    (∀ ea dq dr, readOperand ea .long (addrPlus s.pc 4) s = .error (.access f) t →
      kept ∧ ∀ i ∈ [Instr.divuL ea dq dr, .divuL64 ea dq dr, .divsL ea dq dr, .divsL64 ea dq dr], faults i) ∧
    (∀ ea, writeOperand ea .word (addrPlus s.pc 2) (s.sr.setWidth 32) s = .error (.access f) t → srS s.sr = true →
      kept ∧ faults (.moveFromSr ea)) ∧
    (∀ src, fpSource src s.fpAwake = .error (.access f) t → s.fpu.pending = none →
      kept ∧ ∀ i, (∃ op form cmd dst, fpArithmetic i = some (op, form, cmd, src, dst)) ∨
        (∃ dyadic cmd dst, fpUnimplemented i = some (dyadic, cmd, src, dst)) → faults i)

/-- Where every write ends in TEA, an exception of any kind halts the processor, with memory as it was unless another master
writes meanwhile: its frame faults, and so does the frame of that access fault, a double bus fault (60_exceptions.md R424,
R460). That no byte of a frame is written before all its addresses are checked is the model's reading (log entries 27, 45).
-/
def Obligations.DoubleBusFaultHalts : Prop :=
  ∀ (s : State) (ia : Long) (regs0 : Regs) (e : Exc), s.translationOff = true →
    (∃ r ∈ s.env.tea, r.lo = 0 ∧ r.hi = 0xFFFFFFFF ∧ r.tt = none ∧ r.tm = none ∧ r.writes = true) →
    (s.takeException ia regs0 e).run = .halted ∧ (s.env.bus = [] → (s.takeException ia regs0 e).mem = s.mem)

/-- The state after reset, and the reset exception of a running machine: the values of the reset sequence, the interrupt
stack pointer and the program counter from addresses 0 and 4, memory unchanged; an odd program counter halts the processor
(60_exceptions.md R420, R424; 10_state.md R65). That a processor so halted has the interrupt stack pointer it read and the
reset values is the model's choice, where R424 leaves them unspecified (log entry 27). -/
def Obligations.ResetException : Prop :=
  let resetValues (t : State) : Prop :=
    t.sr.extractLsb' 8 8 = 0x27 ∧ t.ctl.vbr = 0 ∧ t.ctl.cacr.getLsbD 31 = false ∧ t.ctl.cacr.getLsbD 15 = false ∧
      t.ctl.tc.extractLsb' 14 2 = 1 ∧ t.ctl.itt0.getLsbD 15 = false ∧ t.ctl.itt1.getLsbD 15 = false ∧
      t.ctl.dtt0.getLsbD 15 = false ∧ t.ctl.dtt1.getLsbD 15 = false ∧ t.fpu.mode = .null ∧ t.fpu.pending = none ∧
      t.irq.pending = none ∧ t.irq.nmiLatch = false ∧ t.tracePending = false
  (resetValues State.reset ∧ State.reset.run = .running) ∧
  ∀ s : State, s.env.tea = [] → s.env.bus = [] →
    let t := s.resetException
    resetValues t ∧ t.regs.isp = s.longAt 0 ∧ t.mem = s.mem ∧ t.env = s.env ∧
      ((s.longAt 4).getLsbD 0 = false → t.run = .running ∧ t.pc = s.longAt 4) ∧
      ((s.longAt 4).getLsbD 0 = true → t.run = .halted)

/-- RTE from a frame of format $0, $2 or $3, found at the active stack pointer or under one throwaway frame of format $1: the
status register and the program counter come from the frame, the pointer moves past it, nothing else changes; an odd program
counter is an address error. A frame of none of the five formats is a format error, and stays (41_system_instructions.md R200;
60_exceptions.md R425, R433). -/
def Obligations.RteReturns : Prop :=
  let pop (s : State) (n : Long) : State := { s.setSp (s.sp + n) with sr := s.wordAt s.sp &&& 0xF71F }
  let formatAt (s : State) : BitVec 4 := (s.wordAt (s.sp + 6)).extractLsb' 12 4
  let last (s u : State) : Prop :=
    formatAt u = 0 ∨ formatAt u = 2 ∨ formatAt u = 3 →
      let pc := u.longAt (u.sp + 2)
      let t := pop u (if formatAt u = 0 then 8 else 12)
      (pc.getLsbD 0 = false → exec .rte s = .next (s.jumped pc t)) ∧
      (pc.getLsbD 0 = true → exec .rte s = .next (t.takeException s.pc s.regs
        { vector := 3, cls := .address, stackedPc := s.pc, format := .two (pc &&& 0xFFFFFFFE) }))
  ∀ s : State, s.plain → srS s.sr = true → last s s ∧ (formatAt s = 1 → last s (pop s 8)) ∧
    (formatAt s ∉ [0, 1, 2, 3, (7 : BitVec 4)] → exec .rte s =
      .next (s.takeException s.pc s.regs { vector := 14, cls := .keep, stackedPc := s.pc, format := .zero }))

/-- RTE from an access error frame: popped whole, with the address of a MOVEM handed over (CM), or going on to the pending
trace (CT), unimplemented (CU) or post-instruction (CP) exception, whose frame takes the place of its last words; any other
setting of these bits is refused (log entry 16). An odd program counter in the frame is an address error. With CP set and no
floating-point exception pending the vector is one of those of a post-instruction exception, which one is free: the model's
choice (log entry 50). (41_system_instructions.md R201; 60_exceptions.md R425.) -/
def Obligations.RteAccessError : Prop :=
  ∀ s : State, s.plain → srS s.sr = true → (s.wordAt (s.sp + 6)).extractLsb' 12 4 = 7 →
    let image := s.wordAt s.sp
    let pc := s.longAt (s.sp + 2)
    let ea := s.longAt (s.sp + 8)
    let bits := (s.wordAt (s.sp + 12)).extractLsb' 12 4
    let t : State := { s.setSp (s.sp + 60) with sr := image &&& 0xF71F }
    let place := some (activeStack s.sr, s.sp + 48, image)
    let goes (t : State) : Prop :=
      (pc.getLsbD 0 = false → exec .rte s = .next (s.jumped pc t)) ∧
      (pc.getLsbD 0 = true → exec .rte s = .next (t.takeException s.pc s.regs
        { vector := 3, cls := .address, stackedPc := s.pc, format := .two (pc &&& 0xFFFFFFFE) }))
    let going (t : State) (vector : Byte) (cls : ExcClass) (format : Format) : Prop :=
      exec .rte s = .next (t.takeException s.pc s.regs
        { vector := vector, cls := cls, stackedPc := pc, format := format, inPlace := place })
    (bits = 0 → goes t) ∧ (bits = 1 → goes { t with movemRestart := some ea }) ∧
    (bits = 2 → going t 9 .trace (.two ea)) ∧
    (bits = 4 ∨ bits = 6 → going t 11 .unimp (.two ea)) ∧
    (bits = 8 ∨ bits = 10 →
      (∀ p, s.fpu.pending = some p → going t p.vector .post (.three ea)) ∧
      (s.fpu.pending = none → ∃ vector ∈ [49, 51, 52, 53, 54, (55 : Byte)],
        going { t with freeCount := s.freeCount + 1 } vector .post (.three ea))) ∧
    (bits ∉ [0, 1, 2, 4, 6, 8, (10 : BitVec 4)] → exec .rte s = .refused .undefinedContinuation)

/-- RTE undoes an exception: from the state its entry made, the program goes on at the stacked program counter with every
register, the status register and every stack pointer as they were (60_exceptions.md R400; 41_system_instructions.md R200). -/
def Obligations.ExceptionReturn : Prop :=
  ∀ (s t u : State) (e : Exc), s.plain → s.memOk → e.inPlace = none → e.stackedPc.getLsbD 0 = false →
    s.tryException e = .ok (t, u) →
    exec .rte t = .next { s with mem := t.mem, modified := t.modified, sr := s.sr &&& 0xF71F, pc := e.stackedPc,
                                 run := .running, tracePending := false }

/-- RTE undoes an interrupt, also through the throwaway frame that M = 1 puts on the interrupt stack, where the two frames do
not meet (60_exceptions.md R445; 41_system_instructions.md R200). -/
def Obligations.InterruptReturn : Prop :=
  ∀ (s t u : State) (level : BitVec 3) (vector : Byte), s.plain → s.memOk → s.pc.getLsbD 0 = false →
    (srM s.sr = true → 8 ≤ (s.regs.msp - s.regs.isp).toNat ∧ 8 ≤ (s.regs.isp - s.regs.msp).toNat) →
    s.tryInterrupt level vector = .ok (t, u) →
    exec .rte t = .next { s with mem := t.mem, modified := t.modified, sr := s.sr &&& 0xF71F, run := .running,
                                 tracePending := false, irq := { s.irq with nmiLatch := s.irq.nmiLatch && level != 7 } }

/-! ### Memory and operands (20_memory.md, 30_encoding.md) -/

/-- With translation off, no bus error and no other master every access reaches memory at any alignment: a store changes
exactly its bytes, most significant at the lowest address, a load reads them so, and a load after a store reads what was
stored. An access whose first transfer ends in TEA, by a range or by the environment's move, is an access fault with the
parameters of the access, and stores nothing. Between the two transfers of a word at an odd address another master may write
(20_memory.md R80, R85, R86, R98, R100; 61_access_fault_recovery.md R520). That such a word is transferred as two bytes, the
lower address first, is the model's choice (log entry 18). -/
def Obligations.MemoryAccesses : Prop :=
  (∀ (s : State) (acc : Access) (sz : Size) (v : Long), s.plain → s.memOk → acc.size = .ofSize sz →
    load acc s = .ok (s.valueAt acc.addr sz) s ∧
    ∃ t, store acc v s = .ok () t ∧ Stored s t acc.addr (operandBytes sz v) ∧ load acc t = .ok (zextLong sz v) t) ∧
  (∀ (s : State) (acc : Access), s.translationOff = true →
    (∃ r ∈ s.env.tea, (r.tt = none ∨ r.tt = some acc.tt) ∧ (r.tm = none ∨ r.tm = some acc.tm) ∧
      r.lo.toNat ≤ acc.addr.toNat ∧ acc.addr.toNat ≤ r.hi.toNat ∧ (if acc.write then r.writes else r.reads) = true) ∨
      s.busNow.tea = true →
    loadBytes acc s = .error { acc := acc, atc := false, ma := false, wb := .none, cont := .none } (s.busMove acc.locked) ∧
    ∀ bs, storeBytes acc bs s =
      .error { acc := acc, atc := false, ma := false, wb := writeBackOf acc bs, cont := .none } (s.busMove acc.locked)) ∧
  (∀ (s : State) (acc : Access) (ws vs : List (Long × Byte)) (bus : List BusInput), s.translationOff = true →
    s.env.tea = [] → s.env.bus = { writes := ws, tea := false } :: { writes := vs, tea := false } :: bus →
    acc.size = .word → acc.addr.getLsbD 0 = true → acc.locked = false →
    let first := Memory.writes s.mem ws
    let second := Memory.writes first vs
    load acc s = .ok (0#16 ++ Memory.read first acc.addr.toNat ++ Memory.read second (acc.addr + 1).toNat)
      { s with mem := second, env := { s.env with bus := bus } })

/-- The twelve addressing modes: where each operand is, and the address register that (An)+ and -(An) write, a byte on A7
stepping by 2 (30_encoding.md R140, R141). -/
def Obligations.EffectiveAddresses : Prop :=
  ∀ (s : State) (ea : Ea) (n : Nat) (ext : Long), s.plain →
    let step (r : RegNo) : Long := if n = 1 ∧ r = 7 then 2 else BitVec.ofNat 32 n
    let disp : Disp → Long := fun
      | .none => 0
      | .word d => d.signExtend 32
      | .long d => d
    let index (x : IndexReg) : Long :=
      (if x.long then s.getR x.reg else ((s.getR x.reg).setWidth 16).signExtend 32) * BitVec.ofNat 32 (2 ^ x.scale.toNat)
    let indexed (base : Long) : IndexExt → Long := fun
      | .brief x d => base + index x + d.signExtend 32
      | .full x bs is bd ind =>
        let b := (if bs then 0 else base) + disp bd
        let i := if is then 0 else index x
        match ind with
        | .no => b + i
        | .pre od => s.longAt (b + i) + disp od
        | .post od => s.longAt b + i + disp od
    locate ea n ext s = .ok (match ea with
      | .dn r => { place := .d r, step := none }
      | .an r => { place := .a r, step := none }
      | .ind r => { place := .mem (s.getA r), step := none }
      | .postInc r => { place := .mem (s.getA r), step := some (r, s.getA r + step r) }
      | .preDec r => { place := .mem (s.getA r - step r), step := some (r, s.getA r - step r) }
      | .disp r d => { place := .mem (s.getA r + d.signExtend 32), step := none }
      | .index r x => { place := .mem (indexed (s.getA r) x), step := none }
      | .absW a => { place := .mem (a.signExtend 32), step := none }
      | .absL a => { place := .mem a, step := none }
      | .pcDisp d => { place := .mem (ext + d.signExtend 32), step := none }
      | .pcIndex x => { place := .mem (indexed ext x), step := none }
      | .imm ws => { place := .imm ws, step := none }) s

/-- Operands read and written through an addressing mode: the low bits of a data register (the rest of it stays), a whole
address register (a write sign-extended), memory, or the instruction's own words; the mode's address register is written too
(30_encoding.md R140; 20_memory.md R85). -/
def Obligations.OperandsReadAndWritten : Prop :=
  ∀ (s : State) (ea : Ea) (sz : Size) (ext v : Long) (l : Located), s.plain → s.memOk →
    locate ea sz.bytes ext s = .ok l s →
    (match l.place with
      | .d r => readOperand ea sz ext s = .ok (zextLong sz (s.getD r)) (applyStep l.step s) ∧
          writeOperand ea sz ext v s = .ok () (applyStep l.step (s.setD r (match sz with
            | .byte => (s.getD r &&& 0xFFFFFF00) ||| (v &&& 0xFF)
            | .word => (s.getD r &&& 0xFFFF0000) ||| (v &&& 0xFFFF)
            | .long => v)))
      | .a r => readOperand ea sz ext s = .ok (zextLong sz (s.getA r)) (applyStep l.step s) ∧
          writeOperand ea sz ext v s = .ok () (applyStep l.step (s.setA r (match sz with
            | .byte => (v.setWidth 8).signExtend 32
            | .word => (v.setWidth 16).signExtend 32
            | .long => v)))
      | .mem a => readOperand ea sz ext s = .ok (s.valueAt a sz) (applyStep l.step s) ∧
          ∃ t, Stored s t a (operandBytes sz v) ∧ writeOperand ea sz ext v s = .ok () (applyStep l.step t)
      | .imm ws => readOperand ea sz ext s = .ok (zextLong sz (BitVec.ofNat 32 (immValue ws))) (applyStep l.step s))

/-! ### Instructions that trap (40_trap_instructions.md) -/

/-- TRAP #n ($4E40 + n) takes vector 32 + n with a format $0 frame and the address of the next instruction. ILLEGAL and BKPT
($4848 + n) take vector 4, an A-line word vector 10, an F-line word that is no legal instruction vector 11, each with a format
$0 frame and the address of the instruction; BKPT runs an acknowledge cycle first (R160, R170-R173).
The F-line words decoded here are those of no coprocessor that the MC68040 has (bits 11:9 none of 001, 010, 011; 30_encoding.md
R126, R133). -/
def Obligations.TrapsAndIllegalWords : Prop :=
  ∀ s : State,
    let trap (t : State) (vector : Byte) : Host.Outcome State Fault Refusal := .next (t.takeException s.pc s.regs
      { vector := vector, cls := .restart, stackedPc := s.pc, format := .zero })
    (∀ n : BitVec 4, exec (.trap n) s = .next (s.takeException s.pc s.regs
      { vector := BitVec.ofNat 8 (32 + n.toNat), cls := .restart, stackedPc := s.pc + 2, format := .zero })) ∧
    exec .illegal s = trap s 4 ∧
    (∀ n, exec (.bkpt n) s = trap { s with env := { s.env with outputs := .breakpointAcknowledge n :: s.env.outputs } } 4) ∧
    (∀ w, exec (.aLine w) s = trap s 10) ∧ (∀ w, exec (.fLine w) s = trap s 11) ∧
    (∀ n : BitVec 4, decode [0x4E4#12 ++ n] = .ok (.trap n, [])) ∧ decode [0x4AFC] = .ok (.illegal, []) ∧
    (∀ n : RegNo, decode [0x4848 + n.setWidth 16] = .ok (.bkpt n, [])) ∧
    (∀ w : BitVec 12, decode [0xA#4 ++ w] = .ok (.aLine w, [])) ∧
    ∀ w : BitVec 12, w.extractLsb' 9 3 ∉ [1, 2, (3 : BitVec 3)] → decode [0xF#4 ++ w] = .ok (.fLine w, [])

/-- TRAPcc (0101 cccc 1111 1ooo) in its three lengths and TRAPV ($4E76): where the condition holds vector 7 with a format $2
frame, the address of the next instruction stacked and that of the instruction in the address field; else on to the next
instruction, nothing changed. The sixteen conditions are those of the table (R162, R163). -/
def Obligations.ConditionalTraps : Prop :=
  ∀ (s : State) (cc : BitVec 4),
    let n := s.sr.getLsbD 3
    let z := s.sr.getLsbD 2
    let v := s.sr.getLsbD 1
    let c := s.sr.getLsbD 0
    let holds : Bool := match cc.toNat with
      | 0 => true | 1 => false
      | 2 => !c && !z | 3 => c || z | 4 => !c | 5 => c | 6 => !z | 7 => z | 8 => !v | 9 => v | 10 => !n | 11 => n
      | 12 => n == v | 13 => n != v | 14 => !z && n == v | _ => z || n != v
    let runs (i : Instr) (words : Nat) (b : Bool) : Prop :=
      exec i s = if b then .next (s.takeException s.pc s.regs
          { vector := 7, cls := .restart, stackedPc := s.pc + BitVec.ofNat 32 (2 * words), format := .two s.pc })
        else .next (s.goOn words .seq s)
    runs (.trapcc cc) 1 holds ∧ (∀ d, runs (.trapccW cc d) 2 holds) ∧ (∀ d, runs (.trapccL cc d) 3 holds) ∧ runs .trapv 1 v ∧
    decode [5#4 ++ cc ++ 0xFC#8] = .ok (.trapcc cc, []) ∧ (∀ d, decode [5#4 ++ cc ++ 0xFA#8, d] = .ok (.trapccW cc d, [])) ∧
    (∀ d, decode ((5#4 ++ cc ++ 0xFB#8) :: longWords d) = .ok (.trapccL cc d, [])) ∧ decode [0x4E76] = .ok (.trapv, [])

/-- CHK: a negative value, or one above the bound, takes vector 6 with N telling which; else the next instruction. X and the
system byte stay; the other condition codes are undefined (R164). -/
def Obligations.ChkChecksBound : Prop :=
  ∀ (long : Bool) (ea : Ea) (dn : RegNo) (s s1 : State) (b : Long),
    let sz : Size := if long then .long else .word
    let i : Instr := if long then .chkL ea dn else .chkW ea dn
    let value := signedOf sz (s.getD dn)
    readOperand ea sz (addrPlus s.pc 2) s = .ok b s1 →
    ∃ (n z v c : Bool) (k : Nat),
      let t (n : Bool) : State := ({ s1 with freeCount := k } : State).setNzvc n z v c
      let trap (n : Bool) : Host.Outcome State Fault Refusal := .next ((t n).takeException s.pc s.regs
        { vector := 6, cls := .restart, stackedPc := s.pc + BitVec.ofNat 32 (2 * eaLength 0 ea), format := .two s.pc })
      (value < 0 → exec i s = trap true) ∧
      (0 ≤ value → signedOf sz b < value → exec i s = trap false) ∧
      (0 ≤ value → value ≤ signedOf sz b → exec i s = .next (s.goOn (eaLength 0 ea) .seq (t n)))

/-- CHK2: the bounds are two operands one after the other, compared as signed numbers, or as unsigned ones where only that
order fits them; C tells a value outside them and takes vector 6, Z a value equal to one. A data register counts with the low
bits of the size, an address register whole (R165). Bounds in no order: the model leaves C free (log entry 20). -/
def Obligations.Chk2ChecksBounds : Prop :=
  ∀ (sz : Size) (ea : Ea) (rn : Reg) (s s1 s2 s3 : State) (l : Located) (lo hi : Long),
    let lower := sextLong sz lo
    let upper := sextLong sz hi
    let value := match rn with
      | .d r => sextLong sz (s.getD r)
      | .a r => s.getA r
    locate ea sz.bytes (addrPlus s.pc 4) s = .ok l s1 → readPlace sz l.place s1 = .ok lo s2 →
    readPlace sz (.mem (addrPlus (placeAddr l.place) sz.bytes)) s2 = .ok hi s3 →
    ∃ (n v : Bool) (k : Nat),
      let t (c : Bool) : State :=
        ({ s3 with freeCount := k } : State).setNzvc n (decide (value = lower ∨ value = upper)) v c
      let inside := exec (.chk2 sz ea rn) s = .next (s.goOn (eaLength 1 ea) .seq (t false))
      let outside := exec (.chk2 sz ea rn) s = .next ((t true).takeException s.pc s.regs
        { vector := 6, cls := .restart, stackedPc := s.pc + BitVec.ofNat 32 (2 * eaLength 1 ea), format := .two s.pc })
      (lower.toInt ≤ value.toInt → value.toInt ≤ upper.toInt → inside) ∧
      (lower.toInt ≤ upper.toInt → value.toInt < lower.toInt ∨ upper.toInt < value.toInt → outside) ∧
      (upper.toInt < lower.toInt → lower.toNat ≤ value.toNat → value.toNat ≤ upper.toNat → inside) ∧
      (upper.toInt < lower.toInt → lower.toNat ≤ upper.toNat → value.toNat < lower.toNat ∨ upper.toNat < value.toNat →
        outside) ∧
      (upper.toInt < lower.toInt → upper.toNat < lower.toNat → inside ∨ outside)

/-- The divides: dividend, divisor, quotient and remainder as numbers. A zero divisor takes vector 5 with N, Z, V undefined;
a quotient that does not fit sets V, clears C and changes no register; else quotient and remainder are written, N, Z from
the quotient, V and C cleared, X kept (R166). That C stays on a zero divisor is the model's reading (log entry 21). -/
def Obligations.DivideWords : Prop :=
  ∀ (signed : Bool) (ea : Ea) (dn : RegNo) (s s1 : State) (d : Long),
    let i : Instr := if signed then .divsW ea dn else .divuW ea dn
    let dividend : Int := if signed then (s.getD dn).toInt else (s.getD dn).toNat
    let divisor : Int := if signed then (d.setWidth 16).toInt else (d.setWidth 16).toNat
    let length := eaLength 0 ea
    readOperand ea .word (addrPlus s.pc 2) s = .ok d s1 →
    (d = 0 → ∃ n z v k, exec i s = .next ((({ s1 with freeCount := k } : State).setNzvc n z v (s.sr.getLsbD 0)).takeException
      s.pc s.regs
      { vector := 5, cls := .restart, stackedPc := s.pc + BitVec.ofNat 32 (2 * length), format := .two s.pc })) ∧
    ∀ q r : Int, divisor ≠ 0 → dividend = q * divisor + r → |r| < |divisor| → 0 ≤ r * dividend →
      let fits : Prop := if signed then -0x8000 ≤ q ∧ q < 0x8000 else q < 0x10000
      (fits → exec i s = .next (s.goOn length .seq ((s1.setD dn (BitVec.ofInt 16 r ++ BitVec.ofInt 16 q)).setNzvc
        ((BitVec.ofInt 16 q).getLsbD 15) (decide (q = 0)) false false))) ∧
      (¬ fits → ∃ n z k, exec i s = .next (s.goOn length .seq
        (({ s1 with freeCount := k } : State).setNzvc n z true false)))

/-- The long divides, with a dividend of 32 bits or of 64 bits in Dr:Dq; the remainder is written where Dr is another register
than Dq (R167; for the flags also R166 and log entry 21). -/
def Obligations.DivideLongs : Prop :=
  ∀ (signed wide : Bool) (ea : Ea) (dq dr : RegNo) (s s1 : State) (d : Long),
    let i : Instr := match signed, wide with
      | false, false => .divuL ea dq dr | false, true => .divuL64 ea dq dr
      | true, false => .divsL ea dq dr | true, true => .divsL64 ea dq dr
    let both : BitVec 64 := s.getD dr ++ s.getD dq
    let dividend : Int :=
      if wide then (if signed then both.toInt else both.toNat)
      else (if signed then (s.getD dq).toInt else (s.getD dq).toNat)
    let divisor : Int := if signed then d.toInt else d.toNat
    let length := eaLength 1 ea
    readOperand ea .long (addrPlus s.pc 4) s = .ok d s1 →
    (d = 0 → ∃ n z v k, exec i s = .next ((({ s1 with freeCount := k } : State).setNzvc n z v (s.sr.getLsbD 0)).takeException
      s.pc s.regs
      { vector := 5, cls := .restart, stackedPc := s.pc + BitVec.ofNat 32 (2 * length), format := .two s.pc })) ∧
    ∀ q r : Int, divisor ≠ 0 → dividend = q * divisor + r → |r| < |divisor| → 0 ≤ r * dividend →
      let fits : Prop := if signed then -0x80000000 ≤ q ∧ q < 0x80000000 else q < 0x100000000
      (fits → exec i s = .next (s.goOn length .seq
        (((if dr = dq then s1 else s1.setD dr (BitVec.ofInt 32 r)).setD dq (BitVec.ofInt 32 q)).setNzvc
          ((BitVec.ofInt 32 q).getLsbD 31) (decide (q = 0)) false false))) ∧
      (¬ fits → ∃ n z k, exec i s = .next (s.goOn length .seq
        (({ s1 with freeCount := k } : State).setNzvc n z true false)))

/-! ### System instructions (41_system_instructions.md) -/

/-- NOP is the word $4E71; it goes on to the next instruction and does nothing else (R230). -/
def Obligations.NopDoesNothing : Prop :=
  decode [0x4E71] = .ok (.nop, []) ∧ ∀ s : State, exec .nop s = .next (s.goOn 1 .seq s)

/-- MOVE USP, 0100 1110 0110 d rrr: in supervisor mode it copies between the user stack pointer and an address register, A7
being the supervisor's; in user mode it is a privilege violation (R206). -/
def Obligations.MoveUsp : Prop :=
  ∀ (s : State) (an : RegNo),
    decode [0x4E6#12 ++ 0#1 ++ an] = .ok (.moveToUsp an, []) ∧ decode [0x4E6#12 ++ 1#1 ++ an] = .ok (.moveFromUsp an, []) ∧
    (srS s.sr = true →
      exec (.moveToUsp an) s = .next (s.goOn 1 .seq { s with regs := { s.regs with usp := s.getA an } }) ∧
      exec (.moveFromUsp an) s = .next (s.goOn 1 .seq (s.setA an s.regs.usp))) ∧
    (srS s.sr = false → ∀ i ∈ [Instr.moveToUsp an, .moveFromUsp an], exec i s =
      .next (s.takeException s.pc s.regs { vector := 8, cls := .restart, stackedPc := s.pc, format := .zero }))

/-- RESET emits its event and changes no register and no memory; STOP loads the status register and stops, but if it is traced
it does not stop (R203, R204; 60_exceptions.md R438). That STOP is recorded as a change of flow for the bytes that the processor
has written is the model's choice (log entry 58). -/
def Obligations.ResetAndStop : Prop :=
  ∀ (s : State) (imm : Word), srS s.sr = true →
    let loaded : State := { s with sr := imm &&& 0xF71F }
    exec .reset s = .next (s.goOn 1 .seq { s with env := { s.env with outputs := .resetOut :: s.env.outputs } }) ∧
    (s.sr.getLsbD 15 = s.sr.getLsbD 14 → exec (.stop imm) s = .next (s.goOn 2 .srChange { loaded with run := .stopped })) ∧
    (s.sr.getLsbD 15 ≠ s.sr.getLsbD 14 → exec (.stop imm) s = .next (s.goOn 2 .srChange loaded))

/-- The instructions that read and write the status register: OR, AND, exclusive OR with the immediate word, a move in, which
drop the bits that do not exist, and a move out of the whole word (R205; 92 D20). That the writes are recorded as a change of
flow for the bytes that the processor has written is the model's choice (log entry 58). -/
def Obligations.StatusRegisterMoves : Prop :=
  ∀ s : State, srS s.sr = true →
    (∀ v, exec (.oriSr v) s = .next (s.goOn 2 .srChange { s with sr := (s.sr ||| v) &&& 0xF71F })) ∧
    (∀ v, exec (.andiSr v) s = .next (s.goOn 2 .srChange { s with sr := (s.sr &&& v) &&& 0xF71F })) ∧
    (∀ v, exec (.eoriSr v) s = .next (s.goOn 2 .srChange { s with sr := (s.sr ^^^ v) &&& 0xF71F })) ∧
    (∀ ea d s1, readOperand ea .word (addrPlus s.pc 2) s = .ok d s1 →
      exec (.moveToSr ea) s = .next (s.goOn (eaLength 0 ea) .srChange { s1 with sr := d.setWidth 16 &&& 0xF71F })) ∧
    (∀ ea t, writeOperand ea .word (addrPlus s.pc 2) (s.sr.setWidth 32) s = .ok () t →
      exec (.moveFromSr ea) s = .next (s.goOn (eaLength 0 ea) .seq t))

/-- MOVEC: the fifteen control registers by their numbers, what a read gives and what a write keeps; any other number is an
illegal instruction (R207). -/
def Obligations.MovecMovesControlRegisters : Prop :=
  ∀ (s : State) (rn : Reg), srS s.sr = true →
    let v := s.getR rn
    let table : List (BitVec 12 × Long × State) :=
      [(0x000, s.ctl.sfc.setWidth 32, { s with ctl := { s.ctl with sfc := v.extractLsb' 0 3 } }),
       (0x001, s.ctl.dfc.setWidth 32, { s with ctl := { s.ctl with dfc := v.extractLsb' 0 3 } }),
       (0x002, s.ctl.cacr, { s with ctl := { s.ctl with cacr := v &&& 0x80008000 } }),
       (0x003, s.ctl.tc.setWidth 32, { s with ctl := { s.ctl with tc := (v &&& 0xC000).setWidth 16 } }),
       (0x004, s.ctl.itt0, { s with ctl := { s.ctl with itt0 := v &&& Config.ttrMask } }),
       (0x005, s.ctl.itt1, { s with ctl := { s.ctl with itt1 := v &&& Config.ttrMask } }),
       (0x006, s.ctl.dtt0, { s with ctl := { s.ctl with dtt0 := v &&& Config.ttrMask } }),
       (0x007, s.ctl.dtt1, { s with ctl := { s.ctl with dtt1 := v &&& Config.ttrMask } }),
       (0x800, s.regs.usp, { s with regs := { s.regs with usp := v } }),
       (0x801, s.ctl.vbr, { s with ctl := { s.ctl with vbr := v } }),
       (0x803, s.regs.msp, { s with regs := { s.regs with msp := v } }),
       (0x804, s.regs.isp, { s with regs := { s.regs with isp := v } }),
       (0x805, s.ctl.mmusr, { s with ctl := { s.ctl with mmusr := v } }),
       (0x806, s.ctl.urp, { s with ctl := { s.ctl with urp := v &&& Config.rpMask } }),
       (0x807, s.ctl.srp, { s with ctl := { s.ctl with srp := v &&& Config.rpMask } })]
    (∀ x ∈ table, exec (.movecFrom x.1 rn) s = .next (s.goOn 2 .seq (s.setR rn x.2.1)) ∧
      exec (.movecTo x.1 rn) s = .next (s.goOn 2 .seq x.2.2)) ∧
    ∀ rc, rc ∉ table.map (·.1) → ∀ i ∈ [Instr.movecFrom rc rn, .movecTo rc rn], exec i s =
      .next (s.takeException s.pc s.regs { vector := 4, cls := .restart, stackedPc := s.pc, format := .zero })

/-- MOVES reads in the space of SFC and writes in that of DFC, codes 2 and 6 driven as 1 and 5; a data register receives its
low bits, an address register the sign-extended value (R208; transfer type 2, log entry 37). Where rn is also the register of
(An)+ or -(An), that the store takes the value before the step and that a loaded value overrides the step is the model's
choice (log entry 19). -/
def Obligations.MovesMoves : Prop :=
  ∀ (s : State) (sz : Size) (ea : Ea) (rn : Reg) (s1 : State) (l : Located) (a : Long), srS s.sr = true →
    locate ea sz.bytes (addrPlus s.pc 4) s = .ok l s1 → l.place = .mem a →
    let space (fc : BitVec 3) (write : Bool) : Access :=
      { addr := a, size := .ofSize sz, tt := 2, tm := if fc = 2 then 1 else if fc = 6 then 5 else fc, write := write,
        locked := false }
    (∀ v t, load (space s.ctl.sfc false) s1 = .ok v t →
      exec (.movesLoad sz ea rn) s = .next (s.goOn (eaLength 1 ea) .seq (match rn with
        | .d r => (applyStep l.step t).setDLow sz r v
        | .a r => (applyStep l.step t).setA r (sextLong sz v)))) ∧
    (∀ t, store (space s.ctl.dfc true) (s.getR rn) s1 = .ok () t →
      exec (.movesStore sz rn ea) s = .next (s.goOn (eaLength 1 ea) .seq (applyStep l.step t)))

/-- CINV, CPUSH and PFLUSH emit their events, PTEST writes MMUSR alone (R210-R213); no other register and no memory changes.
After a PFLUSH translation is current (70_reset_and_hazards.md R611). Of a byte that the processor has written it is recorded
which of three acts have followed, in whatever order: a CPUSH that covers it with the data cache (bit 1), a CINV that covers it
with the instruction cache (bit 2), a change of flow (bit 3); with all three the record is empty and the byte may be executed
(20_memory.md R103). Field values 00 of the caches and the scope, which R210 and R211 do not give, touch nothing: the model's
choice (log entry 42); so is the form of the record and that of the flag of PFLUSH (log entries 58, 59). -/
def Obligations.CacheAndMmuMaintenance : Prop :=
  ∀ (s : State) (k c : BitVec 2) (an : RegNo) (read : Bool),
    let emitted (o : Output) : State := { s with env := { s.env with outputs := o :: s.env.outputs } }
    let page (x : Long) : Nat := x.toNat / (if s.ctl.tc.getLsbD 14 then 8192 else 4096)
    let covers (x : Long) : Bool := match c.toNat with
      | 1 => x.toNat / 16 == (s.getA an).toNat / 16
      | 2 => page x == page (s.getA an)
      | 3 => true
      | _ => false
    let recorded (act : Byte) (covered : Long → Bool) (m : List Host.Cell) : Prop := s.memOk → Memory.wf m ∧ ∀ x : Long,
      Memory.read m x.toNat =
        if covered x = false then s.recordAt x
        else if s.recordAt x = 0 ∨ s.recordAt x ||| act = 15 then 0
        else s.recordAt x ||| act
    (∃ m, s.flowChanged = { s with modified := m } ∧ recorded 8 (fun _ => true) m) ∧
    (srS s.sr = true →
      (∃ m, exec (.cinv k c an) s =
          .next (s.goOn 1 .seq { emitted (.cacheInvalidate k c (s.getA an)) with modified := m }) ∧
        recorded 4 (fun x => k.getLsbD 1 && covers x) m) ∧
      (∃ m, exec (.cpush k c an) s =
          .next (s.goOn 1 .seq { emitted (.cachePush k c (s.getA an)) with modified := m }) ∧
        recorded 2 (fun x => k.getLsbD 0 && covers x) m) ∧
      exec (.pflush k an) s =
        .next (s.goOn 1 .seq { emitted (.atcFlush k (s.getA an) s.ctl.dfc) with atcFlushed := true }) ∧
      exec (.ptest read an) s = .next (s.goOn 1 .seq { s with ctl := { s.ctl with
        mmusr := Config.translateStatus s.transRegs s.mem s.ctl.dfc (!read) (s.getA an) } }))

/-! ### MOVEM, MOVE16, the locked instructions (41_system_instructions.md) -/

/-- MOVEM to memory: the registers of the mask lie one after the other, D0 first and A7 last, from the effective address up
(from the address that RTE handed over, which is used up, for an indexed mode), or for -(An) below the old An, whose old
value is what it stores of An itself (log entry 38); nothing else in memory changes. Where the store of a register faults at
its first transfer, the registers before it are in memory, none has changed, and the access error frame has CM set and the
first address (R201, R220; 61_access_fault_recovery.md R506). -/
def Obligations.MovemStores : Prop :=
  ∀ (s : State) (long : Bool) (mask : Word), s.translationOff = true → s.env.bus = [] → s.memOk →
    let sz : Size := if long then .long else .word
    let s0 : State := { s with movemRestart := none }
    let regs (m : Nat → Bool) : List Reg :=
      ((List.range 16).filter m).map fun k => if k < 8 then .d (BitVec.ofNat 3 k) else .a (BitVec.ofNat 3 (k - 8))
    let up := regs fun k => mask.getLsbD k
    let down := regs fun k => mask.getLsbD (15 - k)
    let image (rs : List Reg) : List Byte := rs.flatMap fun r => operandBytes sz (s.getR r)
    let located (ea : Ea) (l : Located) (a : Long) : Prop :=
      ea.kind ∉ [EaKind.preDec, .postInc, .pcDisp, .pcIndex] ∧
        if ea.kind = .index ∧ s.movemRestart.isSome then s.movemRestart = some a
        else locate ea sz.bytes (addrPlus s.pc 4) s = .ok l s ∧ l.place = .mem a
    -- the store of register `j`, counted in the order of transfer, the first one at `first`
    let storing (first : Long) (back : Bool) (rs : List Reg) (j : Nat) : EStateM.Result AccessFault State Unit :=
      let far : Long := BitVec.ofNat 32 (sz.bytes * j)
      store { addr := if back then first - far else first + far, size := .ofSize sz, tt := 0, tm := tmData s.sr,
              write := true, locked := false } (s.getR (rs.getD j (.d 0))) s
    (s.env.tea = [] →
      (∀ ea l a, located ea l a → ∃ t, Stored s0 t a (image up) ∧
        exec (.movemStore long mask ea) s = .next (s.goOn (eaLength 1 ea) .seq t)) ∧
      (∀ r, let low := s.getA r - BitVec.ofNat 32 (image down).length
        ∃ t, Stored s0 t low (image down) ∧
          exec (.movemStore long mask (.preDec r)) s = .next (s.goOn 2 .seq (t.setA r low)))) ∧
    ∀ (j : Nat) (f : AccessFault),
      (∀ ea l a, located ea l a → j < up.length → (∀ i < j, ∃ t, storing a false up i = .ok () t) →
        storing a false up j = .error f s → ∃ t, Stored s0 t a (image (up.take j)) ∧
          exec (.movemStore long mask ea) s = .next (t.takeAccessFault s.sr s.pc { f with cont := .cm a })) ∧
      (∀ r, let first := s.getA r - BitVec.ofNat 32 sz.bytes
        let last := down.reverse
        j < last.length → (∀ i < j, ∃ t, storing first true last i = .ok () t) → storing first true last j = .error f s →
        ∃ t, Stored s0 t (s.getA r - BitVec.ofNat 32 (sz.bytes * j)) (image (last.take j).reverse) ∧
          exec (.movemStore long mask (.preDec r)) s =
            .next (t.takeAccessFault s.sr s.pc { f with cont := .cm first }))

/-- MOVEM from memory: each register of the mask, D0 first and A7 last, receives the next operand from the effective address up
(from the address that RTE handed over, which is used up, for an indexed or PC-relative mode), a word sign-extended; with
(An)+ An ends past the last operand, whatever was loaded into it (the model's choice, log entry 38); memory does not change.
Where the load of a register faults, those before it have been loaded, but not the An of (An)+, and the access error frame has
CM set and the first address (R201, R220; 61_access_fault_recovery.md R506). -/
def Obligations.MovemLoads : Prop :=
  ∀ (s : State) (long : Bool) (mask : Word), s.translationOff = true → s.env.bus = [] →
    let sz : Size := if long then .long else .word
    let s0 : State := { s with movemRestart := none }
    let regs : List Reg := ((List.range 16).filter fun k => mask.getLsbD k).map fun k =>
      if k < 8 then .d (BitVec.ofNat 3 k) else .a (BitVec.ofNat 3 (k - 8))
    let loaded (rs : List Reg) (v : Nat → Long) : State :=
      rs.zipIdx.foldl (fun t x => t.setR x.1 (sextLong sz (v x.2))) s0
    let values (a : Long) (k : Nat) : Long := s.valueAt (a + BitVec.ofNat 32 (sz.bytes * k)) sz
    let located (ea : Ea) (l : Located) (a : Long) : Prop :=
      ea.kind ∉ [EaKind.preDec, .postInc] ∧
        if ea.kind ∈ [EaKind.index, .pcDisp, .pcIndex] ∧ s.movemRestart.isSome then s.movemRestart = some a
        else locate ea sz.bytes (addrPlus s.pc 4) s = .ok l s ∧ l.place = .mem a
    let loading (a : Long) (j : Nat) : EStateM.Result AccessFault State Long :=
      load { addr := a + BitVec.ofNat 32 (sz.bytes * j), size := .ofSize sz, tt := 0, tm := tmData s.sr, write := false,
             locked := false } s
    let faults (ea : Ea) (a : Long) (base : Option Reg) : Prop := ∀ (j : Nat) (v : Nat → Long) (f : AccessFault),
      j < regs.length → (∀ i < j, loading a i = .ok (v i) s) → loading a j = .error f s →
      exec (.movemLoad long mask ea) s = .next (((regs.take j).zipIdx.foldl (fun t x =>
        if base = some x.1 then t else t.setR x.1 (sextLong sz (v x.2))) s0).takeAccessFault s.sr s.pc
          { f with cont := .cm a })
    (∀ ea l a, located ea l a → faults ea a none ∧
      (s.env.tea = [] → exec (.movemLoad long mask ea) s = .next (s.goOn (eaLength 1 ea) .seq (loaded regs (values a))))) ∧
    ∀ r, faults (.postInc r) (s.getA r) (some (.a r)) ∧
      (s.env.tea = [] → exec (.movemLoad long mask (.postInc r)) s = .next (s.goOn 2 .seq
        ((loaded regs (values (s.getA r))).setA r (s.getA r + BitVec.ofNat 32 (sz.bytes * regs.length)))))

/-- MOVE16 copies the aligned line of 16 bytes that holds its source address to the one that holds its destination address; the
postincremented registers move by 16 (R221). -/
def Obligations.Move16CopiesLine : Prop :=
  ∀ (s : State) (ax ay : RegNo) (addr : Long), s.plain → s.memOk →
    let copies (i : Instr) (src dst : Long) (words : Nat) (after : State → State) : Prop :=
      ∃ t, Stored s t (dst &&& 0xFFFFFFF0)
          ((List.range 16).map fun k => s.byteAt ((src &&& 0xFFFFFFF0) + BitVec.ofNat 32 k)) ∧
        exec i s = .next (s.goOn words .seq (after t))
    copies (.move16PostPost ax ay) (s.getA ax) (s.getA ay) 2
      (fun t => (t.setA ax (s.getA ax + 16)).setA ay (s.getA ay + 16)) ∧
    copies (.move16PostAbs ay addr) (s.getA ay) addr 3 (fun t => t.setA ay (s.getA ay + 16)) ∧
    copies (.move16AbsPost addr ay) addr (s.getA ay) 3 (fun t => t.setA ay (s.getA ay + 16)) ∧
    copies (.move16IndAbs ay addr) (s.getA ay) addr 3 id ∧ copies (.move16AbsInd addr ay) addr (s.getA ay) 3 id

/-- TAS sets bit 7 of its byte, N and Z telling what the byte was, V and C cleared, X kept (R222). -/
def Obligations.TasSetsBit7 : Prop :=
  ∀ (s : State) (ea : Ea) (l : Located), s.plain → s.memOk → locate ea 1 (addrPlus s.pc 2) s = .ok l s →
    let flags (b : Byte) (t : State) : State := t.setNzvc (b.getLsbD 7) (decide (b = 0)) false false
    (∀ r, l.place = .d r → exec (.tas ea) s = .next (s.goOn (eaLength 0 ea) .seq
      (flags ((s.getD r).setWidth 8) (applyStep l.step (s.setD r (s.getD r ||| 0x80)))))) ∧
    (∀ a, l.place = .mem a → ∃ t, Stored s t a [s.byteAt a ||| 0x80] ∧
      exec (.tas ea) s = .next (s.goOn (eaLength 0 ea) .seq (flags (s.byteAt a) (applyStep l.step t))))

/-- CAS: where memory equals the low bits of Dc it becomes those of Du, else those of Dc become memory's and memory is
written with the value it has; the condition codes are those of memory minus Dc, X kept (R223). -/
def Obligations.CasComparesAndSwaps : Prop :=
  ∀ (s : State) (sz : Size) (dc du : RegNo) (ea : Ea) (l : Located) (a : Long), s.plain → s.memOk →
    locate ea sz.bytes (addrPlus s.pc 4) s = .ok l s → l.place = .mem a →
    let m := s.valueAt a sz
    let c := s.getD dc
    let flags (t : State) : State := t.compared sz m c
    (m = zextLong sz c → ∃ t, Stored s t a (operandBytes sz (s.getD du)) ∧
      exec (.cas sz dc du ea) s = .next (s.goOn (eaLength 1 ea) .seq (flags (applyStep l.step t)))) ∧
    (m ≠ zextLong sz c → ∃ t, Stored s t a (operandBytes sz m) ∧ t.mem = s.mem ∧
      exec (.cas sz dc du ea) s = .next (s.goOn (eaLength 1 ea) .seq (flags ((applyStep l.step t).setDLow sz dc m))))

/-- CAS2: where both memory operands equal the low bits of their compare registers both are replaced, the first before the
second; else both compare registers receive memory's values. The condition codes are those of the first comparison that
fails, else of the second (R224; log entry 43). -/
def Obligations.Cas2ComparesAndSwaps : Prop :=
  ∀ (s : State) (long : Bool) (rn1 rn2 : Reg) (dc1 du1 dc2 du2 : RegNo), s.plain → s.memOk →
    let sz : Size := if long then .long else .word
    let m1 := s.valueAt (s.getR rn1) sz
    let m2 := s.valueAt (s.getR rn2) sz
    let c1 := s.getD dc1
    let c2 := s.getD dc2
    let i : Instr := .cas2 long rn1 dc1 du1 rn2 dc2 du2
    (m1 = zextLong sz c1 → m2 = zextLong sz c2 → ∃ t t', Stored s t (s.getR rn1) (operandBytes sz (s.getD du1)) ∧
      Stored t t' (s.getR rn2) (operandBytes sz (s.getD du2)) ∧ exec i s = .next (s.goOn 3 .seq (t'.compared sz m2 c2))) ∧
    (m1 ≠ zextLong sz c1 →
      exec i s = .next (s.goOn 3 .seq (((s.setDLow sz dc1 m1).setDLow sz dc2 m2).compared sz m1 c1))) ∧
    (m1 = zextLong sz c1 → m2 ≠ zextLong sz c2 →
      exec i s = .next (s.goOn 3 .seq (((s.setDLow sz dc1 m1).setDLow sz dc2 m2).compared sz m2 c2)))

/-! ### Floating-point instructions (42_fp_instructions.md, 43_fp_exceptions.md) -/

/-- A pending floating-point exception is reported by the next floating-point instruction other than FSAVE and FRESTORE, which
does nothing else: format $0, the address of that instruction (42 R260; 43 R301). -/
def Obligations.PendingExceptionReported : Prop :=
  ∀ (i : Instr) (s : State) (p : Pending), reportsPending i = true → s.fpu.pending = some p →
    exec i s = .next (s.takeException s.pc s.regs
      { vector := p.vector, cls := .restart, stackedPc := s.pc, format := .zero })

/-- Every arithmetic instruction with a register destination completes, whatever its operands: it goes on to the next
instruction, writes FPIAR, and changes no other state than its destination register (FCMP and FTST none), FPSR, the internal
floating-point state and what its addressing mode changes. FPCR and the quotient byte stay, the accrued exceptions are those
that were there and those of the instruction, and an exception is only posted (42 R261, R264; 43 R301, R303). -/
def Obligations.FpArithmeticCompletes : Prop :=
  ∀ (i : Instr) (op : FpOp) (form : Option Prec) (cmd : BitVec 7) (src : FpSrc) (dst : RegNo) (s s1 : State) (o : FpOperand)
    (a : Option Long), fpArithmetic i = some (op, form, cmd, src, dst) → s.fpu.pending = none →
    (roundPrec form s.fp.fpcr).isSome = true → fpSource src s.fpAwake = .ok (o, a) s1 →
    ∃ t : State, exec i s = .next (s.goOn (fpLength src) .seq t) ∧
      t = { s1 with fp := t.fp, fpu := t.fpu, freeCount := t.freeCount } ∧
      t.fp.fpcr = s.fp.fpcr ∧ t.fp.fpiar = s.pc ∧
      (∀ n, n ≠ dst ∨ op.stores = false → t.getFp n = s.getFp n) ∧
      t.fp.fpsr.extractLsb' 16 8 = s.fp.fpsr.extractLsb' 16 8 ∧ Accrued s.fp.fpsr t.fp.fpsr ∧
      ∀ p, t.fpu.pending = some p → p.post = false

/-- The result of FMOVE, FABS, FNEG, FADD, FSUB, FMUL and FDIV on numbers, where the exact result is not 0: rounded to the
precision that FPCR, or the FS or FD form, names, in FPCR's mode, and delivered; or, outside the precision's range, vector 51
or 53 posted and the destination kept (42 R264-R269; 43 R316, R317, R319, R320, R324-R326, R340). That an inexact overflow sets
EXC.INEX2 too is the model's choice (log entry 56). -/
def Obligations.FpCorrectlyRounded : Prop :=
  ∀ (i : Instr) (op : FpOp) (form : Option Prec) (cmd : BitVec 7) (src : FpSrc) (dst : RegNo) (s s1 : State) (x : FpReal)
    (a : Option Long) (p : Prec), fpArithmetic i = some (op, form, cmd, src, dst) →
    op ∈ [FpOp.move, .abs, .neg, .add, .sub, .mul, .div] → s.fpu.pending = none → roundPrec form s.fp.fpcr = some p →
    fpSource src s.fpAwake = .ok (operandOf x, a) s1 → isNormal x ∨ isZero x →
    (op.dyadic = true → isNormal (s.getFp dst) ∨ isZero (s.getFp dst)) → (op = .div → isNormal x) →
    let v := exactResult op (fpValue (s.getFp dst)) (fpValue x)
    v ≠ 0 →
    ∃ t : State, exec i s = .next (s.goOn (fpLength src) .seq t) ∧
      FpResult s t dst p op.unit (fun q => q ≤ v) (fun q => v ≤ q)

/-- FSQRT of a positive number is its square root correctly rounded, with the condition codes and EXC.INEX2; or, outside the
precision's range, vector 51 or 53 posted and the destination kept (42 R271; 43 R316, R317, R319, R320, R324-R326, R340).
That an inexact overflow sets EXC.INEX2 too is the model's choice (log entry 56). -/
def Obligations.FpSquareRoot : Prop :=
  ∀ (i : Instr) (form : Option Prec) (cmd : BitVec 7) (src : FpSrc) (dst : RegNo) (s s1 : State) (x : FpReal)
    (a : Option Long) (p : Prec), fpArithmetic i = some (.sqrt, form, cmd, src, dst) → s.fpu.pending = none →
    roundPrec form s.fp.fpcr = some p → fpSource src s.fpAwake = .ok (operandOf x, a) s1 → isNormal x = true →
    x.sign = false →
    ∃ t : State, exec i s = .next (s.goOn (fpLength src) .seq t) ∧
      FpResult s t dst p .e3 (fun q => q ≤ 0 ∨ q * q ≤ fpValue x) (fun q => 0 ≤ q ∧ fpValue x ≤ q * q)

/-- A NAN operand: a signaling one with its trap disabled, or a quiet one, is the result, made quiet, the destination's before
the source's, with EXC.SNAN telling a signaling one; a signaling one with its trap enabled is posted, and the destination
stays (42 R264; 43 R313). -/
def Obligations.FpNanOperands : Prop :=
  ∀ (i : Instr) (op : FpOp) (form : Option Prec) (cmd : BitVec 7) (src : FpSrc) (dst : RegNo) (s s1 : State) (x : FpReal)
    (a : Option Long), fpArithmetic i = some (op, form, cmd, src, dst) → s.fpu.pending = none →
    fpSource src s.fpAwake = .ok (operandOf x, a) s1 → tagOf x ≠ tagUnnormal →
    (op.dyadic = true → tagOf (s.getFp dst) ≠ tagUnnormal) →
    let d := s.getFp dst
    let fromDst : Bool := op.dyadic && isNan d
    let signaling : Bool := isSnan x || (op.dyadic && isSnan d)
    let quiet (y : FpReal) : FpReal := { y with man := y.man ||| 0x4000000000000000 }
    fromDst = true ∨ isNan x = true →
    ∃ t : State, exec i s = .next (s.goOn (fpLength src) .seq t) ∧ (t.fp.fpsr.getLsbD 14 = signaling) ∧
      ((signaling && s.fp.fpcr.getLsbD 14) = false → t.fpu.pending = none ∧ t.fp.fpsr.getLsbD 24 = true ∧
        (op.stores = true → t.getFp dst = quiet (if fromDst then d else x))) ∧
      ((signaling && s.fp.fpcr.getLsbD 14) = true →
        t.getFp dst = d ∧ t.fpu.pending = some { vector := 54, unit := .e1, post := false })

/-- Infinities and zeros as operands: the results that are stored exactly, and the operations that have none, which are
operand errors or divisions by zero. Of two infinities of one sign the destination's is the result: the model's choice (log
entry 55) (42 R265-R269, R271; 43 R314, R323). -/
def Obligations.FpSpecialOperands : Prop :=
  ∀ (i : Instr) (op : FpOp) (form : Option Prec) (cmd : BitVec 7) (src : FpSrc) (dst : RegNo) (s s1 : State) (x : FpReal)
    (a : Option Long), fpArithmetic i = some (op, form, cmd, src, dst) → s.fpu.pending = none →
    fpSource src s.fpAwake = .ok (operandOf x, a) s1 → isNormal x ∨ isZero x ∨ isInf x →
    let d := s.getFp dst
    (op.dyadic = true → isNormal d ∨ isZero d ∨ isInf d) →
    let sign := d.sign != x.sign
    let y : FpReal := if op = .sub then { x with sign := !x.sign } else x
    let gives (r : FpReal) : Prop := ∃ t, exec i s = .next (s.goOn (fpLength src) .seq t) ∧ t.getFp dst = r ∧
      t.fpu.pending = none ∧
      t.fp.fpsr.extractLsb' 24 4 = BitVec.ofBool r.sign ++ BitVec.ofBool (isZero r) ++ BitVec.ofBool (isInf r) ++ 0#1
    -- the exception's EXC bit; its default result, or with the trap enabled the exception posted
    let excepts (bit : Nat) (vector : Byte) (r : FpReal) : Prop :=
      ∃ t, exec i s = .next (s.goOn (fpLength src) .seq t) ∧ t.fp.fpsr.getLsbD bit = true ∧
        (s.fp.fpcr.getLsbD bit = false → t.getFp dst = r ∧ t.fpu.pending = none) ∧
        (s.fp.fpcr.getLsbD bit = true → t.getFp dst = d ∧
          t.fpu.pending = some { vector := vector, unit := .e1, post := false })
    let operandError := excepts 13 52 { sign := false, exp := 0x7FFF, man := 0xFFFFFFFFFFFFFFFF }
    match op with
    | .move => isNormal x = false → gives x
    | .abs => isNormal x = false → gives { x with sign := false }
    | .neg => isNormal x = false → gives { x with sign := !x.sign }
    | .add | .sub =>
      (isInf d → isInf x → d.sign = y.sign → gives d) ∧ (isInf d → isInf x → d.sign ≠ y.sign → operandError) ∧
      (isInf d → isInf x = false → gives d) ∧ (isInf d = false → isInf x → gives y) ∧
      (isZero d → isZero x → d.sign = y.sign → gives d) ∧
      (isInf d = false → isInf x = false → ¬(isZero d ∧ isZero x ∧ d.sign = y.sign) → fpValue d + fpValue y = 0 →
        gives (fpZero (s.fp.fpcr.extractLsb' 4 2 == 2)))
    | .mul =>
      (isInf d → isZero x → operandError) ∧ (isZero d → isInf x → operandError) ∧
      (isInf d → isZero x = false → gives (fpInf sign)) ∧ (isInf x → isZero d = false → gives (fpInf sign)) ∧
      (isZero d → isInf x = false → gives (fpZero sign)) ∧ (isZero x → isInf d = false → gives (fpZero sign))
    | .div =>
      (isInf d → isInf x → operandError) ∧ (isZero d → isZero x → operandError) ∧
      (isInf d → isInf x = false → gives (fpInf sign)) ∧ (isNormal d → isZero x → excepts 10 50 (fpInf sign)) ∧
      (isInf x → isInf d = false → gives (fpZero sign)) ∧ (isZero d → isZero x = false → gives (fpZero sign))
    | .sqrt =>
      (isZero x → gives x) ∧ (isZero x = false → x.sign = true → operandError) ∧ (isInf x → x.sign = false → gives x)
    | .cmp | .tst => True

/-- An operand of an unimplemented data type (denormalized, unnormalized, packed decimal) posts vector 55 with the operand
and its tag in the state frame's fields; neither the destination nor FPCC changes. That EXC is cleared and FPIAR written all
the same is the model's choice, R261's order, where R305 says that FPSR.EXC is not changed (log entry 30) (43 R305, R306). -/
def Obligations.FpUnsupportedDataType : Prop :=
  ∀ (i : Instr) (op : FpOp) (form : Option Prec) (cmd : BitVec 7) (src : FpSrc) (dst : RegNo) (s s1 : State) (o : FpOperand)
    (a : Option Long), fpArithmetic i = some (op, form, cmd, src, dst) → s.fpu.pending = none →
    fpSource src s.fpAwake = .ok (o, a) s1 →
    o.packed.isSome = true ∨ o.tag = tagUnnormal ∨ o.tag = tagDenormal ∨
      (op.dyadic = true ∧ tagOf (s.getFp dst) = tagUnnormal) →
    ∃ t : State, exec i s = .next (s.goOn (fpLength src) .seq t) ∧
      t = { s1 with fp := { s1.fp with fpiar := s.pc, fpsr := s.fp.fpsr &&& 0xFFFF00FF }, fpu := t.fpu,
                    freeCount := t.freeCount } ∧
      t.fpu.pending = some { vector := 55, unit := .e1, post := false } ∧ t.fpu.e1 = true ∧ t.fpu.e3 = false ∧
      t.fpu.t = false ∧ t.fpu.etemp = o.val ∧ t.fpu.fpiarcu = s.pc ∧ (o.packed = none → t.fpu.stag = o.tag) ∧
      (∀ l0 l1 l2, o.packed = some (l0, l1, l2) → t.fpu.fptemp.man.extractLsb' 0 32 = l0) ∧
      (op.dyadic = true → t.fpu.dtag = tagOf (s.getFp dst) ∧ (o.packed = none → t.fpu.fptemp = s.getFp dst)) ∧
      t.fpu.cmdreg1b = (if cmd = 4 then commandWord 5 src dst else commandWord cmd src dst)

/-- FCMP and the predicates: after a comparison of numbers every predicate tells the order of the two numbers, also where one
is an infinity; after one with a quiet NAN that they are unordered. FTST writes the condition codes of its operand, and no
register (42 R264, R270, R272). -/
def Obligations.CompareAndTest : Prop :=
  ∀ (src : FpSrc) (dst : RegNo) (s s1 : State) (x : FpReal) (a : Option Long), s.fpu.pending = none →
    fpSource src s.fpAwake = .ok (operandOf x, a) s1 →
    let d := s.getFp dst
    -- the numbers, and beyond all of them the two infinities
    let place (y : FpReal) : WithBot (WithTop ℚ) :=
      if isInf y then (if y.sign then ⊥ else ↑(⊤ : WithTop ℚ)) else ↑(fpValue y : WithTop ℚ)
    (isNormal x ∨ isZero x ∨ isInf x → isNormal d ∨ isZero d ∨ isInf d →
      ∃ t, exec (.fcmp src dst) s = .next (s.goOn (fpLength src) .seq t) ∧ t.fp.fp = s.fp.fp ∧ ∀ p : BitVec 5,
        (fpTruth p t.fp.fpsr = true ↔ match p.toNat % 16 with
          | 0 | 8 => False
          | 1 | 9 => place d = place x
          | 2 | 10 => place x < place d
          | 3 | 11 => place x ≤ place d
          | 4 | 12 => place d < place x
          | 5 | 13 => place d ≤ place x
          | 6 | 14 => place d ≠ place x
          | _ => True)) ∧
    (isNan x ∨ isNan d → isSnan x = false → isSnan d = false → tagOf x ≠ tagUnnormal → tagOf d ≠ tagUnnormal →
      ∃ t, exec (.fcmp src dst) s = .next (s.goOn (fpLength src) .seq t) ∧ ∀ p : BitVec 5,
        (fpTruth p t.fp.fpsr = true ↔ 8 ≤ p.toNat % 16)) ∧
    (isNormal x ∨ isZero x ∨ isInf x → ∃ t, exec (.ftst src dst) s = .next (s.goOn (fpLength src) .seq t) ∧
      t.fp.fp = s.fp.fp ∧ t.fpu.pending = none ∧
      t.fp.fpsr.extractLsb' 24 4 = BitVec.ofBool x.sign ++ BitVec.ofBool (isZero x) ++ BitVec.ofBool (isInf x) ++ 0#1)

/-- The instructions left to software: vector 11 with a format $2 frame, the next instruction stacked and the operand's address
in the address field; the state frame's fields hold the command word, the operand and its tag, the destination operand of a
dyadic one, the instruction's address, and in E1 whether an operand is of an unsupported data type; no register changes but
through the addressing mode. FMOVECR has no operand (42 R263, R287; 60_exceptions.md R430; log entry 39). -/
def Obligations.UnimplementedGoesToSoftware : Prop :=
  (∀ (i : Instr) (dyadic : Bool) (cmd : BitVec 7) (src : FpSrc) (dst : RegNo) (s s1 : State) (o : FpOperand)
    (a : Option Long), fpUnimplemented i = some (dyadic, cmd, src, dst) → s.fpu.pending = none →
    fpSource src s.fpAwake = .ok (o, a) s1 →
    ∃ (t : State) (address : Long), (∀ x, a = some x → address = x) ∧
      exec i s = .next (t.takeException s.pc s.regs
        { vector := 11, cls := .unimp, stackedPc := s.pc + BitVec.ofNat 32 (2 * fpLength src), format := .two address }) ∧
      t = { s1 with fpu := t.fpu, freeCount := t.freeCount } ∧ t.fpu.mode = .unimp ∧ t.fpu.pending = none ∧
      t.fpu.cmdreg1b = commandWord cmd src dst ∧ t.fpu.fpiarcu = s.pc ∧ t.fpu.etemp = o.val ∧ t.fpu.stag = o.tag ∧
      (∀ l0 l1 l2, o.packed = some (l0, l1, l2) → t.fpu.fptemp.man.extractLsb' 0 32 = l0) ∧
      (dyadic = true → t.fpu.dtag = tagOf (s.getFp dst) ∧ (o.packed = none → t.fpu.fptemp = s.getFp dst)) ∧
      (t.fpu.e1 = true ↔ o.packed.isSome = true ∨ o.tag = tagUnnormal ∨ o.tag = tagDenormal ∨
        (dyadic = true ∧ tagOf (s.getFp dst) = tagUnnormal))) ∧
  ∀ (ofs : BitVec 7) (dst : RegNo) (s : State), s.fpu.pending = none →
    ∃ (t : State) (address : Long),
      exec (.fmovecr ofs dst) s = .next (t.takeException s.pc s.regs
        { vector := 11, cls := .unimp, stackedPc := s.pc + 4, format := .two address }) ∧
      t = { s with fpu := t.fpu, freeCount := t.freeCount } ∧ t.fpu.mode = .unimp ∧ t.fpu.pending = none ∧
      t.fpu.cmdreg1b = 0x17#6 ++ dst ++ ofs ∧ t.fpu.fpiarcu = s.pc ∧ t.fpu.e1 = false

/-- FMOVE to memory or a data register in an integer format. A number is rounded to an integer in FPCR's mode and stored
where it is above the least integer of the format and no greater than the greatest (that the least itself is refused is the
erratum of R315); an inexact one sets EXC.INEX2 and, where FPCR.INEX2 is set, then takes vector 49. Otherwise the value
stored is undefined and an exception is taken even if it is disabled: operand error, vector 52, for a number outside the
range, an infinity or a quiet NAN; vector 54 for a signaling NAN, whose SNAN bit ETEMP has set (42 R277; 43 R302, R304, R313,
R315, R326). -/
def Obligations.FmoveOutInteger : Prop :=
  ∀ (s : State) (fmt : FpOutFmt) (sz : Size) (src : RegNo) (k : BitVec 7) (ea : Ea) (l : Located), s.plain →
    s.memOk → s.fpu.pending = none → (fmt, sz) ∈ [(FpOutFmt.b, Size.byte), (.w, .word), (.l, .long)] →
    locate ea sz.bytes (addrPlus s.pc 4) s = .ok l s →
    let x := s.getFp src
    let v := fpValue x
    let i : Instr := .fmoveOut fmt src k ea
    let words := eaLength 1 ea
    let traps (vector exc : Byte) (fields : Fpu → Prop) (w : Long) : Prop :=
      WrittenAt s l sz w (MoveOutTraps i words s l src (moveOutWord fmt src k) vector exc fields)
    (isSnan x = true → ∃ w, traps 54 0x40 (fun u => u.etemp = { x with man := x.man ||| 0x4000000000000000 }) w) ∧
    (isNan x = true → isSnan x = false → ∃ w, traps 52 0x20 (fun u => u.etemp = x) w) ∧
    (isInf x = true → ∃ w, traps 52 0x20 (fun u => u.etemp = x) w) ∧
    (isNormal x ∨ isZero x → ∀ n : Int,
      (match roundModeOf s.fp.fpcr with
        | .rm => n = ⌊v⌋
        | .rp => n = ⌈v⌉
        | .rz => n = if 0 ≤ v then ⌊v⌋ else ⌈v⌉
        | .rn => |v - n| < 1 / 2 ∨ (|v - n| = 1 / 2 ∧ n % 2 = 0)) →
      let fits : Prop := -2 ^ (sz.bits - 1) < n ∧ n < 2 ^ (sz.bits - 1)
      let w := BitVec.ofInt 32 n
      (fits → (n : ℚ) = v → WrittenAt s l sz w (MoveOutEnds i words s l 0)) ∧
      (fits → (n : ℚ) ≠ v → s.fp.fpcr.getLsbD 9 = false → WrittenAt s l sz w (MoveOutEnds i words s l 0x02)) ∧
      (fits → (n : ℚ) ≠ v → s.fp.fpcr.getLsbD 9 = true → traps 49 0x02 (fun u => u.etemp = x) w) ∧
      (¬ fits → ∃ w, traps 52 (if (n : ℚ) = v then 0x20 else 0x22)
        (fun u => u.etemp = x ∧ u.wbtemp = Config.packInteger n) w))

/-- FMOVE in a real format to memory, and in single precision to a data register too. Extended precision stores the 12 bytes
of the value. Zeros, infinities and NANs keep their sign and the upper bits of their mantissa, the exponent all zeros or all
ones; a signaling NAN is stored with its SNAN bit set and, if enabled, takes vector 54. A number in single or double
precision is stored as what rounding makes of it, and reads back so; an inexact one sets EXC.INEX2 and takes vector 49 where
FPCR.INEX2 is set; one too small, or too large once rounded, has an undefined value stored and takes vector 51 or 53, with
the value in FPTEMP or the rounded one in ETEMP (42 R262, R277; 43 R302, R304, R313, R318, R321, R326). That an inexact
overflow sets EXC.INEX2 too is the model's choice (log entry 56). -/
def Obligations.FmoveOutReal : Prop :=
  ∀ (s : State) (src : RegNo) (k : BitVec 7) (ea : Ea) (l : Located), s.plain → s.memOk → s.fpu.pending = none →
    let x := s.getFp src
    let v := fpValue x
    let i (fmt : FpOutFmt) : Instr := .fmoveOut fmt src k ea
    let ends (fmt : FpOutFmt) (exc : Byte) : State → Prop := MoveOutEnds (i fmt) (eaLength 1 ea) s l exc
    let traps (fmt : FpOutFmt) (vector exc : Byte) (fields : Fpu → Prop) : State → Prop :=
      MoveOutTraps (i fmt) (eaLength 1 ea) s l src (moveOutWord fmt src k) vector exc fields
    -- long words written to memory, or a single one to a data register
    let written (ws : List Long) (after : State → Prop) : Prop :=
      (∀ a, l.place = .mem a → ∃ m, Stored s m a (ws.flatMap longBytes) ∧ after m) ∧
      (∀ r w, l.place = .d r → ws = [w] → after (s.setD r w))
    -- zeros, infinities and NANs, by the long words that a format makes of them
    let specials (fmt : FpOutFmt) (image : FpReal → List Long) : Prop :=
      let quiet : FpReal := { x with man := x.man ||| 0x4000000000000000 }
      (isSnan x = true → s.fp.fpcr.getLsbD 14 = false → written (image quiet) (ends fmt 0x40)) ∧
      (isSnan x = true → s.fp.fpcr.getLsbD 14 = true →
        written (image quiet) (traps fmt 54 0x40 fun u => u.etemp = quiet)) ∧
      (isSnan x = false → isNan x ∨ isInf x ∨ isZero x → written (image x) (ends fmt 0))
    -- numbers in a format of `n` long words, given which long words read as which value
    let numbers (fmt : FpOutFmt) (p : Prec) (n : Nat) (reads : List Long → FpReal → Prop) : Prop := isNormal x = true →
      let below (q : ℚ) : Prop := q ≤ v
      let above (q : ℚ) : Prop := v ≤ q
      (TooSmall p below above →
        ∃ ws, ws.length = n ∧ written ws (traps fmt 51 0x08 fun u => u.fptemp = x ∧ u.etemp = x)) ∧
      (¬ TooSmall p below above → ∃ r, Rounds (roundModeOf s.fp.fpcr) p.bits below above r ∧
        (TooLarge p r → ∃ ws, ws.length = n ∧
          written ws (traps fmt 53 (if r = v then 0x10 else 0x12) fun u => fpValue u.etemp = r)) ∧
        (¬ TooLarge p r → ∃ ws y, reads ws y ∧ isNormal y = true ∧ fpValue y = r ∧
          (r = v → written ws (ends fmt 0)) ∧
          (r ≠ v → s.fp.fpcr.getLsbD 9 = false → written ws (ends fmt 0x02)) ∧
          (r ≠ v → s.fp.fpcr.getLsbD 9 = true → written ws (traps fmt 49 0x02 fun u => u.etemp = x))))
    let single (y : FpReal) : Long :=
      BitVec.ofBool y.sign ++ (if isZero y then 0#8 else 0xFF#8) ++ y.man.extractLsb' 40 23
    let double (y : FpReal) : BitVec 64 :=
      BitVec.ofBool y.sign ++ (if isZero y then 0#11 else 0x7FF#11) ++ y.man.extractLsb' 11 52
    (locate ea 12 (addrPlus s.pc 4) s = .ok l s →
      specials .x extLongs ∧ (isNormal x = true → written (extLongs x) (ends .x 0))) ∧
    (locate ea 4 (addrPlus s.pc 4) s = .ok l s → specials .s (fun y => [single y]) ∧
      numbers .s .s 1 fun ws y => ∃ w, ws = [w] ∧ ∀ u, fpOfSingle w u = .ok (operandOf y) u) ∧
    (locate ea 8 (addrPlus s.pc 4) s = .ok l s →
      specials .d (fun y => [(double y).extractLsb' 32 32, (double y).extractLsb' 0 32]) ∧
      numbers .d .d 2 fun ws y => ∃ hi lo, ws = [hi, lo] ∧ ∀ u, fpOfDouble hi lo u = .ok (operandOf y) u)

/-- FMOVE out of a value of an unimplemented data type, or to packed decimal, stores nothing and takes the post-instruction
exception with vector 55 and a format $3 frame that holds the destination's address (43 R302, R304, R307). -/
def Obligations.FmoveOutUnsupported : Prop :=
  ∀ (s : State) (fmt : FpOutFmt) (src : RegNo) (k : BitVec 7) (ea : Ea) (l : Located), s.plain → s.fpu.pending = none →
    tagOf (s.getFp src) = tagUnnormal ∨ fmt = .pStatic ∨ fmt = .pDynamic →
    locate ea (outFmtBytes fmt) (addrPlus s.pc 4) s = .ok l s →
    MoveOutTraps (.fmoveOut fmt src k ea) (eaLength 1 ea) s l src (moveOutWord fmt src k) 55 0
      (fun u => u.etemp = s.getFp src) s

/-- The moves to and from the control registers: FPCR, FPSR, FPIAR in this order, those that the selection names, one long
word each; bits that do not exist are dropped on a write. A single register can be moved to and from a data register (42
R278). The selection 000, which R278 does not give, moves nothing: the model's choice (log entry 41). -/
def Obligations.FpControlRegisterMoves : Prop :=
  ∀ (s : State) (sel : BitVec 3) (ea : Ea) (l : Located), s.plain → s.memOk → s.fpu.pending = none →
    locate ea (4 * selCount sel) (addrPlus s.pc 4) s = .ok l s →
    let sr := sel.getLsbD 1
    let cr := sel.getLsbD 2
    let ia := sel.getLsbD 0
    let loaded (v : Nat → Long) (t : State) : State :=
      { t with fp := { t.fp with
          fpcr := if cr then v 0 &&& 0x0000FFF0 else t.fp.fpcr
          fpsr := if sr then v cr.toNat &&& 0x0FFFFFF8 else t.fp.fpsr
          fpiar := if ia then v (cr.toNat + sr.toNat) else t.fp.fpiar } }
    let values : List Long :=
      (if cr then [s.fp.fpcr] else []) ++ (if sr then [s.fp.fpsr] else []) ++ (if ia then [s.fp.fpiar] else [])
    (∀ a, l.place = .mem a →
      exec (.fmoveToCr sel ea) s = .next (s.goOn (eaLength 1 ea) .seq
        (loaded (fun k => s.longAt (a + BitVec.ofNat 32 (4 * k))) (applyStep l.step s.fpAwake))) ∧
      ∃ t, Stored s.fpAwake t a (values.flatMap longBytes) ∧
        exec (.fmoveFromCr sel ea) s = .next (s.goOn (eaLength 1 ea) .seq (applyStep l.step t))) ∧
    (∀ ws : Nat → Long, ea = .imm ((List.range (selCount sel)).flatMap fun k => longWords (ws k)) →
      exec (.fmoveToCr sel ea) s = .next (s.goOn (eaLength 1 ea) .seq (loaded ws s.fpAwake))) ∧
    (∀ r v, values = [v] → (l.place = .d r →
      exec (.fmoveToCr sel ea) s = .next (s.goOn (eaLength 1 ea) .seq (loaded (fun _ => s.getD r) s.fpAwake)) ∧
      exec (.fmoveFromCr sel ea) s = .next (s.goOn (eaLength 1 ea) .seq (s.fpAwake.setD r v))) ∧ (l.place = .a r →
      exec (.fmoveToCr sel ea) s = .next (s.goOn (eaLength 1 ea) .seq (loaded (fun _ => s.getA r) s.fpAwake)) ∧
      exec (.fmoveFromCr sel ea) s = .next (s.goOn (eaLength 1 ea) .seq (s.fpAwake.setA r v))))

/-- FMOVEM of the data registers: those of the list, which the command word or the low byte of a data register gives, lie one
after the other, FP0 first, 12 bytes each, the bits as they are; nothing is rounded and no flag changes (42 R279). Which bit
of the list is FP0 (bit 7, or bit 0 in predecrement order) is the model's reading (log entry 40). -/
def Obligations.FmovemMovesRegisters : Prop :=
  ∀ (s : State) (ctl dyn : Bool) (list : Byte) (ea : Ea) (l : Located) (a : Long), s.plain → s.memOk →
    s.fpu.pending = none →
    let names : Byte := if dyn then (s.getD (list.extractLsb' 4 3)).setWidth 8 else list
    let regs : List RegNo :=
      ((List.range 8).filter fun k => names.getLsbD (if ctl then 7 - k else k)).map fun k => BitVec.ofNat 3 k
    locate ea (12 * regs.length) (addrPlus s.pc 4) s = .ok l s → l.place = .mem a →
    (∃ t, Stored s.fpAwake t a (regs.flatMap fun r => (extLongs (s.getFp r)).flatMap longBytes) ∧
      exec (.fmovemStore ctl dyn list ea) s = .next (s.goOn (eaLength 1 ea) .seq (applyStep l.step t))) ∧
    exec (.fmovemLoad ctl dyn list ea) s = .next (s.goOn (eaLength 1 ea) .seq (regs.zipIdx.foldl (fun t x =>
      let b := a + BitVec.ofNat 32 (12 * x.2)
      t.setFp x.1 (fpOfLongs (s.longAt b) (s.longAt (b + 4)) (s.longAt (b + 8)))) (applyStep l.step s.fpAwake)))

/-- The conditional instructions: BSUN is set where a predicate $10 to $1F meets a NAN, and trapped if enabled; else the
predicate decides. FBcc branches from the word after its operation word, FDBcc counts its register down and branches from its
displacement word until it is -1, FScc writes $FF or $00, FTRAPcc takes vector 7 with a format $2 frame, FNOP does nothing.
An odd branch target is an address error even where the branch is not taken (42 R270, R273-R276; 43 R312; 60_exceptions.md
R425). -/
def Obligations.FpConditionals : Prop :=
  ∀ (s : State) (p : BitVec 5), s.fpu.pending = none →
    let t := s.fpTested p
    let b := fpTruth p s.fp.fpsr
    let jumps (i : Instr) (words : Nat) (target : Long) (t : State) (taken : Bool) : Prop :=
      (target.getLsbD 0 = false → taken = true →
        exec i s = .next (s.jumped target t)) ∧
      (target.getLsbD 0 = false → taken = false → exec i s = .next (s.goOn words .seq t)) ∧
      (target.getLsbD 0 = true → exec i s = .next (t.takeException s.pc s.regs
        { vector := 3, cls := .address, stackedPc := s.pc, format := .two (target &&& 0xFFFFFFFE) }))
    let traps (i : Instr) (words : Nat) : Prop :=
      exec i s = if b then .next (t.takeException s.pc s.regs
          { vector := 7, cls := .restart, stackedPc := s.pc + BitVec.ofNat 32 (2 * words), format := .two s.pc })
        else .next (s.goOn words .seq t)
    exec .fnop s = .next (s.goOn 2 .seq s.fpAwake) ∧
    (s.bsunTraps p = true → ∀ i, i ∈ [Instr.ftrapcc p] ∨ (∃ d, i ∈ [Instr.fbccW p d, .ftrapccW p d]) ∨
        (∃ d, i ∈ [Instr.fbccL p d, .ftrapccL p d]) ∨ (∃ ea, i = .fscc p ea) ∨ (∃ dn d, i = .fdbcc p dn d) →
      exec i s = .next (t.takeException s.pc s.regs
        { vector := 48, cls := .restart, stackedPc := s.pc, format := .zero })) ∧
    (s.bsunTraps p = false →
      (∀ d, jumps (.fbccW p d) 2 (s.pc + 2 + d.signExtend 32) t b) ∧ (∀ d, jumps (.fbccL p d) 3 (s.pc + 2 + d) t b) ∧
      traps (.ftrapcc p) 2 ∧ (∀ d, traps (.ftrapccW p d) 3) ∧ (∀ d, traps (.ftrapccL p d) 4) ∧
      (∀ ea u, writeOperand ea .byte (addrPlus s.pc 4) (if b then 0xFF else 0) t = .ok () u →
        exec (.fscc p ea) s = .next (s.goOn (eaLength 1 ea) .seq u)) ∧
      (∀ dn d, let target := s.pc + 4 + d.signExtend 32
        let count : Word := (s.getD dn).setWidth 16 - 1
        (b = true → jumps (.fdbcc p dn d) 3 target t false) ∧
        (b = false → jumps (.fdbcc p dn d) 3 target
          (t.setD dn ((s.getD dn).extractLsb' 16 16 ++ count)) (decide (count ≠ 0xFFFF)))))

/-- FSAVE: the frame of the unit's state (unimplemented, busy with an exception pending, null, else idle) is written, its first
byte the version, 0 for the null frame, its second the number of bytes after the first long word, its body the fields at
their places; the exception is no longer pending and the unit is idle, or still null (42 R280, R282-R291; 92 D22, D33, D34;
log entries 28, 34). -/
def Obligations.FsaveWritesFrame : Prop :=
  ∀ (s : State) (ea : Ea) (l : Located) (a : Long), s.plain → s.memOk → srS s.sr = true →
    let k : FrameKind :=
      if s.fpu.mode = .unimp then .unimp else if s.fpu.pending.isSome then .busy
      else if s.fpu.mode = .null then .null else .idle
    locate ea (4 + bodySize k) (addrPlus s.pc 2) s = .ok l s → l.place = .mem a →
    ∃ (t : State) (cu reserved : Word) (body : List Long) (n : Nat),
      Stored s t a ((((if k = .null then 0 else Config.fpuVersion) ++ BitVec.ofNat 8 (bodySize k) ++ reserved) :: body).flatMap
        longBytes) ∧
      4 * body.length = bodySize k ∧
      (∀ f ∈ frameFieldsOf k, fieldOfBody (layoutOf k) body f = fpuFieldValue f { s.fpu with cuSavepc := cu }) ∧
      exec (.fsave ea) s = .next (s.goOn (eaLength 0 ea) .seq { applyStep l.step t with
        freeCount := n
        fpu := { s.fpu with pending := none, mode := if s.fpu.mode = .null then .null else .idle } })

/-- FRESTORE: a null frame resets the unit, whose registers are then unspecified; an idle one leaves its fields and nothing
pending; an unimplemented one loads its fields; a frame of another version or size is a format error. A busy one loads all
its fields. With E1 or E3 set it makes an exception pending again: the unimplemented data type, else the first of BSUN, SNAN,
OPERR, OVFL, UNFL, DZ, INEX2, INEX1 whose EXC bit is set and which traps. With both clear it completes the instruction of its
command word, from ETEMP and FPTEMP, where CU_SAVEPC says so, and else leaves nothing pending. (An)+ moves past the frame (42
R281, R282, R293; 43 R341; 60_exceptions.md R433; log entries 34, 35, 36). That the unit is E3's where both bits are set is
the model's choice (log entry 53). -/
def Obligations.FrestoreReadsFrame : Prop :=
  ∀ (s : State) (ea : Ea) (l : Located) (a : Long), s.plain → srS s.sr = true →
    locate ea 0 (addrPlus s.pc 2) s = .ok l s → l.place = .mem a →
    let version : Byte := s.byteAt a
    let size : Nat := (s.byteAt (a + 1)).toNat
    let body (n : Nat) : List Long := (List.range (n / 4)).map fun k => s.longAt (a + 4 + BitVec.ofNat 32 (4 * k))
    let stepped (n : Nat) : State := match ea with
      | .postInc r => s.setA r (a + BitVec.ofNat 32 n)
      | _ => s
    let goes (t : State) : Prop := exec (.frestore ea) s = .next (s.goOn (eaLength 0 ea) .seq t)
    (version = 0 → ∃ t, goes t ∧ t = { stepped Config.nullFrameBytes with fp := t.fp, fpu := t.fpu, freeCount := t.freeCount } ∧
      t.fpu.mode = .null ∧ t.fpu.pending = none) ∧
    (version = Config.fpuVersion → size = Config.idleSize →
      goes { stepped (4 + Config.idleSize) with fpu := { s.fpu with mode := .idle, pending := none } }) ∧
    (version = Config.fpuVersion → size = 0x28 → goes { stepped 0x2C with
      fpu := { loadFields Config.unimpLayout (body 0x28) Config.unimpFields s.fpu with mode := .unimp, pending := none } }) ∧
    (version = Config.fpuVersion → size = 0x60 →
      let u : Fpu :=
        { loadFields Config.busyLayout (body 0x60) Config.busyFields s.fpu with mode := .idle, pending := none }
      let loaded : State := { stepped 0x64 with fpu := u }
      let opclass := u.cmdreg1b.extractLsb' 13 3
      let format := u.cmdreg1b.extractLsb' 10 3
      let dataType : Prop := u.e1 = true ∧ (u.stag ∈ [4, (5 : BitVec 3)] ∨ u.dtag ∈ [4, (5 : BitVec 3)] ∨
        (opclass ∈ [2, (3 : BitVec 3)] ∧ format = 3) ∨ (opclass = 3 ∧ format = 7))
      let traps (bit : Nat) : Bool := s.fp.fpsr.getLsbD bit && (s.fp.fpcr.getLsbD bit || bit == 12 || bit == 11 ||
        ((bit == 14 || bit == 13) && opclass == 3 && [0, 4, (6 : BitVec 3)].contains format))
      let order : List (Nat × Byte) := [(15, 48), (14, 54), (13, 52), (12, 53), (11, 51), (10, 50), (9, 49), (8, 49)]
      let pends (vector : Option Byte) : Prop := goes { loaded with fpu := { u with
        pending := vector.map fun v => { vector := v, unit := if u.e3 then .e3 else .e1, post := false } } }
      (u.e1 = true ∨ u.e3 = true →
        (dataType → pends (some 55)) ∧ (¬ dataType → pends ((order.find? fun x => traps x.1).map (·.2)))) ∧
      (u.e1 = false → u.e3 = false →
        let continues (cmd : BitVec 7) : Prop := u.t = false ∧ u.cuSavepc = Config.cuSavepcContinue ∧
          (opclass = 0 ∨ (opclass = 2 ∧ format ≠ 7)) ∧
          (u.cmdreg1b.extractLsb' 0 7 = cmd ∨ (cmd = 4 ∧ u.cmdreg1b.extractLsb' 0 7 = 5))
        (∀ i op form cmd src dst t, fpArithmetic i = some (op, form, cmd, src, dst) → continues cmd →
          runJob { ia := u.fpiarcu, cw := (u.cmdreg1b &&& 0xFF80) ||| cmd.setWidth 16, op := op, src := operandOf u.etemp,
                   dst := u.cmdreg1b.extractLsb' 7 3, dval := u.fptemp, form := form } loaded = .ok () t → goes t) ∧
        ((∀ i op form cmd src dst, fpArithmetic i = some (op, form, cmd, src, dst) → ¬ continues cmd) → goes loaded))) ∧
    (version ≠ 0 → version ≠ Config.fpuVersion ∨ size ∉ [0x28, 0x60, Config.idleSize] →
      exec (.frestore ea) s =
        .next (s.takeException s.pc s.regs { vector := 14, cls := .restart, stackedPc := s.pc, format := .zero }))

/-- A state frame gives back what it was made of: the fields that FRESTORE loads from the body that FSAVE built are those of
the unit saved, all of them for a busy frame, and for an unimplemented one those it has (42 R280-R283; log entry 34). -/
def Obligations.StateFrameReloads : Prop :=
  ∀ (u v : Fpu) (free : Nat),
    loadFields Config.busyLayout (buildFrame .busy u free).tail Config.busyFields v =
      { u with mode := v.mode, pending := v.pending } ∧
    loadFields Config.unimpLayout (buildFrame .unimp u free).tail Config.unimpFields v =
      { v with cmdreg1b := u.cmdreg1b, etemp := u.etemp, fptemp := u.fptemp, stag := u.stag, dtag := u.dtag, e1 := u.e1,
               fpiarcu := u.fpiarcu }
end

