-- ==== Sys2Proof/Laws/Memory.lean ====
section
/-!
SUPPORT. Memory: every operation keeps the canonical form, and a read after a write gives what was written there and what
was there elsewhere.
-/
namespace Sys2Proof.Machine

theorem Memory.wf_nil : Memory.wf [] := ⟨List.Pairwise.nil, by simp⟩

/-- The memory of the reset state has the canonical form. -/
theorem Memory.reset_wf : Memory.wf State.reset.mem := Memory.wf_nil

theorem Memory.wf_tail {c : Host.Cell} {cs : List Host.Cell} (h : Memory.wf (c :: cs)) : Memory.wf cs :=
  ⟨(List.pairwise_cons.1 h.1).2, fun x hx => h.2 x (List.mem_cons_of_mem _ hx)⟩

theorem Memory.mem_write {cs : List Host.Cell} {a : Nat} {b : Byte} {x : Host.Cell} (h : x ∈ Memory.write cs a b) :
    x ∈ cs ∨ (x = (a, b) ∧ b ≠ 0) := by
  induction cs with
  | nil =>
    simp only [Memory.write, Memory.cons] at h
    split at h
    · exact absurd h List.not_mem_nil
    · next hb => exact .inr ⟨by simpa using h, hb⟩
  | cons c cs ih =>
    have hc : ∀ l, x ∈ Memory.cons a b l → x ∈ l ∨ (x = (a, b) ∧ b ≠ 0) := by
      intro l hl
      unfold Memory.cons at hl
      split at hl
      · exact .inl hl
      · next hb =>
        rcases List.mem_cons.1 hl with h | h
        · exact .inr ⟨h, hb⟩
        · exact .inl h
    simp only [Memory.write] at h
    split at h
    · exact (hc _ h).imp_left (List.mem_cons_of_mem _)
    · split at h
      · exact hc _ h
      · rcases List.mem_cons.1 h with h | h
        · exact .inl (h ▸ List.mem_cons_self)
        · exact (ih h).imp_left (List.mem_cons_of_mem _)

theorem Memory.wf_cons {cs : List Host.Cell} {a : Nat} {b : Byte} (ha : a < 2 ^ 32) (h : Memory.wf cs)
    (hlt : ∀ x ∈ cs, a < x.1) : Memory.wf (Memory.cons a b cs) := by
  unfold Memory.cons
  split
  · exact h
  · next hb =>
    refine ⟨List.pairwise_cons.2 ⟨hlt, h.1⟩, fun x hx => ?_⟩
    rcases List.mem_cons.1 hx with rfl | hx
    · exact ⟨ha, hb⟩
    · exact h.2 x hx

/-- A write keeps the canonical form. -/
theorem Memory.wf_write {cs : List Host.Cell} {a : Nat} {b : Byte} (ha : a < 2 ^ 32) (h : Memory.wf cs) :
    Memory.wf (Memory.write cs a b) := by
  induction cs with
  | nil => exact Memory.wf_cons ha h (by simp)
  | cons c cs ih =>
    have hp := List.pairwise_cons.1 h.1
    simp only [Memory.write]
    split
    · next e => exact Memory.wf_cons ha (Memory.wf_tail h) (fun x hx => e ▸ hp.1 x hx)
    · split
      · next hlt =>
        refine Memory.wf_cons ha h fun x hx => ?_
        rcases List.mem_cons.1 hx with rfl | hx
        · exact hlt
        · exact hlt.trans (hp.1 x hx)
      · next hne hlt =>
        have ih' := ih (Memory.wf_tail h)
        refine ⟨List.pairwise_cons.2 ⟨fun x hx => ?_, ih'.1⟩, fun x hx => ?_⟩
        · rcases Memory.mem_write hx with hx | ⟨rfl, -⟩
          · exact hp.1 x hx
          · show c.1 < a
            omega
        · rcases List.mem_cons.1 hx with rfl | hx
          · exact h.2 _ List.mem_cons_self
          · exact ih'.2 x hx

/-- A list of writes keeps the canonical form. -/
theorem Memory.wf_writes {ws : List (Long × Byte)} {cs : List Host.Cell} (h : Memory.wf cs) :
    Memory.wf (Memory.writes cs ws) := by
  induction ws generalizing cs with
  | nil => exact h
  | cons w ws ih => exact ih (Memory.wf_write w.1.isLt h)

theorem Memory.read_of_lt {cs : List Host.Cell} {a : Nat} (h : ∀ x ∈ cs, a < x.1) : Memory.read cs a = 0 := by
  cases cs with
  | nil => rfl
  | cons c cs =>
    have := h c List.mem_cons_self
    simp only [Memory.read]
    rw [if_neg (by omega), if_pos this]

theorem Memory.read_cons {cs : List Host.Cell} {a : Nat} {b : Byte} (hlt : ∀ x ∈ cs, a < x.1) (x : Nat) :
    Memory.read (Memory.cons a b cs) x = if x = a then b else if x < a then 0 else Memory.read cs x := by
  unfold Memory.cons
  split
  · next hb =>
    split
    · next e => rw [e, hb, Memory.read_of_lt hlt]
    · split
      · next hx => exact Memory.read_of_lt fun y hy => hx.trans (hlt y hy)
      · rfl
  · rfl

/-- Reading a byte after a byte was written: the byte written there, elsewhere what was there. -/
theorem Memory.read_write {cs : List Host.Cell} (h : Memory.wf cs) (a x : Nat) (b : Byte) :
    Memory.read (Memory.write cs a b) x = if x = a then b else Memory.read cs x := by
  induction cs with
  | nil =>
    rw [Memory.write, Memory.read_cons (by simp)]
    simp only [Memory.read]
    split <;> simp
  | cons c cs ih =>
    have hp := List.pairwise_cons.1 h.1
    simp only [Memory.write]
    split
    · next e =>
      rw [Memory.read_cons (fun x hx => e ▸ hp.1 x hx)]
      simp only [Memory.read, ← e]
      split <;> rfl
    · split
      · next hlt =>
        rw [Memory.read_cons]
        · split
          · rfl
          · split
            · next hx =>
              simp only [Memory.read]
              rw [if_neg (by omega), if_pos (by omega)]
            · rfl
        · intro y hy
          rcases List.mem_cons.1 hy with rfl | hy
          · exact hlt
          · exact hlt.trans (hp.1 y hy)
      · next hne hlt =>
        simp only [Memory.read]
        split
        · next e => rw [if_neg (by omega)]
        · split
          · rw [if_neg (by omega)]
          · exact ih (Memory.wf_tail h)

/-- Reading a byte after a list of writes none of which is at its address. -/
theorem Memory.read_writes_of_not_mem {ws : List (Long × Byte)} {cs : List Host.Cell} (h : Memory.wf cs) {x : Long}
    (hx : ∀ w ∈ ws, w.1 ≠ x) : Memory.read (Memory.writes cs ws) x.toNat = Memory.read cs x.toNat := by
  induction ws generalizing cs with
  | nil => rfl
  | cons w ws ih =>
    rw [Memory.writes, ih (Memory.wf_write w.1.isLt h) fun v hv => hx v (List.mem_cons_of_mem _ hv),
      Memory.read_write h, if_neg]
    intro e
    exact hx w List.mem_cons_self (BitVec.eq_of_toNat_eq e.symm)

/-- Reading a byte after a list of writes at different addresses, one of which is its address. -/
theorem Memory.read_writes_of_mem {ws : List (Long × Byte)} {cs : List Host.Cell} (h : Memory.wf cs)
    (hd : ws.Pairwise fun v w => v.1 ≠ w.1) {w : Long × Byte} (hw : w ∈ ws) :
    Memory.read (Memory.writes cs ws) w.1.toNat = w.2 := by
  induction ws generalizing cs with
  | nil => exact absurd hw List.not_mem_nil
  | cons v ws ih =>
    have hp := List.pairwise_cons.1 hd
    rw [Memory.writes]
    rcases List.mem_cons.1 hw with rfl | hw
    · rw [Memory.read_writes_of_not_mem (Memory.wf_write w.1.isLt h) fun u hu => (hp.1 u hu).symm,
        Memory.read_write h, if_pos rfl]
    · exact ih (Memory.wf_write v.1.isLt h) hp.2 hw

/-- Two memories in canonical form that read the same everywhere are equal. -/
theorem Memory.ext {m m' : List Host.Cell} (h : Memory.wf m) (h' : Memory.wf m')
    (e : ∀ a, Memory.read m a = Memory.read m' a) : m = m' := by
  induction m generalizing m' with
  | nil =>
    cases m' with
    | nil => rfl
    | cons c cs =>
      have := e c.1
      simp only [Memory.read, if_true] at this
      exact absurd this.symm (h'.2 c List.mem_cons_self).2
  | cons c cs ih =>
    have hp := List.pairwise_cons.1 h.1
    cases m' with
    | nil =>
      have := e c.1
      simp only [Memory.read, if_true] at this
      exact absurd this (h.2 c List.mem_cons_self).2
    | cons d ds =>
      have hq := List.pairwise_cons.1 h'.1
      have hc := (h.2 c List.mem_cons_self).2
      have hd := (h'.2 d List.mem_cons_self).2
      have key : c.1 = d.1 := by
        rcases Nat.lt_trichotomy c.1 d.1 with hlt | heq | hlt
        · have := e c.1
          simp only [Memory.read, if_true] at this
          rw [if_neg (by omega), if_pos hlt] at this
          exact absurd this hc
        · exact heq
        · have := e d.1
          simp only [Memory.read, if_true] at this
          rw [if_neg (by omega), if_pos hlt] at this
          exact absurd this.symm hd
      have hcd : c = d := by
        have := e c.1
        simp only [Memory.read, if_true, key] at this
        exact Prod.ext key this
      subst hcd
      congr 1
      refine ih (Memory.wf_tail h) (Memory.wf_tail h') fun a => ?_
      rcases Nat.lt_trichotomy a c.1 with hlt | heq | hlt
      · rw [Memory.read_of_lt fun x hx => hlt.trans (hp.1 x hx), Memory.read_of_lt fun x hx => hlt.trans (hq.1 x hx)]
      · rw [Memory.read_of_lt fun x hx => heq ▸ hp.1 x hx, Memory.read_of_lt fun x hx => heq ▸ hq.1 x hx]
      · have := e a
        simp only [Memory.read] at this
        rwa [if_neg (by omega), if_neg (by omega), if_neg (by omega), if_neg (by omega)] at this

/-! ### The bytes written and not yet visible to instruction fetch -/

theorem Memory.lt_of_mem_mapBytes {cs : List Host.Cell} {f : Nat → Byte → Byte} {a : Nat} (h : ∀ x ∈ cs, a < x.1) :
    ∀ x ∈ Memory.mapBytes f cs, a < x.1 := by
  induction cs with
  | nil => simp [Memory.mapBytes]
  | cons c cs ih =>
    intro x hx
    unfold Memory.mapBytes Memory.cons at hx
    split at hx
    · exact ih (fun y hy => h y (List.mem_cons_of_mem _ hy)) x hx
    · rcases List.mem_cons.1 hx with rfl | hx
      · exact h c List.mem_cons_self
      · exact ih (fun y hy => h y (List.mem_cons_of_mem _ hy)) x hx

/-- Changing listed bytes at their addresses keeps the canonical form. -/
theorem Memory.wf_mapBytes {cs : List Host.Cell} (f : Nat → Byte → Byte) (h : Memory.wf cs) :
    Memory.wf (Memory.mapBytes f cs) := by
  induction cs with
  | nil => exact h
  | cons c cs ih =>
    exact Memory.wf_cons (h.2 c List.mem_cons_self).1 (ih (Memory.wf_tail h))
      (Memory.lt_of_mem_mapBytes (List.pairwise_cons.1 h.1).1)

/-- Reading a byte after that: the function of what was there. -/
theorem Memory.read_mapBytes {cs : List Host.Cell} {f : Nat → Byte → Byte} (h : Memory.wf cs) (hf : ∀ a, f a 0 = 0)
    (x : Nat) : Memory.read (Memory.mapBytes f cs) x = f x (Memory.read cs x) := by
  induction cs with
  | nil => exact (hf x).symm
  | cons c cs ih =>
    have hp := (List.pairwise_cons.1 h.1).1
    rw [Memory.mapBytes, Memory.read_cons (Memory.lt_of_mem_mapBytes hp), ih (Memory.wf_tail h)]
    simp only [Memory.read]
    split
    · next e => rw [e]
    · split
      · exact (hf x).symm
      · rfl

theorem Memory.reset_modified_wf : Memory.wf State.reset.modified := Memory.wf_nil

/-- Stores keep both canonical forms. -/
theorem State.writeBytes_wf {s : State} (h : Memory.wf s.mem) (h' : Memory.wf s.modified) (ws : List (Long × Byte)) :
    Memory.wf (s.writeBytes ws).mem ∧ Memory.wf (s.writeBytes ws).modified :=
  ⟨Memory.wf_writes h, Memory.wf_writes h'⟩

/-- So do the moves of other bus masters. -/
theorem State.busMove_wf {s : State} (h : Memory.wf s.mem) (locked : Bool) : Memory.wf (s.busMove locked).mem := by
  show Memory.wf (if locked then s.mem else Memory.writes s.mem s.busNow.writes)
  split
  · exact h
  · exact Memory.wf_writes h

/-- So does the record of an act. -/
theorem State.recordAct_wf {s : State} (h : Memory.wf s.modified) (act : Byte) (c : Nat → Bool) :
    Memory.wf (s.recordAct act c).modified :=
  Memory.wf_mapBytes (fun a b => if c a then afterAct act b else b) h

/-- What an act leaves recorded of a byte. -/
theorem State.recordAct_read {s : State} (h : Memory.wf s.modified) (act : Byte) (c : Nat → Bool) (x : Nat) :
    Memory.read (s.recordAct act c).modified x =
      if c x then afterAct act (Memory.read s.modified x) else Memory.read s.modified x :=
  Memory.read_mapBytes (f := fun a b => if c a then afterAct act b else b) h (fun a => by simp [afterAct]) x

theorem State.flowChanged_wf {s : State} (h : Memory.wf s.modified) : Memory.wf s.flowChanged.modified := s.recordAct_wf h _ _

end Sys2Proof.Machine
end

