-- ==== Sys2Proof/Laws/State.lean ====
section
/-!
SUPPORT. What each update of State leaves: one lemma per field per update, so that no later proof unfolds a record update.
-/
namespace Sys2Proof.Machine

/-! ### `State.writeSr` -/

@[simp] theorem State.writeSr_regs (v : Word) (s : State) : (s.writeSr v).regs = s.regs := rfl
@[simp] theorem State.writeSr_ctl (v : Word) (s : State) : (s.writeSr v).ctl = s.ctl := rfl
@[simp] theorem State.writeSr_fp (v : Word) (s : State) : (s.writeSr v).fp = s.fp := rfl
@[simp] theorem State.writeSr_fpu (v : Word) (s : State) : (s.writeSr v).fpu = s.fpu := rfl
@[simp] theorem State.writeSr_irq (v : Word) (s : State) : (s.writeSr v).irq = s.irq := rfl
@[simp] theorem State.writeSr_env (v : Word) (s : State) : (s.writeSr v).env = s.env := rfl
@[simp] theorem State.writeSr_pc (v : Word) (s : State) : (s.writeSr v).pc = s.pc := rfl
@[simp] theorem State.writeSr_run (v : Word) (s : State) : (s.writeSr v).run = s.run := rfl
@[simp] theorem State.writeSr_tracePending (v : Word) (s : State) : (s.writeSr v).tracePending = s.tracePending := rfl
@[simp] theorem State.writeSr_movemRestart (v : Word) (s : State) : (s.writeSr v).movemRestart = s.movemRestart := rfl
@[simp] theorem State.writeSr_mem (v : Word) (s : State) : (s.writeSr v).mem = s.mem := rfl
@[simp] theorem State.writeSr_modified (v : Word) (s : State) : (s.writeSr v).modified = s.modified := rfl
@[simp] theorem State.writeSr_atcFlushed (v : Word) (s : State) : (s.writeSr v).atcFlushed = s.atcFlushed := rfl
@[simp] theorem State.writeSr_freeCount (v : Word) (s : State) : (s.writeSr v).freeCount = s.freeCount := rfl
@[simp] theorem State.writeSr_sr (v : Word) (s : State) : (s.writeSr v).sr = v &&& srMask := rfl

/-! ### `State.setStack` -/

@[simp] theorem State.setStack_ctl (k : StackSel) (v : Long) (s : State) : (s.setStack k v).ctl = s.ctl := by cases k <;> rfl
@[simp] theorem State.setStack_fp (k : StackSel) (v : Long) (s : State) : (s.setStack k v).fp = s.fp := by cases k <;> rfl
@[simp] theorem State.setStack_fpu (k : StackSel) (v : Long) (s : State) : (s.setStack k v).fpu = s.fpu := by cases k <;> rfl
@[simp] theorem State.setStack_irq (k : StackSel) (v : Long) (s : State) : (s.setStack k v).irq = s.irq := by cases k <;> rfl
@[simp] theorem State.setStack_env (k : StackSel) (v : Long) (s : State) : (s.setStack k v).env = s.env := by cases k <;> rfl
@[simp] theorem State.setStack_pc (k : StackSel) (v : Long) (s : State) : (s.setStack k v).pc = s.pc := by cases k <;> rfl
@[simp] theorem State.setStack_sr (k : StackSel) (v : Long) (s : State) : (s.setStack k v).sr = s.sr := by cases k <;> rfl
@[simp] theorem State.setStack_run (k : StackSel) (v : Long) (s : State) : (s.setStack k v).run = s.run := by cases k <;> rfl
@[simp] theorem State.setStack_tracePending (k : StackSel) (v : Long) (s : State) : (s.setStack k v).tracePending = s.tracePending := by cases k <;> rfl
@[simp] theorem State.setStack_movemRestart (k : StackSel) (v : Long) (s : State) : (s.setStack k v).movemRestart = s.movemRestart := by cases k <;> rfl
@[simp] theorem State.setStack_mem (k : StackSel) (v : Long) (s : State) : (s.setStack k v).mem = s.mem := by cases k <;> rfl
@[simp] theorem State.setStack_modified (k : StackSel) (v : Long) (s : State) : (s.setStack k v).modified = s.modified := by cases k <;> rfl
@[simp] theorem State.setStack_atcFlushed (k : StackSel) (v : Long) (s : State) : (s.setStack k v).atcFlushed = s.atcFlushed := by cases k <;> rfl
@[simp] theorem State.setStack_freeCount (k : StackSel) (v : Long) (s : State) : (s.setStack k v).freeCount = s.freeCount := by cases k <;> rfl
@[simp] theorem State.getStack_setStack (k : StackSel) (v : Long) (s : State) : (s.setStack k v).getStack k = v := by
  cases k <;> rfl
theorem State.getStack_setStack_of_ne {k l : StackSel} (h : l ≠ k) (v : Long) (s : State) :
    (s.setStack k v).getStack l = s.getStack l := by
  cases k <;> cases l <;> first | rfl | exact absurd rfl h
@[simp] theorem State.getD_setStack (k : StackSel) (v : Long) (n : RegNo) (s : State) : (s.setStack k v).getD n = s.getD n := by
  cases k <;> rfl

/-! ### `State.setSp` -/

@[simp] theorem State.setSp_ctl (v : Long) (s : State) : (s.setSp v).ctl = s.ctl := by simp [State.setSp]
@[simp] theorem State.setSp_fp (v : Long) (s : State) : (s.setSp v).fp = s.fp := by simp [State.setSp]
@[simp] theorem State.setSp_fpu (v : Long) (s : State) : (s.setSp v).fpu = s.fpu := by simp [State.setSp]
@[simp] theorem State.setSp_irq (v : Long) (s : State) : (s.setSp v).irq = s.irq := by simp [State.setSp]
@[simp] theorem State.setSp_env (v : Long) (s : State) : (s.setSp v).env = s.env := by simp [State.setSp]
@[simp] theorem State.setSp_pc (v : Long) (s : State) : (s.setSp v).pc = s.pc := by simp [State.setSp]
@[simp] theorem State.setSp_sr (v : Long) (s : State) : (s.setSp v).sr = s.sr := by simp [State.setSp]
@[simp] theorem State.setSp_run (v : Long) (s : State) : (s.setSp v).run = s.run := by simp [State.setSp]
@[simp] theorem State.setSp_tracePending (v : Long) (s : State) : (s.setSp v).tracePending = s.tracePending := by simp [State.setSp]
@[simp] theorem State.setSp_movemRestart (v : Long) (s : State) : (s.setSp v).movemRestart = s.movemRestart := by simp [State.setSp]
@[simp] theorem State.setSp_mem (v : Long) (s : State) : (s.setSp v).mem = s.mem := by simp [State.setSp]
@[simp] theorem State.setSp_modified (v : Long) (s : State) : (s.setSp v).modified = s.modified := by simp [State.setSp]
@[simp] theorem State.setSp_atcFlushed (v : Long) (s : State) : (s.setSp v).atcFlushed = s.atcFlushed := by simp [State.setSp]
@[simp] theorem State.setSp_freeCount (v : Long) (s : State) : (s.setSp v).freeCount = s.freeCount := by simp [State.setSp]
@[simp] theorem State.sp_setSp (v : Long) (s : State) : (s.setSp v).sp = v := by simp [State.sp, State.setSp]

/-! ### `State.setD` -/

@[simp] theorem State.setD_ctl (n : RegNo) (v : Long) (s : State) : (s.setD n v).ctl = s.ctl := rfl
@[simp] theorem State.setD_fp (n : RegNo) (v : Long) (s : State) : (s.setD n v).fp = s.fp := rfl
@[simp] theorem State.setD_fpu (n : RegNo) (v : Long) (s : State) : (s.setD n v).fpu = s.fpu := rfl
@[simp] theorem State.setD_irq (n : RegNo) (v : Long) (s : State) : (s.setD n v).irq = s.irq := rfl
@[simp] theorem State.setD_env (n : RegNo) (v : Long) (s : State) : (s.setD n v).env = s.env := rfl
@[simp] theorem State.setD_pc (n : RegNo) (v : Long) (s : State) : (s.setD n v).pc = s.pc := rfl
@[simp] theorem State.setD_sr (n : RegNo) (v : Long) (s : State) : (s.setD n v).sr = s.sr := rfl
@[simp] theorem State.setD_run (n : RegNo) (v : Long) (s : State) : (s.setD n v).run = s.run := rfl
@[simp] theorem State.setD_tracePending (n : RegNo) (v : Long) (s : State) : (s.setD n v).tracePending = s.tracePending := rfl
@[simp] theorem State.setD_movemRestart (n : RegNo) (v : Long) (s : State) : (s.setD n v).movemRestart = s.movemRestart := rfl
@[simp] theorem State.setD_mem (n : RegNo) (v : Long) (s : State) : (s.setD n v).mem = s.mem := rfl
@[simp] theorem State.setD_modified (n : RegNo) (v : Long) (s : State) : (s.setD n v).modified = s.modified := rfl
@[simp] theorem State.setD_atcFlushed (n : RegNo) (v : Long) (s : State) : (s.setD n v).atcFlushed = s.atcFlushed := rfl
@[simp] theorem State.setD_freeCount (n : RegNo) (v : Long) (s : State) : (s.setD n v).freeCount = s.freeCount := rfl
@[simp] theorem State.setD_getA (n m : RegNo) (v : Long) (s : State) : (s.setD n v).getA m = s.getA m := rfl
@[simp] theorem State.setD_getStack (n : RegNo) (v : Long) (k : StackSel) (s : State) : (s.setD n v).getStack k = s.getStack k := by
  cases k <;> rfl

/-! ### `State.setA` -/

@[simp] theorem State.setA_ctl (n : RegNo) (v : Long) (s : State) : (s.setA n v).ctl = s.ctl := by unfold State.setA; split <;> simp
@[simp] theorem State.setA_fp (n : RegNo) (v : Long) (s : State) : (s.setA n v).fp = s.fp := by unfold State.setA; split <;> simp
@[simp] theorem State.setA_fpu (n : RegNo) (v : Long) (s : State) : (s.setA n v).fpu = s.fpu := by unfold State.setA; split <;> simp
@[simp] theorem State.setA_irq (n : RegNo) (v : Long) (s : State) : (s.setA n v).irq = s.irq := by unfold State.setA; split <;> simp
@[simp] theorem State.setA_env (n : RegNo) (v : Long) (s : State) : (s.setA n v).env = s.env := by unfold State.setA; split <;> simp
@[simp] theorem State.setA_pc (n : RegNo) (v : Long) (s : State) : (s.setA n v).pc = s.pc := by unfold State.setA; split <;> simp
@[simp] theorem State.setA_sr (n : RegNo) (v : Long) (s : State) : (s.setA n v).sr = s.sr := by unfold State.setA; split <;> simp
@[simp] theorem State.setA_run (n : RegNo) (v : Long) (s : State) : (s.setA n v).run = s.run := by unfold State.setA; split <;> simp
@[simp] theorem State.setA_tracePending (n : RegNo) (v : Long) (s : State) : (s.setA n v).tracePending = s.tracePending := by unfold State.setA; split <;> simp
@[simp] theorem State.setA_movemRestart (n : RegNo) (v : Long) (s : State) : (s.setA n v).movemRestart = s.movemRestart := by unfold State.setA; split <;> simp
@[simp] theorem State.setA_mem (n : RegNo) (v : Long) (s : State) : (s.setA n v).mem = s.mem := by unfold State.setA; split <;> simp
@[simp] theorem State.setA_modified (n : RegNo) (v : Long) (s : State) : (s.setA n v).modified = s.modified := by unfold State.setA; split <;> simp
@[simp] theorem State.setA_atcFlushed (n : RegNo) (v : Long) (s : State) : (s.setA n v).atcFlushed = s.atcFlushed := by unfold State.setA; split <;> simp
@[simp] theorem State.setA_freeCount (n : RegNo) (v : Long) (s : State) : (s.setA n v).freeCount = s.freeCount := by unfold State.setA; split <;> simp
@[simp] theorem State.setA_d (n : RegNo) (v : Long) (s : State) : (s.setA n v).regs.d = s.regs.d := by
  unfold State.setA State.setSp State.setStack
  split <;> (try split) <;> rfl

/-! ### `State.setR` -/

@[simp] theorem State.setR_ctl (r : Reg) (v : Long) (s : State) : (s.setR r v).ctl = s.ctl := by cases r <;> simp [State.setR]
@[simp] theorem State.setR_fp (r : Reg) (v : Long) (s : State) : (s.setR r v).fp = s.fp := by cases r <;> simp [State.setR]
@[simp] theorem State.setR_fpu (r : Reg) (v : Long) (s : State) : (s.setR r v).fpu = s.fpu := by cases r <;> simp [State.setR]
@[simp] theorem State.setR_irq (r : Reg) (v : Long) (s : State) : (s.setR r v).irq = s.irq := by cases r <;> simp [State.setR]
@[simp] theorem State.setR_env (r : Reg) (v : Long) (s : State) : (s.setR r v).env = s.env := by cases r <;> simp [State.setR]
@[simp] theorem State.setR_pc (r : Reg) (v : Long) (s : State) : (s.setR r v).pc = s.pc := by cases r <;> simp [State.setR]
@[simp] theorem State.setR_sr (r : Reg) (v : Long) (s : State) : (s.setR r v).sr = s.sr := by cases r <;> simp [State.setR]
@[simp] theorem State.setR_run (r : Reg) (v : Long) (s : State) : (s.setR r v).run = s.run := by cases r <;> simp [State.setR]
@[simp] theorem State.setR_tracePending (r : Reg) (v : Long) (s : State) : (s.setR r v).tracePending = s.tracePending := by cases r <;> simp [State.setR]
@[simp] theorem State.setR_movemRestart (r : Reg) (v : Long) (s : State) : (s.setR r v).movemRestart = s.movemRestart := by cases r <;> simp [State.setR]
@[simp] theorem State.setR_mem (r : Reg) (v : Long) (s : State) : (s.setR r v).mem = s.mem := by cases r <;> simp [State.setR]
@[simp] theorem State.setR_modified (r : Reg) (v : Long) (s : State) : (s.setR r v).modified = s.modified := by cases r <;> simp [State.setR]
@[simp] theorem State.setR_atcFlushed (r : Reg) (v : Long) (s : State) : (s.setR r v).atcFlushed = s.atcFlushed := by cases r <;> simp [State.setR]
@[simp] theorem State.setR_freeCount (r : Reg) (v : Long) (s : State) : (s.setR r v).freeCount = s.freeCount := by cases r <;> simp [State.setR]

/-! ### `State.setFp` -/

@[simp] theorem State.setFp_regs (n : RegNo) (v : FpReal) (s : State) : (s.setFp n v).regs = s.regs := rfl
@[simp] theorem State.setFp_ctl (n : RegNo) (v : FpReal) (s : State) : (s.setFp n v).ctl = s.ctl := rfl
@[simp] theorem State.setFp_fpu (n : RegNo) (v : FpReal) (s : State) : (s.setFp n v).fpu = s.fpu := rfl
@[simp] theorem State.setFp_irq (n : RegNo) (v : FpReal) (s : State) : (s.setFp n v).irq = s.irq := rfl
@[simp] theorem State.setFp_env (n : RegNo) (v : FpReal) (s : State) : (s.setFp n v).env = s.env := rfl
@[simp] theorem State.setFp_pc (n : RegNo) (v : FpReal) (s : State) : (s.setFp n v).pc = s.pc := rfl
@[simp] theorem State.setFp_sr (n : RegNo) (v : FpReal) (s : State) : (s.setFp n v).sr = s.sr := rfl
@[simp] theorem State.setFp_run (n : RegNo) (v : FpReal) (s : State) : (s.setFp n v).run = s.run := rfl
@[simp] theorem State.setFp_tracePending (n : RegNo) (v : FpReal) (s : State) : (s.setFp n v).tracePending = s.tracePending := rfl
@[simp] theorem State.setFp_movemRestart (n : RegNo) (v : FpReal) (s : State) : (s.setFp n v).movemRestart = s.movemRestart := rfl
@[simp] theorem State.setFp_mem (n : RegNo) (v : FpReal) (s : State) : (s.setFp n v).mem = s.mem := rfl
@[simp] theorem State.setFp_modified (n : RegNo) (v : FpReal) (s : State) : (s.setFp n v).modified = s.modified := rfl
@[simp] theorem State.setFp_atcFlushed (n : RegNo) (v : FpReal) (s : State) : (s.setFp n v).atcFlushed = s.atcFlushed := rfl
@[simp] theorem State.setFp_freeCount (n : RegNo) (v : FpReal) (s : State) : (s.setFp n v).freeCount = s.freeCount := rfl
@[simp] theorem State.setFp_fpcr (n : RegNo) (v : FpReal) (s : State) : (s.setFp n v).fp.fpcr = s.fp.fpcr := rfl
@[simp] theorem State.setFp_fpsr (n : RegNo) (v : FpReal) (s : State) : (s.setFp n v).fp.fpsr = s.fp.fpsr := rfl
@[simp] theorem State.setFp_fpiar (n : RegNo) (v : FpReal) (s : State) : (s.setFp n v).fp.fpiar = s.fp.fpiar := rfl

/-! ### `State.emit` -/

@[simp] theorem State.emit_regs (o : Output) (s : State) : (s.emit o).regs = s.regs := rfl
@[simp] theorem State.emit_ctl (o : Output) (s : State) : (s.emit o).ctl = s.ctl := rfl
@[simp] theorem State.emit_fp (o : Output) (s : State) : (s.emit o).fp = s.fp := rfl
@[simp] theorem State.emit_fpu (o : Output) (s : State) : (s.emit o).fpu = s.fpu := rfl
@[simp] theorem State.emit_irq (o : Output) (s : State) : (s.emit o).irq = s.irq := rfl
@[simp] theorem State.emit_pc (o : Output) (s : State) : (s.emit o).pc = s.pc := rfl
@[simp] theorem State.emit_sr (o : Output) (s : State) : (s.emit o).sr = s.sr := rfl
@[simp] theorem State.emit_run (o : Output) (s : State) : (s.emit o).run = s.run := rfl
@[simp] theorem State.emit_tracePending (o : Output) (s : State) : (s.emit o).tracePending = s.tracePending := rfl
@[simp] theorem State.emit_movemRestart (o : Output) (s : State) : (s.emit o).movemRestart = s.movemRestart := rfl
@[simp] theorem State.emit_mem (o : Output) (s : State) : (s.emit o).mem = s.mem := rfl
@[simp] theorem State.emit_modified (o : Output) (s : State) : (s.emit o).modified = s.modified := rfl
@[simp] theorem State.emit_atcFlushed (o : Output) (s : State) : (s.emit o).atcFlushed = s.atcFlushed := rfl
@[simp] theorem State.emit_freeCount (o : Output) (s : State) : (s.emit o).freeCount = s.freeCount := rfl
@[simp] theorem State.emit_tea (o : Output) (s : State) : (s.emit o).env.tea = s.env.tea := rfl
@[simp] theorem State.emit_inputs (o : Output) (s : State) : (s.emit o).env.inputs = s.env.inputs := rfl

/-! ### `State.setNzvc` -/

@[simp] theorem State.setNzvc_regs (n z v c : Bool) (s : State) : (s.setNzvc n z v c).regs = s.regs := rfl
@[simp] theorem State.setNzvc_ctl (n z v c : Bool) (s : State) : (s.setNzvc n z v c).ctl = s.ctl := rfl
@[simp] theorem State.setNzvc_fp (n z v c : Bool) (s : State) : (s.setNzvc n z v c).fp = s.fp := rfl
@[simp] theorem State.setNzvc_fpu (n z v c : Bool) (s : State) : (s.setNzvc n z v c).fpu = s.fpu := rfl
@[simp] theorem State.setNzvc_irq (n z v c : Bool) (s : State) : (s.setNzvc n z v c).irq = s.irq := rfl
@[simp] theorem State.setNzvc_env (n z v c : Bool) (s : State) : (s.setNzvc n z v c).env = s.env := rfl
@[simp] theorem State.setNzvc_pc (n z v c : Bool) (s : State) : (s.setNzvc n z v c).pc = s.pc := rfl
@[simp] theorem State.setNzvc_run (n z v c : Bool) (s : State) : (s.setNzvc n z v c).run = s.run := rfl
@[simp] theorem State.setNzvc_tracePending (n z v c : Bool) (s : State) : (s.setNzvc n z v c).tracePending = s.tracePending := rfl
@[simp] theorem State.setNzvc_movemRestart (n z v c : Bool) (s : State) : (s.setNzvc n z v c).movemRestart = s.movemRestart := rfl
@[simp] theorem State.setNzvc_mem (n z v c : Bool) (s : State) : (s.setNzvc n z v c).mem = s.mem := rfl
@[simp] theorem State.setNzvc_modified (n z v c : Bool) (s : State) : (s.setNzvc n z v c).modified = s.modified := rfl
@[simp] theorem State.setNzvc_atcFlushed (n z v c : Bool) (s : State) : (s.setNzvc n z v c).atcFlushed = s.atcFlushed := rfl
@[simp] theorem State.setNzvc_freeCount (n z v c : Bool) (s : State) : (s.setNzvc n z v c).freeCount = s.freeCount := rfl

/-! ### `State.setExc` -/

@[simp] theorem State.setExc_regs (x : FpExc) (s : State) : (s.setExc x).regs = s.regs := rfl
@[simp] theorem State.setExc_ctl (x : FpExc) (s : State) : (s.setExc x).ctl = s.ctl := rfl
@[simp] theorem State.setExc_fpu (x : FpExc) (s : State) : (s.setExc x).fpu = s.fpu := rfl
@[simp] theorem State.setExc_irq (x : FpExc) (s : State) : (s.setExc x).irq = s.irq := rfl
@[simp] theorem State.setExc_env (x : FpExc) (s : State) : (s.setExc x).env = s.env := rfl
@[simp] theorem State.setExc_pc (x : FpExc) (s : State) : (s.setExc x).pc = s.pc := rfl
@[simp] theorem State.setExc_sr (x : FpExc) (s : State) : (s.setExc x).sr = s.sr := rfl
@[simp] theorem State.setExc_run (x : FpExc) (s : State) : (s.setExc x).run = s.run := rfl
@[simp] theorem State.setExc_tracePending (x : FpExc) (s : State) : (s.setExc x).tracePending = s.tracePending := rfl
@[simp] theorem State.setExc_movemRestart (x : FpExc) (s : State) : (s.setExc x).movemRestart = s.movemRestart := rfl
@[simp] theorem State.setExc_mem (x : FpExc) (s : State) : (s.setExc x).mem = s.mem := rfl
@[simp] theorem State.setExc_modified (x : FpExc) (s : State) : (s.setExc x).modified = s.modified := rfl
@[simp] theorem State.setExc_atcFlushed (x : FpExc) (s : State) : (s.setExc x).atcFlushed = s.atcFlushed := rfl
@[simp] theorem State.setExc_freeCount (x : FpExc) (s : State) : (s.setExc x).freeCount = s.freeCount := rfl
@[simp] theorem State.setExc_fp (x : FpExc) (s : State) : (s.setExc x).fp.fp = s.fp.fp := rfl
@[simp] theorem State.setExc_fpcr (x : FpExc) (s : State) : (s.setExc x).fp.fpcr = s.fp.fpcr := rfl
@[simp] theorem State.setExc_fpiar (x : FpExc) (s : State) : (s.setExc x).fp.fpiar = s.fp.fpiar := rfl

/-! ### `State.clearExc` -/

@[simp] theorem State.clearExc_regs (s : State) : (s.clearExc).regs = s.regs := rfl
@[simp] theorem State.clearExc_ctl (s : State) : (s.clearExc).ctl = s.ctl := rfl
@[simp] theorem State.clearExc_fpu (s : State) : (s.clearExc).fpu = s.fpu := rfl
@[simp] theorem State.clearExc_irq (s : State) : (s.clearExc).irq = s.irq := rfl
@[simp] theorem State.clearExc_env (s : State) : (s.clearExc).env = s.env := rfl
@[simp] theorem State.clearExc_pc (s : State) : (s.clearExc).pc = s.pc := rfl
@[simp] theorem State.clearExc_sr (s : State) : (s.clearExc).sr = s.sr := rfl
@[simp] theorem State.clearExc_run (s : State) : (s.clearExc).run = s.run := rfl
@[simp] theorem State.clearExc_tracePending (s : State) : (s.clearExc).tracePending = s.tracePending := rfl
@[simp] theorem State.clearExc_movemRestart (s : State) : (s.clearExc).movemRestart = s.movemRestart := rfl
@[simp] theorem State.clearExc_mem (s : State) : (s.clearExc).mem = s.mem := rfl
@[simp] theorem State.clearExc_modified (s : State) : (s.clearExc).modified = s.modified := rfl
@[simp] theorem State.clearExc_atcFlushed (s : State) : (s.clearExc).atcFlushed = s.atcFlushed := rfl
@[simp] theorem State.clearExc_freeCount (s : State) : (s.clearExc).freeCount = s.freeCount := rfl
@[simp] theorem State.clearExc_fp (s : State) : (s.clearExc).fp.fp = s.fp.fp := rfl
@[simp] theorem State.clearExc_fpcr (s : State) : (s.clearExc).fp.fpcr = s.fp.fpcr := rfl
@[simp] theorem State.clearExc_fpiar (s : State) : (s.clearExc).fp.fpiar = s.fp.fpiar := rfl

/-! ### `State.setFpcc` -/

@[simp] theorem State.setFpcc_regs (n z i nan : Bool) (s : State) : (s.setFpcc n z i nan).regs = s.regs := rfl
@[simp] theorem State.setFpcc_ctl (n z i nan : Bool) (s : State) : (s.setFpcc n z i nan).ctl = s.ctl := rfl
@[simp] theorem State.setFpcc_fpu (n z i nan : Bool) (s : State) : (s.setFpcc n z i nan).fpu = s.fpu := rfl
@[simp] theorem State.setFpcc_irq (n z i nan : Bool) (s : State) : (s.setFpcc n z i nan).irq = s.irq := rfl
@[simp] theorem State.setFpcc_env (n z i nan : Bool) (s : State) : (s.setFpcc n z i nan).env = s.env := rfl
@[simp] theorem State.setFpcc_pc (n z i nan : Bool) (s : State) : (s.setFpcc n z i nan).pc = s.pc := rfl
@[simp] theorem State.setFpcc_sr (n z i nan : Bool) (s : State) : (s.setFpcc n z i nan).sr = s.sr := rfl
@[simp] theorem State.setFpcc_run (n z i nan : Bool) (s : State) : (s.setFpcc n z i nan).run = s.run := rfl
@[simp] theorem State.setFpcc_tracePending (n z i nan : Bool) (s : State) : (s.setFpcc n z i nan).tracePending = s.tracePending := rfl
@[simp] theorem State.setFpcc_movemRestart (n z i nan : Bool) (s : State) : (s.setFpcc n z i nan).movemRestart = s.movemRestart := rfl
@[simp] theorem State.setFpcc_mem (n z i nan : Bool) (s : State) : (s.setFpcc n z i nan).mem = s.mem := rfl
@[simp] theorem State.setFpcc_modified (n z i nan : Bool) (s : State) : (s.setFpcc n z i nan).modified = s.modified := rfl
@[simp] theorem State.setFpcc_atcFlushed (n z i nan : Bool) (s : State) : (s.setFpcc n z i nan).atcFlushed = s.atcFlushed := rfl
@[simp] theorem State.setFpcc_freeCount (n z i nan : Bool) (s : State) : (s.setFpcc n z i nan).freeCount = s.freeCount := rfl
@[simp] theorem State.setFpcc_fp (n z i nan : Bool) (s : State) : (s.setFpcc n z i nan).fp.fp = s.fp.fp := rfl
@[simp] theorem State.setFpcc_fpcr (n z i nan : Bool) (s : State) : (s.setFpcc n z i nan).fp.fpcr = s.fp.fpcr := rfl
@[simp] theorem State.setFpcc_fpiar (n z i nan : Bool) (s : State) : (s.setFpcc n z i nan).fp.fpiar = s.fp.fpiar := rfl

/-! ### `State.accrue` -/

@[simp] theorem State.accrue_regs (s : State) : (s.accrue).regs = s.regs := rfl
@[simp] theorem State.accrue_ctl (s : State) : (s.accrue).ctl = s.ctl := rfl
@[simp] theorem State.accrue_fpu (s : State) : (s.accrue).fpu = s.fpu := rfl
@[simp] theorem State.accrue_irq (s : State) : (s.accrue).irq = s.irq := rfl
@[simp] theorem State.accrue_env (s : State) : (s.accrue).env = s.env := rfl
@[simp] theorem State.accrue_pc (s : State) : (s.accrue).pc = s.pc := rfl
@[simp] theorem State.accrue_sr (s : State) : (s.accrue).sr = s.sr := rfl
@[simp] theorem State.accrue_run (s : State) : (s.accrue).run = s.run := rfl
@[simp] theorem State.accrue_tracePending (s : State) : (s.accrue).tracePending = s.tracePending := rfl
@[simp] theorem State.accrue_movemRestart (s : State) : (s.accrue).movemRestart = s.movemRestart := rfl
@[simp] theorem State.accrue_mem (s : State) : (s.accrue).mem = s.mem := rfl
@[simp] theorem State.accrue_modified (s : State) : (s.accrue).modified = s.modified := rfl
@[simp] theorem State.accrue_atcFlushed (s : State) : (s.accrue).atcFlushed = s.atcFlushed := rfl
@[simp] theorem State.accrue_freeCount (s : State) : (s.accrue).freeCount = s.freeCount := rfl
@[simp] theorem State.accrue_fp (s : State) : (s.accrue).fp.fp = s.fp.fp := rfl
@[simp] theorem State.accrue_fpcr (s : State) : (s.accrue).fp.fpcr = s.fp.fpcr := rfl
@[simp] theorem State.accrue_fpiar (s : State) : (s.accrue).fp.fpiar = s.fp.fpiar := rfl

/-! ### `State.setBsun` -/

@[simp] theorem State.setBsun_regs (s : State) : (s.setBsun).regs = s.regs := rfl
@[simp] theorem State.setBsun_ctl (s : State) : (s.setBsun).ctl = s.ctl := rfl
@[simp] theorem State.setBsun_fpu (s : State) : (s.setBsun).fpu = s.fpu := rfl
@[simp] theorem State.setBsun_irq (s : State) : (s.setBsun).irq = s.irq := rfl
@[simp] theorem State.setBsun_env (s : State) : (s.setBsun).env = s.env := rfl
@[simp] theorem State.setBsun_pc (s : State) : (s.setBsun).pc = s.pc := rfl
@[simp] theorem State.setBsun_sr (s : State) : (s.setBsun).sr = s.sr := rfl
@[simp] theorem State.setBsun_run (s : State) : (s.setBsun).run = s.run := rfl
@[simp] theorem State.setBsun_tracePending (s : State) : (s.setBsun).tracePending = s.tracePending := rfl
@[simp] theorem State.setBsun_movemRestart (s : State) : (s.setBsun).movemRestart = s.movemRestart := rfl
@[simp] theorem State.setBsun_mem (s : State) : (s.setBsun).mem = s.mem := rfl
@[simp] theorem State.setBsun_modified (s : State) : (s.setBsun).modified = s.modified := rfl
@[simp] theorem State.setBsun_atcFlushed (s : State) : (s.setBsun).atcFlushed = s.atcFlushed := rfl
@[simp] theorem State.setBsun_freeCount (s : State) : (s.setBsun).freeCount = s.freeCount := rfl
@[simp] theorem State.setBsun_fp (s : State) : (s.setBsun).fp.fp = s.fp.fp := rfl
@[simp] theorem State.setBsun_fpcr (s : State) : (s.setBsun).fp.fpcr = s.fp.fpcr := rfl
@[simp] theorem State.setBsun_fpiar (s : State) : (s.setBsun).fp.fpiar = s.fp.fpiar := rfl

/-! ### `State.writeBytes` -/

@[simp] theorem State.writeBytes_regs (ws : List (Long × Byte)) (s : State) : (s.writeBytes ws).regs = s.regs := rfl
@[simp] theorem State.writeBytes_ctl (ws : List (Long × Byte)) (s : State) : (s.writeBytes ws).ctl = s.ctl := rfl
@[simp] theorem State.writeBytes_fp (ws : List (Long × Byte)) (s : State) : (s.writeBytes ws).fp = s.fp := rfl
@[simp] theorem State.writeBytes_fpu (ws : List (Long × Byte)) (s : State) : (s.writeBytes ws).fpu = s.fpu := rfl
@[simp] theorem State.writeBytes_irq (ws : List (Long × Byte)) (s : State) : (s.writeBytes ws).irq = s.irq := rfl
@[simp] theorem State.writeBytes_env (ws : List (Long × Byte)) (s : State) : (s.writeBytes ws).env = s.env := rfl
@[simp] theorem State.writeBytes_pc (ws : List (Long × Byte)) (s : State) : (s.writeBytes ws).pc = s.pc := rfl
@[simp] theorem State.writeBytes_sr (ws : List (Long × Byte)) (s : State) : (s.writeBytes ws).sr = s.sr := rfl
@[simp] theorem State.writeBytes_run (ws : List (Long × Byte)) (s : State) : (s.writeBytes ws).run = s.run := rfl
@[simp] theorem State.writeBytes_tracePending (ws : List (Long × Byte)) (s : State) : (s.writeBytes ws).tracePending = s.tracePending := rfl
@[simp] theorem State.writeBytes_movemRestart (ws : List (Long × Byte)) (s : State) : (s.writeBytes ws).movemRestart = s.movemRestart := rfl
@[simp] theorem State.writeBytes_atcFlushed (ws : List (Long × Byte)) (s : State) : (s.writeBytes ws).atcFlushed = s.atcFlushed := rfl
@[simp] theorem State.writeBytes_freeCount (ws : List (Long × Byte)) (s : State) : (s.writeBytes ws).freeCount = s.freeCount := rfl
@[simp] theorem State.writeBytes_mem (ws : List (Long × Byte)) (s : State) : (s.writeBytes ws).mem = Memory.writes s.mem ws := rfl
@[simp] theorem State.writeBytes_modified (ws : List (Long × Byte)) (s : State) :
    (s.writeBytes ws).modified = Memory.writes s.modified (ws.map fun w => (w.1, codeWritten)) := rfl

/-! ### `State.busMove` -/

@[simp] theorem State.busMove_regs (locked : Bool) (s : State) : (s.busMove locked).regs = s.regs := rfl
@[simp] theorem State.busMove_ctl (locked : Bool) (s : State) : (s.busMove locked).ctl = s.ctl := rfl
@[simp] theorem State.busMove_fp (locked : Bool) (s : State) : (s.busMove locked).fp = s.fp := rfl
@[simp] theorem State.busMove_fpu (locked : Bool) (s : State) : (s.busMove locked).fpu = s.fpu := rfl
@[simp] theorem State.busMove_irq (locked : Bool) (s : State) : (s.busMove locked).irq = s.irq := rfl
@[simp] theorem State.busMove_pc (locked : Bool) (s : State) : (s.busMove locked).pc = s.pc := rfl
@[simp] theorem State.busMove_sr (locked : Bool) (s : State) : (s.busMove locked).sr = s.sr := rfl
@[simp] theorem State.busMove_run (locked : Bool) (s : State) : (s.busMove locked).run = s.run := rfl
@[simp] theorem State.busMove_tracePending (locked : Bool) (s : State) : (s.busMove locked).tracePending = s.tracePending := rfl
@[simp] theorem State.busMove_movemRestart (locked : Bool) (s : State) : (s.busMove locked).movemRestart = s.movemRestart := rfl
@[simp] theorem State.busMove_modified (locked : Bool) (s : State) : (s.busMove locked).modified = s.modified := rfl
@[simp] theorem State.busMove_atcFlushed (locked : Bool) (s : State) : (s.busMove locked).atcFlushed = s.atcFlushed := rfl
@[simp] theorem State.busMove_freeCount (locked : Bool) (s : State) : (s.busMove locked).freeCount = s.freeCount := rfl
@[simp] theorem State.busMove_tea (locked : Bool) (s : State) : (s.busMove locked).env.tea = s.env.tea := rfl
@[simp] theorem State.busMove_inputs (locked : Bool) (s : State) : (s.busMove locked).env.inputs = s.env.inputs := rfl
@[simp] theorem State.busMove_outputs (locked : Bool) (s : State) : (s.busMove locked).env.outputs = s.env.outputs := rfl
/-- With no moves of the environment listed a transfer finds the state as it is. -/
theorem State.busMove_of_nil {s : State} (h : s.env.bus = []) (locked : Bool) : s.busMove locked = s := by
  obtain ⟨regs, ctl, fp, fpu, irq, ⟨inputs, bus, tea, outputs⟩, pc, sr, run, tp, mr, mem, mo, af, fc⟩ := s
  simp only at h
  subst h
  cases locked <;> rfl

/-! ### `State.flowChanged` -/

@[simp] theorem State.flowChanged_regs (s : State) : (s.flowChanged).regs = s.regs := rfl
@[simp] theorem State.flowChanged_ctl (s : State) : (s.flowChanged).ctl = s.ctl := rfl
@[simp] theorem State.flowChanged_fp (s : State) : (s.flowChanged).fp = s.fp := rfl
@[simp] theorem State.flowChanged_fpu (s : State) : (s.flowChanged).fpu = s.fpu := rfl
@[simp] theorem State.flowChanged_irq (s : State) : (s.flowChanged).irq = s.irq := rfl
@[simp] theorem State.flowChanged_env (s : State) : (s.flowChanged).env = s.env := rfl
@[simp] theorem State.flowChanged_pc (s : State) : (s.flowChanged).pc = s.pc := rfl
@[simp] theorem State.flowChanged_sr (s : State) : (s.flowChanged).sr = s.sr := rfl
@[simp] theorem State.flowChanged_run (s : State) : (s.flowChanged).run = s.run := rfl
@[simp] theorem State.flowChanged_tracePending (s : State) : (s.flowChanged).tracePending = s.tracePending := rfl
@[simp] theorem State.flowChanged_movemRestart (s : State) : (s.flowChanged).movemRestart = s.movemRestart := rfl
@[simp] theorem State.flowChanged_mem (s : State) : (s.flowChanged).mem = s.mem := rfl
@[simp] theorem State.flowChanged_atcFlushed (s : State) : (s.flowChanged).atcFlushed = s.atcFlushed := rfl
@[simp] theorem State.flowChanged_freeCount (s : State) : (s.flowChanged).freeCount = s.freeCount := rfl

/-! ### `State.recordAct` -/

@[simp] theorem State.recordAct_regs (act : Byte) (c : Nat → Bool) (s : State) : (s.recordAct act c).regs = s.regs := rfl
@[simp] theorem State.recordAct_ctl (act : Byte) (c : Nat → Bool) (s : State) : (s.recordAct act c).ctl = s.ctl := rfl
@[simp] theorem State.recordAct_fp (act : Byte) (c : Nat → Bool) (s : State) : (s.recordAct act c).fp = s.fp := rfl
@[simp] theorem State.recordAct_fpu (act : Byte) (c : Nat → Bool) (s : State) : (s.recordAct act c).fpu = s.fpu := rfl
@[simp] theorem State.recordAct_irq (act : Byte) (c : Nat → Bool) (s : State) : (s.recordAct act c).irq = s.irq := rfl
@[simp] theorem State.recordAct_env (act : Byte) (c : Nat → Bool) (s : State) : (s.recordAct act c).env = s.env := rfl
@[simp] theorem State.recordAct_pc (act : Byte) (c : Nat → Bool) (s : State) : (s.recordAct act c).pc = s.pc := rfl
@[simp] theorem State.recordAct_sr (act : Byte) (c : Nat → Bool) (s : State) : (s.recordAct act c).sr = s.sr := rfl
@[simp] theorem State.recordAct_run (act : Byte) (c : Nat → Bool) (s : State) : (s.recordAct act c).run = s.run := rfl
@[simp] theorem State.recordAct_tracePending (act : Byte) (c : Nat → Bool) (s : State) : (s.recordAct act c).tracePending = s.tracePending := rfl
@[simp] theorem State.recordAct_movemRestart (act : Byte) (c : Nat → Bool) (s : State) : (s.recordAct act c).movemRestart = s.movemRestart := rfl
@[simp] theorem State.recordAct_mem (act : Byte) (c : Nat → Bool) (s : State) : (s.recordAct act c).mem = s.mem := rfl
@[simp] theorem State.recordAct_atcFlushed (act : Byte) (c : Nat → Bool) (s : State) : (s.recordAct act c).atcFlushed = s.atcFlushed := rfl
@[simp] theorem State.recordAct_freeCount (act : Byte) (c : Nat → Bool) (s : State) : (s.recordAct act c).freeCount = s.freeCount := rfl

/-! ### Banks of registers -/

@[simp] theorem Bank.get_set {α : Type} (b : Bank α) (i : RegNo) (v : α) : (b.set i v).get i = v := by
  unfold Bank.get Bank.set
  have h := i.isLt
  generalize i.toNat = n at h ⊢
  match n, h with
  | 0, _ | 1, _ | 2, _ | 3, _ | 4, _ | 5, _ | 6, _ | 7, _ => rfl

theorem Bank.get_set_of_ne {α : Type} (b : Bank α) {i j : RegNo} (h : j ≠ i) (v : α) : (b.set i v).get j = b.get j := by
  have hi := i.isLt
  have hj := j.isLt
  have hne : j.toNat ≠ i.toNat := fun e => h (BitVec.eq_of_toNat_eq e)
  unfold Bank.get Bank.set
  generalize i.toNat = n at hi hne ⊢
  generalize j.toNat = m at hj hne ⊢
  match n, hi with
  | 0, _ | 1, _ | 2, _ | 3, _ | 4, _ | 5, _ | 6, _ | 7, _ =>
    match m, hj with
    | 0, _ | 1, _ | 2, _ | 3, _ | 4, _ | 5, _ | 6, _ | 7, _ => first | rfl | exact absurd rfl hne

@[simp] theorem State.getD_setD (n : RegNo) (v : Long) (s : State) : (s.setD n v).getD n = v := Bank.get_set _ _ _

theorem State.getD_setD_of_ne {n m : RegNo} (h : m ≠ n) (v : Long) (s : State) : (s.setD n v).getD m = s.getD m :=
  Bank.get_set_of_ne _ h _

@[simp] theorem State.getFp_setFp (n : RegNo) (v : FpReal) (s : State) : (s.setFp n v).getFp n = v := Bank.get_set _ _ _

theorem State.getFp_setFp_of_ne {n m : RegNo} (h : m ≠ n) (v : FpReal) (s : State) :
    (s.setFp n v).getFp m = s.getFp m := Bank.get_set_of_ne _ h _

end Sys2Proof.Machine
end

