-- ==== Sys2Proof/Laws/Ops.lean ====
section
/-!
SUPPORT. What each shared operation can do, once: accesses to memory, the instruction monad, taking an exception, the end of an
instruction.
-/
namespace Sys2Proof.Machine

/-! ### The monads of accesses and of instructions -/

/-- The state in which a part of an instruction, or an access, ends, completed or not. -/
def after {ε α : Type} (m : EStateM ε State α) (s : State) : State :=
  match m s with
  | .ok _ t => t
  | .error _ t => t

theorem bind_eq {ε α β : Type} (m : EStateM ε State α) (f : α → EStateM ε State β) (s : State) :
    (m >>= f) s = match m s with | .ok a t => f a t | .error e t => .error e t := by
  show EStateM.bind m f s = _
  unfold EStateM.bind
  cases m s <;> rfl

@[simp] theorem pure_eq {ε α : Type} (a : α) (s : State) : (pure a : EStateM ε State α) s = .ok a s := rfl
@[simp] theorem busFetch_eq {α : Type} (f : State → α) (s : State) : busFetch f s = .ok (f s) s := rfl
@[simp] theorem busUpdate_eq (f : State → State) (s : State) : busUpdate f s = .ok () (f s) := rfl
@[simp] theorem update_eq (f : State → State) (s : State) : update f s = .ok () (f s) := rfl
@[simp] theorem fetch_eq {α : Type} (f : State → α) (s : State) : fetch f s = .ok (f s) s := rfl
@[simp] theorem raise_eq {α : Type} (e : Exc) (s : State) : (raise e : M α) s = .error (.exc e) s := rfl
@[simp] theorem refuse_eq {α : Type} (r : Refusal) (s : State) : (refuse r : M α) s = .error (.refused r) s := rfl
@[simp] theorem draw_eq {α : Type} (f : Nat → α) (s : State) :
    draw f s = .ok (f s.freeCount) { s with freeCount := s.freeCount + 1 } := rfl

/-- An access as part of an instruction: its value, or its fault. -/
theorem access_eq {α : Type} (m : BusM α) (s : State) :
    access m s = match m s with | .ok a t => .ok a t | .error f t => .error (.access f) t := rfl

/-- A sequence that completes: its first part completed, then its second. -/
theorem bind_ok {ε α β : Type} {m : EStateM ε State α} {f : α → EStateM ε State β} {s t : State} {b : β} :
    (m >>= f) s = .ok b t ↔ ∃ a u, m s = .ok a u ∧ f a u = .ok b t := by
  rw [bind_eq]
  cases h : m s <;> simp

/-- A relation that holds from a state to itself and passes on. -/
structure Relates (R : State → State → Prop) : Prop where
  refl : ∀ s, R s s
  trans : ∀ s t u, R s t → R t u → R s u

/-- A part of an instruction goes from a state only to states that the relation allows, completed or not. -/
def Through (R : State → State → Prop) {ε α : Type} (m : EStateM ε State α) : Prop := ∀ s, R s (after m s)

section through
variable {R : State → State → Prop} {ε α β : Type}

theorem through_pure (h : Relates R) (a : α) : Through R (pure a : EStateM ε State α) := fun s => h.refl s

theorem through_bind (h : Relates R) {m : EStateM ε State α} {f : α → EStateM ε State β} (hm : Through R m) (hf : ∀ a, Through R (f a)) :
    Through R (m >>= f) := by
  intro s
  have h1 := hm s
  unfold after at h1 ⊢
  rw [bind_eq]
  cases e : m s with
  | ok a t =>
    rw [e] at h1
    exact h.trans _ _ _ h1 (hf a t)
  | error a t =>
    rw [e] at h1
    exact h1

theorem through_busFetch (h : Relates R) (f : State → α) : Through R (busFetch f) := fun s => h.refl s

theorem through_busUpdate (f : State → State) (hf : ∀ s, R s (f s)) : Through R (busUpdate f) := hf

theorem through_update (f : State → State) (hf : ∀ s, R s (f s)) : Through R (update f) := hf

theorem through_fetch (h : Relates R) (f : State → α) : Through R (fetch f) := fun s => h.refl s

theorem through_raise (h : Relates R) (e : Exc) : Through R (raise e : M α) := fun s => h.refl s

theorem through_refuse (h : Relates R) (r : Refusal) : Through R (refuse r : M α) := fun s => h.refl s

theorem through_ite {c : Prop} [Decidable c] {m m' : EStateM ε State α} (h : Through R m) (h' : Through R m') :
    Through R (if c then m else m') := by
  split
  · exact h
  · exact h'

end through

/-! ### Accesses to memory -/

/-- A relation that bus transfers respect: the moves of other masters, the counter of free values. -/
structure Buses (R : State → State → Prop) : Prop extends Relates R where
  bus : ∀ (s : State) (locked : Bool), R s (s.busMove locked)
  count : ∀ (s : State) (n : Nat), R s { s with freeCount := n }

/-- A relation that every operation of an operand respects: also stores and the general registers. -/
structure Operates (R : State → State → Prop) : Prop extends Buses R where
  write : ∀ (s : State) (ws : List (Long × Byte)), R s (s.writeBytes ws)
  setD : ∀ (s : State) (n : RegNo) (v : Long), R s (s.setD n v)
  setA : ∀ (s : State) (n : RegNo) (v : Long), R s (s.setA n v)

/-- Translation changes nothing, but that a free answer is drawn. -/
theorem translate_snd (s : State) (acc : Access) (a : Long) :
    (s.translate acc a).2 = s ∨ (s.translate acc a).2 = { s with freeCount := s.freeCount + 1 } := by
  unfold State.translate
  split
  · exact .inl rfl
  · split
    · exact .inr rfl
    · exact .inl rfl

/-- A transfer ends in the state that translation leaves, whether it faults or not. -/
theorem after_transfer (acc : Access) (off n : Nat) (s : State) :
    after (transfer acc off n) s = ((s.busMove acc.locked).translate acc (acc.addr + BitVec.ofNat 32 off)).2 := by
  unfold after transfer
  dsimp only
  split <;> rename_i h <;> split at h <;> try split at h
  all_goals cases h
  all_goals rfl

/-- An access of an instruction goes where the access goes. -/
theorem through_access {R : State → State → Prop} {α : Type} {m : BusM α} (hm : Through R m) : Through R (access m) := fun s => by
  have := hm s
  unfold after at this ⊢
  rw [access_eq]
  cases e : m s <;> rw [e] at this <;> exact this

section buses
variable {R : State → State → Prop} (h : Buses R)
include h

theorem through_transfer (acc : Access) (off n : Nat) : Through R (transfer acc off n) := fun s => by
  rw [after_transfer]
  rcases translate_snd (s.busMove acc.locked) acc (acc.addr + BitVec.ofNat 32 off) with e | e <;> rw [e]
  · exact h.bus s _
  · exact h.trans _ _ _ (h.bus s _) (h.count _ _)

theorem through_overTransfers {α : Type} (acc : Access) {act : Nat → List Long → BusM (List α)}
    (ha : ∀ off as, Through R (act off as)) (ts : List (Nat × Nat)) : Through R (overTransfers acc act ts) := by
  induction ts with
  | nil => exact through_pure h.toRelates _
  | cons t ts ih =>
    exact through_bind h.toRelates (through_transfer h _ _ _) fun _ => through_bind h.toRelates (ha _ _) fun _ =>
      through_bind h.toRelates ih fun _ => through_pure h.toRelates _

theorem through_route (acc : Access) : Through R (route acc) :=
  through_overTransfers h acc (fun _ _ => through_pure h.toRelates _) _

theorem through_loadBytes (acc : Access) : Through R (loadBytes acc) :=
  through_overTransfers h acc (fun _ _ => through_busFetch h.toRelates _) _

theorem through_load (acc : Access) : Through R (load acc) :=
  through_bind h.toRelates (through_loadBytes h acc) fun _ => through_pure h.toRelates _

theorem through_draw {α : Type} (f : Nat → α) : Through R (draw f) := fun s => h.count s _

theorem through_memRead (acc : Access) : Through R (memRead acc) := through_access (through_load h acc)

theorem through_memReadBytes (acc : Access) : Through R (memReadBytes acc) := through_access (through_loadBytes h acc)

theorem through_lockBus : Through R lockBus := fun s => h.bus s _

end buses

/-- What a fault says of the write-back slots leaves the state alone. -/
theorem after_withWriteBack {α : Type} (acc : Access) (bs : List Byte) (m : BusM α) (s : State) :
    after (withWriteBack acc bs m) s = after m s := by
  unfold after withWriteBack
  cases m s <;> simp only

section operates
variable {R : State → State → Prop} (h : Operates R)
include h

theorem through_storeBytes (acc : Access) (bs : List Byte) : Through R (storeBytes acc bs) := fun s => by
  unfold storeBytes
  rw [after_withWriteBack]
  exact through_bind h.toRelates (through_overTransfers h.toBuses acc (fun off as =>
      through_bind h.toRelates (through_busUpdate _ fun s => h.write s _) fun _ => through_pure h.toRelates _) _)
    (fun _ => through_pure h.toRelates _) s

theorem through_store (acc : Access) (v : Long) : Through R (store acc v) := through_storeBytes h _ _

theorem through_memWrite (acc : Access) (v : Long) : Through R (memWrite acc v) :=
  through_access (through_store h acc v)

theorem through_memWriteBytes (acc : Access) (bs : List Byte) : Through R (memWriteBytes acc bs) :=
  through_access (through_storeBytes h acc bs)

theorem through_readData (a : Long) (sz : Size) : Through R (readData a sz) :=
  through_bind h.toRelates (through_fetch h.toRelates _) fun _ => through_memRead h.toBuses _

theorem through_writeData (a : Long) (sz : Size) (v : Long) : Through R (writeData a sz v) :=
  through_bind h.toRelates (through_fetch h.toRelates _) fun _ => through_memWrite h _ _

theorem through_readLocked (a : Long) (sz : Size) : Through R (readLocked a sz) :=
  through_bind h.toRelates (through_fetch h.toRelates _) fun _ => through_memRead h.toBuses _

theorem through_writeLocked (a : Long) (sz : Size) (v : Long) : Through R (writeLocked a sz v) :=
  through_bind h.toRelates (through_fetch h.toRelates _) fun _ => through_memWrite h _ _

theorem through_readLongs (a : Long) (n : Nat) : Through R (readLongs a n) := by
  induction n generalizing a with
  | zero => exact through_pure h.toRelates _
  | succ n ih =>
    exact through_bind h.toRelates (through_readData h _ _) fun _ =>
      through_bind h.toRelates (ih _) fun _ => through_pure h.toRelates _

theorem through_writeLongs (a : Long) (vs : List Long) : Through R (writeLongs a vs) := by
  induction vs generalizing a with
  | nil => exact through_pure h.toRelates _
  | cons v vs ih => exact through_bind h.toRelates (through_writeData h _ _ _) fun _ => ih _

theorem through_indexAddr (base : Long) (x : IndexExt) : Through R (indexAddr base x) := by
  cases x with
  | brief i d8 => exact through_bind h.toRelates (through_fetch h.toRelates _) fun _ => through_pure h.toRelates _
  | full i bs is bd ind =>
    unfold indexAddr
    dsimp only
    split <;>
    · refine through_bind h.toRelates (by first | exact through_pure h.toRelates _ | exact through_fetch h.toRelates _)
        fun iv => ?_
      cases ind with
      | no => exact through_pure h.toRelates _
      | pre od => exact through_bind h.toRelates (through_readData h _ _) fun _ => through_pure h.toRelates _
      | post od => exact through_bind h.toRelates (through_readData h _ _) fun _ => through_pure h.toRelates _

theorem through_locate (ea : Ea) (n : Nat) (ext : Long) : Through R (locate ea n ext) := by
  cases ea with
  | dn _ | an _ | absW _ | absL _ | pcDisp _ | imm _ => exact through_pure h.toRelates _
  | ind _ | postInc _ | preDec _ | disp _ _ =>
    exact through_bind h.toRelates (through_fetch h.toRelates _) fun _ => through_pure h.toRelates _
  | index _ _ =>
    exact through_bind h.toRelates (through_fetch h.toRelates _) fun _ =>
      through_bind h.toRelates (through_indexAddr h _ _) fun _ => through_pure h.toRelates _
  | pcIndex _ => exact through_bind h.toRelates (through_indexAddr h _ _) fun _ => through_pure h.toRelates _

theorem through_commit (l : Located) : Through R (commit l) := by
  unfold commit
  split
  · exact through_pure h.toRelates _
  · exact through_update _ fun s => h.setA s _ _

theorem through_readPlace (sz : Size) (p : Place) : Through R (readPlace sz p) := by
  cases p with
  | d _ | a _ => exact through_fetch h.toRelates _
  | mem _ => exact through_readData h _ _
  | imm _ => exact through_pure h.toRelates _

theorem through_writePlace (sz : Size) (p : Place) (v : Long) : Through R (writePlace sz p v) := by
  cases p with
  | d _ => exact through_update _ fun s => h.setD s _ _
  | a _ => exact through_update _ fun s => h.setA s _ _
  | mem _ => exact through_writeData h _ _ _
  | imm _ => exact through_pure h.toRelates _

theorem through_readOperand (ea : Ea) (sz : Size) (ext : Long) : Through R (readOperand ea sz ext) :=
  through_bind h.toRelates (through_locate h _ _ _) fun _ =>
    through_bind h.toRelates (through_readPlace h _ _) fun _ =>
      through_bind h.toRelates (through_commit h _) fun _ => through_pure h.toRelates _

theorem through_writeOperand (ea : Ea) (sz : Size) (ext v : Long) : Through R (writeOperand ea sz ext v) :=
  through_bind h.toRelates (through_locate h _ _ _) fun _ =>
    through_bind h.toRelates (through_writePlace h _ _ _) fun _ => through_commit h _

end operates

/-! ### Taking an exception -/

section entry
variable {R : State → State → Prop} (h : Buses R)
include h

theorem through_planFrame (a : Long) (fs : FrameFields) : Through R (planFrame a fs) := by
  induction fs generalizing a with
  | nil => exact through_pure h.toRelates _
  | cons f fs ih =>
    refine through_bind h.toRelates (fun s => ?_) fun _ =>
      through_bind h.toRelates (ih _) fun _ => through_pure h.toRelates _
    rw [after_withWriteBack]
    exact through_route h _ s

theorem through_planFrames (fs : List Frame) : Through R (planFrames fs) := by
  induction fs with
  | nil => exact through_pure h.toRelates _
  | cons f fs ih =>
    exact through_bind h.toRelates (through_planFrame h _ _) fun _ =>
      through_bind h.toRelates ih fun _ => through_pure h.toRelates _

/-- Before its frames are written exception processing makes bus transfers, and nothing else. -/
theorem through_planEntry (frames : List Frame) (vector : Byte) : Through R (planEntry frames vector) :=
  through_bind h.toRelates (through_planFrames h _) fun _ => through_bind h.toRelates (through_busFetch h.toRelates _) fun _ =>
    through_bind h.toRelates (through_route h _) fun _ => through_pure h.toRelates _

end entry

/-- Exception processing whose accesses have not faulted: the entry it planned, made in the state then. -/
theorem attempt_ok {s u t : State} {frames : List Frame} {vector : Byte} (h : s.attempt frames vector = .ok (u, t)) :
    ∃ e, planEntry frames vector s = .ok e t ∧ u = t.enter frames e := by
  unfold State.attempt at h
  cases e : planEntry frames vector s with
  | error f t' => rw [e] at h; simp at h
  | ok x t' =>
    rw [e] at h
    simp only [Except.ok.injEq, Prod.mk.injEq] at h
    obtain ⟨rfl, rfl⟩ := h
    exact ⟨x, rfl, rfl⟩

/-- Exception processing one of whose accesses has faulted: the fault, and the state then. -/
theorem attempt_error {s t : State} {f : AccessFault} {frames : List Frame} {vector : Byte}
    (h : s.attempt frames vector = .error (f, t)) : planEntry frames vector s = .error f t := by
  unfold State.attempt at h
  cases e : planEntry frames vector s with
  | error f' t' =>
    rw [e] at h
    simp only [Except.error.injEq, Prod.mk.injEq] at h
    rw [h.1, h.2]
  | ok x t' => rw [e] at h; simp at h

/-- The end of an instruction that goes on: program counter and trace, and after an SR manipulation the change of flow. -/
theorem complete_of_not_jump (s : State) (ia next : Long) (sr0 : Word) (regs0 : Regs) {f : Flow} (hf : ∀ t, f ≠ .jump t) :
    s.complete ia next sr0 regs0 f =
      (if f = .seq then id else State.flowChanged) { s with pc := next, tracePending := traceApplies sr0 f } := by
  cases f with
  | jump t => exact absurd rfl (hf t)
  | seq | srChange => rfl

/-- An instruction with a next state: its body completed, or it raised an exception, or it met an access fault. -/
theorem runInstr_next {n : Nat} {body : Long → M Flow} {s t : State} (h : runInstr n body s = .next t) :
    (∃ f u, body (s.pc + BitVec.ofNat 32 (2 * n)) s = .ok f u ∧
        t = u.complete s.pc (s.pc + BitVec.ofNat 32 (2 * n)) s.sr s.regs f) ∨
      (∃ e u, body (s.pc + BitVec.ofNat 32 (2 * n)) s = .error (.exc e) u ∧ t = u.takeException s.pc s.regs e) ∨
      ∃ f u, body (s.pc + BitVec.ofNat 32 (2 * n)) s = .error (.access f) u ∧ t = u.takeAccessFault u.sr s.pc f := by
  unfold runInstr at h
  cases e : body (s.pc + BitVec.ofNat 32 (2 * n)) s with
  | ok f u => simp only [e, Host.Outcome.next.injEq] at h; exact .inl ⟨f, u, rfl, h.symm⟩
  | error a u =>
    cases a with
    | exc x => simp only [e, State.aborted, Host.Outcome.next.injEq] at h; exact .inr (.inl ⟨x, u, rfl, h.symm⟩)
    | access f => simp only [e, State.aborted, Host.Outcome.next.injEq] at h; exact .inr (.inr ⟨f, u, rfl, h.symm⟩)
    | refused r => simp [e, State.aborted] at h
    | fault r => simp [e, State.aborted] at h

end Sys2Proof.Machine
end

