-- ==== Sys2Proof/Laws/PerInstr.lean ====
section
/-!
SUPPORT. Facts about every instruction as syntax, one lemma per constructor: an instruction has 1 to 11 words (30_encoding.md
R127).
-/
/-! One thread is enough: the lemmas are many and short. -/
set_option Elab.async false

namespace Sys2Proof.Laws

theorem dispWords_length (d : Disp) : (dispWords d).length ≤ 2 := by
  cases d <;> simp [dispWords, longWords]

theorem indWords_length (i : Indirect) : (indWords i).length ≤ 2 := by
  cases i <;> simp [indWords, dispWords_length]

theorem indexWords_length (x : IndexExt) : (indexWords x).length ≤ 5 := by
  cases x with
  | brief x d => simp [indexWords]
  | full x b s bd ind =>
    have h1 := dispWords_length bd
    have h2 := indWords_length ind
    simp only [indexWords, List.length_cons, List.length_append]
    omega

/-- The extension words of an effective address that a class accepts. -/
theorem eaWords_length {c : EaClass} {n : Nat} {ea : Ea} (h : ea.wf c n = true) : (eaWords ea).length ≤ max 5 n := by
  cases ea with
  | index r x => have := indexWords_length x; simp only [eaWords]; omega
  | pcIndex x => have := indexWords_length x; simp only [eaWords]; omega
  | imm ws =>
    simp only [Ea.wf, Bool.and_eq_true, beq_iff_eq] at h
    simp only [eaWords, h.2]
    omega
  | _ => simp [eaWords, longWords]

/-- The words of a floating-point instruction with a source. -/
theorem encodeGeneral_length (cmd : BitVec 7) {src : FpSrc} (dst : RegNo) (h : src.wf = true) :
    1 ≤ (encodeGeneral cmd src dst).length ∧ (encodeGeneral cmd src dst).length ≤ maxWords := by
  cases src with
  | reg m => simp [encodeGeneral, maxWords]
  | ea fmt e =>
    have := eaWords_length h
    have h6 : fmtImmWords fmt ≤ 6 := by cases fmt <;> decide
    simp only [encodeGeneral, List.length_cons, maxWords]
    omega

namespace Length

/-- A well-formed instruction has 1 to 11 words (R127). -/
def Statement (i : Instr) : Prop := i.wf = true → 1 ≤ (encode i).length ∧ (encode i).length ≤ maxWords

theorem trap (n : BitVec 4) : Statement (.trap n) := fun _ => ⟨Nat.le_of_ble_eq_true rfl, Nat.le_of_ble_eq_true rfl⟩

theorem trapccW (cc : BitVec 4) (d : Word) : Statement (.trapccW cc d) :=
  fun _ => ⟨Nat.le_of_ble_eq_true rfl, Nat.le_of_ble_eq_true rfl⟩

theorem trapccL (cc : BitVec 4) (d : Long) : Statement (.trapccL cc d) :=
  fun _ => ⟨Nat.le_of_ble_eq_true rfl, Nat.le_of_ble_eq_true rfl⟩

theorem trapcc (cc : BitVec 4) : Statement (.trapcc cc) :=
  fun _ => ⟨Nat.le_of_ble_eq_true rfl, Nat.le_of_ble_eq_true rfl⟩

theorem trapv : Statement (.trapv) := fun _ => ⟨Nat.le_of_ble_eq_true rfl, Nat.le_of_ble_eq_true rfl⟩

theorem chkW (ea : Ea) (dn : RegNo) : Statement (.chkW ea dn) := fun h => by
  have h1 := eaWords_length (n := 1) h
  simp only [encode, List.length_cons, maxWords]
  omega

theorem chkL (ea : Ea) (dn : RegNo) : Statement (.chkL ea dn) := fun h => by
  have h1 := eaWords_length (n := 2) h
  simp only [encode, List.length_cons, maxWords]
  omega

theorem chk2 (sz : Size) (ea : Ea) (rn : Reg) : Statement (.chk2 sz ea rn) := fun h => by
  have h1 := eaWords_length (n := 0) h
  simp only [encode, List.length_cons, maxWords]
  omega

theorem divuW (ea : Ea) (dn : RegNo) : Statement (.divuW ea dn) := fun h => by
  have h1 := eaWords_length (n := 1) h
  simp only [encode, List.length_cons, maxWords]
  omega

theorem divsW (ea : Ea) (dn : RegNo) : Statement (.divsW ea dn) := fun h => by
  have h1 := eaWords_length (n := 1) h
  simp only [encode, List.length_cons, maxWords]
  omega

theorem divuL (ea : Ea) (dq dr : RegNo) : Statement (.divuL ea dq dr) := fun h => by
  have h1 := eaWords_length (n := 2) h
  simp only [encode, List.length_cons, maxWords]
  omega

theorem divuL64 (ea : Ea) (dq dr : RegNo) : Statement (.divuL64 ea dq dr) := fun h => by
  have h1 := eaWords_length (n := 2) h
  simp only [encode, List.length_cons, maxWords]
  omega

theorem divsL (ea : Ea) (dq dr : RegNo) : Statement (.divsL ea dq dr) := fun h => by
  have h1 := eaWords_length (n := 2) h
  simp only [encode, List.length_cons, maxWords]
  omega

theorem divsL64 (ea : Ea) (dq dr : RegNo) : Statement (.divsL64 ea dq dr) := fun h => by
  have h1 := eaWords_length (n := 2) h
  simp only [encode, List.length_cons, maxWords]
  omega

theorem bkpt (n : RegNo) : Statement (.bkpt n) := fun _ => ⟨Nat.le_of_ble_eq_true rfl, Nat.le_of_ble_eq_true rfl⟩

theorem illegal : Statement (.illegal) := fun _ => ⟨Nat.le_of_ble_eq_true rfl, Nat.le_of_ble_eq_true rfl⟩

theorem aLine (w : BitVec 12) : Statement (.aLine w) := fun _ => ⟨Nat.le_of_ble_eq_true rfl, Nat.le_of_ble_eq_true rfl⟩

theorem fLine (w : BitVec 12) : Statement (.fLine w) := fun _ => ⟨Nat.le_of_ble_eq_true rfl, Nat.le_of_ble_eq_true rfl⟩

theorem rte : Statement (.rte) := fun _ => ⟨Nat.le_of_ble_eq_true rfl, Nat.le_of_ble_eq_true rfl⟩

theorem stop (imm : Word) : Statement (.stop imm) := fun _ => ⟨Nat.le_of_ble_eq_true rfl, Nat.le_of_ble_eq_true rfl⟩

theorem reset : Statement (.reset) := fun _ => ⟨Nat.le_of_ble_eq_true rfl, Nat.le_of_ble_eq_true rfl⟩

theorem nop : Statement (.nop) := fun _ => ⟨Nat.le_of_ble_eq_true rfl, Nat.le_of_ble_eq_true rfl⟩

theorem oriSr (imm : Word) : Statement (.oriSr imm) := fun _ => ⟨Nat.le_of_ble_eq_true rfl, Nat.le_of_ble_eq_true rfl⟩

theorem andiSr (imm : Word) : Statement (.andiSr imm) := fun _ => ⟨Nat.le_of_ble_eq_true rfl, Nat.le_of_ble_eq_true rfl⟩

theorem eoriSr (imm : Word) : Statement (.eoriSr imm) := fun _ => ⟨Nat.le_of_ble_eq_true rfl, Nat.le_of_ble_eq_true rfl⟩

theorem moveToSr (ea : Ea) : Statement (.moveToSr ea) := fun h => by
  have h1 := eaWords_length (n := 1) h
  simp only [encode, List.length_cons, maxWords]
  omega

theorem moveFromSr (ea : Ea) : Statement (.moveFromSr ea) := fun h => by
  have h1 := eaWords_length (n := 0) h
  simp only [encode, List.length_cons, maxWords]
  omega

theorem moveToUsp (an : RegNo) : Statement (.moveToUsp an) :=
  fun _ => ⟨Nat.le_of_ble_eq_true rfl, Nat.le_of_ble_eq_true rfl⟩

theorem moveFromUsp (an : RegNo) : Statement (.moveFromUsp an) :=
  fun _ => ⟨Nat.le_of_ble_eq_true rfl, Nat.le_of_ble_eq_true rfl⟩

theorem movecFrom (rc : BitVec 12) (rn : Reg) : Statement (.movecFrom rc rn) :=
  fun _ => ⟨Nat.le_of_ble_eq_true rfl, Nat.le_of_ble_eq_true rfl⟩

theorem movecTo (rc : BitVec 12) (rn : Reg) : Statement (.movecTo rc rn) :=
  fun _ => ⟨Nat.le_of_ble_eq_true rfl, Nat.le_of_ble_eq_true rfl⟩

theorem movesLoad (sz : Size) (ea : Ea) (rn : Reg) : Statement (.movesLoad sz ea rn) := fun h => by
  have h1 := eaWords_length (n := 0) h
  simp only [encode, List.length_cons, maxWords]
  omega

theorem movesStore (sz : Size) (rn : Reg) (ea : Ea) : Statement (.movesStore sz rn ea) := fun h => by
  have h1 := eaWords_length (n := 0) h
  simp only [encode, List.length_cons, maxWords]
  omega

theorem cinv (caches scope : BitVec 2) (an : RegNo) : Statement (.cinv caches scope an) :=
  fun _ => ⟨Nat.le_of_ble_eq_true rfl, Nat.le_of_ble_eq_true rfl⟩

theorem cpush (caches scope : BitVec 2) (an : RegNo) : Statement (.cpush caches scope an) :=
  fun _ => ⟨Nat.le_of_ble_eq_true rfl, Nat.le_of_ble_eq_true rfl⟩

theorem pflush (op : BitVec 2) (an : RegNo) : Statement (.pflush op an) :=
  fun _ => ⟨Nat.le_of_ble_eq_true rfl, Nat.le_of_ble_eq_true rfl⟩

theorem ptest (read : Bool) (an : RegNo) : Statement (.ptest read an) :=
  fun _ => ⟨Nat.le_of_ble_eq_true rfl, Nat.le_of_ble_eq_true rfl⟩

theorem movemStore (long : Bool) (mask : Word) (ea : Ea) : Statement (.movemStore long mask ea) := fun h => by
  have h1 := eaWords_length (n := 0) h
  simp only [encode, List.length_cons, maxWords]
  omega

theorem movemLoad (long : Bool) (mask : Word) (ea : Ea) : Statement (.movemLoad long mask ea) := fun h => by
  have h1 := eaWords_length (n := 0) h
  simp only [encode, List.length_cons, maxWords]
  omega

theorem move16PostPost (ax ay : RegNo) : Statement (.move16PostPost ax ay) :=
  fun _ => ⟨Nat.le_of_ble_eq_true rfl, Nat.le_of_ble_eq_true rfl⟩

theorem move16PostAbs (ay : RegNo) (addr : Long) : Statement (.move16PostAbs ay addr) :=
  fun _ => ⟨Nat.le_of_ble_eq_true rfl, Nat.le_of_ble_eq_true rfl⟩

theorem move16AbsPost (addr : Long) (ay : RegNo) : Statement (.move16AbsPost addr ay) :=
  fun _ => ⟨Nat.le_of_ble_eq_true rfl, Nat.le_of_ble_eq_true rfl⟩

theorem move16IndAbs (ay : RegNo) (addr : Long) : Statement (.move16IndAbs ay addr) :=
  fun _ => ⟨Nat.le_of_ble_eq_true rfl, Nat.le_of_ble_eq_true rfl⟩

theorem move16AbsInd (addr : Long) (ay : RegNo) : Statement (.move16AbsInd addr ay) :=
  fun _ => ⟨Nat.le_of_ble_eq_true rfl, Nat.le_of_ble_eq_true rfl⟩

theorem tas (ea : Ea) : Statement (.tas ea) := fun h => by
  have h1 := eaWords_length (n := 0) h
  simp only [encode, List.length_cons, maxWords]
  omega

theorem cas (sz : Size) (dc du : RegNo) (ea : Ea) : Statement (.cas sz dc du ea) := fun h => by
  have h1 := eaWords_length (n := 0) h
  simp only [encode, List.length_cons, maxWords]
  omega

theorem cas2 (long : Bool) (rn1 : Reg) (dc1 du1 : RegNo) (rn2 : Reg) (dc2 du2 : RegNo) :
    Statement (.cas2 long rn1 dc1 du1 rn2 dc2 du2) :=
  fun _ => ⟨Nat.le_of_ble_eq_true rfl, Nat.le_of_ble_eq_true rfl⟩

theorem fmove (src : FpSrc) (dst : RegNo) : Statement (.fmove src dst) := fun h => encodeGeneral_length _ _ h

theorem fsmove (src : FpSrc) (dst : RegNo) : Statement (.fsmove src dst) := fun h => encodeGeneral_length _ _ h

theorem fdmove (src : FpSrc) (dst : RegNo) : Statement (.fdmove src dst) := fun h => encodeGeneral_length _ _ h

theorem fabs (src : FpSrc) (dst : RegNo) : Statement (.fabs src dst) := fun h => encodeGeneral_length _ _ h

theorem fsabs (src : FpSrc) (dst : RegNo) : Statement (.fsabs src dst) := fun h => encodeGeneral_length _ _ h

theorem fdabs (src : FpSrc) (dst : RegNo) : Statement (.fdabs src dst) := fun h => encodeGeneral_length _ _ h

theorem fneg (src : FpSrc) (dst : RegNo) : Statement (.fneg src dst) := fun h => encodeGeneral_length _ _ h

theorem fsneg (src : FpSrc) (dst : RegNo) : Statement (.fsneg src dst) := fun h => encodeGeneral_length _ _ h

theorem fdneg (src : FpSrc) (dst : RegNo) : Statement (.fdneg src dst) := fun h => encodeGeneral_length _ _ h

theorem fsqrt (src : FpSrc) (dst : RegNo) : Statement (.fsqrt src dst) := fun h => encodeGeneral_length _ _ h

theorem fssqrt (src : FpSrc) (dst : RegNo) : Statement (.fssqrt src dst) := fun h => encodeGeneral_length _ _ h

theorem fdsqrt (src : FpSrc) (dst : RegNo) : Statement (.fdsqrt src dst) := fun h => encodeGeneral_length _ _ h

theorem fadd (src : FpSrc) (dst : RegNo) : Statement (.fadd src dst) := fun h => encodeGeneral_length _ _ h

theorem fsadd (src : FpSrc) (dst : RegNo) : Statement (.fsadd src dst) := fun h => encodeGeneral_length _ _ h

theorem fdadd (src : FpSrc) (dst : RegNo) : Statement (.fdadd src dst) := fun h => encodeGeneral_length _ _ h

theorem fsub (src : FpSrc) (dst : RegNo) : Statement (.fsub src dst) := fun h => encodeGeneral_length _ _ h

theorem fssub (src : FpSrc) (dst : RegNo) : Statement (.fssub src dst) := fun h => encodeGeneral_length _ _ h

theorem fdsub (src : FpSrc) (dst : RegNo) : Statement (.fdsub src dst) := fun h => encodeGeneral_length _ _ h

theorem fmul (src : FpSrc) (dst : RegNo) : Statement (.fmul src dst) := fun h => encodeGeneral_length _ _ h

theorem fsmul (src : FpSrc) (dst : RegNo) : Statement (.fsmul src dst) := fun h => encodeGeneral_length _ _ h

theorem fdmul (src : FpSrc) (dst : RegNo) : Statement (.fdmul src dst) := fun h => encodeGeneral_length _ _ h

theorem fdiv (src : FpSrc) (dst : RegNo) : Statement (.fdiv src dst) := fun h => encodeGeneral_length _ _ h

theorem fsdiv (src : FpSrc) (dst : RegNo) : Statement (.fsdiv src dst) := fun h => encodeGeneral_length _ _ h

theorem fddiv (src : FpSrc) (dst : RegNo) : Statement (.fddiv src dst) := fun h => encodeGeneral_length _ _ h

theorem fcmp (src : FpSrc) (dst : RegNo) : Statement (.fcmp src dst) := fun h => encodeGeneral_length _ _ h

theorem ftst (src : FpSrc) (dst : RegNo) : Statement (.ftst src dst) := fun h => encodeGeneral_length _ _ h

theorem fint (src : FpSrc) (dst : RegNo) : Statement (.fint src dst) := fun h => encodeGeneral_length _ _ h

theorem fsinh (src : FpSrc) (dst : RegNo) : Statement (.fsinh src dst) := fun h => encodeGeneral_length _ _ h

theorem fintrz (src : FpSrc) (dst : RegNo) : Statement (.fintrz src dst) := fun h => encodeGeneral_length _ _ h

theorem flognp1 (src : FpSrc) (dst : RegNo) : Statement (.flognp1 src dst) := fun h => encodeGeneral_length _ _ h

theorem fetoxm1 (src : FpSrc) (dst : RegNo) : Statement (.fetoxm1 src dst) := fun h => encodeGeneral_length _ _ h

theorem ftanh (src : FpSrc) (dst : RegNo) : Statement (.ftanh src dst) := fun h => encodeGeneral_length _ _ h

theorem fatan (src : FpSrc) (dst : RegNo) : Statement (.fatan src dst) := fun h => encodeGeneral_length _ _ h

theorem fasin (src : FpSrc) (dst : RegNo) : Statement (.fasin src dst) := fun h => encodeGeneral_length _ _ h

theorem fatanh (src : FpSrc) (dst : RegNo) : Statement (.fatanh src dst) := fun h => encodeGeneral_length _ _ h

theorem fsin (src : FpSrc) (dst : RegNo) : Statement (.fsin src dst) := fun h => encodeGeneral_length _ _ h

theorem ftan (src : FpSrc) (dst : RegNo) : Statement (.ftan src dst) := fun h => encodeGeneral_length _ _ h

theorem fetox (src : FpSrc) (dst : RegNo) : Statement (.fetox src dst) := fun h => encodeGeneral_length _ _ h

theorem ftwotox (src : FpSrc) (dst : RegNo) : Statement (.ftwotox src dst) := fun h => encodeGeneral_length _ _ h

theorem ftentox (src : FpSrc) (dst : RegNo) : Statement (.ftentox src dst) := fun h => encodeGeneral_length _ _ h

theorem flogn (src : FpSrc) (dst : RegNo) : Statement (.flogn src dst) := fun h => encodeGeneral_length _ _ h

theorem flog10 (src : FpSrc) (dst : RegNo) : Statement (.flog10 src dst) := fun h => encodeGeneral_length _ _ h

theorem flog2 (src : FpSrc) (dst : RegNo) : Statement (.flog2 src dst) := fun h => encodeGeneral_length _ _ h

theorem fcosh (src : FpSrc) (dst : RegNo) : Statement (.fcosh src dst) := fun h => encodeGeneral_length _ _ h

theorem facos (src : FpSrc) (dst : RegNo) : Statement (.facos src dst) := fun h => encodeGeneral_length _ _ h

theorem fcos (src : FpSrc) (dst : RegNo) : Statement (.fcos src dst) := fun h => encodeGeneral_length _ _ h

theorem fgetexp (src : FpSrc) (dst : RegNo) : Statement (.fgetexp src dst) := fun h => encodeGeneral_length _ _ h

theorem fgetman (src : FpSrc) (dst : RegNo) : Statement (.fgetman src dst) := fun h => encodeGeneral_length _ _ h

theorem fmod (src : FpSrc) (dst : RegNo) : Statement (.fmod src dst) := fun h => encodeGeneral_length _ _ h

theorem fsgldiv (src : FpSrc) (dst : RegNo) : Statement (.fsgldiv src dst) := fun h => encodeGeneral_length _ _ h

theorem frem (src : FpSrc) (dst : RegNo) : Statement (.frem src dst) := fun h => encodeGeneral_length _ _ h

theorem fscale (src : FpSrc) (dst : RegNo) : Statement (.fscale src dst) := fun h => encodeGeneral_length _ _ h

theorem fsglmul (src : FpSrc) (dst : RegNo) : Statement (.fsglmul src dst) := fun h => encodeGeneral_length _ _ h

theorem fsincos (src : FpSrc) (dst fpc : RegNo) : Statement (.fsincos src dst fpc) := fun h => encodeGeneral_length _ _ h

theorem fmovecr (ofs : BitVec 7) (dst : RegNo) : Statement (.fmovecr ofs dst) :=
  fun _ => ⟨Nat.le_of_ble_eq_true rfl, Nat.le_of_ble_eq_true rfl⟩

theorem fmoveOut (fmt : FpOutFmt) (src : RegNo) (k : BitVec 7) (ea : Ea) : Statement (.fmoveOut fmt src k ea) := fun h => by
  have h1 := eaWords_length (n := 0) h
  simp only [encode, List.length_cons, maxWords]
  omega

theorem fmoveToCr (sel : BitVec 3) (ea : Ea) : Statement (.fmoveToCr sel ea) := fun h => by
  have h1 := eaWords_length (n := 2 * selCount sel) h
  have h2 : selCount sel ≤ 3 := (by decide : ∀ v : BitVec 3, selCount v ≤ 3) sel
  simp only [encode, List.length_cons, maxWords]
  omega

theorem fmoveFromCr (sel : BitVec 3) (ea : Ea) : Statement (.fmoveFromCr sel ea) := fun h => by
  have h1 := eaWords_length (n := 0) h
  simp only [encode, List.length_cons, maxWords]
  omega

theorem fmovemLoad (ctl dyn : Bool) (list : Byte) (ea : Ea) : Statement (.fmovemLoad ctl dyn list ea) := fun h => by
  have h1 := eaWords_length (n := 0) h
  simp only [encode, List.length_cons, maxWords]
  omega

theorem fmovemStore (ctl dyn : Bool) (list : Byte) (ea : Ea) : Statement (.fmovemStore ctl dyn list ea) := fun h => by
  have h1 := eaWords_length (n := 0) h
  simp only [encode, List.length_cons, maxWords]
  omega

theorem fbccW (p : BitVec 5) (d : Word) : Statement (.fbccW p d) :=
  fun _ => ⟨Nat.le_of_ble_eq_true rfl, Nat.le_of_ble_eq_true rfl⟩

theorem fbccL (p : BitVec 5) (d : Long) : Statement (.fbccL p d) :=
  fun _ => ⟨Nat.le_of_ble_eq_true rfl, Nat.le_of_ble_eq_true rfl⟩

theorem fnop : Statement (.fnop) := fun _ => ⟨Nat.le_of_ble_eq_true rfl, Nat.le_of_ble_eq_true rfl⟩

theorem fscc (p : BitVec 5) (ea : Ea) : Statement (.fscc p ea) := fun h => by
  have h1 := eaWords_length (n := 0) h
  simp only [encode, List.length_cons, maxWords]
  omega

theorem fdbcc (p : BitVec 5) (dn : RegNo) (d : Word) : Statement (.fdbcc p dn d) :=
  fun _ => ⟨Nat.le_of_ble_eq_true rfl, Nat.le_of_ble_eq_true rfl⟩

theorem ftrapccW (p : BitVec 5) (d : Word) : Statement (.ftrapccW p d) :=
  fun _ => ⟨Nat.le_of_ble_eq_true rfl, Nat.le_of_ble_eq_true rfl⟩

theorem ftrapccL (p : BitVec 5) (d : Long) : Statement (.ftrapccL p d) :=
  fun _ => ⟨Nat.le_of_ble_eq_true rfl, Nat.le_of_ble_eq_true rfl⟩

theorem ftrapcc (p : BitVec 5) : Statement (.ftrapcc p) :=
  fun _ => ⟨Nat.le_of_ble_eq_true rfl, Nat.le_of_ble_eq_true rfl⟩

theorem fsave (ea : Ea) : Statement (.fsave ea) := fun h => by
  have h1 := eaWords_length (n := 0) h
  simp only [encode, List.length_cons, maxWords]
  omega

theorem frestore (ea : Ea) : Statement (.frestore ea) := fun h => by
  have h1 := eaWords_length (n := 0) h
  simp only [encode, List.length_cons, maxWords]
  omega

end Length

end Sys2Proof.Laws
end

