-- ==== Sys2Proof/Laws/Plain.lean ====
section
/-!
SUPPORT. Memory where every access reaches it (20_memory.md R85, R86, R96, R98): loads, stores, frames, each said once, and what
`Stored` gives.
-/
namespace Sys2Proof.Machine

/-! ### Transfers -/

theorem plain_of_eq {s t : State} (h : s.plain) (hc : t.ctl = s.ctl) (he : t.env.tea = s.env.tea)
    (hb : t.env.bus = s.env.bus) : t.plain :=
  ⟨by rw [← h.1]; unfold State.translationOff; rw [hc], he.trans h.2.1, hb.trans h.2.2⟩

theorem transfer_plain {s : State} (h : s.plain) (acc : Access) (off n : Nat) :
    transfer acc off n s = .ok (acc.addr + BitVec.ofNat 32 off) s := by
  have h2 : ∀ p, s.busTea acc p n = false := fun p => by simp [State.busTea, h.2.1]
  simp [transfer, State.busMove_of_nil h.2.2, State.translate, h.1, h2, State.busNow, h.2.2, quietBus]

/-- Where what is done at each transfer changes nothing, an access does it to one transfer after the other. -/
theorem overTransfers_plain {α : Type} {s : State} (h : s.plain) (acc : Access) {act : Nat → List Long → BusM (List α)}
    {f : Nat → List Long → List α} (ha : ∀ off as, act off as s = .ok (f off as) s) (ts : List (Nat × Nat)) :
    overTransfers acc act ts s =
      .ok (ts.flatMap fun t => f t.1 (transferAddrs (acc.addr + BitVec.ofNat 32 t.1) t.2)) s := by
  induction ts with
  | nil => rfl
  | cons t ts ih => simp only [overTransfers, bind_eq, transfer_plain h, ha, ih, pure_eq, List.flatMap_cons]

/-- The addresses of the transfers of an access, each with its offset, are those of its bytes. -/
theorem transfers_addrs (acc : Access) :
    ((transfersOf acc.addr acc.size).flatMap fun t => transferAddrs (acc.addr + BitVec.ofNat 32 t.1) t.2) =
      (List.range acc.size.bytes).map fun i => acc.addr + BitVec.ofNat 32 i := by
  have e : ∀ a b : Nat, acc.addr + BitVec.ofNat 32 a + BitVec.ofNat 32 b = acc.addr + BitVec.ofNat 32 (a + b) := by
    intro a b
    rw [BitVec.add_assoc, ← BitVec.ofNat_add]
  cases acc.size <;> simp only [transfersOf, TSize.bytes]
  · simp [transferAddrs]
  · split <;> simp [transferAddrs, List.range_succ]
  · split
    · simp [transferAddrs, List.range_succ, e]
    · split
      · simp [transferAddrs, List.range_succ, BitVec.add_assoc]
      · simp [transferAddrs, List.range_succ]
  · simp [transferAddrs]

/-- The bytes of an access, one after the other. -/
theorem route_plain {s : State} (h : s.plain) (acc : Access) :
    route acc s = .ok ((List.range acc.size.bytes).map fun i => acc.addr + BitVec.ofNat 32 i) s := by
  unfold route
  rw [overTransfers_plain h acc (fun _ _ => pure_eq _ s), transfers_addrs]

/-! ### Loads -/

theorem loadBytes_plain {s : State} (h : s.plain) (acc : Access) :
    loadBytes acc s = .ok ((List.range acc.size.bytes).map fun i => s.byteAt (acc.addr + BitVec.ofNat 32 i)) s := by
  unfold loadBytes
  rw [overTransfers_plain h acc (fun _ _ => busFetch_eq _ s)]
  have := congrArg (List.map fun a : Long => Memory.read s.mem a.toNat) (transfers_addrs acc)
  rw [List.map_flatMap, List.map_map] at this
  rw [this]
  rfl

theorem toNat_append {n m : Nat} (x : BitVec n) (y : BitVec m) : (x ++ y).toNat = x.toNat * 2 ^ m + y.toNat := by
  rw [BitVec.toNat_append, ← Nat.shiftLeft_add_eq_or_of_lt y.isLt, Nat.shiftLeft_eq]

theorem wordAt_toNat (s : State) (a : Long) : (s.wordAt a).toNat = (s.byteAt a).toNat * 256 + (s.byteAt (a + 1)).toNat :=
  toNat_append _ _

theorem longAt_toNat (s : State) (a : Long) : (s.longAt a).toNat = (s.byteAt a).toNat * 16777216 +
    (s.byteAt (a + 1)).toNat * 65536 + (s.byteAt (a + 2)).toNat * 256 + (s.byteAt (a + 3)).toNat := by
  have h1 : (s.longAt a).toNat = (s.byteAt a ++ s.byteAt (a + 1) ++ s.byteAt (a + 2)).toNat * 2 ^ 8 +
    (s.byteAt (a + 3)).toNat := toNat_append _ _
  rw [h1, toNat_append, toNat_append]
  ring

/-- The long word at an address, from its four bytes. -/
theorem longOfBytes_longAt (s : State) (a : Long) :
    longOfBytes ((List.range 4).map fun i => s.byteAt (a + BitVec.ofNat 32 i)) = s.longAt a := by
  apply BitVec.eq_of_toNat_eq
  have hb (a : Long) := (s.byteAt a).isLt
  have := hb a
  have := hb (a + 1#32)
  have := hb (a + 2#32)
  have := hb (a + 3#32)
  have hr : List.range 4 = [0, 1, 2, 3] := by decide
  simp only [longAt_toNat, hr, longOfBytes, List.map_cons, List.map_nil, valueOfBytes, List.length_cons, List.length_nil,
    BitVec.toNat_ofNat]
  rw [show a + 1 = a + 1#32 from rfl, show a + 2 = a + 2#32 from rfl, show a + 3 = a + 3#32 from rfl]
  norm_num
  omega

/-- The operand at an address is what a load of its size gives (20_memory.md R85). -/
theorem load_plain {s : State} (h : s.plain) {acc : Access} {sz : Size} (hs : acc.size = .ofSize sz) :
    load acc s = .ok (s.valueAt acc.addr sz) s := by
  rw [load, bind_eq, loadBytes_plain h, hs]
  simp only [pure_eq, EStateM.Result.ok.injEq, and_true]
  have hb (a : Long) := (s.byteAt a).isLt
  cases sz
  · apply BitVec.eq_of_toNat_eq
    simp [longOfBytes, TSize.ofSize, TSize.bytes, State.valueAt, valueOfBytes, List.range_succ]
  · apply BitVec.eq_of_toNat_eq
    have := hb acc.addr
    have := hb (acc.addr + 1)
    simp only [State.valueAt, BitVec.toNat_setWidth, wordAt_toNat]
    simp [longOfBytes, TSize.ofSize, TSize.bytes, valueOfBytes, List.range_succ]
  · exact longOfBytes_longAt s acc.addr

/-! ### Bytes of values -/

@[simp] theorem operandBytes_length (sz : Size) (v : Long) : (operandBytes sz v).length = sz.bytes := by
  cases sz <;> rfl

/-- The bytes that a store of an operand size writes. -/
theorem bytesOfValue_operand (sz : Size) (v : Long) : bytesOfValue sz.bytes v.toNat = operandBytes sz v := by
  cases sz <;>
    simp only [Size.bytes, bytesOfValue, operandBytes, longBytes, longWords, bytesOfWords, field, List.cons.injEq, and_true]
  · apply BitVec.eq_of_toNat_eq; simp
  · refine ⟨?_, ?_⟩ <;> (apply BitVec.eq_of_toNat_eq; simp; try omega)
  · refine ⟨?_, ?_, ?_, ?_⟩ <;> apply BitVec.eq_of_toNat_eq <;> simp <;> omega

/-! ### Stores -/

theorem zip_writes_read {m : List Host.Cell} (hw : Memory.wf m) (a : Long) (bs : List Byte) (hn : bs.length ≤ 2 ^ 32) (x : Long) :
    Memory.read (Memory.writes m (((List.range bs.length).map fun i => a + BitVec.ofNat 32 i).zip bs)) x.toNat =
      (bs[(x - a).toNat]?).getD (Memory.read m x.toNat) := by
  have hget : ∀ w ∈ ((List.range bs.length).map fun i => a + BitVec.ofNat 32 i).zip bs,
      ∃ (i : Nat) (hi : i < bs.length), w = (a + BitVec.ofNat 32 i, bs[i]) := by
    intro w hw
    obtain ⟨i, hi, rfl⟩ := List.getElem_of_mem hw
    refine ⟨i, by simpa using hi, by simp⟩
  have hsub : ∀ i : Nat, (hi : i < bs.length) → (a + BitVec.ofNat 32 i - a).toNat = i := by
    intro i hi
    rw [BitVec.add_comm, BitVec.add_sub_cancel]
    exact Nat.mod_eq_of_lt (by omega)
  by_cases hx : (x - a).toNat < bs.length
  · have hxa : a + BitVec.ofNat 32 (x - a).toNat = x := by
      rw [BitVec.ofNat_toNat, BitVec.setWidth_eq, BitVec.add_comm, BitVec.sub_add_cancel]
    rw [List.getElem?_eq_getElem hx, Option.getD_some]
    have := Memory.read_writes_of_mem hw (ws := ((List.range bs.length).map fun i => a + BitVec.ofNat 32 i).zip bs)
      (by
        rw [List.pairwise_iff_getElem]
        intro i j hi hj hij
        simp only [List.getElem_zip, List.getElem_map, List.getElem_range]
        intro he
        have h1 := hsub i (by simpa using hi)
        have h2 := hsub j (by simpa using hj)
        rw [he, h2] at h1
        omega)
      (w := (x, bs[(x - a).toNat]))
      (by
        rw [List.mem_iff_getElem]
        refine ⟨(x - a).toNat, by simpa using hx, ?_⟩
        rw [List.getElem_zip, List.getElem_map, List.getElem_range, hxa])
    exact this
  · rw [List.getElem?_eq_none (by omega), Option.getD_none]
    apply Memory.read_writes_of_not_mem hw
    intro w hmem
    obtain ⟨i, hi, rfl⟩ := hget w hmem
    intro he
    apply hx
    simp only at he
    rw [← he, hsub i hi]
    exact hi

/-- Bytes written one after the other. -/
theorem stored_writes {s : State} (hw : s.memOk) (a : Long) (bs : List Byte) (hn : bs.length ≤ 2 ^ 32) :
    Stored s (s.writeBytes (((List.range bs.length).map fun i => a + BitVec.ofNat 32 i).zip bs)) a bs := by
  refine ⟨rfl, s.writeBytes_wf hw.1 hw.2 _, fun x => ⟨zip_writes_read hw.1 a bs hn x, ?_⟩⟩
  have e : ((((List.range bs.length).map fun i => a + BitVec.ofNat 32 i).zip bs).map fun w : Long × Byte => (w.1, codeWritten)) =
      ((List.range (List.replicate bs.length codeWritten).length).map fun i => a + BitVec.ofNat 32 i).zip
        (List.replicate bs.length codeWritten) := by
    apply List.ext_getElem <;> simp
  show Memory.read (Memory.writes s.modified _) x.toNat = _
  rw [e, zip_writes_read hw.2 a _ (by simpa using hn)]
  by_cases hx : (x - a).toNat < bs.length
  · rw [List.getElem?_replicate, if_pos hx, if_pos hx]; rfl
  · rw [List.getElem?_replicate, if_neg hx, if_neg hx]; rfl

/-- A list of writes done in two parts. -/
theorem Memory.writes_append (m : List Host.Cell) (ws vs : List (Long × Byte)) :
    Memory.writes m (ws ++ vs) = Memory.writes (Memory.writes m ws) vs := by
  induction ws generalizing m with
  | nil => rfl
  | cons w ws ih => exact ih _

theorem writeBytes_append (s : State) (ws vs : List (Long × Byte)) :
    s.writeBytes (ws ++ vs) = (s.writeBytes ws).writeBytes vs := by
  simp only [State.writeBytes, Memory.writes_append, List.map_append]

theorem writeBytes_plain {s : State} (h : s.plain) (ws : List (Long × Byte)) : (s.writeBytes ws).plain :=
  plain_of_eq h rfl rfl rfl

/-- The transfers of a store write, one after the other, the bytes at their addresses. -/
theorem storeTransfers_plain {s : State} (h : s.plain) (acc : Access) (bs : List Byte) (ts : List (Nat × Nat)) :
    overTransfers acc (storeTransfer bs) ts s =
      .ok [] (s.writeBytes (ts.flatMap fun t =>
        (transferAddrs (acc.addr + BitVec.ofNat 32 t.1) t.2).zip (bs.drop t.1))) := by
  induction ts generalizing s with
  | nil => rfl
  | cons t ts ih =>
    simp only [overTransfers, bind_eq, transfer_plain h, storeTransfer, busUpdate_eq, ih (writeBytes_plain h _), pure_eq,
      List.append_nil, List.flatMap_cons, writeBytes_append]

/-- Those are the bytes of the access. -/
theorem transfers_zip (acc : Access) {bs : List Byte} (hn : bs.length = acc.size.bytes) :
    ((transfersOf acc.addr acc.size).flatMap fun t =>
        (transferAddrs (acc.addr + BitVec.ofNat 32 t.1) t.2).zip (bs.drop t.1)) =
      ((List.range bs.length).map fun i => acc.addr + BitVec.ofNat 32 i).zip bs := by
  rw [hn]
  cases hs : acc.size <;> rw [hs] at hn <;> simp only [transfersOf, TSize.bytes] at hn ⊢
  · simp [transferAddrs]
  · match bs, hn with
    | [x, y], _ => split <;> simp [transferAddrs, List.range_succ]
  · match bs, hn with
    | [x, y, z, w], _ =>
      split
      · simp [transferAddrs, List.range_succ, BitVec.add_assoc]
      · split <;> simp [transferAddrs, List.range_succ, BitVec.add_assoc]
  · simp [transferAddrs]

theorem storeBytes_plain {s : State} (h : s.plain) (hw : s.memOk) (acc : Access) {bs : List Byte}
    (hn : bs.length = acc.size.bytes) : ∃ t, storeBytes acc bs s = .ok () t ∧ Stored s t acc.addr bs := by
  refine ⟨_, ?_, stored_writes hw acc.addr bs ?_⟩
  · simp only [storeBytes, withWriteBack, bind_eq, storeTransfers_plain h, transfers_zip acc hn, pure_eq]
  · rw [hn]; cases acc.size <;> decide

theorem store_plain {s : State} (h : s.plain) (hw : s.memOk) {acc : Access} {sz : Size}
    (hs : acc.size = .ofSize sz) (v : Long) :
    ∃ t, store acc v s = .ok () t ∧ Stored s t acc.addr (operandBytes sz v) := by
  have e : acc.size.bytes = sz.bytes := by rw [hs]; cases sz <;> rfl
  rw [store, e, bytesOfValue_operand]
  exact storeBytes_plain h hw acc (by rw [operandBytes_length, e])

/-! ### What `Stored` gives -/

theorem Stored.ctl_eq {s t : State} {a : Long} {bs : List Byte} (h : Stored s t a bs) : t.ctl = s.ctl := by rw [h.1]
theorem Stored.env_eq {s t : State} {a : Long} {bs : List Byte} (h : Stored s t a bs) : t.env = s.env := by rw [h.1]
theorem Stored.regs_eq {s t : State} {a : Long} {bs : List Byte} (h : Stored s t a bs) : t.regs = s.regs := by rw [h.1]
theorem Stored.sr_eq {s t : State} {a : Long} {bs : List Byte} (h : Stored s t a bs) : t.sr = s.sr := by rw [h.1]
theorem Stored.pc_eq {s t : State} {a : Long} {bs : List Byte} (h : Stored s t a bs) : t.pc = s.pc := by rw [h.1]

theorem Stored.plain {s t : State} {a : Long} {bs : List Byte} (h : Stored s t a bs) (hp : s.plain) : t.plain :=
  plain_of_eq hp h.ctl_eq (by rw [h.env_eq]) (by rw [h.env_eq])

/-- What is stored depends on memory alone: the same change in two states that differ elsewhere. -/
theorem Stored.congr {s t s' t' : State} {a : Long} {bs : List Byte} (h : Stored s t a bs) (hs : s'.mem = s.mem)
    (hs' : s'.modified = s.modified) (ht : t' = { s' with mem := t.mem, modified := t.modified }) : Stored s' t' a bs := by
  subst ht
  refine ⟨rfl, h.2.1, fun x => ?_⟩
  have := h.2.2 x
  simp only [State.byteAt, State.recordAt] at this ⊢
  rwa [hs, hs']

/-- Two memories in canonical form that agree at every address of 32 bits are equal. -/
theorem Memory.ext_long {m m' : List Host.Cell} (h : Memory.wf m) (h' : Memory.wf m')
    (e : ∀ a : Long, Memory.read m a.toNat = Memory.read m' a.toNat) : m = m' := by
  refine Memory.ext h h' fun x => ?_
  by_cases hx : x < 2 ^ 32
  · have := e (BitVec.ofNat 32 x)
    rwa [show (BitVec.ofNat 32 x).toNat = x from Nat.mod_eq_of_lt hx] at this
  · have out : ∀ m : List Host.Cell, Memory.wf m → Memory.read m x = 0 := by
      intro m hm
      induction m with
      | nil => rfl
      | cons c cs ih =>
        have hc := (hm.2 c List.mem_cons_self).1
        rw [Memory.read, if_neg (by omega), if_neg (by omega)]
        exact ih (Memory.wf_tail hm)
    rw [out _ h, out _ h']

/-- What is stored is one state: canonical forms with equal bytes are equal. -/
theorem Stored.unique {s t u : State} {a : Long} {bs : List Byte} (h : Stored s t a bs) (h' : Stored s u a bs) : t = u := by
  have hm : t.mem = u.mem := Memory.ext_long h.2.1.1 h'.2.1.1 fun x => (h.2.2 x).1.trans (h'.2.2 x).1.symm
  have hm' : t.modified = u.modified := Memory.ext_long h.2.1.2 h'.2.1.2 fun x => (h.2.2 x).2.trans (h'.2.2 x).2.symm
  rw [h.1, h'.1, hm, hm']

/-- Nothing stored. -/
theorem Stored.refl {s : State} (hw : s.memOk) (a : Long) : Stored s s a [] := ⟨rfl, hw, fun _ => by simp⟩

/-- An address before the second of two runs of bytes, or in it. -/
theorem sub_append (x a : Long) {n : Nat} (hn : n ≤ 2 ^ 32) :
    (x - (a + BitVec.ofNat 32 n)).toNat = ((x - a).toNat + (2 ^ 32 - n)) % 2 ^ 32 := by
  by_cases hl : n = 2 ^ 32
  · rw [hl]
    simp [BitVec.toNat_sub]
  · have : (x - (a + BitVec.ofNat 32 n)) = (x - a) - BitVec.ofNat 32 n := by
      exact sub_add_eq_sub_sub _ _ _
    rw [this, BitVec.toNat_sub, BitVec.toNat_ofNat, Nat.mod_eq_of_lt (a := n) (by omega), Nat.add_comm]

/-- Two runs of bytes, one after the other. -/
theorem Stored.append {s t u : State} {a : Long} {bs cs : List Byte} (h : Stored s t a bs)
    (h' : Stored t u (a + BitVec.ofNat 32 bs.length) cs) (hn : bs.length + cs.length ≤ 2 ^ 32) :
    Stored s u a (bs ++ cs) := by
  refine ⟨by rw [h'.1, h.1], h'.2.1, fun x => ?_⟩
  rw [(h'.2.2 x).1, (h.2.2 x).1, (h'.2.2 x).2, (h.2.2 x).2, sub_append x a (by omega)]
  have hx := (x - a).isLt
  by_cases hlt : (x - a).toNat < bs.length
  · rw [List.getElem?_append_left hlt, List.getElem?_eq_getElem hlt, Nat.mod_eq_of_lt (by omega),
      List.getElem?_eq_none (by omega), if_neg (by omega), if_pos hlt, if_pos (by rw [List.length_append]; omega)]
    simp
  · rw [List.getElem?_append_right (by omega), List.getElem?_eq_none (l := bs) (by omega)]
    have : ((x - a).toNat + (2 ^ 32 - bs.length)) % 2 ^ 32 = (x - a).toNat - bs.length := by omega
    rw [this, if_neg hlt, List.length_append]
    refine ⟨by simp, ?_⟩
    by_cases hc : (x - a).toNat - bs.length < cs.length
    · rw [if_pos hc, if_pos (by omega)]
    · rw [if_neg hc, if_neg (by omega)]

/-- A byte that was stored. -/
theorem Stored.byteAt_eq {s t : State} {a : Long} {bs : List Byte} (h : Stored s t a bs) {k : Nat} (hk : k < bs.length)
    (hn : bs.length ≤ 2 ^ 32) : t.byteAt (a + BitVec.ofNat 32 k) = bs[k] := by
  have e : (a + BitVec.ofNat 32 k - a).toNat = k := by
    rw [BitVec.add_comm, BitVec.add_sub_cancel]
    exact Nat.mod_eq_of_lt (by omega)
  rw [(h.2.2 _).1, e, List.getElem?_eq_getElem hk, Option.getD_some]

/-- A byte outside those stored. -/
theorem Stored.byteAt_of_not {s t : State} {a x : Long} {bs : List Byte} (h : Stored s t a bs)
    (hx : bs.length ≤ (x - a).toNat) : t.byteAt x = s.byteAt x := by
  rw [(h.2.2 _).1, List.getElem?_eq_none hx, Option.getD_none]

/-! ### Frames -/

/-- The bytes of a frame's fields. -/
def frameBytes (fs : FrameFields) : List Byte := fs.flatMap fun f => bytesOfValue f.1.bytes f.2.toNat

theorem bytesOfValue_length (n v : Nat) : (bytesOfValue n v).length = n := by
  induction n with
  | zero => rfl
  | succ n ih => simp [bytesOfValue, ih]

theorem frameBytes_length (fs : FrameFields) : (frameBytes fs).length = frameSize fs := by
  induction fs with
  | nil => rfl
  | cons f fs ih => simp [frameBytes, frameSize, bytesOfValue_length] at *; exact ih

theorem range_zip_append (a : Long) (n m : Nat) (bs cs : List Byte) (hb : bs.length = n) :
    ((List.range (n + m)).map fun i => a + BitVec.ofNat 32 i).zip (bs ++ cs) =
      ((List.range n).map fun i => a + BitVec.ofNat 32 i).zip bs ++
        ((List.range m).map fun i => a + BitVec.ofNat 32 n + BitVec.ofNat 32 i).zip cs := by
  rw [List.range_add, List.map_append, List.zip_append (by simp [hb])]
  congr 2
  rw [List.map_map]
  congr 1
  funext i
  simp [BitVec.add_assoc, BitVec.ofNat_add]

theorem planFrame_plain {s : State} (h : s.plain) (fs : FrameFields) (a : Long) :
    planFrame a fs s = .ok (((List.range (frameSize fs)).map fun i => a + BitVec.ofNat 32 i).zip (frameBytes fs)) s := by
  induction fs generalizing a with
  | nil => rfl
  | cons f fs ih =>
    have := range_zip_append a f.1.bytes (frameSize fs) (bytesOfValue f.1.bytes f.2.toNat) (frameBytes fs)
      (bytesOfValue_length _ _)
    simp only [planFrame, bind_eq, withWriteBack, route_plain h, ih, pure_eq, supervisorAccess]
    rw [show frameSize (f :: fs) = f.1.bytes + frameSize fs from rfl, show frameBytes (f :: fs) =
      bytesOfValue f.1.bytes f.2.toNat ++ frameBytes fs from rfl, this]

/-- The bytes of frames, one after the other, each with its address. -/
def framesWrites (frames : List Frame) : List (Long × Byte) :=
  frames.flatMap fun f => ((List.range (frameSize f.fields)).map fun i => f.addr + BitVec.ofNat 32 i).zip (frameBytes f.fields)

theorem planFrames_plain {s : State} (h : s.plain) (frames : List Frame) :
    planFrames frames s = .ok (framesWrites frames) s := by
  induction frames with
  | nil => rfl
  | cons f fs ih => simp only [planFrames, bind_eq, planFrame_plain h, ih, pure_eq, framesWrites, List.flatMap_cons]

/-- Exception processing goes through: frames, stack pointers, the vector (60_exceptions.md R400). -/
theorem attempt_plain {s : State} (h : s.plain) (frames : List Frame) (vector : Byte) :
    s.attempt frames vector = .ok (s.enter frames
      { bytes := framesWrites frames,
        vector := (List.range 4).map fun i => s.vectorAddr vector + BitVec.ofNat 32 i }, s) := by
  simp only [State.attempt, planEntry, bind_eq, planFrames_plain h, busFetch_eq, route_plain h, pure_eq]
  rfl

/-- A frame's writes, once they are in memory. -/
theorem stored_frame {s : State} (hw : s.memOk) (f : Frame) (hn : frameSize f.fields ≤ 2 ^ 32) :
    Stored s (s.writeBytes (framesWrites [f])) f.addr (frameBytes f.fields) := by
  have := stored_writes hw f.addr (frameBytes f.fields) (by rw [frameBytes_length]; exact hn)
  rw [frameBytes_length] at this
  simpa [framesWrites] using this

/-- The bytes of a frame's words. -/
theorem word_bytes (w : Word) : bytesOfValue 2 (w.setWidth 32).toNat = bytesOfWords [w] := by
  have := bytesOfValue_operand .word (w.setWidth 32)
  rw [show Size.word.bytes = 2 from rfl] at this
  rw [this, operandBytes, BitVec.setWidth_setWidth_of_le _ (by omega), BitVec.setWidth_eq]

theorem long_bytes (v : Long) : bytesOfValue 4 v.toNat = bytesOfWords (longWords v) := bytesOfValue_operand .long v

theorem bytesOfWords_append (ws vs : List Word) : bytesOfWords (ws ++ vs) = bytesOfWords ws ++ bytesOfWords vs := by
  induction ws with
  | nil => rfl
  | cons w ws ih => simp [bytesOfWords, ih]

theorem bytesOfWords_length (ws : List Word) : (bytesOfWords ws).length = 2 * ws.length := by
  induction ws with
  | nil => rfl
  | cons w ws ih => simp only [bytesOfWords, List.length_cons, ih]; omega

/-- The long word that a vector read gives. -/
theorem vector_longAt (s : State) (a : Long) :
    longOfBytes (((List.range 4).map fun i => a + BitVec.ofNat 32 i).map fun p : Long => Memory.read s.mem p.toNat) =
      s.longAt a := by
  have e : ((List.range 4).map fun i => a + BitVec.ofNat 32 i).map (fun p : Long => Memory.read s.mem p.toNat) =
      (List.range 4).map fun i => s.byteAt (a + BitVec.ofNat 32 i) := by
    rw [List.map_map]
    rfl
  rw [e]
  exact longOfBytes_longAt s a

theorem formatWord_eq (f : BitVec 4) (v : Byte) : formatWord f v = f ++ 0#2 ++ v ++ 0#2 := by
  unfold formatWord
  have h : ∀ v : Byte, (v.setWidth 12 <<< 2 : BitVec 12) = 0#2 ++ v ++ 0#2 := by decide
  rw [h]
  apply BitVec.eq_of_toNat_eq
  have h1 : (f ++ (0#2 ++ v ++ 0#2)).toNat = _ := toNat_append f _
  have h2 : (0#2 ++ v ++ 0#2).toNat = _ := toNat_append (0#2 ++ v) 0#2
  have h3 : (0#2 ++ v).toNat = _ := toNat_append 0#2 v
  have h4 : (f ++ 0#2 ++ v ++ 0#2).toNat = _ := toNat_append (f ++ 0#2 ++ v) 0#2
  have h5 : (f ++ 0#2 ++ v).toNat = _ := toNat_append (f ++ 0#2) v
  have h6 : (f ++ 0#2).toNat = _ := toNat_append f 0#2
  rw [h4, h5, h6, h1, h2, h3]
  simp
  ring

theorem frameHead_bytes (sr : Word) (pc : Long) (fmt : BitVec 4) (v : Byte) (rest : FrameFields) :
    frameBytes (frameHead sr pc fmt v ++ rest) =
      bytesOfWords ([sr] ++ longWords pc ++ [fmt ++ 0#2 ++ v ++ 0#2]) ++ frameBytes rest := by
  show bytesOfValue 2 (sr.setWidth 32).toNat ++ (bytesOfValue 4 pc.toNat ++
    (bytesOfValue 2 ((formatWord fmt v).setWidth 32).toNat ++ frameBytes rest)) = _
  rw [word_bytes, long_bytes, word_bytes, formatWord_eq]
  rfl

theorem frameLong_bytes (a : Long) (rest : FrameFields) :
    frameBytes ((.long, a) :: rest) = bytesOfWords (longWords a) ++ frameBytes rest := by
  show bytesOfValue 4 a.toNat ++ frameBytes rest = _
  rw [long_bytes]

theorem frameWord_bytes (w : Word) (rest : FrameFields) :
    frameBytes ((.word, w.setWidth 32) :: rest) = bytesOfWords [w] ++ frameBytes rest := by
  show bytesOfValue 2 (w.setWidth 32).toNat ++ frameBytes rest = _
  rw [word_bytes]

theorem activeStack_enter (sr : Word) : activeStack (enterSupervisor sr) = if srM sr then .msp else .isp := by
  have h1 : srS (enterSupervisor sr) = true := by simp [srS, enterSupervisor]
  have h2 : srM (enterSupervisor sr) = srM sr := by simp [srM, enterSupervisor]
  simp [activeStack, h1, h2]

theorem vectorAddr_eq (s : State) (v : Byte) : s.vectorAddr v = s.ctl.vbr + 4 * v.setWidth 32 := by
  unfold State.vectorAddr
  congr 1
  revert v
  decide

end Sys2Proof.Machine
end

