-- ==== Sys2Proof/Tests/Slice0.lean ====
section
/-!
SUPPORT. The package's own tests: ill-formed terms are refused, every constructor is decoded from words written out from the
encodings of the spec (30_encoding.md R123, R128, R130, R140, R141), the rules' own examples run as they say, and every
statement's hypotheses can be met.
-/
set_option Elab.async false

namespace Sys2Proof.Tests

open Sys2Proof.Machine

/-! ### Ill-formed terms -/

theorem test_wf_reserved_index :
    (Instr.tas (.index 0 (.full ⟨.d 0, false, 0⟩ false true .none (.post .none)))).wf = false := by decide
theorem test_wf_mode : ∀ i ∈ [Instr.chkW (.an 0) 1, .chkL (.an 0) 1, .chk2 .byte (.dn 0) (.d 0), .divuW (.an 0) 0,
    .divsW (.an 0) 0, .divuL (.an 0) 0 0, .divuL64 (.an 0) 0 0, .divsL (.an 0) 0 0, .divsL64 (.an 0) 0 0, .moveToSr (.an 0),
    .moveFromSr (.pcDisp 0), .movesLoad .byte (.dn 0) (.d 0), .movesStore .byte (.d 0) (.pcDisp 0),
      .movemStore true 1 (.postInc 0),
    .movemLoad true 1 (.preDec 0), .tas (.imm [0]), .cas .byte 0 0 (.dn 0), .fscc 0 (.an 0), .fsave (.postInc 0),
    .frestore (.preDec 0)], i.wf = false := by decide
theorem test_wf_immediate_length : ∀ i ∈ [Instr.chkW (.imm [0, 0]) 1, .chkL (.imm [0]) 1, .divuL (.imm [0]) 0 0,
    .moveToSr (.imm []), .fadd (.ea .d (.imm [0, 0])) 0, .fmoveToCr 4 (.imm [0])], i.wf = false := by decide
theorem test_wf_fp_operand : ∀ i ∈ [Instr.fadd (.ea .d (.dn 0)) 0, .fsin (.ea .x (.an 0)) 0, .fmoveOut .d 0 0 (.dn 0),
    .fmoveToCr 6 (.dn 0), .fmoveToCr 4 (.an 0), .fmoveFromCr 2 (.an 0), .fmovemLoad true false 1 (.preDec 0),
    .fmovemStore true false 1 (.postInc 0)], i.wf = false := by decide
theorem test_wf_cache_scope : (Instr.cinv 1 0 0).wf = false ∧ (Instr.cpush 1 0 0).wf = false := by decide
theorem test_wf_fnop_is_no_fbcc : (Instr.fbccW 0 0).wf = false := by decide
theorem test_wf_fline_of_a_legal_word : (Instr.fLine 0x4D8).wf = false := by decide

/-! ### Decoding: 30_encoding.md R128 -/

theorem test_decode_traps : ∀ x ∈ [([0x4E4F], Instr.trap 15), ([0x5EFA, 0x1234], .trapccW 14 0x1234),
    ([0x5EFB, 0x1234, 0x5678], .trapccL 14 0x12345678), ([0x5EFC], .trapcc 14), ([0x4E76], .trapv),
    ([0x4791], .chkW (.ind 1) 3), ([0x4711], .chkL (.ind 1) 3), ([0x04D2, 0xB800], .chk2 .long (.ind 2) (.a 3)),
    ([0x86D1], .divuW (.ind 1) 3), ([0x87D1], .divsW (.ind 1) 3), ([0x4C51, 0x2003], .divuL (.ind 1) 2 3),
    ([0x4C51, 0x2403], .divuL64 (.ind 1) 2 3), ([0x4C51, 0x2803], .divsL (.ind 1) 2 3),
    ([0x4C51, 0x2C03], .divsL64 (.ind 1) 2 3), ([0x484D], .bkpt 5), ([0x4AFC], .illegal), ([0xA123], .aLine 0x123),
    ([0xFE00], .fLine 0xE00)], decode x.1 = .ok (x.2, []) := by decide
theorem test_decode_system : ∀ x ∈ [([0x4E73], Instr.rte), ([0x4E72, 0x2700], .stop 0x2700), ([0x4E70], .reset),
    ([0x4E71], .nop), ([0x007C, 0x0700], .oriSr 0x0700), ([0x027C, 0xDFFF], .andiSr 0xDFFF), ([0x0A7C, 0x001F], .eoriSr 0x1F),
    ([0x46D1], .moveToSr (.ind 1)), ([0x40C2], .moveFromSr (.dn 2)), ([0x4E63], .moveToUsp 3), ([0x4E6B], .moveFromUsp 3),
    ([0x4E7A, 0x8801], .movecFrom 0x801 (.a 0)), ([0x4E7B, 0x0801], .movecTo 0x801 (.d 0)),
    ([0x0E59, 0xA000], .movesLoad .word (.postInc 1) (.a 2)), ([0x0E90, 0x1800], .movesStore .long (.d 1) (.ind 0)),
    ([0xF449], .cinv 1 1 1), ([0xF478], .cpush 1 3 0), ([0xF50A], .pflush 1 2), ([0xF568], .ptest true 0),
    ([0xF528], .ptest false 0)], decode x.1 = .ok (x.2, []) := by decide
theorem test_decode_transfers : ∀ x ∈ [([0x48E7, 0xC000], Instr.movemStore true 0xC000 (.preDec 7)),
    ([0x4C99, 0x0003], .movemLoad false 3 (.postInc 1)), ([0xF620, 0x9000], .move16PostPost 0 1),
    ([0xF602, 0x0001, 0x2340], .move16PostAbs 2 0x12340), ([0xF60A, 0x0001, 0x2340], .move16AbsPost 0x12340 2),
    ([0xF612, 0x0001, 0x2340], .move16IndAbs 2 0x12340), ([0xF61A, 0x0001, 0x2340], .move16AbsInd 0x12340 2),
    ([0x4AD0], .tas (.ind 0)), ([0x0CD0, 0x0040], .cas .word 0 1 (.ind 0)),
    ([0x0CFC, 0x8080, 0x90C1], .cas2 false (.a 0) 0 2 (.a 1) 1 3)], decode x.1 = .ok (x.2, []) := by decide
/-- Command word 000 001 010 and CMD (R130). -/
theorem test_decode_fp_executed : ∀ x ∈ [(0x00, Instr.fmove (.reg 1) 2), (0x40, .fsmove (.reg 1) 2), (0x44, .fdmove (.reg 1) 2),
    (0x18, .fabs (.reg 1) 2), (0x58, .fsabs (.reg 1) 2), (0x5C, .fdabs (.reg 1) 2), (0x1A, .fneg (.reg 1) 2),
    (0x5A, .fsneg (.reg 1) 2), (0x5E, .fdneg (.reg 1) 2), (0x04, .fsqrt (.reg 1) 2), (0x41, .fssqrt (.reg 1) 2),
    (0x45, .fdsqrt (.reg 1) 2), (0x22, .fadd (.reg 1) 2), (0x62, .fsadd (.reg 1) 2), (0x66, .fdadd (.reg 1) 2),
    (0x28, .fsub (.reg 1) 2), (0x68, .fssub (.reg 1) 2), (0x6C, .fdsub (.reg 1) 2), (0x23, .fmul (.reg 1) 2),
    (0x63, .fsmul (.reg 1) 2), (0x67, .fdmul (.reg 1) 2), (0x20, .fdiv (.reg 1) 2), (0x60, .fsdiv (.reg 1) 2),
    (0x64, .fddiv (.reg 1) 2), (0x38, .fcmp (.reg 1) 2), (0x3A, .ftst (.reg 1) 2)],
    decode [0xF200, 0x0500 + x.1] = .ok (x.2, []) := by decide
theorem test_decode_fp_software : ∀ x ∈ [(0x01, Instr.fint (.reg 1) 2), (0x02, .fsinh (.reg 1) 2), (0x03, .fintrz (.reg 1) 2),
    (0x06, .flognp1 (.reg 1) 2), (0x08, .fetoxm1 (.reg 1) 2), (0x09, .ftanh (.reg 1) 2), (0x0A, .fatan (.reg 1) 2),
    (0x0C, .fasin (.reg 1) 2), (0x0D, .fatanh (.reg 1) 2), (0x0E, .fsin (.reg 1) 2), (0x0F, .ftan (.reg 1) 2),
    (0x10, .fetox (.reg 1) 2), (0x11, .ftwotox (.reg 1) 2), (0x12, .ftentox (.reg 1) 2), (0x14, .flogn (.reg 1) 2),
    (0x15, .flog10 (.reg 1) 2), (0x16, .flog2 (.reg 1) 2), (0x19, .fcosh (.reg 1) 2), (0x1C, .facos (.reg 1) 2),
    (0x1D, .fcos (.reg 1) 2), (0x1E, .fgetexp (.reg 1) 2), (0x1F, .fgetman (.reg 1) 2), (0x21, .fmod (.reg 1) 2),
    (0x24, .fsgldiv (.reg 1) 2), (0x25, .frem (.reg 1) 2), (0x26, .fscale (.reg 1) 2), (0x27, .fsglmul (.reg 1) 2),
    (0x36, .fsincos (.reg 1) 2 6)], decode [0xF200, 0x0500 + x.1] = .ok (x.2, []) := by decide
/-- Command word 010 and the source format (R130). -/
theorem test_decode_fp_formats : ∀ x ∈ [(0x4122, FpFmt.l), (0x4522, .s), (0x4922, .x), (0x4D22, .p), (0x5122, .w), (0x5522, .d),
    (0x5922, .b)], decode [0xF211, x.1] = .ok (.fadd (.ea x.2 (.ind 1)) 2, []) := by decide
theorem test_decode_fp_moves : ∀ x ∈ [([0xF200, 0x5D0F], Instr.fmovecr 0x0F 2), ([0xF210, 0x6480], .fmoveOut .s 1 0 (.ind 0)),
    ([0xF210, 0x6C85], .fmoveOut .pStatic 1 5 (.ind 0)), ([0xF210, 0x9000], .fmoveToCr 4 (.ind 0)),
    ([0xF209, 0x8400], .fmoveToCr 1 (.an 1)), ([0xF210, 0xA800], .fmoveFromCr 2 (.ind 0)),
    ([0xF218, 0xD0C0], .fmovemLoad true false 0xC0 (.postInc 0)), ([0xF220, 0xE003], .fmovemStore false false 3 (.preDec 0)),
    ([0xF210, 0xF830], .fmovemStore true true 0x30 (.ind 0))], decode x.1 = .ok (x.2, []) := by decide
theorem test_decode_fp_conditionals : ∀ x ∈ [([0xF281, 0x0004], Instr.fbccW 1 4), ([0xF2C1, 0x0000, 0x0004], .fbccL 1 4),
    ([0xF280, 0x0000], .fnop), ([0xF241, 0x000E], .fscc 0x0E (.dn 1)), ([0xF249, 0x0001, 0xFFFC], .fdbcc 1 1 0xFFFC),
    ([0xF27A, 0x0001, 0x1234], .ftrapccW 1 0x1234), ([0xF27B, 0x0001, 0x1234, 0x5678], .ftrapccL 1 0x12345678),
    ([0xF27C, 0x0001], .ftrapcc 1), ([0xF327], .fsave (.preDec 7)), ([0xF35F], .frestore (.postInc 7))],
    decode x.1 = .ok (x.2, []) := by decide
/-- The modes of R140 and R141, in MOVE ea,SR. -/
theorem test_decode_modes : ∀ x ∈ [([0x46C1], Ea.dn 1), ([0x46D1], .ind 1), ([0x46D9], .postInc 1), ([0x46E1], .preDec 1),
    ([0x46E9, 0xFFFE], .disp 1 0xFFFE), ([0x46F1, 0xACFE], .index 1 (.brief ⟨.a 2, true, 2⟩ 0xFE)),
    ([0x46F1, 0x33A7, 0x0010, 0x0001, 0x0002], .index 1 (.full ⟨.d 3, false, 1⟩ true false (.word 0x10) (.post (.long 0x10002)))),
    ([0x46F8, 0x1234], .absW 0x1234), ([0x46F9, 0x0001, 0x2345], .absL 0x12345), ([0x46FA, 0x0010], .pcDisp 0x10),
    ([0x46FB, 0x0151], .pcIndex (.full ⟨.d 0, false, 0⟩ false true .none (.pre .none))), ([0x46FC, 0xFFFF], .imm [0xFFFF])],
    decode x.1 = .ok (.moveToSr x.2, []) := by decide
theorem test_decode_illegal : decode [0x4E7A] = .error .more ∧ decode [0x46C9] = .error .illegal ∧
    decode [0x46F1, 0x0104] = .error .illegal ∧ decode [0x4E75] = .error .other := by decide
theorem test_table_words : decodeTableWord 16 0x4E73 = some .rte ∧ decodeTableWord 16 0x46C9 = none ∧
    decodeTableWord 32 0x9000F620 = some (.move16PostPost 0 1) := by decide

/-! ### One step, as the examples of the rules and 95_test_vectors.md say -/

/-- A supervisor at $1000 with its three stacks, and words in memory. -/
def at_ (ws : List Word) : State :=
  ({ State.reset with
    pc := 0x1000, sr := 0x2000
    regs := { State.reset.regs with usp := 0x4000, msp := 0x6000, isp := 0x8000, a0 := 0x5000, a1 := 0x5100 }
    fpu := { State.reset.fpu with mode := .idle } } : State).placeBytes 0x1000 (bytesOfWords ws)

/-- Words put into memory. -/
def put (a : Long) (ws : List Word) (s : State) : State := s.placeBytes a (bytesOfWords ws)

/-- A data register, the status register, a floating-point register or the TEA ranges of a state replaced. -/
def d (n : RegNo) (v : Long) (s : State) : State := s.setD n v
def sr (v : Word) (s : State) : State := { s with sr := v }
def fp (n : RegNo) (x : FpReal) (s : State) : State := s.setFp n x
def tea (rs : List TeaRule) (s : State) : State := { s with env := { s.env with tea := rs } }

/-- Whether a step or an instruction goes on to a state with a property. -/
def goes (o : Host.Outcome State Fault Refusal) (p : State → Bool) : Bool :=
  match o with
  | .next t => p t
  | _ => false

theorem test_trap : goes (exec (.trap 0) (sr 0 (put 0x80 [0, 0x2000] (at_ [])))) fun t =>
    t.regs.isp == 0x7FF8 && t.wordAt 0x7FF8 == 0 && t.longAt 0x7FFA == 0x1002 && t.wordAt 0x7FFE == 0x0080 &&
    t.sr == 0x2000 && t.pc == 0x2000 := by decide +kernel
theorem test_trapcc : goes (exec (.trapccW 0 0x1234) (at_ [])) fun t =>
    t.wordAt 0x7FFA == 0x201C && t.longAt 0x7FF6 == 0x1004 && t.longAt 0x7FFC == 0x1000 := by decide +kernel
theorem test_trapf : goes (exec (.trapcc 1) (at_ [])) fun t => t.pc == 0x1002 && t.mem == [] := by decide +kernel
theorem test_chk : goes (exec (.chkW (.dn 1) 0) (d 0 0x10 (d 1 0x10 (at_ [])))) fun t => t.pc == 0x1002 := by decide +kernel
theorem test_chk2_on_bound : goes (exec (.chk2 .byte (.ind 0) (.d 0)) (d 0 0x10 (put 0x5000 [0x1020] (at_ [])))) fun t =>
    t.pc == 0x1004 := by decide +kernel
theorem test_divs : goes (exec (.divsW (.dn 1) 0) (d 0 0xFFFFFFF9 (d 1 2 (at_ [])))) fun t =>
    t.getD 0 == 0xFFFFFFFD && t.sr == 0x2008 := by decide +kernel
theorem test_divul : goes (exec (.divuL (.dn 1) 0 0) (d 0 7 (d 1 2 (at_ [])))) fun t =>
    t.getD 0 == 3 && t.sr == 0x2000 := by decide +kernel
theorem test_divsl_overflow : goes (exec (.divsL (.dn 1) 0 2) (d 0 0x80000000 (d 1 0xFFFFFFFF (at_ [])))) fun t =>
    t.getD 0 == 0x80000000 && t.getD 2 == 0 := by decide +kernel
theorem test_bkpt : goes (exec (.bkpt 3) (put 0x10 [0, 0x2000] (at_ []))) fun t =>
    t.wordAt 0x7FF8 == 0x2000 && t.longAt 0x7FFA == 0x1000 && t.wordAt 0x7FFE == 0x0010 && t.pc == 0x2000 &&
    t.env.outputs == [.breakpointAcknowledge 3] := by decide +kernel
theorem test_aline : goes (exec (.aLine 0x123) (at_ [])) fun t => t.longAt 0x7FFA == 0x1000 && t.wordAt 0x7FFE == 0x0028 := by
  decide +kernel
theorem test_fline : goes (exec (.fLine 0xFFF) (at_ [])) fun t => t.longAt 0x7FFA == 0x1000 && t.wordAt 0x7FFE == 0x002C := by
  decide +kernel
theorem test_rte : goes (exec .rte (put 0x8000 [0, 0, 0x1002, 0x0080] (at_ []))) fun t =>
    t.regs.isp == 0x8008 && t.sr == 0 && t.pc == 0x1002 := by decide +kernel
/-- The trace continuation, vector S7. -/
theorem test_rte_continues_trace : goes (exec .rte ({ (put 0x24 [0, 0x2222] (put 0x7FC4
    [0x8000, 0, 0x1002, 0x7008, 0, 0x1000, 0x2000] (at_ []))) with
      regs := { (at_ []).regs with isp := 0x7FC4 } } : State)) fun t =>
    t.regs.isp == 0x7FF4 && t.wordAt 0x7FF4 == 0x8000 && t.longAt 0x7FF6 == 0x1002 && t.wordAt 0x7FFA == 0x2024 &&
    t.longAt 0x7FFC == 0x1000 && t.sr == 0x2000 && t.pc == 0x2222 := by decide +kernel
theorem test_stop : goes (exec (.stop 0x2000) (sr 0x2700 (at_ []))) fun t =>
    t.sr == 0x2000 && t.pc == 0x1004 && t.run == .stopped := by decide +kernel
theorem test_stop_traced : goes (finishStep 0x1000 (exec (.stop 0x2000) (sr 0xA700 (at_ [])))) fun t =>
    t.wordAt 0x7FF4 == 0x2000 && t.longAt 0x7FF6 == 0x1004 && t.wordAt 0x7FFA == 0x2024 && t.longAt 0x7FFC == 0x1000 &&
    t.run == .running := by decide +kernel
theorem test_andi_sr : goes (exec (.andiSr 0xDFFF) (sr 0x2700 (at_ []))) fun t => t.sr == 0x0700 := by decide +kernel
theorem test_move_sr : goes (exec (.moveToSr (.imm [0xFFFF])) (at_ [])) fun t => t.sr == 0xF71F := by decide +kernel
theorem test_move_from_sr : goes (exec (.moveFromSr (.dn 0)) (sr 0x2704 (d 0 0xFFFFFFFF (at_ [])))) fun t =>
    t.getD 0 == 0xFFFF2704 := by decide +kernel
theorem test_movec : goes (exec (.movecTo 0 (.d 0)) (d 0 0xFFFFFFFF (at_ []))) fun t => t.ctl.sfc == 7 := by decide +kernel
theorem test_movec_illegal : goes (exec (.movecTo 0x123 (.d 0)) (at_ [])) fun t => t.wordAt 0x7FFE == 0x0010 := by decide +kernel
theorem test_moves : goes (exec (.movesLoad .byte (.ind 0) (.d 0)) (d 0 0x11223344 (put 0x5000 [0x5A00] (at_ [])))) fun t =>
    t.getD 0 == 0x1122335A := by decide +kernel
theorem test_movem_predecrement : goes (exec (.movemStore true 0xC000 (.preDec 7)) (d 0 0xA (d 1 0xB (at_ [])))) fun t =>
    t.longAt 0x7FFC == 0xB && t.longAt 0x7FF8 == 0xA && t.regs.isp == 0x7FF8 := by decide +kernel
theorem test_movem_word_load : goes (exec (.movemLoad false 1 (.ind 0)) (put 0x5000 [0x8000] (at_ []))) fun t =>
    t.getD 0 == 0xFFFF8000 := by decide +kernel
theorem test_move16 : goes (exec (.move16PostPost 0 1) (put 0x5000 [1, 2, 3, 4, 5, 6, 7, 8] (at_ []))) fun t =>
    t.longAt 0x5100 == 0x00010002 && t.wordAt 0x510E == 8 && t.regs.a0 == 0x5010 && t.regs.a1 == 0x5110 := by decide +kernel
theorem test_tas : goes (exec (.tas (.ind 0)) (at_ [])) fun t => t.byteAt 0x5000 == 0x80 && t.sr == 0x2004 := by decide +kernel
theorem test_cas : goes (exec (.cas .word 0 1 (.ind 0)) (d 0 0x1234 (d 1 0xABCD (put 0x5000 [0x1234] (at_ []))))) fun t =>
    t.wordAt 0x5000 == 0xABCD && t.sr == 0x2004 := by decide +kernel
theorem test_cas_fails : goes (exec (.cas .word 0 1 (.ind 0)) (put 0x5000 [0x1234] (at_ []))) fun t =>
    t.wordAt 0x5000 == 0x1234 && t.getD 0 == 0x1234 && !t.sr.getLsbD 2 := by decide +kernel
theorem test_cas2 : goes (exec (.cas2 false (.a 0) 0 2 (.a 1) 1 3) (d 2 7 (d 3 8 (at_ [])))) fun t =>
    t.wordAt 0x5000 == 7 && t.wordAt 0x5100 == 8 && t.sr == 0x2004 := by decide +kernel
theorem test_nop : goes (exec .nop (at_ [])) fun t => t.pc == 0x1002 := by decide +kernel

/-! Floating point: 1.0 is sign 0, exponent $3FFF, mantissa $8000000000000000. -/

/-- A positive value of an exponent and a mantissa. -/
def real (e : BitVec 15) (m : BitVec 64) : FpReal := { sign := false, exp := e, man := m }
/-- 1.0. -/
def one : FpReal := real 0x3FFF 0x8000000000000000

theorem test_fadd : goes (exec (.fadd (.reg 1) 0) (fp 0 one (fp 1 one (at_ [])))) fun t =>
    t.getFp 0 == real 0x4000 0x8000000000000000 && t.fp.fpsr == 0 && t.fp.fpiar == 0x1000 := by decide +kernel
theorem test_fadd_rounds : goes (exec (.fsadd (.reg 1) 0) (fp 0 one (fp 1 (real 0x3FE7 0x8000000000000000) (at_ [])))) fun t =>
    t.getFp 0 == one && t.fp.fpsr == 0x208 := by decide +kernel
theorem test_fdiv : goes (exec (.fdiv (.reg 1) 0) (fp 0 one (fp 1 (real 0x4000 0xC000000000000000) (at_ [])))) fun t =>
    t.getFp 0 == real 0x3FFD 0xAAAAAAAAAAAAAAAB := by decide +kernel
theorem test_fsqrt : goes (exec (.fsqrt (.reg 1) 0) (fp 1 (real 0x4001 0x8000000000000000) (at_ []))) fun t =>
    t.getFp 0 == real 0x4000 0x8000000000000000 := by decide +kernel
theorem test_fmul_negative_zero : goes (exec (.fmul (.ea .w (.imm [0xFFFF])) 0) (fp 0 (fpZero false) (at_ []))) fun t =>
    t.getFp 0 == fpZero true && t.fp.fpsr == 0x0C000000 := by decide +kernel
theorem test_fcmp : goes (exec (.fcmp (.ea .s (.imm [0x4000, 0])) 0) (fp 0 one (at_ []))) fun t =>
    t.fp.fpsr == 0x08000000 := by decide +kernel
theorem test_fsin_goes_to_software : goes (exec (.fsin (.ea .x (.ind 0)) 1) (put 0x2C [0, 0x2000] (at_ []))) fun t =>
    t.wordAt 0x7FFA == 0x202C && t.longAt 0x7FF6 == 0x1004 && t.longAt 0x7FFC == 0x5000 && t.pc == 0x2000 &&
    t.fpu.mode == .unimp && t.fpu.cmdreg1b == 0x488E := by decide +kernel
theorem test_fmove_out : goes (exec (.fmoveOut .d 0 0 (.ind 0)) (fp 0 one (at_ []))) fun t =>
    t.longAt 0x5000 == 0x3FF00000 && t.longAt 0x5004 == 0 := by decide +kernel
theorem test_fmove_out_rounds : goes (exec (.fmoveOut .w 0 0 (.dn 0)) (fp 0 (real 0x3FFF 0xC000000000000000) (at_ []))) fun t =>
    t.getD 0 == 2 && t.fp.fpsr.getLsbD 9 := by decide +kernel
theorem test_fmovem : goes (exec (.fmovemStore false false 3 (.preDec 0)) (fp 1 one (at_ []))) fun t =>
    t.regs.a0 == 0x4FE8 && t.longAt 0x4FF4 == 0x3FFF0000 && t.longAt 0x4FF8 == 0x80000000 := by decide +kernel
theorem test_fmove_control : goes (exec (.fmoveToCr 6 (.ind 0)) (put 0x5000 [0xFFFF, 0xFFFF, 0xFFFF, 0xFFFF] (at_ []))) fun t =>
    t.fp.fpcr == 0xFFF0 && t.fp.fpsr == 0x0FFFFFF8 := by decide +kernel
theorem test_fbcc : goes (exec (.fbccW 0x0F 0xFFFE) (at_ [])) fun t => t.pc == 0x1000 := by decide +kernel
theorem test_fdbcc : goes (exec (.fdbcc 0 1 0xFFFC) (at_ [])) fun t => t.pc == 0x1006 && t.getD 1 == 0xFFFF := by decide +kernel
theorem test_fscc : goes (exec (.fscc 0x0E (.dn 1)) (at_ [])) fun t => t.getD 1 == 0xFF := by decide +kernel
theorem test_fsave : goes (exec (.fsave (.ind 0)) ({ (at_ []) with fpu := { State.reset.fpu with mode := .unimp } } : State))
    fun t => t.pc == 0x1002 && t.fpu.mode == .idle := by decide +kernel
theorem test_frestore_null : goes (exec (.frestore (.ind 0)) (at_ [])) fun t => t.pc == 0x1002 && t.fpu.mode == .null := by
  decide +kernel

/-- The first step of a program placed at the program counter of the state after reset. -/
theorem test_first_step : goes (step (State.reset.withFetchWord 16 0x4E71)) fun t => t.pc == 2 := by decide +kernel
theorem test_first_step_rte : goes (step (State.reset.withFetchWord 16 0x4E73)) fun t => t.regs.isp == 8 := by decide +kernel
/-- The level 6 line of Table S1: recognised with the mask at 5. -/
theorem test_interrupt : goes (step { (sr 0x2500 (put 0x78 [0, 0x2000] (at_ [0x4E71]))) with
    env := { inputs := [{ quietInput with ipl := 6 }], bus := [], tea := [], outputs := [] } }) fun t =>
    t.sr == 0x2600 && t.pc == 0x2000 && t.wordAt 0x7FFE == 0x0078 &&
      t.env.outputs == [.interruptAcknowledge 6] := by decide +kernel
/-- An odd vector of TRAP is loaded as it is (60_exceptions.md R405). -/
theorem test_odd_vector : goes (exec (.trap 0) (put 0x80 [0, 0x2001] (at_ []))) (fun t => t.pc == 0x2001) = true := by
  decide +kernel
/-- At the next step it is an address error (60_exceptions.md R461). -/
theorem test_odd_pc : goes (step { put 0x0C [0, 0x3000] (at_ []) with pc := 0x2001 }) (fun t => t.pc == 0x3000 &&
    t.longAt (t.sp + 2) == 0x2001 && t.wordAt (t.sp + 6) == 0x200C && t.longAt (t.sp + 8) == 0x2000) = true := by decide +kernel
/-- Or an interrupt that is recognised there, with the odd program counter stacked (60_exceptions.md R410, R451). -/
theorem test_odd_pc_interrupt : goes (step { put 0x7C [0, 0x4000] (at_ []) with
    pc := 0x2001, env := { inputs := [{ quietInput with ipl := 7 }], bus := [], tea := [], outputs := [] } })
    (fun t => t.pc == 0x4000 && t.longAt (t.sp + 2) == 0x2001) = true := by decide +kernel

/-! The bus at each access, and code that the program writes (20_memory.md R86, R98, R103; 92 D4, D6, D8). -/

/-- The moves of the environment at the next transfers. -/
def bus (bs : List BusInput) (s : State) : State := { s with env := { s.env with bus := bs } }

/-- The second access ends in TEA and the first does not. -/
theorem test_tea_at_one_access : goes (exec (.chkW (.ind 0) 0)
    (bus [{ writes := [], tea := false }, { writes := [], tea := true }] (at_ []))) (fun t => t.env.bus == [{ writes := [], tea := true }] && match readOperand (.ind 0) .word 0x1002 t with
      | .error (.access f) u => f.acc.addr == 0x5000 && !f.atc && !f.ma && u.env.bus == []
      | _ => false) = true := by decide +kernel
/-- Another master writes a word at $5001 between the two transfers that read it. -/
theorem test_other_master_between_transfers : goes (exec (.chkW (.disp 0 1) 0) (d 0 0x01FF (put 0x5000 [0x0001, 0x0000] (bus
    [{ writes := [], tea := false }, { writes := [(0x5001, 9), (0x5002, 0xFF)], tea := false }] (at_ []))))) fun t =>
    t.pc == 0x1004 && t.wordAt 0x5001 == 0x09FF := by decide +kernel
/-- A word that the program has stored is not executed before CPUSH, CINV and a change of flow. -/
theorem test_modified_code : (match exec (.moveFromSr (.disp 0 0xC004)) (at_ [0x4E71, 0x4E71, 0x4E71]) with
    | .next t => match step { t with pc := 0x1004 } with
      | .refused r => r == .modifiedCode
      | _ => false
    | _ => false) = true := by decide +kernel
/-- After the three it is, whether it was invalidated or pushed first, and whether the change of flow is a branch or ORI to SR. -/
theorem test_modified_code_made_visible : ∀ x ∈ [(Instr.cinv 2 3 0, Instr.cpush 1 3 0), (.cpush 1 3 0, .cinv 2 3 0)],
    ∀ j ∈ [(Instr.fbccW 0x0F 0x0FFE), .oriSr 0],
      goes (exec x.1 { at_ [] with modified := [(0x5004, codeWritten)] }) (fun t => goes (exec x.2 t) fun u =>
        u.isModified [0x5004] && goes (exec j u) fun v => !v.isModified [0x5004]) = true := by decide +kernel
/-- Any PFLUSH ends the free answers of translation after reset (41_system_instructions.md R212; R611). -/
theorem test_pflush_page : goes (exec (.pflush 1 0) (at_ [])) (fun t => t.atcFlushed) = true := by decide +kernel

/-! Exceptions of floating point (42_fp_instructions.md R263, R290, R292; 43_fp_exceptions.md R304, R313, R316, R340). -/

theorem test_fmovecr_has_no_operand : goes (exec (.fmovecr 0x0F 2) (at_ [])) fun t => t.fpu.mode == .unimp && !t.fpu.e1 := by
  decide +kernel
theorem test_fadd_packed_tags_destination : goes (exec (.fadd (.ea .p (.ind 0)) 1) (fp 1 (fpInf true) (at_ []))) fun t =>
    t.fpu.pending == some ⟨55, .e1, false⟩ && t.fpu.dtag == tagInfinity && t.fpu.e1 := by decide +kernel
theorem test_fmove_out_snan : goes (exec (.fmoveOut .l 0 0 (.dn 0)) (fp 0 (real 0x7FFF 1) (at_ []))) fun t =>
    t.fpu.etemp == real 0x7FFF 0x4000000000000001 && t.wordAt 0x7FFA == 0x30D8 && t.longAt 0x7FF6 == 0x1004 := by decide +kernel
theorem test_fsmove_overflow : goes (exec (.fsmove (.reg 1) 0) (fp 0 one (fp 1 (real 0x407F 0x8000000000000001) (at_ []))))
    fun t => t.getFp 0 == one && t.fpu.pending == some ⟨53, .e1, false⟩ := by decide +kernel

/-! ### The statements' hypotheses can be met: one theorem for each statement that has any -/

/-- What computes to a value has one. -/
theorem exists_pair {ε α β : Type} {x : Except ε (α × β)} (h : x.toBool = true) : ∃ a b, x = .ok (a, b) := by
  cases x with
  | ok a => exact ⟨a.1, a.2, rfl⟩
  | error e => exact absurd h (by simp [Except.toBool])

/-- Placing bytes leaves translation off and the TEA ranges as they are. -/
theorem placeBytes_plain (bs : List Byte) {s : State} (a : Long) (h : s.plain) : (s.placeBytes a bs).plain := by
  induction bs generalizing s a with
  | nil => exact h
  | cons b bs ih => exact ih _ h

/-- What an access or a fetch answers. -/
def answers {ε α : Type} [DecidableEq α] (r : EStateM.Result ε State α) (v : α) : Bool :=
  match r with
  | .ok x _ => x == v
  | _ => false
theorem exists_answer {ε α : Type} [DecidableEq α] {r : EStateM.Result ε State α} {v : α} (h : answers r v = true) :
    ∃ t, r = .ok v t := by
  cases r with
  | ok x t => exact ⟨t, by rw [beq_iff_eq.mp h]⟩
  | error e t => exact absurd h (by simp [answers])
/-- Whether words are fetched one after the other. -/
def fetches (a : Long) : List Word → State → Bool
  | [], _ => true
  | w :: ws, s =>
    match fetchWord a s with
    | .ok x t => x == w && fetches (addrPlus a 2) ws t
    | _ => false
theorem exists_fetches (ws : List Word) {a : Long} {s : State} (h : fetches a ws s = true) : ∃ t, Fetches a ws s t := by
  induction ws generalizing a s with
  | nil => exact ⟨s, rfl⟩
  | cons w ws ih =>
    unfold fetches at h
    split at h
    · rename_i x u hu
      obtain ⟨hx, hr⟩ := Bool.and_eq_true_iff.mp h
      obtain ⟨t, ht⟩ := ih hr
      exact ⟨t, u, by rw [hu, beq_iff_eq.mp hx], ht⟩
    · exact absurd h (by simp)
/-- Whether it ends in an access fault. -/
def faults {α : Type} (r : EStateM.Result Abort State α) : Bool :=
  match r with
  | .error (.access _) _ => true
  | _ => false
theorem exists_fault {α : Type} {r : EStateM.Result Abort State α} (h : faults r = true) :
    ∃ f t, r = .error (.access f) t := by
  cases r with
  | ok x t => exact absurd h (by simp [faults])
  | error e t =>
    cases e with
    | access f => exact ⟨f, t, rfl⟩
    | _ => exact absurd h (by simp [faults])
/-- What an access that faults does to the state: nothing. -/
def unmoved {α : Type} (s : State) (r : EStateM.Result AccessFault State α) : Bool :=
  match r with
  | .error _ t => t == s
  | _ => false
theorem exists_unmoved {α : Type} {s : State} {r : EStateM.Result AccessFault State α} (h : unmoved s r = true) :
    ∃ f, r = .error f s := by
  cases r with
  | ok x t => exact absurd h (by simp [unmoved])
  | error f t => exact ⟨f, by rw [beq_iff_eq.mp h]⟩
/-- Whether it is refused for a word that the program has written. -/
def refuses {α : Type} (r : EStateM.Result Abort State α) : Bool :=
  match r with
  | .error (.refused .modifiedCode) _ => true
  | _ => false

theorem at_plain (ws : List Word) : (at_ ws).plain := placeBytes_plain _ _ ⟨rfl, rfl, rfl⟩

theorem witness_DecodeEncode : (Instr.movesLoad .byte
    (.index 0 (.full ⟨.a 1, true, 3⟩ false false (.long 1) (.post (.word 2)))) (.d 0)).wf = true := by decide
theorem witness_FirstWordShowsPrivilege : (Instr.fsave (.preDec 7)).wf = true ∧
    decode [0xF327] = .ok (.fsave (.preDec 7), []) ∧ privilegedInstr (.fsave (.preDec 7)) = true := by decide
/-- A privileged instruction of two words in supervisor mode, and an unprivileged one in user mode. -/
theorem witness_StepRunsDecoded :
    (∀ x ∈ [(at_ [0x4E72, 0x2000], Instr.stop 0x2000, [0x4E72, 0x2000]), (sr 0 (at_ [0x4E71]), .nop, [0x4E71])],
      x.1.run = .running ∧ x.1.input.rsti = false ∧ (x.1.applyInput.sample x.1.input.ipl).irq.pending = none ∧
      (srT1 x.1.sr && srT0 x.1.sr) = false ∧ x.1.pc.getLsbD 0 = false ∧ decode x.2.2 = .ok (x.2.1, []) ∧
      x.2.1.wf = true ∧ (srS x.1.sr = true ∨ privilegedWord (x.2.2.headD 0) = false)) ∧
    (∃ t, Fetches 0x1000 [0x4E72, 0x2000] ((at_ [0x4E72, 0x2000]).applyInput.sample 0) t) ∧
    ∃ t, Fetches 0x1000 [0x4E71] ((sr 0 (at_ [0x4E71])).applyInput.sample 0) t :=
  by
  refine ⟨?_, exists_fetches [0x4E72, 0x2000] ?_, exists_fetches [0x4E71] ?_⟩ <;> decide +kernel
/-- A TEA range of one byte. -/
def teaAt (a : Long) : List TeaRule := [⟨a, a, none, none, true, true⟩]
/-- A byte that the program has written. -/
def wrote (a : Long) (s : State) : State := { s with modified := [(a.toNat, codeWritten)] }
/-- The reserved trace mode, an odd program counter, an operation word and a second word that fault or have been written, a
privileged word in user mode, and words that decode to nothing. -/
theorem witness_StepChecksBeforeExecuting :
    let s1 (s : State) : State := s.applyInput.sample s.input.ipl
    let long := at_ [0x46F9, 0, 0]
    (∃ t, Fetches 0x1002 [0x05FF] (s1 (at_ [0xF200, 0x05FF])) t) ∧
    (∀ s ∈ [sr 0xE000 (at_ []), { at_ [] with pc := 0x1001 }, tea (teaAt 0x1000) (at_ []), wrote 0x1001 (at_ []),
        sr 0 (at_ [0x4E70]), tea (teaAt 0x1003) long, wrote 0x1002 long, at_ [0x46C9], at_ [0xFE00], at_ [0xF200, 0x05FF]],
      s.run = .running ∧ s.input.rsti = false ∧ (s1 s).irq.pending = none) ∧
    (∀ x ∈ [((0x1000 : Long), tea (teaAt 0x1000) (at_ [])), (0x1002, tea (teaAt 0x1003) long)],
      faults (fetchWord x.1 (s1 x.2)) = true) ∧
    (∀ x ∈ [((0x1000 : Long), wrote 0x1001 (at_ [])), (0x1002, wrote 0x1002 long)],
      refuses (fetchWord x.1 (s1 x.2)) = true) ∧
    (∀ x ∈ [(sr 0 (at_ [0x4E70]), (0x4E70 : Word)), (tea (teaAt 0x1003) long, 0x46F9), (wrote 0x1002 long, 0x46F9),
        (at_ [0x46C9], 0x46C9), (at_ [0xFE00], 0xFE00), (at_ [0xF200, 0x05FF], 0xF200)],
      answers (fetchWord 0x1000 (s1 x.1)) x.2 = true) ∧
    (∀ x ∈ [([(0x46F9 : Word)], DecodeErr.more), ([0x46C9], .illegal), ([0xF200], .more)], decode x.1 = .error x.2) ∧
    (∀ x ∈ [([(0xFE00 : Word)], (0xE00 : BitVec 12)), ([0xF200, 0x05FF], 0x200)], decode x.1 = .ok (.fLine x.2, x.1.tail)) ∧
    (srT1 (sr 0xE000 (at_ [])).sr && srT0 (sr 0xE000 (at_ [])).sr) = true ∧ (srT1 long.sr && srT0 long.sr) = false ∧
    (0x1001 : Long).getLsbD 0 = true ∧ long.pc.getLsbD 0 = false ∧ srS (sr 0 (at_ [])).sr = false ∧ srS long.sr = true ∧
    privilegedWord 0x4E70 = true := by
  refine ⟨exists_fetches _ ?_, ?_⟩ <;> decide +kernel
/-- A state whose next boundary has an input. -/
def input (i : BoundaryInput) (s : State) : State := { s with env := { s.env with inputs := [i] } }
theorem witness_BoundaryEvents :
    let mask (s : State) : Nat := (s.sr.extractLsb' 8 3).toNat
    let latch (s : State) : Bool := s.irq.nmiLatch || (s.input.ipl == 7 && s.irq.iplPrev != 7)
    (input { quietInput with rsti := true } (at_ [])).input.rsti = true ∧
    ({ at_ [] with run := .inReset } : State).input.rsti = false ∧ ({ at_ [] with run := .halted } : State).input.rsti = false ∧
    (let s := input { quietInput with ipl := 6 } (sr 0x2500 (at_ [])); mask s < s.input.ipl.toNat ∧ s.run = .running) ∧
    (let s := input { quietInput with ipl := 7 } (sr 0x2700 (at_ [])); s.input.ipl.toNat ≤ mask s ∧ latch s = true) ∧
    (let s : State := { sr 0x2000 (at_ []) with run := .stopped }; s.input.ipl.toNat ≤ mask s ∧ latch s = false) := by
  decide +kernel
theorem witness_TraceFollowsInstruction :
    ({ at_ [] with tracePending := true } : State).tracePending = true ∧ (at_ []).tracePending = false := by decide +kernel
/-- A state with the invariant and the NOP that is its next step. -/
theorem witness_StepKeepsInv : (at_ [0x4E71]).Inv ∧ ∃ t, step (at_ [0x4E71]) = .next t := by
  refine ⟨⟨⟨by decide +kernel, by decide +kernel⟩, by unfold srOk; decide +kernel, ?_, by unfold fpOk; decide +kernel, ?_,
    ?_, by unfold traceOk; rfl⟩,
    _, rfl⟩
  · refine ⟨by decide +kernel, by decide +kernel, ?_⟩
    have h (m : Long) : (0 : Long) &&& m = 0 := by simp
    exact ⟨h _, h _, h _, h _, h _, h _⟩
  · intro p hp
    have h : (at_ [0x4E71]).fpu.pending = none := rfl
    exact absurd (h.symm.trans hp) (by simp)
  · exact fun _ h => absurd h (by decide +kernel)
theorem witness_UserModeIsolation : srS (sr 0 (at_ [0x4E71])).sr = false ∧
    goes (step (sr 0 (at_ [0x4E71]))) (fun t => !srS t.sr) = true := by decide +kernel
theorem witness_PrivilegeViolation : privilegedInstr .rte = true ∧ srS (sr 0 (at_ [])).sr = false := by decide +kernel
/-- An even vector, an odd one, and an odd one of an address error. -/
theorem witness_ExceptionEntry :
    let even := put 0x80 [0, 0x2000] (at_ [])
    let odd := put 0x80 [0, 0x2001] (put 0x0C [0, 0x2001] (at_ []))
    even.plain ∧ odd.plain ∧ (Memory.wf even.mem ∧ Memory.wf even.modified) ∧ (Memory.wf odd.mem ∧ Memory.wf odd.modified) ∧
    (even.longAt (even.ctl.vbr + 4 * 32)).getLsbD 0 = false ∧ (odd.longAt (odd.ctl.vbr + 4 * 32)).getLsbD 0 = true ∧
    (odd.longAt (odd.ctl.vbr + 4 * 3)).getLsbD 0 = true := by
  refine ⟨⟨rfl, rfl, rfl⟩, ⟨rfl, rfl, rfl⟩, ?_⟩
  decide +kernel
/-- M = 0 and M = 1; an even vector and an odd one. -/
theorem witness_InterruptEntry :
    let s := put 0x78 [0, 0x2000] (at_ [])
    let odd := put 0x78 [0, 0x2001] (at_ [])
    s.plain ∧ odd.plain ∧ (sr 0x3000 s).plain ∧ (Memory.wf s.mem ∧ Memory.wf s.modified) ∧
    (Memory.wf odd.mem ∧ Memory.wf odd.modified) ∧ srM s.sr = false ∧ srM (sr 0x3000 s).sr = true ∧
    (s.longAt (s.ctl.vbr + 4 * 30)).getLsbD 0 = false ∧ (odd.longAt (odd.ctl.vbr + 4 * 30)).getLsbD 0 = true := by
  refine ⟨⟨rfl, rfl, rfl⟩, ⟨rfl, rfl, rfl⟩, ⟨rfl, rfl, rfl⟩, ?_⟩
  decide +kernel
/-- An even and an odd vector; operands of both sizes that fault, read and written. -/
theorem witness_AccessFaultFrame :
    let even := put 8 [0, 0x2000] (at_ [])
    let odd := put 8 [0, 0x2001] (at_ [])
    let s := tea (teaAt 0x5000) (at_ [])
    even.plain ∧ odd.plain ∧ (Memory.wf even.mem ∧ Memory.wf even.modified) ∧ (Memory.wf odd.mem ∧ Memory.wf odd.modified) ∧
    (even.longAt (even.ctl.vbr + 8)).getLsbD 0 = false ∧ (odd.longAt (odd.ctl.vbr + 8)).getLsbD 0 = true ∧
    (∃ f t, readOperand (.postInc 0) .word (addrPlus s.pc 2) s = .error (.access f) t) ∧
    (∃ f t, readOperand (.ind 0) .long (addrPlus s.pc 2) s = .error (.access f) t) ∧
    (∃ f t, readOperand (.ind 0) .long (addrPlus s.pc 4) s = .error (.access f) t) ∧
    (∃ f t, writeOperand (.ind 0) .word (addrPlus s.pc 2) (s.sr.setWidth 32) s = .error (.access f) t) ∧ srS s.sr = true ∧
    (∃ f t, fpSource (.ea .x (.ind 0)) s.fpAwake = .error (.access f) t) ∧ s.fpu.pending = none := by
  refine ⟨⟨rfl, rfl, rfl⟩, ⟨rfl, rfl, rfl⟩, by decide +kernel, by decide +kernel, by decide +kernel, by decide +kernel,
    exists_fault (by decide +kernel), exists_fault (by decide +kernel), exists_fault (by decide +kernel),
    exists_fault (by decide +kernel), by decide +kernel, exists_fault (by decide +kernel), by decide +kernel⟩
theorem witness_DoubleBusFaultHalts :
    let s := tea [⟨0, 0xFFFFFFFF, none, none, false, true⟩] (at_ [])
    s.translationOff = true ∧ ∃ r ∈ s.env.tea, r.lo = 0 ∧ r.hi = 0xFFFFFFFF ∧ r.tt = none ∧ r.tm = none ∧ r.writes = true := by
  decide +kernel
theorem witness_ResetException :
    (at_ []).env.tea = [] ∧ (at_ []).env.bus = [] ∧ ((at_ []).longAt 4).getLsbD 0 = false ∧
      ((put 4 [0, 1] (at_ [])).longAt 4).getLsbD 0 = true := by
  decide +kernel
/-- A frame with its format at the interrupt stack pointer. -/
def framed (fmt : BitVec 4) (pc : Word) : State := put 0x8000 [0x2000, 0, pc, fmt ++ 0x080#12] (at_ [])
theorem framed_plain (fmt : BitVec 4) (pc : Word) : (framed fmt pc).plain := placeBytes_plain _ _ (at_plain _)
theorem witness_RteReturns :
    (∀ f pc, (framed f pc).plain) ∧ srS (framed 0 0).sr = true ∧
    (∀ x ∈ [(framed 0 0x2000, 0, false), (framed 2 0x2000, 2, false), (framed 3 0x2000, 3, false), (framed 0 0x2001, 0, true),
        (framed 1 0, 1, false), (framed 4 0, 4, false), (framed 15 0, 15, false)],
      (x.1.wordAt (x.1.sp + 6)).extractLsb' 12 4 = x.2.1 ∧ (x.1.longAt (x.1.sp + 2)).getLsbD 0 = x.2.2) := by
  refine ⟨framed_plain, ?_⟩
  decide +kernel
/-- An access error frame with its special status word. -/
def framed7 (ssw : Word) : State :=
  { put 0x8000 [0x2000, 0, 0x2000, 0x7008, 0, 0x3000, ssw] (at_ []) with
    fpu := { State.reset.fpu with pending := some ⟨53, .e1, true⟩ } }
/-- The same with nothing pending, or with an odd program counter. -/
def framed7None (ssw : Word) : State := { framed7 ssw with fpu := State.reset.fpu }
def framed7Odd (ssw : Word) : State := put 0x8004 [0x2001] (framed7 ssw)
theorem framed7_plain (ssw : Word) : (framed7 ssw).plain :=
  placeBytes_plain (bytesOfWords [0x2000, 0, 0x2000, 0x7008, 0, 0x3000, ssw]) (s := at_ []) 0x8000 (at_plain _)
theorem witness_RteAccessError :
    (∀ w, (framed7 w).plain ∧ (framed7None w).plain ∧ (framed7Odd w).plain) ∧
    ∀ b ∈ [0, 1, 2, 4, 6, 8, 10, 3, 5, 9, 12, (15 : BitVec 4)],
      (∀ s ∈ [framed7 (b ++ 0x185#12), framed7None (b ++ 0x185#12), framed7Odd (b ++ 0x185#12)],
        srS s.sr = true ∧ (s.wordAt (s.sp + 6)).extractLsb' 12 4 = 7 ∧ (s.wordAt (s.sp + 12)).extractLsb' 12 4 = b) ∧
      ((framed7 (b ++ 0x185#12)).longAt 0x8002).getLsbD 0 = false ∧
      (framed7 (b ++ 0x185#12)).fpu.pending = some ⟨53, .e1, true⟩ ∧ (framed7None (b ++ 0x185#12)).fpu.pending = none ∧
      ((framed7Odd (b ++ 0x185#12)).longAt 0x8002).getLsbD 0 = true := by
  refine ⟨fun w => ⟨framed7_plain w, framed7_plain w, placeBytes_plain _ _ (framed7_plain w)⟩, ?_⟩
  decide +kernel
/-- An address error in user mode, with the stack at the top of memory. -/
theorem witness_ExceptionReturn :
    let s : State := sr 0x0015 { at_ [] with regs := { State.reset.regs with isp := 0 } }
    let e : Exc := { vector := 3, cls := .address, stackedPc := 0x1000, format := .two 0x1002 }
    s.plain ∧ s.memOk ∧ e.inPlace = none ∧ e.stackedPc.getLsbD 0 = false ∧ ∃ t u, s.tryException e = .ok (t, u) := by
  refine ⟨⟨rfl, rfl, rfl⟩, ⟨by decide +kernel, by decide +kernel⟩, rfl, by decide +kernel, exists_pair (by decide +kernel)⟩
/-- One frame on the interrupt stack, and two that touch. -/
theorem witness_InterruptReturn :
    let s := at_ []
    let m : State := sr 0x3000 { s with regs := { s.regs with msp := 0x8008 } }
    s.plain ∧ m.plain ∧ s.memOk ∧ s.pc.getLsbD 0 = false ∧ srM s.sr = false ∧
    (∃ t u, s.tryInterrupt 7 31 = .ok (t, u)) ∧ srM m.sr = true ∧ 8 ≤ (m.regs.msp - m.regs.isp).toNat ∧
    8 ≤ (m.regs.isp - m.regs.msp).toNat ∧ ∃ t u, m.tryInterrupt 1 25 = .ok (t, u) := by
  refine ⟨⟨rfl, rfl, rfl⟩, ⟨rfl, rfl, rfl⟩, ⟨by decide +kernel, by decide +kernel⟩, by decide +kernel, by decide +kernel,
    exists_pair (by decide +kernel), by decide +kernel, by decide +kernel, by decide +kernel, exists_pair (by decide +kernel)⟩
/-- A long word that wraps around the end of memory, a TEA range of one byte, a transfer that ends in TEA, and another master
that writes both bytes of a word at an odd address between its two transfers. -/
theorem witness_MemoryAccesses :
    let acc : Access := { addr := 0xFFFFFFFF, size := .long, tt := 0, tm := 5, write := true, locked := false }
    let r : TeaRule := ⟨0xFFFFFFFF, 0xFFFFFFFF, some 0, some 5, false, true⟩
    let word : Access := { acc with size := .word, write := false }
    let ws : List (Long × Byte) := [(0xFFFFFFFF, 1), (0, 2)]
    let moved (bus : List BusInput) : State := { at_ [] with env := { (at_ []).env with bus := bus } }
    (at_ []).plain ∧ (Memory.wf (at_ []).mem ∧ Memory.wf (at_ []).modified) ∧ acc.size = .ofSize .long ∧
    (tea [r] (at_ [])).translationOff = true ∧ r ∈ (tea [r] (at_ [])).env.tea ∧ r.tt = some acc.tt ∧ r.tm = some acc.tm ∧
    r.lo.toNat ≤ acc.addr.toNat ∧ acc.addr.toNat ≤ r.hi.toNat ∧ (if acc.write then r.writes else r.reads) = true ∧
    (moved [{ writes := ws, tea := true }]).translationOff = true ∧ (moved [{ writes := ws, tea := true }]).busNow.tea = true ∧
    (let s := moved [{ writes := [], tea := false }, { writes := ws, tea := false }]
     s.translationOff = true ∧ s.env.tea = [] ∧
      s.env.bus = { writes := [], tea := false } :: { writes := ws, tea := false } :: []) ∧
    word.size = .word ∧ word.addr.getLsbD 0 = true ∧ word.locked = false := by
  refine ⟨⟨rfl, rfl, rfl⟩, ?_⟩
  decide +kernel
theorem witness_plain : (at_ []).plain ∧ (at_ []).memOk := ⟨⟨rfl, rfl, rfl⟩, by decide +kernel, by decide +kernel⟩
theorem witness_EffectiveAddresses : (at_ []).plain := witness_plain.1
theorem witness_OperandsReadAndWritten : (at_ []).plain ∧ (at_ []).memOk ∧
    locate (.dn 1) 1 0x1002 (at_ []) = .ok ⟨.d 1, none⟩ (at_ []) ∧ locate (.an 7) 2 0x1002 (at_ []) = .ok ⟨.a 7, none⟩ (at_ []) ∧
    locate (.preDec 7) 1 0x1002 (at_ []) = .ok ⟨.mem 0x7FFE, some (7, 0x7FFE)⟩ (at_ []) ∧
    locate (.imm [1]) 2 0x1002 (at_ []) = .ok ⟨.imm [1], none⟩ (at_ []) := ⟨witness_plain.1, witness_plain.2, rfl, rfl, rfl, rfl⟩
/-- A negative value, one above the bound, and one equal to it. -/
theorem witness_ChkChecksBound : (∀ v, readOperand (.dn 1) .word 0x1002 (d 0 v (d 1 0x10 (at_ []))) =
      .ok 0x10 (d 0 v (d 1 0x10 (at_ [])))) ∧
    signedOf .word 0xFFFF < 0 ∧ 0 ≤ signedOf .word 0x11 ∧ signedOf .word 0x10 < signedOf .word 0x11 ∧
    signedOf .word 0x10 ≤ signedOf .word 0x10 := ⟨fun _ => rfl, by decide⟩
/-- Bounds in signed order, in unsigned order only, and in none, with values on and beside them. -/
theorem witness_Chk2ChecksBounds : (∀ w v, locate (.ind 0) 1 0x1004 (d 0 v (put 0x5000 [w] (at_ []))) =
      .ok ⟨.mem 0x5000, none⟩ (d 0 v (put 0x5000 [w] (at_ [])))) ∧
    (readPlace .byte (.mem 0x5000) (put 0x5000 [0x10F0] (at_ [])) = .ok 0x10 (put 0x5000 [0x10F0] (at_ []))) ∧
    (readPlace .byte (.mem 0x5001) (put 0x5000 [0x10F0] (at_ [])) = .ok 0xF0 (put 0x5000 [0x10F0] (at_ []))) ∧
    (let x := sextLong .byte
     ((x 0xF0).toInt ≤ (x 0xF0).toInt ∧ (x 0xF0).toInt ≤ (x 0x10).toInt) ∧ (x 0x11).toInt > (x 0x10).toInt ∧
     ((x 0xF0).toInt < (x 0x10).toInt ∧ (x 0x10).toNat ≤ (x 0x80).toNat ∧ (x 0x80).toNat ≤ (x 0xF0).toNat ∧
      (x 0x10).toNat ≤ (x 0xF0).toNat ∧ (x 0x0F).toNat < (x 0x10).toNat) ∧
     (x 0x10).toInt < (x 0x20).toInt ∧ (x 0x10).toNat < (x 0x20).toNat) := ⟨fun _ _ => rfl, rfl, rfl, by decide⟩
/-- A zero divisor, the least quotient that fits, and the greatest that does not. -/
theorem witness_DivideWords : (∀ x ∈ [((7 : Long), (0x10000 : Long)), (0xFFFF8000, 1), (0xFFFF7FFF, 1)],
      ∃ s, readOperand (.dn 1) .word 0x1002 s = .ok (zextLong .word x.2) s ∧ s.getD 0 = x.1) ∧
    zextLong .word 0x10000 = 0 ∧
    (let divisor : Int := ((zextLong .word 1).setWidth 16).toInt
     divisor ≠ 0 ∧ (0xFFFF8000 : Long).toInt = -0x8000 * divisor + 0 ∧ (-0x8000 : Int) ≤ -0x8000 ∧
      (0xFFFF7FFF : Long).toInt = -0x8001 * divisor + 0) ∧ |(0 : Int)| < |1| :=
  ⟨fun x _ => ⟨d 0 x.1 (d 1 x.2 (at_ [])), rfl, rfl⟩, by decide, by decide, by simp⟩
/-- A zero divisor, and the 64-bit dividends of the least quotient that fits and the next below it. -/
theorem witness_DivideLongs : (∀ v w, readOperand (.dn 1) .long 0x1004 (d 0 v (d 1 w (at_ []))) =
      .ok w (d 0 v (d 1 w (at_ [])))) ∧
    (let divisor : Int := (1 : Long).toInt
     divisor ≠ 0 ∧ ((0xFFFFFFFF : Long) ++ (0x80000000 : Long)).toInt = -0x80000000 * divisor + 0 ∧
      ((0xFFFFFFFF : Long) ++ (0x7FFFFFFF : Long)).toInt = -0x80000001 * divisor + 0) ∧ |(0 : Int)| < |1| :=
  ⟨fun _ _ => rfl, by decide, by simp⟩
theorem witness_supervisor : srS (at_ []).sr = true ∧ srS (sr 0 (at_ [])).sr = false := by decide +kernel
theorem witness_MoveUsp : srS (at_ []).sr = true ∧ srS (sr 0 (at_ [])).sr = false := witness_supervisor
theorem witness_ResetAndStop : ∀ x ∈ [(sr 0x2000 (at_ []), true), (sr 0xE000 (at_ []), true), (sr 0xA000 (at_ []), false),
    (sr 0x6000 (at_ []), false)], srS x.1.sr = true ∧ (x.1.sr.getLsbD 15 == x.1.sr.getLsbD 14) = x.2 := by
  decide +kernel
theorem witness_StatusRegisterMoves : srS (at_ []).sr = true ∧
    readOperand (.imm [0xFFFF]) .word 0x1002 (at_ []) = .ok 0xFFFF (at_ []) ∧
    writeOperand (.dn 0) .word 0x1002 0x2000 (at_ []) = .ok () ((at_ []).setDLow .word 0 0x2000) :=
  ⟨witness_supervisor.1, rfl, rfl⟩
theorem witness_MovecMovesControlRegisters : srS (at_ []).sr = true := witness_supervisor.1
theorem witness_MovesMoves : srS (at_ []).sr = true ∧
    locate (.postInc 0) 4 0x1004 (at_ []) = .ok ⟨.mem 0x5000, some (0, 0x5004)⟩ (at_ []) ∧
    (let acc (w : Bool) : Access := { addr := 0x5000, size := .long, tt := 2, tm := 0, write := w, locked := false }
     (∃ t, load (acc false) (at_ []) = .ok 0 t) ∧ ∃ t, store (acc true) 7 (at_ []) = .ok () t) :=
  ⟨witness_supervisor.1, rfl, exists_answer (by decide +kernel), exists_answer (by decide +kernel)⟩
/-- A byte of each kind: not recorded, written, pushed first, invalidated first, and with two of the acts. -/
theorem witness_CacheAndMmuMaintenance :
    let s : State := { at_ [] with modified := [(16, 1), (17, 3), (18, 5), (19, 7), (20, 11), (21, 13)] }
    srS s.sr = true ∧ s.memOk ∧ s.recordAt 15 = 0 ∧ s.recordAt 16 ||| 8 ≠ 15 ∧ s.recordAt 19 ||| 8 = 15 ∧
    s.recordAt 20 ||| 4 = 15 ∧ s.recordAt 21 ||| 2 = 15 := by unfold State.memOk; decide +kernel
/-- An effective address that is computed, and one that RTE handed over; D1's store faults after D0's, and after A7's below A0. -/
theorem witness_MovemStores : (at_ []).translationOff = true ∧ (at_ []).env.bus = [] ∧ (at_ []).memOk ∧ (at_ []).env.tea = [] ∧
    (Ea.ind 0).kind ∉ [EaKind.preDec, .postInc, .pcDisp, .pcIndex] ∧
    locate (.ind 0) 4 (addrPlus (at_ []).pc 4) (at_ []) = .ok ⟨.mem 0x5000, none⟩ (at_ []) ∧
    (let s : State := { at_ [] with movemRestart := some 0x5004 }
     (Ea.index 0 default).kind = .index ∧ s.movemRestart.isSome ∧ s.movemRestart = some 0x5004) ∧
    ∀ x ∈ [((0x5000 : Long), (0x5004 : Long)), (0x4FFC, 0x4FF8)],
      let s := tea (teaAt x.2) (at_ [])
      let put4 (a : Long) : Access := { addr := a, size := .long, tt := 0, tm := tmData s.sr, write := true, locked := false }
      s.translationOff = true ∧ s.env.bus = [] ∧ locate (.ind 0) 4 (addrPlus s.pc 4) s = .ok ⟨.mem 0x5000, none⟩ s ∧
      (∃ t, store (put4 x.1) (s.getR (.d 0)) s = .ok () t) ∧ ∃ f, store (put4 x.2) (s.getR (.d 1)) s = .error f s := by
  refine ⟨rfl, rfl, witness_plain.2, rfl, by decide, rfl, by decide +kernel, fun x hx => ?_⟩
  have hx : x = (0x5000, 0x5004) ∨ x = (0x4FFC, 0x4FF8) := by simpa using hx
  rcases hx with rfl | rfl <;>
    exact ⟨rfl, rfl, rfl, exists_answer (by decide +kernel), exists_unmoved (by decide +kernel)⟩
theorem witness_MovemLoads : (at_ []).translationOff = true ∧ (at_ []).env.bus = [] ∧ (at_ []).env.tea = [] ∧
    (Ea.ind 0).kind ∉ [EaKind.preDec, .postInc] ∧
    locate (.pcDisp 0x10) 4 (addrPlus (at_ []).pc 4) (at_ []) = .ok ⟨.mem 0x1014, none⟩ (at_ []) ∧
    (let s : State := { at_ [] with movemRestart := some 0x5004 }
     (Ea.pcIndex default).kind ∈ [EaKind.index, .pcDisp, .pcIndex] ∧ s.movemRestart.isSome ∧ s.movemRestart = some 0x5004) ∧
    (let s := tea (teaAt 0x5004) (at_ [])
     let at4 (a : Long) : Access := { addr := a, size := .long, tt := 0, tm := tmData s.sr, write := false, locked := false }
     s.translationOff = true ∧ s.env.bus = [] ∧ load (at4 0x5000) s = .ok 0 s ∧
      ∃ f, load (at4 0x5004) s = .error f s) := by
  refine ⟨rfl, rfl, rfl, by decide, rfl, by decide +kernel, rfl, rfl, ?_, exists_unmoved (by decide +kernel)⟩
  exact rfl
theorem witness_Move16CopiesLine : (at_ []).plain ∧ (at_ []).memOk := witness_plain
theorem witness_TasSetsBit7 : (at_ []).plain ∧ (at_ []).memOk ∧
    locate (.dn 3) 1 (addrPlus (at_ []).pc 2) (at_ []) = .ok ⟨.d 3, none⟩ (at_ []) ∧
    locate (.postInc 7) 1 (addrPlus (at_ []).pc 2) (at_ []) = .ok ⟨.mem 0x8000, some (7, 0x8002)⟩ (at_ []) :=
  ⟨witness_plain.1, witness_plain.2, rfl, rfl⟩
theorem witness_CasComparesAndSwaps : (at_ []).plain ∧ (at_ []).memOk ∧
    locate (.ind 0) 4 (addrPlus (at_ []).pc 4) (at_ []) = .ok ⟨.mem 0x5000, none⟩ (at_ []) ∧
    (at_ []).valueAt 0x5000 .long = zextLong .long ((at_ []).getD 0) ∧
    (d 0 1 (at_ [])).valueAt 0x5000 .long ≠ zextLong .long ((d 0 1 (at_ [])).getD 0) :=
  ⟨witness_plain.1, witness_plain.2, rfl, by decide +kernel⟩
/-- Both operands equal, the first different, the second alone different. -/
theorem witness_Cas2ComparesAndSwaps : (at_ []).plain ∧ (at_ []).memOk ∧
    (at_ []).valueAt ((at_ []).getR (.a 0)) .word = zextLong .word ((at_ []).getD 0) ∧
    (at_ []).valueAt ((at_ []).getR (.a 1)) .word = zextLong .word ((at_ []).getD 1) ∧
    (d 0 1 (at_ [])).valueAt 0x5000 .word ≠ zextLong .word ((d 0 1 (at_ [])).getD 0) ∧
    (d 1 1 (at_ [])).valueAt 0x5100 .word ≠ zextLong .word ((d 1 1 (at_ [])).getD 1) :=
  ⟨witness_plain.1, witness_plain.2, by decide +kernel⟩

/-! Floating point. -/

theorem witness_PendingExceptionReported : reportsPending .fnop = true ∧ reportsPending (.fsin (.reg 0) 0) = true ∧
    (framed7 0).fpu.pending = some ⟨53, .e1, true⟩ := by decide +kernel
/-- FP1 as the source, with any value. -/
theorem source_reg (x y : FpReal) : (fp 0 y (fp 1 x (at_ []))).fpu.pending = none ∧
    fpSource (.reg 1) (fp 0 y (fp 1 x (at_ []))).fpAwake = .ok (operandOf x, none) (fp 0 y (fp 1 x (at_ []))) := ⟨rfl, rfl⟩
theorem witness_FpArithmeticCompletes :
    fpArithmetic (.fadd (.reg 1) 0) = some (.add, none, 0x22, .reg 1, 0) ∧ (roundPrec none (at_ []).fp.fpcr).isSome = true ∧
    (fp 0 one (fp 1 one (at_ []))).fpu.pending = none ∧
    fpSource (.reg 1) (fp 0 one (fp 1 one (at_ []))).fpAwake = .ok (operandOf one, none) (fp 0 one (fp 1 one (at_ []))) :=
  ⟨rfl, rfl, source_reg one one⟩
/-- The least normalized number of single precision, a boundary of the range. -/
def leastSingle : FpReal := real 0x3F81 0x8000000000000000
theorem fpValue_one : fpValue one = 1 := by
  simp [fpValue, one, real]
  norm_num
theorem fpValue_leastSingle : fpValue leastSingle = 1 / 2 ^ 126 := by
  simp [fpValue, leastSingle, real]
  norm_num
/-- Half of it, the least number above the range, and a number that single precision has no room for. -/
def tinySingle : FpReal := real 0x3F80 0x8000000000000000
def hugeSingle : FpReal := real 0x407F 0x8000000000000000
def fine : FpReal := real 0x3FFF 0x8000000000000001
theorem fpValue_tinySingle : fpValue tinySingle = 1 / 2 ^ 127 := by
  simp [fpValue, tinySingle, real]
  norm_num
theorem fpValue_hugeSingle : fpValue hugeSingle = 2 ^ 128 := by
  simp [fpValue, hugeSingle, real]
  norm_num
theorem fpValue_fine : fpValue fine = 1 + 1 / 2 ^ 63 := by
  simp [fpValue, fine, real]
  norm_num
/-- The range of single precision at both ends: one too small and one too large, and the least and the greatest that are
neither. -/
theorem single_ends : (∀ v, v = fpValue tinySingle → TooSmall .s (· ≤ v) (v ≤ ·)) ∧
    (∀ v, v = fpValue leastSingle → ¬ TooSmall .s (· ≤ v) (v ≤ ·)) ∧ TooLarge .s (fpValue hugeSingle) ∧
    ¬ TooLarge .s (normalRange .s).2 := by
  simp only [TooSmall, TooLarge, forall_eq, fpValue_tinySingle, fpValue_leastSingle, fpValue_hugeSingle]
  norm_num [normalRange, expRange, Prec.bits, zpow_neg]
/-- Inexact results with the trap disabled and enabled need no more than these numbers and FPCR. -/
theorem witness_FpCorrectlyRounded :
    fpArithmetic (.fsmove (.reg 1) 0) = some (.move, some .s, 0x40, .reg 1, 0) ∧
    fpArithmetic (.fsadd (.reg 1) 0) = some (.add, some .s, 0x62, .reg 1, 0) ∧ FpOp.add.dyadic = true ∧
    roundPrec (some .s) (at_ []).fp.fpcr = some .s ∧
    (∀ x ∈ [leastSingle, tinySingle, hugeSingle, fine, one], isNormal x = true) ∧ isZero (fpZero true) = true ∧
    (∀ x ∈ [leastSingle, tinySingle, hugeSingle, fine], exactResult .move (fpValue one) (fpValue x) ≠ 0) ∧
    exactResult .add (fpValue one) (fpValue one) ≠ 0 ∧
    (at_ []).fp.fpcr.getLsbD 9 = false ∧ (0x200 : Long).getLsbD 9 = true := by
  refine ⟨rfl, rfl, rfl, rfl, by decide, by decide, ?_, ?_, by decide +kernel, by decide⟩
  · simp only [exactResult, List.forall_mem_cons, fpValue_leastSingle, fpValue_tinySingle, fpValue_hugeSingle, fpValue_fine]
    norm_num
  · norm_num [exactResult, fpValue_one]
/-- 1, 2^-254 and 2^300: a root in the range of single precision, one too small and one too large. -/
theorem witness_FpSquareRoot :
    fpArithmetic (.fssqrt (.reg 1) 0) = some (.sqrt, some .s, 0x41, .reg 1, 0) ∧
    (∀ x ∈ [one, real 0x3F01 0x8000000000000000, real 0x412B 0x8000000000000000], isNormal x = true ∧ x.sign = false) ∧
    (let below (v q : ℚ) : Prop := q ≤ 0 ∨ q * q ≤ v
     let above (v q : ℚ) : Prop := 0 ≤ q ∧ v ≤ q * q
     ¬ TooSmall .s (below (fpValue one)) (above (fpValue one)) ∧
      TooSmall .s (below (fpValue (real 0x3F01 0x8000000000000000))) (above (fpValue (real 0x3F01 0x8000000000000000))) ∧
      fpValue (real 0x412B 0x8000000000000000) = 2 ^ 150 * 2 ^ 150 ∧ TooLarge .s (2 ^ 150)) := by
  have h1 : fpValue (real 0x3F01 0x8000000000000000) = 1 / 2 ^ 254 := by
    simp [fpValue, real]
    rw [show (2 : ℚ) ^ 317 = 2 ^ 63 * 2 ^ 254 by rw [← pow_add]]
    norm_num
  have h2 : fpValue (real 0x412B 0x8000000000000000) = 2 ^ 150 * 2 ^ 150 := by
    simp [fpValue, real]
    norm_num
  refine ⟨rfl, by decide, ?_⟩
  simp only [h1, h2, TooSmall, TooLarge, fpValue_one]
  norm_num [normalRange, expRange, Prec.bits, zpow_neg]
/-- A signaling NAN and a quiet one; the trap of the signaling one disabled and enabled. -/
theorem witness_FpNanOperands :
    isSnan (real 0x7FFF 1) = true ∧ tagOf (real 0x7FFF 1) ≠ tagUnnormal ∧ isNan (real 0x7FFF 0x4000000000000000) = true ∧
    isSnan (real 0x7FFF 0x4000000000000000) = false ∧ (at_ []).fp.fpcr.getLsbD 14 = false ∧
    ({ at_ [] with fp := { (at_ []).fp with fpcr := 0x4000 } } : State).fp.fpcr.getLsbD 14 = true := by decide +kernel
/-- The classes that its clauses speak of, and two numbers whose sum is 0. -/
theorem witness_FpSpecialOperands : (∀ b, isInf (fpInf b) = true ∧ isZero (fpZero b) = true) ∧ isNormal one = true ∧
    isNormal { one with sign := true } = true ∧ fpValue one + fpValue { one with sign := true } = 0 ∧
    fpValue (fpZero true) + fpValue (fpZero false) = 0 := by
  refine ⟨by decide, by decide, by decide, ?_, ?_⟩ <;> norm_num [fpValue, one, real, fpZero]
/-- An unnormalized source, one of packed decimal, a denormalized one in single precision, an unnormalized destination. -/
theorem witness_FpUnsupportedDataType : (operandOf (real 1 1)).tag = tagUnnormal ∧
    (∃ o, fpSource (.ea .p (.imm [0, 0, 0, 0, 0, 0])) (at_ []).fpAwake = .ok (o, none) { at_ [] with freeCount := 2 } ∧
      o.packed.isSome = true) ∧
    (∃ o, fpSource (.ea .s (.imm [0, 1])) (at_ []).fpAwake = .ok (o, none) { at_ [] with freeCount := 1 } ∧
      o.tag = tagDenormal) ∧
    FpOp.add.dyadic = true ∧ tagOf ((fp 0 (real 1 1) (at_ [])).getFp 0) = tagUnnormal :=
  ⟨by decide, ⟨_, rfl, rfl⟩, ⟨_, rfl, rfl⟩, rfl, by decide +kernel⟩
theorem witness_CompareAndTest : isNormal one = true ∧ isZero (fpZero true) = true ∧ isInf (fpInf true) = true ∧
    isNan (real 0x7FFF 0x4000000000000000) = true ∧ isSnan (real 0x7FFF 0x4000000000000000) = false ∧
    tagOf (real 0x7FFF 0x4000000000000000) ≠ tagUnnormal ∧ tagOf one ≠ tagUnnormal ∧ isSnan one = false := by decide
theorem witness_UnimplementedGoesToSoftware : fpUnimplemented (.frem (.reg 1) 0) = some (true, 0x25, .reg 1, 0) ∧
    (fp 0 one (fp 1 one (at_ []))).fpu.pending = none ∧
    fpSource (.reg 1) (fp 0 one (fp 1 one (at_ []))).fpAwake = .ok (operandOf one, none) (fp 0 one (fp 1 one (at_ []))) :=
  ⟨rfl, source_reg one one⟩
/-- The NANs and infinities that its clauses speak of. -/
theorem witness_moved_out : isSnan (real 0x7FFF 1) = true ∧ isNan (real 0x7FFF 0x4000000000000000) = true ∧
    isSnan (real 0x7FFF 0x4000000000000000) = false ∧ isInf (fpInf true) = true ∧ isSnan (fpInf true) = false ∧
    isZero (fpZero true) = true ∧ (∀ b ∈ [9, 14], (0x4200 : Long).getLsbD b = true ∧ (0 : Long).getLsbD b = false) := by decide
/-- The greatest word, 32767; 32768 and -32768, which do not fit; and the number halfway between 0 and 1. -/
theorem witness_FmoveOutInteger : (at_ []).plain ∧ (at_ []).memOk ∧
    locate (.ind 0) 2 (addrPlus (at_ []).pc 4) (at_ []) = .ok ⟨.mem 0x5000, none⟩ (at_ []) ∧
    locate (.dn 0) 2 (addrPlus (at_ []).pc 4) (at_ []) = .ok ⟨.d 0, none⟩ (at_ []) ∧
    (∀ x ∈ [real 0x400D 0xFFFE000000000000, real 0x400E 0x8000000000000000, { real 0x400E 0x8000000000000000 with sign := true },
        real 0x3FFE 0x8000000000000000], isNormal x = true) ∧
    fpValue (real 0x400D 0xFFFE000000000000) = (32767 : Int) ∧ fpValue (real 0x400E 0x8000000000000000) = (32768 : Int) ∧
    fpValue { real 0x400E 0x8000000000000000 with sign := true } = (-32768 : Int) ∧ roundModeOf (at_ []).fp.fpcr = .rn ∧
    (∀ n : Int, |((n : Int) : ℚ) - n| < 1 / 2) ∧
    (∀ n : Int, n = 32767 → -2 ^ (Size.word.bits - 1) < n ∧ n < 2 ^ (Size.word.bits - 1)) ∧
    (∀ n : Int, n = 32768 ∨ n = -32768 → ¬ (-2 ^ (Size.word.bits - 1) < n ∧ n < 2 ^ (Size.word.bits - 1))) ∧
    |fpValue (real 0x3FFE 0x8000000000000000) - (0 : Int)| = 1 / 2 ∧
      ((0 : Int) : ℚ) ≠ fpValue (real 0x3FFE 0x8000000000000000) := by
  have h2 : fpValue (real 0x3FFE 0x8000000000000000) = 1 / 2 := by
    simp [fpValue, real]
    norm_num
  refine ⟨witness_plain.1, witness_plain.2, rfl, rfl, by decide, ?_, ?_, ?_, by decide +kernel, by simp, ?_, ?_, ?_, ?_⟩
  · simp [fpValue, real]
    norm_num
  · simp [fpValue, real]
    norm_num
  · simp [fpValue, real]
    norm_num
  · rintro n rfl
    decide
  · rintro n (rfl | rfl) <;> decide
  · rw [h2]
    norm_num
  · rw [h2]
    norm_num
/-- Single precision has no room for it. -/
theorem fine_is_fine : ¬ hasPrecision 24 (fpValue fine) := by
  rw [fpValue_fine]
  rintro ⟨m, k, hm, h⟩
  rcases le_or_gt k (-63) with hk | hk
  · have h1 : (2 : ℚ) ^ k ≤ 2 ^ (-63 : Int) := zpow_le_zpow_right₀ (by norm_num) hk
    have h2 : (m : ℚ) ≤ 2 ^ 24 := by exact_mod_cast (le_abs_self m).trans hm.le
    have h3 : (m : ℚ) * 2 ^ k ≤ 2 ^ 24 * 2 ^ (-63 : Int) := mul_le_mul h2 h1 (by positivity) (by positivity)
    rw [← h] at h3
    norm_num [zpow_neg] at h3
  · obtain ⟨j, rfl⟩ : ∃ j : Nat, k = j + -62 := ⟨(k + 62).toNat, by omega⟩
    have h0 : (2 : ℚ) ^ (-62 : Int) = 1 / 2 ^ 62 := by norm_num [zpow_neg]
    rw [zpow_add₀ (by norm_num), zpow_natCast, h0] at h
    have h1 : (2 * (m * 2 ^ j) : ℚ) = 2 ^ 63 + 1 := by
      field_simp at h
      linarith
    have h2 : 2 * (m * 2 ^ j) = 2 ^ 63 + 1 := by exact_mod_cast h1
    omega
/-- Each format's destination, and the numbers of `single_ends`, which are numbers. -/
theorem witness_FmoveOutReal : (at_ []).plain ∧ (at_ []).memOk ∧ (at_ []).fpu.pending = none ∧
    (∀ n, locate (.ind 0) n (addrPlus (at_ []).pc 4) (at_ []) = .ok ⟨.mem 0x5000, none⟩ (at_ [])) ∧
    locate (.dn 0) 4 (addrPlus (at_ []).pc 4) (at_ []) = .ok ⟨.d 0, none⟩ (at_ []) ∧
    (∀ x ∈ [leastSingle, tinySingle, hugeSingle, fine], isNormal x = true) ∧
    ¬ TooSmall .d (· ≤ fpValue one) (fpValue one ≤ ·) ∧ ¬ hasPrecision 24 (fpValue fine) ∧
    hasPrecision 24 (fpValue leastSingle) := by
  refine ⟨witness_plain.1, witness_plain.2, rfl, fun _ => rfl, rfl, by decide, ?_, fine_is_fine, ⟨1, -126, by decide, ?_⟩⟩
  · simp only [TooSmall, fpValue_one, not_and]
    refine fun h => absurd ?_ h
    norm_num [normalRange, expRange, zpow_neg]
    exact inv_le_one_of_one_le₀ (one_le_pow₀ (by norm_num))
  · rw [fpValue_leastSingle]
    norm_num [zpow_neg]
theorem witness_FmoveOutUnsupported : (at_ []).plain ∧ tagOf ((fp 0 (real 1 1) (at_ [])).getFp 0) = tagUnnormal ∧
    locate (.ind 0) (outFmtBytes .pStatic) (addrPlus (at_ []).pc 4) (at_ []) = .ok ⟨.mem 0x5000, none⟩ (at_ []) :=
  ⟨witness_plain.1, by decide +kernel, rfl⟩
theorem witness_FpControlRegisterMoves : (at_ []).plain ∧ (at_ []).memOk ∧ (at_ []).fpu.pending = none ∧
    locate (.preDec 0) (4 * selCount 7) (addrPlus (at_ []).pc 4) (at_ []) = .ok ⟨.mem 0x4FF4, some (0, 0x4FF4)⟩ (at_ []) ∧
    locate (.imm ((List.range (selCount 3)).flatMap fun k => longWords ((fun _ => 7) k))) (4 * selCount 3)
      (addrPlus (at_ []).pc 4) (at_ []) = .ok ⟨.imm [0, 7, 0, 7], none⟩ (at_ []) ∧
    locate (.dn 2) (4 * selCount 4) (addrPlus (at_ []).pc 4) (at_ []) = .ok ⟨.d 2, none⟩ (at_ []) ∧
    locate (.an 7) (4 * selCount 1) (addrPlus (at_ []).pc 4) (at_ []) = .ok ⟨.a 7, none⟩ (at_ []) :=
  ⟨witness_plain.1, witness_plain.2, rfl, rfl, rfl, rfl, rfl⟩
theorem witness_FmovemMovesRegisters : (at_ []).plain ∧ (at_ []).memOk ∧ (at_ []).fpu.pending = none ∧
    locate (.preDec 0) (12 * 2) (addrPlus (at_ []).pc 4) (at_ []) = .ok ⟨.mem 0x4FE8, some (0, 0x4FE8)⟩ (at_ []) ∧
    (((List.range 8).filter fun k => (3 : Byte).getLsbD k).map fun k => (BitVec.ofNat 3 k : RegNo)).length = 2 :=
  ⟨witness_plain.1, witness_plain.2, rfl, rfl, by decide⟩
/-- A predicate that meets no NAN, one that meets a NAN without and with its trap, and odd and even targets. -/
theorem witness_FpConditionals :
    let nan (fpcr : Long) : State := { at_ [] with fp := { (at_ []).fp with fpsr := 0x01000000, fpcr := fpcr } }
    (at_ []).fpu.pending = none ∧ (at_ []).bsunTraps 0x12 = false ∧ (nan 0).bsunTraps 0x12 = false ∧
    (nan 0x8000).bsunTraps 0x12 = true ∧ ((at_ []).pc + 2 + (2 : Word).signExtend 32).getLsbD 0 = false ∧
    ((at_ []).pc + 2 + (3 : Word).signExtend 32).getLsbD 0 = true := by decide +kernel
/-- Each kind of frame. -/
theorem witness_FsaveWritesFrame : (at_ []).plain ∧ (at_ []).memOk ∧ srS (at_ []).sr = true ∧
    (∀ n, locate (.ind 0) n (addrPlus (at_ []).pc 2) (at_ []) = .ok ⟨.mem 0x5000, none⟩ (at_ [])) ∧
    (at_ []).fpu.mode = .idle ∧ (framed7 0).fpu.pending.isSome = true ∧ (framed7 0).plain ∧ State.reset.fpu.mode = .null :=
  ⟨witness_plain.1, witness_plain.2, witness_supervisor.1, fun _ => rfl, rfl, rfl, framed7_plain 0, rfl⟩

/-! State frames: the version and the places of the fields are parameters, so the bytes of these frames are not all numbers. -/

/-- A frame at $5000: version, size byte, and a body. -/
def frameBytesOf (v n : Byte) (ls : List Long) : List Byte := [v, n, 0, 0] ++ ls.flatMap longBytes
def frame (v n : Byte) (ls : List Long) : State :=
  (at_ []).writeBytes (((List.range (frameBytesOf v n ls).length).map fun i => (0x5000 : Long) + BitVec.ofNat 32 i).zip
    (frameBytesOf v n ls))
theorem frame_length (v n : Byte) (ls : List Long) : (frameBytesOf v n ls).length = 4 + 4 * ls.length := by
  have h : (ls.flatMap longBytes).length = 4 * ls.length := by
    induction ls with
    | nil => rfl
    | cons w ws ih =>
      rw [List.flatMap_cons, List.length_append, ih, List.length_cons]
      show 4 + _ = _
      omega
  rw [frameBytesOf, List.length_append, h]
  rfl
theorem longBytes_join (w : Long) : ((longBytes w)[0]?).getD 0 ++ ((longBytes w)[1]?).getD 0 ++ ((longBytes w)[2]?).getD 0 ++
    ((longBytes w)[3]?).getD 0 = w := by
  show field _ 8 8 ++ field _ 0 8 ++ field _ 8 8 ++ field _ 0 8 = w
  simp only [field]
  refine BitVec.eq_of_toNat_eq ?_
  rw [toNat_append, toNat_append, toNat_append]
  simp only [BitVec.extractLsb'_toNat, Nat.shiftRight_eq_div_pow]
  have := w.isLt
  omega
theorem frame_reads (v n : Byte) {ls : List Long} (hl : ls.length = 24) : (frame v n ls).byteAt 0x5000 = v ∧
    (frame v n ls).byteAt (0x5000 + 1) = n ∧
    ((List.range 24).map fun k => (frame v n ls).longAt (0x5000 + 4 + BitVec.ofNat 32 (4 * k))) = ls := by
  have h : Stored (at_ []) (frame v n ls) 0x5000 (frameBytesOf v n ls) :=
    stored_writes witness_plain.2 _ _ (by rw [frame_length]; omega)
  refine ⟨by rw [(h.2.2 _).1]; rfl, by rw [(h.2.2 _).1]; rfl, List.ext_getElem (by simp [hl]) fun k hk hk' => ?_⟩
  have hb (k : Nat) (hk : k < 24) (j : Nat) (hj : j < 4) (a : Long)
      (ha : a = 0x5000 + 4 + BitVec.ofNat 32 (4 * k) + BitVec.ofNat 32 j) :
      (frame v n ls).byteAt a = ((ls.flatMap longBytes)[4 * k + j]?).getD 0 := by
    have ha : (a - 0x5000).toNat = 4 + (4 * k + j) := by
      subst ha
      interval_cases k <;> interval_cases j <;> rfl
    rw [(h.2.2 _).1, ha, frameBytesOf, List.getElem?_append_right (by simp)]
    have hlen := frame_length v n ls
    rw [frameBytesOf, List.length_append] at hlen
    have hlt : 4 * k + j < (ls.flatMap longBytes).length := by
      simp only [List.length_cons, List.length_nil] at hlen
      omega
    simp [List.getElem?_eq_getElem hlt]
  have hw : ∀ (ws : List Long) (k : Nat) (hk : k < ws.length) (j : Nat), j < 4 →
      (ws.flatMap longBytes)[4 * k + j]? = (longBytes ws[k])[j]? := by
    intro ws
    induction ws with
    | nil => intro k hk; exact absurd hk (by simp)
    | cons w ws ih =>
      intro k hk j hj
      rw [List.flatMap_cons]
      cases k with
      | zero => rw [List.getElem?_append_left (show _ < 4 by omega)]; simp
      | succ k =>
        rw [List.getElem?_append_right (show 4 ≤ _ by omega), show 4 * (k + 1) + j - (longBytes w).length = 4 * k + j from
          show _ - 4 = _ by omega, ih k (by simpa using hk) j hj]
        simp
  have hk : k < 24 := by simpa using hk
  rw [List.getElem_map, List.getElem_range]
  unfold State.longAt
  rw [hb k hk 0 (by decide) (_ + _) (by simp), hb k hk 1 (by decide) (_ + 1) rfl, hb k hk 2 (by decide) (_ + 2) rfl,
    hb k hk 3 (by decide) (_ + 3) rfl,
    hw ls k hk' 0 (by decide), hw ls k hk' 1 (by decide), hw ls k hk' 2 (by decide), hw ls k hk' 3 (by decide)]
  exact longBytes_join ls[k]

/-- The places of the fields of a busy frame lie in its body and do not meet. -/
theorem busyLayout_ok : Config.layoutOk Config.busyFields Config.busySize Config.busyLayout = true := by
  by_cases h : Config.layoutOk Config.busyFields Config.busySize Config.busyLayoutRaw = true
  · rwa [show Config.busyLayout = Config.busyLayoutRaw from funext fun f => if_pos h]
  · rw [show Config.busyLayout = Config.packFrom 0 Config.busyFields from funext fun f => if_neg h]
    decide +kernel
theorem busyLayout_fits (f : Config.FpuField) : Config.busyLayout f + f.width ≤ 768 := by
  have h := List.all_eq_true.mp (Bool.and_eq_true_iff.mp busyLayout_ok).1 f (by cases f <;> decide)
  exact of_decide_eq_true h
theorem busyLayout_apart {f g : Config.FpuField} (h : f ≠ g) : Config.busyLayout f + f.width ≤ Config.busyLayout g ∨
    Config.busyLayout g + g.width ≤ Config.busyLayout f :=
  let meets (f g : Config.FpuField) : Prop :=
    Config.busyLayout f + f.width ≤ Config.busyLayout g ∨ Config.busyLayout g + g.width ≤ Config.busyLayout f
  have : Std.Symm meets := ⟨fun _ _ => Or.symm⟩
  have hp : List.Pairwise meets Config.busyFields := of_decide_eq_true (Bool.and_eq_true_iff.mp busyLayout_ok).2
  hp.forall (by cases f <;> decide) (by cases g <;> decide) h

/-- A body that is 0 but for CU_SAVEPC. -/
def savepcBody (c : Word) : List Long :=
  (List.range 24).map fun k =>
    ((c.setWidth 768) <<< (752 - Config.busyLayout .cuSavepc)).extractLsb' (32 * (23 - k)) 32
theorem savepcBody_bit (c : Word) {i : Nat} (hi : i < 768) : longsBit (savepcBody c) i =
    (decide (Config.busyLayout .cuSavepc ≤ i ∧ i < Config.busyLayout .cuSavepc + 16) &&
      c.getLsbD (15 + Config.busyLayout .cuSavepc - i)) := by
  have hp := busyLayout_fits .cuSavepc
  simp only [Config.FpuField.width] at hp
  have hk : i / 32 < 24 := by omega
  unfold longsBit savepcBody
  rw [List.getElem?_eq_getElem (by simpa using hk), Option.getD_some, List.getElem_map, List.getElem_range,
    BitVec.getLsbD_extractLsb', BitVec.getLsbD_shiftLeft, BitVec.getLsbD_setWidth,
    show 32 * (23 - i / 32) + (31 - i % 32) = 767 - i by omega]
  generalize Config.busyLayout .cuSavepc = p at hp
  by_cases h : p ≤ i
  · by_cases h' : i < p + 16
    · rw [show 767 - i - (752 - p) = 15 + p - i by omega]
      simp [h, h', show 31 - i % 32 < 32 by omega, show 767 - i < 768 by omega, show 15 + p - i < 768 by omega,
        show ¬ 767 - i < 752 - p by omega]
    · simp [h', show 767 - i < 752 - p by omega]
  · rw [c.getLsbD_of_ge (767 - i - (752 - p)) (by omega)]
    simp [h]
theorem numOfBits_congr {f g : Nat → Bool} {n : Nat} (h : ∀ i < n, f i = g i) : numOfBits f n = numOfBits g n := by
  induction n with
  | zero => rfl
  | succ n ih => rw [numOfBits, numOfBits, ih fun i hi => h i (by omega), h n (by omega)]
theorem numOfBits_word (c : Word) {n : Nat} (hn : n ≤ 16) :
    numOfBits (fun j => c.getLsbD (15 - j)) n = c.toNat / 2 ^ (16 - n) := by
  induction n with
  | zero => exact (Nat.div_eq_of_lt c.isLt).symm
  | succ n ih =>
    rw [numOfBits, ih (by omega), show 16 - n = (16 - (n + 1)) + 1 by omega, Nat.pow_succ, ← Nat.div_div_eq_div_mul,
      show 15 - n = 16 - (n + 1) by omega, BitVec.getLsbD, Nat.testBit, Nat.shiftRight_eq_div_pow]
    generalize c.toNat / 2 ^ (16 - (n + 1)) = x
    rw [Nat.one_and_eq_mod_two]
    rcases Nat.mod_two_eq_zero_or_one x with h | h <;> simp [h] <;> omega
/-- Its fields. -/
theorem savepcBody_field (c : Word) (f : Config.FpuField) :
    fieldOfBody Config.busyLayout (savepcBody c) f = if f = .cuSavepc then c.toNat else 0 := by
  have hf := busyLayout_fits f
  unfold fieldOfBody
  split
  · next h =>
    subst h
    rw [numOfBits_congr (g := fun j => c.getLsbD (15 - j))]
    · exact (numOfBits_word c (Nat.le_refl 16)).trans (Nat.div_one _)
    · intro j hj
      rw [savepcBody_bit c (by omega),
        show 15 + Config.busyLayout .cuSavepc - (Config.busyLayout .cuSavepc + j) = 15 - j by omega]
      simp [show j < 16 from hj]
  · next h =>
    have hz : ∀ n, numOfBits (fun _ => false) n = 0 := fun n => by
      induction n with
      | zero => rfl
      | succ n ih => rw [numOfBits, ih]; rfl
    rw [numOfBits_congr (g := fun _ => false), hz]
    intro j hj
    rw [savepcBody_bit c (by omega)]
    have h1 := busyLayout_apart h
    rw [show Config.FpuField.cuSavepc.width = 16 from rfl] at h1
    rw [decide_eq_false (by omega), Bool.false_and]
/-- A unit all of whose fields are 0 but for CU_SAVEPC, and what such a body loads. -/
def savepcFpu (c : Word) : Fpu := { State.reset.fpu with mode := .idle, cuSavepc := c }
theorem savepcBody_loads (c : Word) :
    loadFields Config.busyLayout (savepcBody c) Config.busyFields (savepcFpu 0) = savepcFpu c := by
  simp only [Config.busyFields, Config.unimpFields, List.cons_append, List.nil_append, loadFields, savepcBody_field]
  simp [setFpuField, savepcFpu, State.reset]
/-- What the frame at $5000 makes of the unit, as FRESTORE reads it. -/
def reloaded (s : State) : Fpu :=
  { loadFields Config.busyLayout ((List.range (0x60 / 4)).map fun k => s.longAt (0x5000 + 4 + BitVec.ofNat 32 (4 * k)))
      Config.busyFields s.fpu with mode := .idle, pending := none }
theorem reloaded_frame (v n c : _) : reloaded (frame v n (savepcBody c)) = savepcFpu c := by
  unfold reloaded
  rw [show (List.range (0x60 / 4)) = List.range 24 from rfl, (frame_reads v n (by simp [savepcBody])).2.2]
  exact congrArg (fun u : Fpu => { u with mode := .idle, pending := none }) (savepcBody_loads c)
/-- A body of ones has E1 set, wherever that field is. -/
theorem ones_has_e1 (v n : Byte) : (reloaded (frame v n (List.replicate 24 0xFFFFFFFF))).e1 = true := by
  unfold reloaded
  rw [show (List.range (0x60 / 4)) = List.range 24 from rfl, (frame_reads v n (by simp)).2.2]
  have hp := busyLayout_fits .e1
  rw [show Config.FpuField.e1.width = 1 from rfl] at hp
  have hb : longsBit (List.replicate 24 0xFFFFFFFF) (Config.busyLayout .e1 + 0) = true := by
    unfold longsBit
    rw [List.getElem?_replicate_of_lt (by omega)]
    show (0xFFFFFFFF : BitVec 32).getLsbD _ = true
    rw [show (0xFFFFFFFF : BitVec 32) = BitVec.allOnes 32 from rfl, BitVec.getLsbD_allOnes]
    exact decide_eq_true (by omega)
  show (2 * 0 + (longsBit _ (Config.busyLayout .e1 + 0)).toNat) % 2 == 1
  rw [hb]
  rfl
/-- A null, an idle and an unimplemented frame; busy ones with E1, and without, that continue or do not; and one of no size that
a frame has. -/
theorem witness_FrestoreReadsFrame :
    let c := Config.cuSavepcContinue
    (∀ v n ls, (frame v n ls).plain ∧ srS (frame v n ls).sr = true ∧
      locate (.ind 0) 0 (addrPlus (frame v n ls).pc 2) (frame v n ls) = .ok ⟨.mem 0x5000, none⟩ (frame v n ls)) ∧
    (∀ (v n : Byte) (ls : List Long), ls.length = 24 → (frame v n ls).byteAt 0x5000 = v ∧
      (frame v n ls).byteAt (0x5000 + 1) = n) ∧
    Config.fpuVersion ≠ 0 ∧ (BitVec.ofNat 8 Config.idleSize).toNat = Config.idleSize ∧ 1 ≠ Config.idleSize ∧
    (List.replicate 24 (0xFFFFFFFF : Long)).length = 24 ∧ (∀ c, (savepcBody c).length = 24) ∧
    (reloaded (frame Config.fpuVersion 0x60 (List.replicate 24 0xFFFFFFFF))).e1 = true ∧
    (let s := frame Config.fpuVersion 0x60 (savepcBody c)
     let u := reloaded s
     u.e1 = false ∧ u.e3 = false ∧ fpArithmetic (.fmove (.reg 1) 0) = some (.move, none, 0, .reg 1, 0) ∧
      u.t = false ∧ u.cuSavepc = c ∧ u.cmdreg1b.extractLsb' 13 3 = 0 ∧ u.cmdreg1b.extractLsb' 0 7 = 0 ∧
      ∃ t, runJob { ia := u.fpiarcu, cw := (u.cmdreg1b &&& 0xFF80) ||| (0 : BitVec 7).setWidth 16, op := .move,
                    src := operandOf u.etemp, dst := u.cmdreg1b.extractLsb' 7 3, dval := u.fptemp, form := none }
        { s with fpu := u } = .ok () t) ∧
    (let u := reloaded (frame Config.fpuVersion 0x60 (savepcBody (c + 1)))
     u.e1 = false ∧ u.e3 = false ∧ u.cuSavepc ≠ c) := by
  have hi : Config.idleSize < 256 ∧ 1 ≠ Config.idleSize := by
    simp only [Config.idleSize]
    split <;> omega
  have hv : Config.fpuVersion ≠ 0 := by
    unfold Config.fpuVersion
    split
    · decide
    · assumption
  refine ⟨fun v n ls => ⟨writeBytes_plain witness_plain.1 _, (by decide : srS 0x2000 = true), rfl⟩,
    fun v n ls h => ⟨(frame_reads v n h).1, (frame_reads v n h).2.1⟩, hv, ?_, hi.2, by simp, fun c => by simp [savepcBody],
    ones_has_e1 _ _, ?_, ?_⟩
  · rw [BitVec.toNat_ofNat]
    exact Nat.mod_eq_of_lt hi.1
  · simp only [reloaded_frame]
    exact ⟨rfl, rfl, rfl, rfl, rfl, rfl, rfl, _, rfl⟩
  · rw [reloaded_frame]
    refine ⟨rfl, rfl, fun h => ?_⟩
    exact absurd (show Config.cuSavepcContinue + 1 = Config.cuSavepcContinue from h) (by bv_omega)

end Sys2Proof.Tests
end

