-- ==== Sys2Proof/Proofs/DecoderDemand.lean ====
section
/-!
SUPPORT. How many words the decoder asks for: whatever the words are, eleven of them decide what they encode (30_encoding.md
R127). So the bound on the words that a step fetches is never what ends a fetch.
-/
namespace Sys2Proof

/-- A part of the decoder does not ask for a further word, and where it reads something at least `k` words are left. -/
inductive Leaves {α : Type} (k : Nat) : Dec α → Prop
  | ok {a : α} {rest : List Word} (h : k ≤ rest.length) : Leaves k (.ok (a, rest))
  | error {e : DecodeErr} (h : e ≠ .more) : Leaves k (.error e)

theorem Leaves.ne_more {α : Type} {k : Nat} {r : Dec α} (h : Leaves k r) : r ≠ .error .more := by
  rintro rfl
  cases h with
  | error h => exact h rfl

theorem leaves_illegal {α : Type} (k : Nat) : Leaves k (.error .illegal : Dec α) := .error nofun

theorem leaves_other {α : Type} (k : Nat) : Leaves k (.error .other : Dec α) := .error nofun

/-- Nothing is asked of an instruction that is complete. -/
theorem leaves_done {α : Type} (a : α) (rest : List Word) : Leaves 0 (.ok (a, rest) : Dec α) := .ok (Nat.zero_le _)

theorem leaves_ite {α : Type} {k : Nat} {c : Prop} [Decidable c] {r r' : Dec α} (h : Leaves k r) (h' : Leaves k r') :
    Leaves k (if c then r else r') := by
  split
  · exact h
  · exact h'

/-! ### Words -/

theorem leaves_takeWord {k : Nat} {ws : List Word} (h : k + 1 ≤ ws.length) : Leaves k (takeWord ws) := by
  cases ws with
  | nil => simp at h
  | cons w ws => exact .ok (by simpa using h)

theorem leaves_takeLong {k : Nat} {ws : List Word} (h : k + 2 ≤ ws.length) : Leaves k (takeLong ws) := by
  match ws, h with
  | hi :: lo :: ws, h => exact .ok (by simpa using h)

theorem leaves_takeWords {k n : Nat} {ws : List Word} (h : k + n ≤ ws.length) : Leaves k (takeWords n ws) := by
  induction n generalizing ws with
  | zero => exact .ok (by simpa using h)
  | succ n ih =>
    cases ws with
    | nil => simp at h
    | cons w ws =>
      unfold takeWords
      exact (ih (Nat.le_of_succ_le_succ h)).casesOn .ok .error

/-! ### Effective addresses -/

theorem leaves_decodeBd {k : Nat} (zz : BitVec 2) {ws : List Word} (h : k + 2 ≤ ws.length) : Leaves k (decodeBd zz ws) := by
  have hw : k + 1 ≤ ws.length := by omega
  unfold decodeBd
  split
  · exact .ok (by omega)
  · exact (leaves_takeWord hw).casesOn .ok .error
  · exact (leaves_takeLong h).casesOn .ok .error
  · exact leaves_illegal k

theorem leaves_decodeInd {k : Nat} (iii : BitVec 3) {ws : List Word} (h : k + 2 ≤ ws.length) :
    Leaves k (decodeInd iii ws) := by
  unfold decodeInd
  exact leaves_ite (.ok (by omega)) ((leaves_decodeBd _ h).casesOn .ok .error)

theorem leaves_decodeIndex {k : Nat} {ws : List Word} (h : k + 5 ≤ ws.length) : Leaves k (decodeIndex ws) := by
  unfold decodeIndex
  refine (leaves_takeWord (k := k + 4) h).casesOn (fun {x ws} h => ?_) .error
  have hfull : Leaves (k + 2) (decodeBd (field x 4 2) ws) := leaves_decodeBd _ h
  refine leaves_ite (leaves_ite (leaves_illegal k) ?_) (.ok (by omega))
  refine hfull.casesOn (fun {bd ws} h => ?_) .error
  dsimp only
  exact (leaves_decodeInd _ h).casesOn .ok .error

theorem leaves_decodeEa {k n : Nat} (kind : EaKind) (r : RegNo) {ws : List Word} (h : k + max 5 n ≤ ws.length) :
    Leaves k (decodeEa kind r n ws) := by
  have hword : Leaves k (takeWord ws) := leaves_takeWord (by omega)
  have hlong : Leaves k (takeLong ws) := leaves_takeLong (by omega)
  have hindex : Leaves k (decodeIndex ws) := leaves_decodeIndex (by omega)
  have himm : Leaves k (takeWords n ws) := leaves_takeWords (by omega)
  unfold decodeEa
  cases kind with
  | dn | an | ind | postInc | preDec => exact .ok (by omega)
  | disp | absW | pcDisp => exact hword.casesOn .ok .error
  | absL => exact hlong.casesOn .ok .error
  | index | pcIndex => exact hindex.casesOn .ok .error
  | imm => exact himm.casesOn .ok .error

theorem leaves_withEa {k n : Nat} (c : EaClass) (w : Word) (mk : Ea → Instr) {ws : List Word} (h : k + max 5 n ≤ ws.length) :
    Leaves k (withEa c w n mk ws) := by
  unfold withEa
  split
  · exact leaves_illegal k
  · exact (leaves_decodeEa _ _ h).casesOn .ok .error

/-! ### Extension words -/

theorem leaves_withExtEa {k n : Nat} (c : EaClass) (w : Word) {mk : Word → Except DecodeErr (Ea → Instr)}
    (hmk : ∀ x, mk x ≠ .error .more) {ws : List Word} (h : k + 1 + max 5 n ≤ ws.length) : Leaves k (withExtEa c w n mk ws) := by
  have hword : Leaves (k + max 5 n) (takeWord ws) := leaves_takeWord (by omega)
  unfold withExtEa
  split
  · exact leaves_illegal k
  · refine hword.casesOn (fun {x ws} h => ?_) .error
    dsimp only
    split
    · next hx => exact .error fun he => hmk x (he ▸ hx)
    · exact leaves_withEa c w _ h

theorem leaves_withWord {k : Nat} {mk : Word → Except DecodeErr Instr} (hmk : ∀ x, mk x ≠ .error .more) {ws : List Word}
    (h : k + 1 ≤ ws.length) : Leaves k (withWord mk ws) := by
  unfold withWord
  refine (leaves_takeWord h).casesOn (fun {x ws} h => ?_) .error
  dsimp only
  split
  · next hx => exact .error fun he => hmk x (he ▸ hx)
  · exact .ok h

theorem leaves_withLong {k : Nat} (mk : Long → Instr) {ws : List Word} (h : k + 2 ≤ ws.length) : Leaves k (withLong mk ws) := by
  unfold withLong
  exact (leaves_takeLong h).casesOn .ok .error

theorem leaves_withPred {j k : Nat} {mk : BitVec 5 → List Word → Dec Instr} (hmk : ∀ p ws, j ≤ ws.length → Leaves k (mk p ws))
    {ws : List Word} (h : j + 1 ≤ ws.length) : Leaves k (withPred mk ws) := by
  unfold withPred
  refine (leaves_takeWord h).casesOn (fun {x ws} h => ?_) .error
  dsimp only
  split
  · exact hmk _ ws h
  · exact leaves_illegal k

theorem decodeMoves_ne_more (sz : Size) (x : Word) : decodeMoves sz x ≠ .error .more := by
  unfold decodeMoves
  split_ifs <;> simp

theorem decodeChk2_ne_more (sz : Size) (x : Word) : decodeChk2 sz x ≠ .error .more := by
  unfold decodeChk2
  split_ifs <;> simp

theorem decodeCas_ne_more (sz : Size) (x : Word) : decodeCas sz x ≠ .error .more := by
  unfold decodeCas
  split_ifs <;> simp

theorem decodeDivl_ne_more (x : Word) : decodeDivl x ≠ .error .more := by
  unfold decodeDivl
  split_ifs <;> simp

/-! ### Lines 0, 4, 5 and 8 -/

theorem leaves_decodeCas2 {k : Nat} (long : Bool) {ws : List Word} (h : k + 2 ≤ ws.length) :
    Leaves k (decodeCas2 long ws) := by
  unfold decodeCas2
  refine (leaves_takeWord (k := k + 1) h).casesOn (fun h => leaves_ite (leaves_illegal k) ?_) .error
  exact (leaves_takeWord h).casesOn (fun h => leaves_ite (leaves_illegal k) (.ok h)) .error

theorem leaves_decodeLine0 (w : Word) {ws : List Word} (h : 10 ≤ ws.length) : Leaves 0 (decodeLine0 w ws) := by
  have hword {mk : Word → Instr} : Leaves 0 (withWord (fun x => .ok (mk x)) ws) := leaves_withWord (by simp) (by omega)
  have hcas2 (long : Bool) : Leaves 0 (decodeCas2 long ws) := leaves_decodeCas2 long (by omega)
  unfold decodeLine0
  refine leaves_ite hword <| leaves_ite hword <| leaves_ite hword <| leaves_ite (hcas2 _) <| leaves_ite (hcas2 _) <|
    leaves_ite ?moves <| leaves_ite ?cas <| leaves_ite ?chk2 (leaves_other 0)
  case moves =>
    split
    · exact leaves_withExtEa _ w (decodeMoves_ne_more _) (by omega)
    · exact leaves_other 0
  case cas =>
    split
    · exact leaves_withExtEa _ w (decodeCas_ne_more _) (by omega)
    · exact leaves_other 0
  case chk2 =>
    split
    · exact leaves_withExtEa _ w (decodeChk2_ne_more _) (by omega)
    · exact leaves_other 0

theorem leaves_ite_some {k : Nat} {c : Prop} [Decidable c] {r : Dec Instr} {o : Option (Dec Instr)} (h : Leaves k r)
    (ho : ∀ r' ∈ o, Leaves k r') : ∀ r' ∈ (if c then some r else o), Leaves k r' := by
  split
  · exact fun _ hr => Option.mem_some.mp hr ▸ h
  · exact ho

theorem leaves_decodeLine4Fixed (w : Word) {ws : List Word} (h : 1 ≤ ws.length) :
    ∀ r ∈ decodeLine4Fixed w ws, Leaves 0 r := by
  have hdone {i : Instr} : Leaves 0 (.ok (i, ws) : Dec Instr) := leaves_done i ws
  have hword {mk : Word → Instr} : Leaves 0 (withWord (fun x => .ok (mk x)) ws) := leaves_withWord (by simp) (by omega)
  unfold decodeLine4Fixed
  exact leaves_ite_some hdone <| leaves_ite_some hdone <| leaves_ite_some hdone <| leaves_ite_some hword <|
    leaves_ite_some hdone <| leaves_ite_some hdone <| leaves_ite_some hword <| leaves_ite_some hword <|
    leaves_ite_some hdone <| leaves_ite_some hdone <| leaves_ite_some hdone <| leaves_ite_some hdone (by simp)

theorem leaves_decodeLine4 (w : Word) {ws : List Word} (h : 10 ≤ ws.length) : Leaves 0 (decodeLine4 w ws) := by
  have hea {n : Nat} {c : EaClass} {mk : Ea → Instr} (hn : n ≤ 2) : Leaves 0 (withEa c w n mk ws) :=
    leaves_withEa c w mk (by omega)
  have hmovem {c : EaClass} {mk : Word → Ea → Instr} : Leaves 0 (withExtEa c w 0 (fun x => .ok (mk x)) ws) :=
    leaves_withExtEa c w (by simp) (by omega)
  unfold decodeLine4
  split
  · next hr => exact leaves_decodeLine4Fixed w (by omega) _ hr
  · exact leaves_ite (hea (by decide)) <| leaves_ite (hea (by decide)) <| leaves_ite (hea (by decide)) <|
      leaves_ite (hea (by decide)) <| leaves_ite (hea (by decide)) <|
      leaves_ite (leaves_withExtEa _ w decodeDivl_ne_more (by omega)) <|
      leaves_ite (leaves_ite (leaves_other 0) hmovem) <| leaves_ite hmovem (leaves_other 0)

theorem leaves_decodeLine5 (w : Word) {ws : List Word} (h : 2 ≤ ws.length) : Leaves 0 (decodeLine5 w ws) :=
  leaves_ite (leaves_withWord (by simp) (by omega)) <| leaves_ite (leaves_withLong _ h) <|
    leaves_ite (leaves_done _ ws) (leaves_other 0)

theorem leaves_decodeLine8 (w : Word) {ws : List Word} (h : 5 ≤ ws.length) : Leaves 0 (decodeLine8 w ws) :=
  leaves_ite (leaves_withEa _ w _ (by omega)) <| leaves_ite (leaves_withEa _ w _ (by omega)) (leaves_other 0)

/-! ### Line F -/

theorem fmtImmWords_le (fmt : FpFmt) : fmtImmWords fmt ≤ 6 := by cases fmt <;> decide

theorem selCount_le (sel : BitVec 3) : selCount sel ≤ 3 := by revert sel; decide

theorem leaves_decodeGeneral (w cw : Word) {ws : List Word} (h : 6 ≤ ws.length) : Leaves 0 (decodeGeneral w cw ws) := by
  have hea {n : Nat} {c : EaClass} {mk : Ea → Instr} (hn : n ≤ 6) : Leaves 0 (withEa c w n mk ws) :=
    leaves_withEa c w mk (by omega)
  have hreserved {p : Prop} [Decidable p] {n : Nat} {c : EaClass} {mk : Ea → Instr} (hn : n ≤ 6) :
      Leaves 0 (if p then .error .illegal else withEa c w n mk ws) := leaves_ite (leaves_illegal 0) (hea hn)
  unfold decodeGeneral
  dsimp only
  split
  · split
    · exact leaves_done _ ws
    · exact leaves_illegal 0
  · split
    · exact leaves_ite (leaves_done _ ws) (leaves_illegal 0)
    · split
      · exact hea (fmtImmWords_le _)
      · exact leaves_illegal 0
  · exact hea (by decide)
  · have := selCount_le (field cw 10 3)
    exact hreserved (by omega)
  · exact hreserved (by decide)
  · exact hreserved (by decide)
  · exact hreserved (by decide)
  · exact leaves_illegal 0

theorem leaves_decodeFpCond (w : Word) {ws : List Word} (h : 6 ≤ ws.length) : Leaves 0 (decodeFpCond w ws) := by
  have hpred {mk : BitVec 5 → List Word → Dec Instr} (hmk : ∀ p ws, 5 ≤ ws.length → Leaves 0 (mk p ws)) :
      Leaves 0 (withPred mk ws) := leaves_withPred hmk h
  unfold decodeFpCond
  refine leaves_ite (hpred fun p ws h => leaves_withWord (by simp) (by omega)) <|
    leaves_ite (hpred fun p ws h => leaves_withWord (by simp) (by omega)) <|
    leaves_ite (hpred fun p ws h => leaves_withLong _ (by omega)) <| leaves_ite (hpred fun p ws h => leaves_done _ ws) ?_
  split
  · exact leaves_illegal 0
  · exact hpred fun p ws h => leaves_withEa _ w _ (by omega)

theorem leaves_decodeFp (w : Word) {ws : List Word} (h : 7 ≤ ws.length) : Leaves 0 (decodeFp w ws) := by
  unfold decodeFp
  split
  · exact (leaves_takeWord h).casesOn (fun h => leaves_decodeGeneral w _ h) .error
  · exact leaves_decodeFpCond w (by omega)
  · exact leaves_ite (leaves_illegal 0) (leaves_withWord (by simp) (by omega))
  · exact leaves_ite (leaves_illegal 0) (leaves_withLong _ (by omega))
  · exact leaves_withEa _ w _ (by omega)
  · exact leaves_withEa _ w _ (by omega)
  · exact leaves_illegal 0

theorem leaves_decodeLineF (w : Word) {ws : List Word} (h : 10 ≤ ws.length) : Leaves 0 (decodeLineF w ws) := by
  have hlong {mk : Long → Instr} : Leaves 0 (withLong mk ws) := leaves_withLong mk (by omega)
  have hdone {i : Instr} : Leaves 0 (.ok (i, ws) : Dec Instr) := leaves_done i ws
  unfold decodeLineF
  refine leaves_ite (leaves_ite (leaves_illegal 0) hdone) <| leaves_ite (leaves_ite (leaves_illegal 0) hdone) <|
    leaves_ite hdone <| leaves_ite hdone <| leaves_ite (leaves_withWord (fun x => ?_) (by omega)) <| leaves_ite hlong <|
    leaves_ite hlong <| leaves_ite hlong <| leaves_ite hlong <| leaves_ite (leaves_decodeFp w (by omega)) (leaves_illegal 0)
  split <;> simp

/-! ### The decoder -/

theorem leaves_decode {ws : List Word} (h : maxWords ≤ ws.length) : Leaves 0 (decode ws) := by
  cases ws with
  | nil => simp [maxWords] at h
  | cons w ws =>
    have h : 10 ≤ ws.length := Nat.le_of_succ_le_succ h
    unfold decode
    dsimp only
    split
    · exact leaves_decodeLine0 w h
    · exact leaves_decodeLine4 w h
    · exact leaves_decodeLine5 w (by omega)
    · exact leaves_decodeLine8 w (by omega)
    · exact leaves_done _ ws
    · split
      · exact leaves_done _ ws
      · exact leaves_decodeLineF w h
    · exact leaves_other 0

/-- The decoder asks for a further word only while it has fewer than the longest instruction has (R127). -/
theorem length_lt_of_decode_more {ws : List Word} (h : decode ws = .error .more) : ws.length < maxWords :=
  Nat.lt_of_not_le fun hl => (leaves_decode hl).ne_more h

/-- Words each of which the decoder has asked for are no more than the longest instruction has (R127). -/
theorem length_lt_of_decode_take_more {w : Word} {ws : List Word}
    (h : ∀ k < ws.length, decode (w :: ws.take k) = .error .more) : ws.length < maxWords := by
  cases hn : ws.length with
  | zero => decide
  | succ n =>
    have := length_lt_of_decode_more (h n (by omega))
    simp only [List.length_cons, List.length_take] at this
    omega

end Sys2Proof
end

