-- ==== Sys2Proof/Proofs/InstructionFetch.lean ====
section
/-!
SUPPORT. Instruction fetch and what a step does before it executes: what a fetch leaves unchanged, fetching words for as long as
the decoder asks for one (92 D7), the checks of 40_trap_instructions.md R174, and the end of an exception.
-/
namespace Sys2Proof.Machine

/-! ### What a fetch leaves unchanged -/

/-- Nothing has moved but the bus: memory and the environment by other masters' moves, the counter of free values. -/
def BusOnly (s t : State) : Prop := ∃ mem env n, t = { s with mem := mem, env := env, freeCount := n }

theorem buses_busOnly : Buses BusOnly where
  refl s := ⟨s.mem, s.env, s.freeCount, rfl⟩
  trans := by
    rintro s t u ⟨_, _, _, rfl⟩ ⟨_, _, _, rfl⟩
    exact ⟨_, _, _, rfl⟩
  bus s _ := ⟨_, _, s.freeCount, rfl⟩
  count s n := ⟨s.mem, s.env, n, rfl⟩

theorem BusOnly.trans {s t u : State} (h : BusOnly s t) (h' : BusOnly t u) : BusOnly s u := buses_busOnly.trans s t u h h'
theorem BusOnly.sr_eq {s t : State} (h : BusOnly s t) : t.sr = s.sr := by obtain ⟨_, _, _, rfl⟩ := h; rfl
theorem BusOnly.pc_eq {s t : State} (h : BusOnly s t) : t.pc = s.pc := by obtain ⟨_, _, _, rfl⟩ := h; rfl
theorem BusOnly.regs_eq {s t : State} (h : BusOnly s t) : t.regs = s.regs := by obtain ⟨_, _, _, rfl⟩ := h; rfl

/-- A fetch ends in the state that its transfers leave. -/
theorem after_fetchWord (a : Long) (s : State) : after (fetchWord a) s = after (route (fetchAccess s.sr a)) s := by
  unfold after fetchWord
  cases route (fetchAccess s.sr a) s with
  | error f t => rfl
  | ok as t => dsimp only; cases t.isModified as <;> rfl

theorem after_fetchWord_busOnly (a : Long) (s : State) : BusOnly s (after (fetchWord a) s) :=
  after_fetchWord a s ▸ through_route buses_busOnly (fetchAccess s.sr a) s

theorem fetchWord_busOnly_of_ok {a : Long} {s t : State} {w : Word} (h : fetchWord a s = .ok w t) : BusOnly s t := by
  simpa [after, h] using after_fetchWord_busOnly a s

theorem fetchWord_busOnly_of_error {a : Long} {s t : State} {e : Abort} (h : fetchWord a s = .error e t) : BusOnly s t := by
  simpa [after, h] using after_fetchWord_busOnly a s

theorem Fetches.busOnly {ws : List Word} {a : Long} {s t : State} (h : Fetches a ws s t) : BusOnly s t := by
  induction ws generalizing a s with
  | nil => exact h ▸ buses_busOnly.refl s
  | cons w ws ih =>
    obtain ⟨u, hw, hws⟩ := h
    exact (fetchWord_busOnly_of_ok hw).trans (ih hws)

/-! ### Fetching as the decoder asks -/

theorem fetchInstr_of_decode_ok {ia : Long} {fuel : Nat} {ws rest : List Word} {i : Instr} (h : decode ws = .ok (i, rest))
    (s : State) : fetchInstr ia (fuel + 1) ws s = .ok (.instr i) s := by
  simp [fetchInstr, h]

theorem fetchInstr_of_decode_illegal {ia : Long} {fuel : Nat} {ws : List Word} (h : decode ws = .error .illegal) (s : State) :
    fetchInstr ia (fuel + 1) ws s = .ok .illegal s := by
  simp [fetchInstr, h]

theorem fetchInstr_of_decode_more {ia : Long} {fuel : Nat} {ws : List Word} (h : decode ws = .error .more) :
    fetchInstr ia (fuel + 1) ws =
      fetchWord (addrPlus ia (2 * ws.length)) >>= fun w => fetchInstr ia fuel (ws ++ [w]) := by
  simp [fetchInstr, h]

theorem addrPlus_addrPlus (a : Long) (m n : Nat) : addrPlus (addrPlus a m) n = addrPlus a (m + n) := by
  simp [addrPlus, BitVec.add_assoc, BitVec.ofNat_add]

/-- Words each of which the decoder has asked for are fetched one after the other, and fetching goes on from there. -/
theorem fetchInstr_of_fetches {ia : Long} (fuel : Nat) {ws got : List Word} {s t : State}
    (hf : Fetches (addrPlus ia (2 * got.length)) ws s t)
    (hmore : ∀ k < ws.length, decode (got ++ ws.take k) = .error .more) :
    fetchInstr ia (fuel + ws.length) got s = fetchInstr ia fuel (got ++ ws) t := by
  induction ws generalizing got s with
  | nil => rw [show t = s from hf, List.append_nil, List.length_nil, Nat.add_zero]
  | cons w ws ih =>
    obtain ⟨u, hw, hws⟩ := hf
    have hgot : decode got = .error .more := by simpa using hmore 0 (Nat.succ_pos _)
    have hrest : fetchInstr ia (fuel + ws.length) (got ++ [w]) u = fetchInstr ia fuel (got ++ [w] ++ ws) t := by
      refine ih ?_ fun k hk => ?_
      · rwa [List.length_append, List.length_singleton, Nat.mul_add, ← addrPlus_addrPlus]
      · simpa using hmore (k + 1) (Nat.succ_lt_succ hk)
    rw [List.length_cons, ← Nat.add_assoc, fetchInstr_of_decode_more hgot, bind_eq, hw]
    simpa using hrest

/-! ### The end of an exception -/

@[simp] theorem State.halt_tracePending (s : State) : s.halt.tracePending = false := by simp [State.halt]

@[simp] theorem State.enter_tracePending (frames : List Frame) (e : Entry) (s : State) :
    (s.enter frames e).tracePending = false := rfl

theorem tracePending_of_attempt_ok {s u t : State} {frames : List Frame} {vector : Byte}
    (h : s.attempt frames vector = .ok (u, t)) : u.tracePending = false := by
  obtain ⟨e, -, rfl⟩ := attempt_ok h
  exact State.enter_tracePending ..

@[simp] theorem State.takeAccessFault_tracePending (s : State) (image : Word) (pc : Long) (f : AccessFault) :
    (s.takeAccessFault image pc f).tracePending = false := by
  unfold State.takeAccessFault State.enterOrHalt
  dsimp only
  split
  · exact State.halt_tracePending _
  · next h =>
    split
    · exact State.halt_tracePending _
    · exact tracePending_of_attempt_ok h

/-- Taking an exception leaves no trace due, however its processing ends (60_exceptions.md R400). -/
@[simp] theorem State.takeException_tracePending (s : State) (ia : Long) (regs0 : Regs) (e : Exc) :
    (s.takeException ia regs0 e).tracePending = false := by
  unfold State.takeException
  split
  · next h =>
    split
    · exact State.halt_tracePending _
    · exact tracePending_of_attempt_ok h
  · dsimp only
    split <;> simp

theorem finishStep_takeException (ia ia' : Long) (s : State) (regs0 : Regs) (e : Exc) :
    finishStep ia (.next (s.takeException ia' regs0 e)) = .next (s.takeException ia' regs0 e) := by
  simp [finishStep]

/-! ### The checks of a step -/

/-- At a boundary of a running processor that takes no interrupt a step is the next instruction (60_exceptions.md R410). -/
theorem step_eq_executeNext {s : State} (hrun : s.run = .running) (hreset : s.input.rsti = false)
    (hirq : (s.applyInput.sample s.input.ipl).irq.pending = none) :
    step s = (s.applyInput.sample s.input.ipl).executeNext := by
  have hrun' : s.applyInput.run = .running := hrun
  have hrun'' : (s.applyInput.sample s.input.ipl).run = .running := hrun
  simp [step, State.cycle, hreset, hrun', State.boundary, hirq, hrun'']

theorem executeNext_reserved {s : State} (h : (srT1 s.sr && srT0 s.sr) = true) :
    s.executeNext = .refused .reservedTraceMode := if_pos h

theorem executeNext_odd {s : State} (ht : (srT1 s.sr && srT0 s.sr) = false) (hpc : s.pc.getLsbD 0 = true) :
    s.executeNext = .next (s.takeAddressError s.pc s.pc) := by
  unfold State.executeNext
  rw [ht, hpc]
  rfl

theorem executeNext_fetch_error {s t : State} {a : Abort} (ht : (srT1 s.sr && srT0 s.sr) = false)
    (hpc : s.pc.getLsbD 0 = false) (h : fetchWord s.pc s = .error a t) : s.executeNext = t.aborted s.pc s.regs a := by
  unfold State.executeNext
  rw [ht, hpc, h]
  rfl

theorem executeNext_fetch_ok {s t : State} {w : Word} (ht : (srT1 s.sr && srT0 s.sr) = false)
    (hpc : s.pc.getLsbD 0 = false) (h : fetchWord s.pc s = .ok w t) : s.executeNext = t.executeWord w := by
  unfold State.executeNext
  rw [ht, hpc, h]
  rfl

theorem executeWord_privileged {s : State} {w : Word} (hs : srS s.sr = false) (hw : privilegedWord w = true) :
    s.executeWord w = .next (s.takeException s.pc s.regs (privilegeExc s.pc)) := by
  simp [State.executeWord, hs, hw]

/-! Past the check of privilege: `ws` are the words that the decoder has asked for and that have been fetched. -/

/-- The bound on the words of an instruction is out of reach there (30_encoding.md R127). -/
theorem fetchInstr_after_fetches {ia : Long} {s t : State} {w : Word} {ws : List Word} (hf : Fetches (addrPlus ia 2) ws s t)
    (hmore : ∀ k < ws.length, decode (w :: ws.take k) = .error .more) :
    ∃ fuel, fetchInstr ia (maxWords + 1) [w] s = fetchInstr ia (fuel + 1) (w :: ws) t := by
  have hlen := length_lt_of_decode_take_more hmore
  refine ⟨maxWords - ws.length, ?_⟩
  rw [show maxWords + 1 = maxWords - ws.length + 1 + ws.length by omega]
  exact fetchInstr_of_fetches (got := [w]) _ hf hmore

section words
variable {s t : State} {w : Word} {ws : List Word} (hp : srS s.sr = true ∨ privilegedWord w = false)
  (hf : Fetches (addrPlus s.pc 2) ws s t) (hmore : ∀ k < ws.length, decode (w :: ws.take k) = .error .more)
include hp hf hmore

theorem executeWord_illegal (hd : decode (w :: ws) = .error .illegal) :
    s.executeWord w = .next (t.takeException s.pc s.regs (illegalExc s.pc)) := by
  obtain ⟨fuel, hfetch⟩ := fetchInstr_after_fetches hf hmore
  rw [fetchInstr_of_decode_illegal hd] at hfetch
  rcases hp with hp | hp <;> simp [State.executeWord, hp, hfetch]

theorem executeWord_instr {i : Instr} {rest : List Word} (hd : decode (w :: ws) = .ok (i, rest)) :
    s.executeWord w = finishStep s.pc (exec i t) := by
  obtain ⟨fuel, hfetch⟩ := fetchInstr_after_fetches hf hmore
  rw [fetchInstr_of_decode_ok hd] at hfetch
  rcases hp with hp | hp <;> simp [State.executeWord, hp, hfetch]

theorem executeWord_fetch_error (hd : decode (w :: ws) = .error .more) {a : Abort} {u : State}
    (he : fetchWord (addrPlus s.pc (2 * (ws.length + 1))) t = .error a u) : s.executeWord w = u.aborted s.pc s.regs a := by
  obtain ⟨fuel, hfetch⟩ := fetchInstr_after_fetches hf hmore
  rw [fetchInstr_of_decode_more hd, bind_eq, List.length_cons, he] at hfetch
  rcases hp with hp | hp <;> simp [State.executeWord, hp, hfetch]

end words

/-- An F-line word that is no legal instruction (40_trap_instructions.md R173). -/
theorem exec_fLine (x : BitVec 12) (s : State) : exec (.fLine x) s = .next (s.takeException s.pc s.regs
    { vector := 11, cls := .restart, stackedPc := s.pc, format := .zero }) := rfl

/-- What ends a step in which a word could not be fetched: the access fault, or the refusal of a word that the program has
written and not made visible (60_exceptions.md R422; 92 D8). -/
theorem step_of_fetch_error {s s1 : State} {o : EStateM.Result Abort State Word} {ia : Long} {regs0 : Regs}
    (h : ∀ a t, o = .error a t → BusOnly s1 t ∧ step s = t.aborted ia regs0 a) :
    (∀ f t, o = .error (.access f) t → step s = .next (t.takeAccessFault s1.sr ia f)) ∧
      ∀ t, o = .error (.refused .modifiedCode) t → step s = .refused .modifiedCode := by
  refine ⟨fun f t ho => ?_, fun t ho => (h _ _ ho).2⟩
  obtain ⟨hbus, hstep⟩ := h _ _ ho
  rw [hstep, ← hbus.sr_eq]
  rfl

/-! ### The obligation -/

/-- Settles O5: each check of a step, in the order of 40_trap_instructions.md R174, is an equation of `State.executeNext` or of
`State.executeWord`, and the words before it are fetched by bus transfers alone. -/
theorem stepChecksBeforeExecuting : Obligations.StepChecksBeforeExecuting := by
  intro s s1 takes stops hrun hreset hirq
  have hstep : step s = s1.executeNext := step_eq_executeNext hrun hreset hirq
  refine ⟨fun ht => hstep.trans (executeNext_reserved ht), fun ht hpc => hstep.trans (executeNext_odd ht hpc),
    fun ht hpc => ⟨?_, fun w t hw => ?_⟩⟩
  · exact step_of_fetch_error (s1 := s1) fun a t he =>
      ⟨fetchWord_busOnly_of_error he, hstep.trans (executeNext_fetch_error ht hpc he)⟩
  have hbus : BusOnly s1 t := fetchWord_busOnly_of_ok hw
  have hsr : t.sr = s.sr := hbus.sr_eq
  have hpc' : t.pc = s.pc := hbus.pc_eq
  have hregs : t.regs = s.regs := hbus.regs_eq
  have hword : step s = t.executeWord w := hstep.trans (executeNext_fetch_ok ht hpc hw)
  refine ⟨fun hs hpriv => ?privileged, fun hp ws u hf hmore => ⟨fun hd => ?word, fun hd => ?illegal, fun x rest hd => ?fLine⟩⟩
  case privileged =>
    rw [← hsr] at hs
    rw [executeWord_privileged hs hpriv, hpc', hregs] at hword
    exact hword
  all_goals
    rw [← hsr] at hp
    rw [← hpc'] at hf
    have hbus' : BusOnly s1 u := hbus.trans hf.busOnly
  case word =>
    refine step_of_fetch_error (s1 := s1) (regs0 := t.regs) fun a v he => ⟨hbus'.trans (fetchWord_busOnly_of_error he), ?_⟩
    rw [← hpc'] at he ⊢
    exact hword.trans (executeWord_fetch_error hp hf hmore hd he)
  case illegal =>
    rw [executeWord_illegal hp hf hmore hd, hpc', hregs] at hword
    exact hword
  case fLine =>
    have hpcU : u.pc = s.pc := hbus'.pc_eq
    have hregsU : u.regs = s.regs := hbus'.regs_eq
    rw [executeWord_instr hp hf hmore hd, exec_fLine, finishStep_takeException, hpcU, hregsU] at hword
    exact hword

end Sys2Proof.Machine
end

