-- ==== Sys2Proof/Proofs/TrapInstructions.lean ====
section
/-!
SUPPORT. The instructions that trap (40_trap_instructions.md R160-R163, R170-R173): the decoding of their words, and how an
instruction ends whose body raises an exception or goes on.
-/
namespace Sys2Proof

/-! ### Fields of an operation word -/

/-- Under a mask that covers a field, equal words have equal fields: how one row of the opcode table excludes another. -/
theorem field_eq_of_and_eq {w m v : Word} {lo len : Nat} (hm : field m lo len = BitVec.allOnes len) (h : w &&& m = v) :
    field w lo len = field v lo len := by
  have hand : field (w &&& m) lo len = field w lo len &&& field m lo len := BitVec.extractLsb'_and
  rw [← h, hand, hm, BitVec.and_allOnes]

@[simp] theorem field_line (a : BitVec 4) (x : BitVec 12) : field (a ++ x) 12 4 = a := BitVec.extractLsb'_append_eq_left

@[simp] theorem field_below_line (a : BitVec 4) (x : BitVec 12) : field (a ++ x) 0 12 = x := BitVec.extractLsb'_append_eq_right

theorem field_coprocessor (a : BitVec 4) (x : BitVec 12) : field (a ++ x) 9 3 = x.extractLsb' 9 3 :=
  BitVec.extractLsb'_append_eq_of_add_le (by decide)

/-! ### A-line and F-line words -/

theorem decode_aLine (x : BitVec 12) (ws : List Word) : decode ((0xA#4 ++ x) :: ws) = .ok (.aLine x, ws) := by
  simp [decode]

/-- Each row of line F has in bits 11:9 the number of a coprocessor of the MC68040 (30_encoding.md R126, R133). -/
theorem decodeLineF_of_no_coprocessor {w : Word} (h : field w 9 3 ∉ [1, 2, (3 : BitVec 3)]) (ws : List Word) :
    decodeLineF w ws = .error .illegal := by
  have no_row {m v : Word} (hm : field m 9 3 = BitVec.allOnes 3) (hv : field v 9 3 ∈ [1, 2, (3 : BitVec 3)]) :
      ¬ w &&& m = v := fun he => h (field_eq_of_and_eq hm he ▸ hv)
  simp (disch := decide) only [decodeLineF, no_row, if_false]

theorem decode_fLine {x : BitVec 12} (h : x.extractLsb' 9 3 ∉ [1, 2, (3 : BitVec 3)]) (ws : List Word) :
    decode ((0xF#4 ++ x) :: ws) = .ok (.fLine x, ws) := by
  have hrows : decodeLineF (0xF#4 ++ x) ws = .error .illegal :=
    decodeLineF_of_no_coprocessor (field_coprocessor 0xF#4 x ▸ h) ws
  simp [decode, hrows]

/-! ### The words of TRAPcc -/

theorem takeLong_longWords (d : Long) (ws : List Word) : takeLong (longWords d ++ ws) = .ok (d, ws) :=
  congrArg (fun x => Except.ok (x, ws)) (BitVec.extractLsb'_append_extractLsb' (w := 16) (len := 16) (x := d))

section trapcc
variable (cc : BitVec 4) (low : Byte) (ws : List Word)

theorem field_trapcc_line : field (5#4 ++ cc ++ low) 12 4 = 5 :=
  (BitVec.extractLsb'_append_eq_of_le (by decide)).trans BitVec.extractLsb'_append_eq_left

theorem field_trapcc_condition : field (5#4 ++ cc ++ low) 8 4 = cc :=
  (BitVec.extractLsb'_append_eq_of_le (by decide)).trans BitVec.extractLsb'_append_eq_right

/-- The mask of the rows of TRAPcc leaves the condition out. -/
theorem trapcc_and_mask : (5#4 ++ cc ++ low : Word) &&& 0xF0FF = 0x50#8 ++ low := by
  calc (5#4 ++ cc ++ low : Word) &&& (15#4 ++ 0#4 ++ 0xFF#8)
    _ = ((5#4 ++ cc) &&& (15#4 ++ 0#4)) ++ (low &&& 0xFF#8) := BitVec.and_append
    _ = ((5#4 &&& 15#4) ++ (cc &&& 0#4)) ++ (low &&& BitVec.allOnes 8) := by rw [BitVec.and_append]; rfl
    _ = 0x50#8 ++ low := by rw [BitVec.and_zero, BitVec.and_allOnes]; rfl

theorem decode_trapcc_word : decode ((5#4 ++ cc ++ low) :: ws) = decodeLine5 (5#4 ++ cc ++ low) ws := by
  simp [decode, field_trapcc_line]

theorem decode_trapcc : decode ((5#4 ++ cc ++ 0xFC#8) :: ws) = .ok (.trapcc cc, ws) := by
  rw [decode_trapcc_word]
  simp only [decodeLine5, trapcc_and_mask, field_trapcc_condition]
  rfl

theorem decode_trapccW (d : Word) : decode ((5#4 ++ cc ++ 0xFA#8) :: d :: ws) = .ok (.trapccW cc d, ws) := by
  rw [decode_trapcc_word]
  simp only [decodeLine5, trapcc_and_mask, field_trapcc_condition]
  rfl

theorem decode_trapccL (d : Long) :
    decode ((5#4 ++ cc ++ 0xFB#8) :: (longWords d ++ ws)) = .ok (.trapccL cc d, ws) := by
  rw [decode_trapcc_word]
  simp only [decodeLine5, trapcc_and_mask, field_trapcc_condition, withLong, takeLong_longWords]
  rfl

end trapcc

/-! ### The words of TRAP and BKPT, one for each number in the word -/

theorem decode_trap : ∀ n : BitVec 4, decode [0x4E4#12 ++ n] = .ok (.trap n, []) := by decide

theorem decode_bkpt : ∀ n : RegNo, decode [0x4848 + n.setWidth 16] = .ok (.bkpt n, []) := by decide

end Sys2Proof

namespace Sys2Proof.Machine

/-! ### How an instruction ends -/

/-- An instruction that raises an exception takes it; a fault of the frame finds the registers of its beginning (log entry 24). -/
theorem runInstr_of_exc {words : Nat} {body : Long → M Flow} {s t : State} {e : Exc}
    (h : body (s.pc + BitVec.ofNat 32 (2 * words)) s = .error (.exc e) t) :
    runInstr words body s = .next (t.takeException s.pc s.regs e) := by
  simp [runInstr, h, State.aborted]

/-- An instruction that completes without a jump goes on to the next one. -/
theorem runInstr_of_seq {words : Nat} {body : Long → M Flow} {s t : State}
    (h : body (s.pc + BitVec.ofNat 32 (2 * words)) s = .ok .seq t) :
    runInstr words body s = .next (s.goOn words .seq t) := by
  simp [runInstr, h, State.complete, State.goOn]

/-- An instruction that does nothing but trap on a condition of the state. -/
theorem runInstr_trapIf (words : Nat) (vector : Byte) (cond : State → Bool) (s : State) :
    runInstr words (fun next => trapIf vector next cond) s =
      if cond s then .next (s.takeException s.pc s.regs (trapExc vector s.pc (s.pc + BitVec.ofNat 32 (2 * words))))
      else .next (s.goOn words .seq s) := by
  cases h : cond s with
  | false => exact runInstr_of_seq (by simp [trapIf, bind_eq, h])
  | true => exact runInstr_of_exc (by simp [trapIf, bind_eq, h])

/-! ### The instructions that always trap -/

section unconditional
variable (s : State)

theorem exec_trap (n : BitVec 4) : exec (.trap n) s = .next (s.takeException s.pc s.regs
    { vector := BitVec.ofNat 8 (32 + n.toNat), cls := .restart, stackedPc := s.pc + 2, format := .zero }) := by
  have hvector : (32 + n.setWidth 8 : Byte) = BitVec.ofNat 8 (32 + n.toNat) := by simp [BitVec.ofNat_add]
  rw [← hvector]
  rfl

theorem exec_illegal : exec .illegal s = .next (s.takeException s.pc s.regs (illegalExc s.pc)) := rfl

theorem exec_bkpt (n : RegNo) : exec (.bkpt n) s =
    .next ((s.emit (.breakpointAcknowledge n)).takeException s.pc s.regs (illegalExc s.pc)) := rfl

theorem exec_aLine (x : BitVec 12) : exec (.aLine x) s = .next (s.takeException s.pc s.regs
    { vector := 10, cls := .restart, stackedPc := s.pc, format := .zero }) := rfl

end unconditional

/-! ### The obligations -/

/-- Settles O24: each of these instructions raises its exception whatever the state is, and no row of line F but the last
takes a word of no coprocessor. -/
theorem trapsAndIllegalWords : Obligations.TrapsAndIllegalWords := by
  intro s trap
  exact ⟨exec_trap s, exec_illegal s, exec_bkpt s, exec_aLine s, fun w => exec_fLine w s, decode_trap, by decide, decode_bkpt,
    fun w => decode_aLine w [], fun w hw => decode_fLine hw []⟩

/-- Settles O25: TRAPcc and TRAPV are `trapIf` on a condition, the sixteen of the table being those of `condTrue`. -/
theorem conditionalTraps : Obligations.ConditionalTraps := by
  intro s cc n z v c holds runs
  have holds_eq : condTrue cc s.sr = holds := rfl
  refine ⟨?_, fun _ => ?_, fun _ => ?_, runInstr_trapIf 1 7 _ s, decode_trapcc cc [], decode_trapccW cc [],
    fun d => decode_trapccL cc [] d, by decide⟩
  all_goals
    rw [← holds_eq]
    exact runInstr_trapIf _ 7 (fun s => condTrue cc s.sr) s

end Sys2Proof.Machine
end

