-- ==== Sys2Proof/Proofs/SystemInstructions.lean ====
section
/-!
SUPPORT. NOP and MOVE USP (41_system_instructions.md R206, R230), and how the check of privilege (R209) comes before the rest of
a privileged instruction.
-/
namespace Sys2Proof

/-! ### The words -/

theorem decode_nop (ws : List Word) : decode (0x4E71 :: ws) = .ok (.nop, ws) := rfl

theorem decode_moveToUsp : ∀ an : RegNo, decode [0x4E6#12 ++ 0#1 ++ an] = .ok (.moveToUsp an, []) := by decide

theorem decode_moveFromUsp : ∀ an : RegNo, decode [0x4E6#12 ++ 1#1 ++ an] = .ok (.moveFromUsp an, []) := by decide

end Sys2Proof

namespace Sys2Proof.Machine

/-! ### The check of privilege -/

theorem requireSupervisor_supervisor {s : State} (h : srS s.sr = true) : requireSupervisor s = .ok () s := if_pos h

theorem requireSupervisor_user {s : State} (h : srS s.sr = false) :
    requireSupervisor s = .error (.exc (privilegeExc s.pc)) s := by
  simp [requireSupervisor, h]

section privileged
variable {s : State} (words : Nat) (body : Long → M Flow)

/-- In supervisor mode a privileged instruction is what stands behind its check. -/
theorem runInstr_supervisor (h : srS s.sr = true) :
    runInstr words (fun next => requireSupervisor >>= fun _ => body next) s = runInstr words body s := by
  simp [runInstr, bind_eq, requireSupervisor_supervisor h]

/-- In user mode a privileged instruction takes the privilege violation from the state as it was (60_exceptions.md R431). -/
theorem runInstr_user (h : srS s.sr = false) :
    runInstr words (fun next => requireSupervisor >>= fun _ => body next) s =
      .next (s.takeException s.pc s.regs (privilegeExc s.pc)) :=
  runInstr_of_exc (by simp [bind_eq, requireSupervisor_user h])

end privileged

/-- An instruction that is one change of the state and goes on to the next one. -/
theorem runInstr_update (words : Nat) (f : State → State) (s : State) :
    runInstr words (fun _ => update f >>= fun _ => pure .seq) s = .next (s.goOn words .seq (f s)) :=
  runInstr_of_seq (by simp [bind_eq])

/-! ### NOP -/

theorem exec_nop (s : State) : exec .nop s = .next (s.goOn 1 .seq s) :=
  runInstr_of_seq (body := fun _ => pure .seq) (pure_eq _ s)

/-! ### MOVE USP -/

section moveUsp
variable (an : RegNo) (s : State)

theorem exec_moveToUsp : exec (.moveToUsp an) s = runInstr 1 (fun _ => requireSupervisor >>= fun _ =>
    update (fun s => s.setStack .usp (s.getA an)) >>= fun _ => pure .seq) s := rfl

theorem exec_moveFromUsp : exec (.moveFromUsp an) s = runInstr 1 (fun _ => requireSupervisor >>= fun _ =>
    update (fun s => s.setA an (s.getStack .usp)) >>= fun _ => pure .seq) s := rfl

theorem exec_moveToUsp_supervisor (h : srS s.sr = true) :
    exec (.moveToUsp an) s = .next (s.goOn 1 .seq (s.setStack .usp (s.getA an))) := by
  rw [exec_moveToUsp, runInstr_supervisor _ _ h, runInstr_update]

theorem exec_moveFromUsp_supervisor (h : srS s.sr = true) :
    exec (.moveFromUsp an) s = .next (s.goOn 1 .seq (s.setA an (s.getStack .usp))) := by
  rw [exec_moveFromUsp, runInstr_supervisor _ _ h, runInstr_update]

theorem exec_moveToUsp_user (h : srS s.sr = false) :
    exec (.moveToUsp an) s = .next (s.takeException s.pc s.regs (privilegeExc s.pc)) := by
  rw [exec_moveToUsp, runInstr_user _ _ h]

theorem exec_moveFromUsp_user (h : srS s.sr = false) :
    exec (.moveFromUsp an) s = .next (s.takeException s.pc s.regs (privilegeExc s.pc)) := by
  rw [exec_moveFromUsp, runInstr_user _ _ h]

end moveUsp

/-! ### The obligations -/

/-- Settles O30: the body of NOP completes in the state that it finds. -/
theorem nopDoesNothing : Obligations.NopDoesNothing := ⟨decode_nop [], exec_nop⟩

/-- Settles O31: behind the check of privilege each direction is one change of the state. -/
theorem moveUsp : Obligations.MoveUsp := by
  intro s an
  refine ⟨decode_moveToUsp an, decode_moveFromUsp an, fun hs => ?supervisor, fun hu i hi => ?user⟩
  case supervisor => exact ⟨exec_moveToUsp_supervisor an s hs, exec_moveFromUsp_supervisor an s hs⟩
  case user =>
    obtain rfl | rfl : i = .moveToUsp an ∨ i = .moveFromUsp an := by simpa using hi
    · exact exec_moveToUsp_user an s hu
    · exact exec_moveFromUsp_user an s hu

end Sys2Proof.Machine
end

