-- ==== Sys2Proof/Proofs/Encoding.lean ====
section
/-!
SUPPORT. The decoder on the words that the encoder writes (30_encoding.md R120-R143): which row of the opcode table a first word
belongs to, the effective address and its extension words read back, and what each row makes of its words.
-/
namespace Sys2Proof

/-! ### Rows of the opcode table: a first word under a mask -/

section rows
variable {w m v m' v' : Word} (h : w &&& m = v)
include h

/-- A word of one row is in every row with a coarser mask that has its bits. -/
theorem and_eq_of_and_eq (hm : m' &&& m = m' ∧ v &&& m' = v') : (w &&& m' = v') = True := by
  obtain ⟨hm, rfl⟩ := hm
  rw [← h, BitVec.and_assoc, BitVec.and_comm m m', hm, eq_self]

/-- It is in no row that differs from its own in a bit that both masks cover. -/
theorem and_ne_of_and_eq (hd : v &&& m' ≠ v' &&& m) : ¬ w &&& m' = v' := by
  rintro rfl
  apply hd
  rw [← h, BitVec.and_assoc, BitVec.and_assoc, BitVec.and_comm m m']

/-- It is no fixed word that differs from its row in a bit of the mask. -/
theorem ne_of_and_eq (hd : v ≠ v' &&& m) : ¬ w = v' := by
  rintro rfl
  exact hd h.symm

end rows

section lines
variable {w : Word} (ws : List Word)

theorem decode_line0 (h : field w 12 4 = 0) : decode (w :: ws) = decodeLine0 w ws := by simp [decode, h]
theorem decode_line4 (h : field w 12 4 = 4) : decode (w :: ws) = decodeLine4 w ws := by simp [decode, h]
theorem decode_line8 (h : field w 12 4 = 8) : decode (w :: ws) = decodeLine8 w ws := by simp [decode, h]
theorem decode_lineF (h : field w 12 4 = 15) : decode (w :: ws) = match decodeLineF w ws with
    | .error .illegal => .ok (.fLine (field w 0 12), ws)
    | r => r := by
  simp only [decode, h]
  rfl

theorem decode_lineF_of_ok (h : field w 12 4 = 15) {i : Instr} {rest : List Word} (hd : decodeLineF w ws = .ok (i, rest)) :
    decode (w :: ws) = .ok (i, rest) := by
  rw [decode_lineF ws h, hd]

end lines

/-! ### First words as the encoder writes them -/

/-- The low six bits of a first word are its effective address. -/
theorem eaRow (k : BitVec 10) (e : BitVec 6) : (k ++ e : Word) &&& 0xFFC0 = k ++ 0#6 := by
  show (k ++ e) &&& (BitVec.allOnes 10 ++ 0#6) = _
  rw [BitVec.and_append, BitVec.and_allOnes, BitVec.and_zero]

/-- A register number above the effective address. -/
theorem registerEaRow (a : BitVec 4) (r : RegNo) (b : BitVec 3) (e : BitVec 6) :
    (a ++ r ++ b ++ e : Word) &&& 0xF1C0 = a ++ 0#3 ++ b ++ 0#6 := by
  show (a ++ r ++ b ++ e) &&& (BitVec.allOnes 4 ++ 0#3 ++ BitVec.allOnes 3 ++ 0#6) = _
  simp only [BitVec.and_append, BitVec.and_allOnes, BitVec.and_zero]

/-- A register number in the low three bits. -/
theorem registerRow (k : BitVec 13) (r : RegNo) : (k ++ r : Word) &&& 0xFFF8 = k ++ 0#3 := by
  show (k ++ r) &&& (BitVec.allOnes 13 ++ 0#3) = _
  rw [BitVec.and_append, BitVec.and_allOnes, BitVec.and_zero]

@[simp] theorem field_ea_low (k : BitVec 10) (e : BitVec 6) : field (k ++ e) 0 6 = e := BitVec.extractLsb'_append_eq_right
@[simp] theorem field_registerEa_low (a : BitVec 4) (r : RegNo) (b : BitVec 3) (e : BitVec 6) :
    field (a ++ r ++ b ++ e) 0 6 = e := BitVec.extractLsb'_append_eq_right
@[simp] theorem field_registerEa (a : BitVec 4) (r : RegNo) (b : BitVec 3) (e : BitVec 6) :
    field (a ++ r ++ b ++ e) 9 3 = r :=
  ((BitVec.extractLsb'_append_eq_of_le (by decide)).trans (BitVec.extractLsb'_append_eq_of_le (by decide))).trans
    BitVec.extractLsb'_append_eq_right
@[simp] theorem field_register (k : BitVec 13) (r : RegNo) : field (k ++ r) 0 3 = r := BitVec.extractLsb'_append_eq_right

/-! ### Effective addresses -/

/-- A field of a field. -/
theorem field_field (w : Word) (lo : Nat) {len a b : Nat} (h : a + b ≤ len) :
    (field w lo len).extractLsb' a b = field w (lo + a) b := by
  apply BitVec.eq_of_getLsbD_eq
  intro i hi
  simp only [field, BitVec.getLsbD_extractLsb', hi, decide_true, Bool.true_and, Nat.add_assoc]
  rw [decide_eq_true (by omega), Bool.true_and]

/-- The mode and the register of an effective address, as the decoder takes them from the first word. -/
theorem field_of_ea {w : Word} {e : BitVec 6} (h : field w 0 6 = e) :
    field w 3 3 = e.extractLsb' 3 3 ∧ field w 0 3 = e.extractLsb' 0 3 := by
  subst h
  exact ⟨(field_field w 0 (len := 6) (a := 3) (b := 3) (by decide)).symm,
    (field_field w 0 (len := 6) (a := 0) (b := 3) (by decide)).symm⟩

theorem mode_register (m r : BitVec 3) : (m ++ r).extractLsb' 3 3 = m ∧ (m ++ r).extractLsb' 0 3 = r :=
  ⟨BitVec.extractLsb'_append_eq_left, BitVec.extractLsb'_append_eq_right⟩

/-- Mode and register name the kind of the effective address they were made of (R140). -/
theorem eaKindOf_eaBits (ea : Ea) : eaKindOf ((eaBits ea).extractLsb' 3 3) ((eaBits ea).extractLsb' 0 3) = some ea.kind := by
  cases ea <;> simp only [eaBits, mode_register] <;> rfl

theorem acceptedKind_of_wf {c : EaClass} {n : Nat} {ea : Ea} {w : Word} (h : ea.wf c n = true) (hw : field w 0 6 = eaBits ea) :
    acceptedKind c w = some ea.kind := by
  have hc : eaAccepts c ea.kind = true := (Bool.and_eq_true_iff.mp h).1
  simp [acceptedKind, field_of_ea hw, eaKindOf_eaBits, hc]

@[simp] theorem takeWord_cons (w : Word) (ws : List Word) : takeWord (w :: ws) = .ok (w, ws) := rfl

theorem takeWords_append (vs ws : List Word) : takeWords vs.length (vs ++ ws) = .ok (vs, ws) := by
  induction vs with
  | nil => rfl
  | cons v vs ih => simp [takeWords, ih]

theorem decodeBd_dispWords (d : Disp) (ws : List Word) : decodeBd (dispBits d) (dispWords d ++ ws) = .ok (d, ws) := by
  cases d with
  | none => rfl
  | word d => rfl
  | long d => simp [decodeBd, dispBits, dispWords, takeLong_longWords]

/-- What the decoder reads of an indirection's code. -/
theorem indBits_pre (od : Disp) :
    ¬ indBits (.pre od) = 0 ∧ (indBits (.pre od)).extractLsb' 0 2 = dispBits od ∧ (indBits (.pre od)).getLsbD 2 = false := by
  cases od <;> exact ⟨by simp [indBits, dispBits], by simp [indBits, dispBits], by simp [indBits, dispBits]⟩

theorem indBits_post (od : Disp) :
    ¬ indBits (.post od) = 0 ∧ (indBits (.post od)).extractLsb' 0 2 = dispBits od ∧ (indBits (.post od)).getLsbD 2 = true := by
  cases od <;> exact ⟨by simp [indBits, dispBits], by simp [indBits, dispBits], by simp [indBits, dispBits]⟩

theorem decodeInd_indWords (ind : Indirect) (ws : List Word) : decodeInd (indBits ind) (indWords ind ++ ws) = .ok (ind, ws) := by
  cases ind with
  | no => rfl
  | pre od =>
    obtain ⟨hne, hlow, htop⟩ := indBits_pre od
    rw [decodeInd, if_neg hne, hlow, indWords, decodeBd_dispWords, htop]
    rfl
  | post od =>
    obtain ⟨hne, hlow, htop⟩ := indBits_post od
    rw [decodeInd, if_neg hne, hlow, indWords, decodeBd_dispWords, htop]
    rfl

/-- An index word that is none of the reserved ones (R141). -/
theorem indReserved_of_wf {x : IndexReg} {bs is : Bool} {bd : Disp} {ind : Indirect}
    (h : (IndexExt.full x bs is bd ind).wf = true) : indReserved is (indBits ind) = false := by
  cases ind with
  | no => cases is <;> rfl
  | pre od => cases od <;> simp [indReserved, indBits, dispBits]
  | post od =>
    cases is with
    | false => cases od <;> simp [indReserved, indBits, dispBits]
    | true => exact absurd h Bool.false_ne_true

theorem regField_eq {w : Word} {rn : Reg} (h : field w 12 4 = regBits rn) : regField w = rn := by
  have htop : w.getLsbD 15 = (regBits rn).getLsbD 3 := by simp [← h, field]
  have hlow : field w 12 3 = (regBits rn).extractLsb' 0 3 := by rw [← h, field_field w 12 (by decide)]
  rw [regField, htop, hlow]
  cases rn with
  | d n =>
    rw [show (regBits (.d n)).extractLsb' 0 3 = n from BitVec.extractLsb'_append_eq_right, regBits, BitVec.getLsbD_append]
    rfl
  | a n =>
    rw [show (regBits (.a n)).extractLsb' 0 3 = n from BitVec.extractLsb'_append_eq_right, regBits, BitVec.getLsbD_append]
    rfl

@[simp] theorem field_top (a : BitVec 4) (x : BitVec 12) : field (a ++ x) 12 4 = a := BitVec.extractLsb'_append_eq_left

@[simp] theorem regField_append (rn : Reg) (x : BitVec 12) : regField (regBits rn ++ x) = rn := regField_eq (field_top _ _)

section fullWord
variable (r : BitVec 4) (l : Bool) (sc : BitVec 2) (bs is : Bool) (db : BitVec 2) (i : BitVec 3)

/-- The fields of the word of the full format (R141). -/
theorem fields_fullWord :
    let w : Word := r ++ BitVec.ofBool l ++ sc ++ 1#1 ++ BitVec.ofBool bs ++ BitVec.ofBool is ++ db ++ 0#1 ++ i
    field w 12 4 = r ∧ field w 9 2 = sc ∧ field w 4 2 = db ∧ field w 0 3 = i := by
  intro w
  refine ⟨?_, ?_, ?_, ?_⟩ <;> simp only [w, field] <;> (repeat rw [BitVec.extractLsb'_append_eq_of_le (by decide)])
  · exact BitVec.extractLsb'_eq_self
  · exact BitVec.extractLsb'_append_eq_right
  · exact BitVec.extractLsb'_append_eq_right
  · exact BitVec.extractLsb'_append_eq_right

theorem bits_fullWord :
    let w : Word := r ++ BitVec.ofBool l ++ sc ++ 1#1 ++ BitVec.ofBool bs ++ BitVec.ofBool is ++ db ++ 0#1 ++ i
    w.getLsbD 11 = l ∧ w.getLsbD 8 = true ∧ w.getLsbD 7 = bs ∧ w.getLsbD 6 = is ∧ w.getLsbD 3 = false := by
  intro w
  refine ⟨?_, ?_, ?_, ?_, ?_⟩ <;> simp only [w] <;> (repeat rw [BitVec.getLsbD_append]) <;> simp

/-- The fields of the word of the brief format. -/
theorem fields_briefWord (d8 : Byte) :
    let w : Word := r ++ BitVec.ofBool l ++ sc ++ 0#1 ++ d8
    field w 12 4 = r ∧ field w 9 2 = sc ∧ field w 0 8 = d8 ∧ w.getLsbD 11 = l ∧ w.getLsbD 8 = false := by
  intro w
  refine ⟨?_, ?_, ?_, ?_, ?_⟩ <;> simp only [w, field] <;> (repeat rw [BitVec.extractLsb'_append_eq_of_le (by decide)])
  · exact BitVec.extractLsb'_eq_self
  · exact BitVec.extractLsb'_append_eq_right
  · exact BitVec.extractLsb'_append_eq_right
  all_goals
    repeat rw [BitVec.getLsbD_append]
    simp

end fullWord

theorem decodeIndex_indexWords {x : IndexExt} (h : x.wf = true) (ws : List Word) :
    decodeIndex (indexWords x ++ ws) = .ok (x, ws) := by
  cases x with
  | brief x d8 =>
    obtain ⟨hreg, hscale, hd8, hlong, hfull⟩ := fields_briefWord (regBits x.reg) x.long x.scale d8
    simp only [decodeIndex, indexWords, List.cons_append, List.nil_append, takeWord_cons, regField_eq hreg, hscale, hd8,
      hlong, hfull]
    rfl
  | full x bs is bd ind =>
    obtain ⟨hreg, hscale, hbd, hind⟩ := fields_fullWord (regBits x.reg) x.long x.scale bs is (dispBits bd) (indBits ind)
    obtain ⟨hlong, hfull, hbs, his, h3⟩ := bits_fullWord (regBits x.reg) x.long x.scale bs is (dispBits bd) (indBits ind)
    simp only [decodeIndex, indexWords, List.cons_append, List.append_assoc, takeWord_cons, regField_eq hreg, hscale, hbd, hind,
      hlong, hfull, hbs, his, h3, indReserved_of_wf h, Bool.or_false, if_true, decodeBd_dispWords, decodeInd_indWords]
    rfl

/-- The words of an effective address read back (R140). -/
theorem decodeEa_eaWords {c : EaClass} {n : Nat} {ea : Ea} (h : ea.wf c n = true) (ws : List Word) :
    decodeEa ea.kind ((eaBits ea).extractLsb' 0 3) n (eaWords ea ++ ws) = .ok (ea, ws) := by
  have hw := (Bool.and_eq_true_iff.mp h).2
  cases ea with
  | index r x => simp [decodeEa, Ea.kind, eaBits, eaWords, mode_register, decodeIndex_indexWords hw]
  | pcIndex x => simp [decodeEa, Ea.kind, eaWords, decodeIndex_indexWords hw]
  | imm ws' =>
    have hlen : ws'.length = n := by simpa using hw
    simp [decodeEa, Ea.kind, eaWords, ← hlen, takeWords_append]
  | absL a => simp [decodeEa, Ea.kind, eaWords, takeLong_longWords]
  | dn r | an r | ind r | postInc r | preDec r | disp r d =>
    simp [decodeEa, Ea.kind, eaBits, eaWords, mode_register]
  | absW _ | pcDisp _ => rfl

section withEa
variable {c : EaClass} {n : Nat} {ea : Ea} {w : Word} (h : ea.wf c n = true) (hw : field w 0 6 = eaBits ea) (ws : List Word)
include h hw

theorem withEa_eaWords (mk : Ea → Instr) : withEa c w n mk (eaWords ea ++ ws) = .ok (mk ea, ws) := by
  simp [withEa, acceptedKind_of_wf h hw, field_of_ea hw, decodeEa_eaWords h]

theorem withExtEa_eaWords {x : Word} {mk : Word → Except DecodeErr (Ea → Instr)} {f : Ea → Instr} (hx : mk x = .ok f) :
    withExtEa c w n mk (x :: (eaWords ea ++ ws)) = .ok (f ea, ws) := by
  simp [withExtEa, acceptedKind_of_wf h hw, hx, withEa_eaWords h hw]

end withEa

/-! What the low six bits of a first word are not, where the class of its effective address leaves a kind out. -/

section excluded
variable {c : EaClass} {n : Nat} {ea : Ea} {w : Word} (h : ea.wf c n = true) (hw : field w 0 6 = eaBits ea)
include h hw

theorem mode_register_ne {k : EaKind} {m r : BitVec 3} (hk : eaKindOf m r = some k) (hc : eaAccepts c k = false) :
    ¬ (field w 3 3 = m ∧ field w 0 3 = r) := by
  rintro ⟨hm, hr⟩
  have hkind := eaKindOf_eaBits ea
  rw [← (field_of_ea hw).1, ← (field_of_ea hw).2, hm, hr, hk] at hkind
  have hacc : eaAccepts c ea.kind = true := (Bool.and_eq_true_iff.mp h).1
  rw [← Option.some.inj hkind, hc] at hacc
  exact Bool.false_ne_true hacc

/-- The first word is no fixed word whose low bits name such a kind. -/
theorem ne_of_excluded {v : Word} {k : EaKind} (hk : eaKindOf (field v 3 3) (field v 0 3) = some k)
    (hc : eaAccepts c k = false) : ¬ w = v := by
  rintro rfl
  exact mode_register_ne h hw hk hc ⟨rfl, rfl⟩

/-- Its mode is none of the modes of a kind that has one of its own. -/
theorem mode_ne_of_excluded {k : EaKind} {m : BitVec 3} (hk : ∀ r, eaKindOf m r = some k) (hc : eaAccepts c k = false) :
    ¬ field w 3 3 = m := fun hm => mode_register_ne h hw (hk _) hc ⟨hm, rfl⟩

end excluded

/-! ### Line 0 -/

section line0
variable {ea : Ea} (rest : List Word)

theorem field_register11 (rn : Reg) : field (regBits rn ++ 0x800#12) 0 11 = 0 :=
  (BitVec.extractLsb'_append_eq_of_add_le (xhi := regBits rn) (xlo := 0x800#12) (by decide)).trans (by decide)

theorem bit_register11 (rn : Reg) : (regBits rn ++ 0x800#12 : Word).getLsbD 11 = true := by rw [BitVec.getLsbD_append]; rfl

theorem decodeMoves_load (sz : Size) (rn : Reg) : decodeMoves sz (regBits rn ++ 0#12) = .ok fun ea => .movesLoad sz ea rn := by
  have hlow : field (regBits rn ++ 0#12) 0 11 = 0 :=
    (BitVec.extractLsb'_append_eq_of_add_le (xhi := regBits rn) (xlo := 0#12) (by decide)).trans (by decide)
  have hdir : (regBits rn ++ 0#12 : Word).getLsbD 11 = false := by rw [BitVec.getLsbD_append]; rfl
  simp only [decodeMoves, hlow, hdir, ne_eq, not_true_eq_false, if_false, Bool.false_eq_true, regField_append]

theorem decodeMoves_store (sz : Size) (rn : Reg) :
    decodeMoves sz (regBits rn ++ 0x800#12) = .ok fun ea => .movesStore sz rn ea := by
  simp only [decodeMoves, field_register11, bit_register11, ne_eq, not_true_eq_false, if_false, if_true, regField_append]

theorem decodeChk2_word (sz : Size) (rn : Reg) : decodeChk2 sz (regBits rn ++ 0x800#12) = .ok fun ea => .chk2 sz ea rn := by
  simp only [decodeChk2, field_register11, bit_register11, ne_eq, not_true_eq_false, if_false, regField_append]

theorem decodeCas_word (sz : Size) (dc du : RegNo) : decodeCas sz (0#7 ++ du ++ 0#3 ++ dc) = .ok fun ea => .cas sz dc du ea := by
  have hzero : (0#7 ++ du ++ 0#3 ++ dc : Word) &&& 0xFE38 = 0 := by
    show (0#7 ++ du ++ 0#3 ++ dc) &&& (BitVec.allOnes 7 ++ 0#3 ++ BitVec.allOnes 3 ++ 0#3) = _
    simp only [BitVec.and_append, BitVec.and_zero, BitVec.zero_and]
    rfl
  have hdc : field (0#7 ++ du ++ 0#3 ++ dc) 0 3 = dc := BitVec.extractLsb'_append_eq_right
  have hdu : field (0#7 ++ du ++ 0#3 ++ dc) 6 3 = du :=
    ((BitVec.extractLsb'_append_eq_of_le (by decide)).trans (BitVec.extractLsb'_append_eq_of_le (by decide))).trans
      BitVec.extractLsb'_append_eq_right
  simp only [decodeCas, hzero, hdc, hdu, ne_eq, not_true_eq_false, if_false]

theorem decode_moves (sz : Size) {x : Word} {f : Ea → Instr} (hx : decodeMoves sz x = .ok f) (h : ea.wf .memAlterable 0 = true) :
    decode ((0x0E#8 ++ sizeBits012 sz ++ eaBits ea) :: x :: (eaWords ea ++ rest)) = .ok (f ea, rest) := by
  have hrow := eaRow (0x0E#8 ++ sizeBits012 sz) (eaBits ea)
  have hsize : field (0x0E#8 ++ sizeBits012 sz ++ eaBits ea) 6 2 = sizeBits012 sz :=
    (BitVec.extractLsb'_append_eq_of_le (by decide)).trans BitVec.extractLsb'_append_eq_right
  have hea : field (0x0E#8 ++ sizeBits012 sz ++ eaBits ea) 0 6 = eaBits ea := BitVec.extractLsb'_append_eq_right
  generalize (0x0E#8 ++ sizeBits012 sz ++ eaBits ea : Word) = w at hrow hsize hea
  rw [decode_line0 _ (by rw [field_eq_of_and_eq (by decide) hrow]; cases sz <;> rfl)]
  cases sz <;>
    simp (disch := decide) only [decodeLine0, ne_of_and_eq hrow, and_eq_of_and_eq hrow, hsize, sizeBits012, if_false,
      ne_eq, true_and] <;>
    exact withExtEa_eaWords h hea rest hx

theorem decode_chk2 (sz : Size) (rn : Reg) (h : ea.wf .control 0 = true) :
    decode ((0#5 ++ sizeBits012 sz ++ 3#3 ++ eaBits ea) :: (regBits rn ++ 0x800#12) :: (eaWords ea ++ rest)) =
      .ok (.chk2 sz ea rn, rest) := by
  have hrow := eaRow (0#5 ++ sizeBits012 sz ++ 3#3) (eaBits ea)
  have hea : field (0#5 ++ sizeBits012 sz ++ 3#3 ++ eaBits ea) 0 6 = eaBits ea := BitVec.extractLsb'_append_eq_right
  generalize (0#5 ++ sizeBits012 sz ++ 3#3 ++ eaBits ea : Word) = w at hrow hea
  have hsize : field w 9 2 = sizeBits012 sz := by
    rw [field_eq_of_and_eq (by decide) hrow]; cases sz <;> rfl
  rw [decode_line0 _ (by rw [field_eq_of_and_eq (by decide) hrow]; cases sz <;> rfl)]
  cases sz <;>
    simp (disch := decide) only [decodeLine0, ne_of_and_eq hrow, and_eq_of_and_eq hrow, and_ne_of_and_eq hrow, hsize, sizeBits012,
      if_true, if_false, false_and] <;>
    exact withExtEa_eaWords h hea rest (decodeChk2_word _ rn)

theorem decode_cas (sz : Size) (dc du : RegNo) (h : ea.wf .memAlterable 0 = true) :
    decode ((1#5 ++ sizeBits123 sz ++ 3#3 ++ eaBits ea) :: (0#7 ++ du ++ 0#3 ++ dc) :: (eaWords ea ++ rest)) =
      .ok (.cas sz dc du ea, rest) := by
  have hrow := eaRow (1#5 ++ sizeBits123 sz ++ 3#3) (eaBits ea)
  have hea : field (1#5 ++ sizeBits123 sz ++ 3#3 ++ eaBits ea) 0 6 = eaBits ea := BitVec.extractLsb'_append_eq_right
  generalize (1#5 ++ sizeBits123 sz ++ 3#3 ++ eaBits ea : Word) = w at hrow hea
  have hsize : field w 9 2 = sizeBits123 sz := by
    rw [field_eq_of_and_eq (by decide) hrow]; cases sz <;> rfl
  have hne {v : Word} (hv : field v 3 3 = 7 ∧ field v 0 3 = 4) : ¬ w = v :=
    ne_of_excluded h hea (k := .imm) (by rw [hv.1, hv.2]; rfl) rfl
  have hlow : field w 6 2 = 3 := by
    rw [field_eq_of_and_eq (by decide) hrow]; cases sz <;> rfl
  rw [decode_line0 _ (by rw [field_eq_of_and_eq (by decide) hrow]; cases sz <;> rfl)]
  cases sz <;>
    simp (disch := decide) only [decodeLine0, hne, hlow, ne_eq, not_true_eq_false, and_false, and_eq_of_and_eq hrow, and_ne_of_and_eq hrow, hsize, sizeBits123,
      if_true, if_false] <;>
    exact withExtEa_eaWords h hea rest (decodeCas_word _ dc du)

theorem decodeCas2_words (long : Bool) (rn1 rn2 : Reg) (dc1 du1 dc2 du2 : RegNo) :
    decodeCas2 long ((regBits rn1 ++ 0#3 ++ du1 ++ 0#3 ++ dc1) :: (regBits rn2 ++ 0#3 ++ du2 ++ 0#3 ++ dc2) :: rest) =
      .ok (.cas2 long rn1 dc1 du1 rn2 dc2 du2, rest) := by
  have hzero (r : BitVec 4) (du dc : RegNo) : (r ++ 0#3 ++ du ++ 0#3 ++ dc : Word) &&& 0x0E38 = 0 := by
    show (r ++ 0#3 ++ du ++ 0#3 ++ dc) &&& (0#4 ++ BitVec.allOnes 3 ++ 0#3 ++ BitVec.allOnes 3 ++ 0#3) = _
    simp only [BitVec.and_append, BitVec.and_zero, BitVec.zero_and]
    rfl
  have hdc (r : BitVec 4) (du dc : RegNo) : field (r ++ 0#3 ++ du ++ 0#3 ++ dc) 0 3 = dc := BitVec.extractLsb'_append_eq_right
  have hdu (r : BitVec 4) (du dc : RegNo) : field (r ++ 0#3 ++ du ++ 0#3 ++ dc) 6 3 = du :=
    ((BitVec.extractLsb'_append_eq_of_le (by decide)).trans (BitVec.extractLsb'_append_eq_of_le (by decide))).trans
      BitVec.extractLsb'_append_eq_right
  have hrn (rn : Reg) (du dc : RegNo) : regField (regBits rn ++ 0#3 ++ du ++ 0#3 ++ dc) = rn := by
    refine regField_eq ?_
    unfold field
    repeat rw [BitVec.extractLsb'_append_eq_of_le (by decide)]
    exact BitVec.extractLsb'_eq_self
  simp only [decodeCas2, takeWord_cons, hzero, hdc, hdu, hrn, ne_eq, not_true_eq_false, if_false]

end line0

/-! ### Lines 4 and 8 -/

section line4
variable {ea : Ea} (rest : List Word)

theorem decode_chkL (dn : RegNo) (h : ea.wf .data 2 = true) :
    decode ((4#4 ++ dn ++ 4#3 ++ eaBits ea) :: (eaWords ea ++ rest)) = .ok (.chkL ea dn, rest) := by
  have hrow := registerEaRow 4#4 dn 4#3 (eaBits ea)
  rw [decode_line4 _ (field_eq_of_and_eq (by decide) hrow)]
  simp (disch := decide) only [decodeLine4, decodeLine4Fixed, ne_of_and_eq hrow, and_ne_of_and_eq hrow, and_eq_of_and_eq hrow,
    if_false, if_true, field_registerEa, withEa_eaWords h (field_registerEa_low _ _ _ _)]

theorem decode_chkW (dn : RegNo) (h : ea.wf .data 1 = true) :
    decode ((4#4 ++ dn ++ 6#3 ++ eaBits ea) :: (eaWords ea ++ rest)) = .ok (.chkW ea dn, rest) := by
  have hrow := registerEaRow 4#4 dn 6#3 (eaBits ea)
  rw [decode_line4 _ (field_eq_of_and_eq (by decide) hrow)]
  simp (disch := decide) only [decodeLine4, decodeLine4Fixed, ne_of_and_eq hrow, and_ne_of_and_eq hrow, and_eq_of_and_eq hrow,
    if_false, if_true, field_registerEa, withEa_eaWords h (field_registerEa_low _ _ _ _)]

theorem decode_divuW (dn : RegNo) (h : ea.wf .data 1 = true) :
    decode ((8#4 ++ dn ++ 3#3 ++ eaBits ea) :: (eaWords ea ++ rest)) = .ok (.divuW ea dn, rest) := by
  have hrow := registerEaRow 8#4 dn 3#3 (eaBits ea)
  rw [decode_line8 _ (field_eq_of_and_eq (by decide) hrow)]
  simp (disch := decide) only [decodeLine8, and_eq_of_and_eq hrow, if_true, field_registerEa,
    withEa_eaWords h (field_registerEa_low _ _ _ _)]

theorem decode_divsW (dn : RegNo) (h : ea.wf .data 1 = true) :
    decode ((8#4 ++ dn ++ 7#3 ++ eaBits ea) :: (eaWords ea ++ rest)) = .ok (.divsW ea dn, rest) := by
  have hrow := registerEaRow 8#4 dn 7#3 (eaBits ea)
  rw [decode_line8 _ (field_eq_of_and_eq (by decide) hrow)]
  simp (disch := decide) only [decodeLine8, and_ne_of_and_eq hrow, and_eq_of_and_eq hrow, if_false, if_true, field_registerEa,
    withEa_eaWords h (field_registerEa_low _ _ _ _)]

/-- The extension word of the long divides (R167): sign and width are its bits 11 and 10. -/
theorem decodeDivl_word (dq dr : RegNo) (m : BitVec 9) (hm : m &&& 0x7F = 0) :
    decodeDivl (0#1 ++ dq ++ m ++ dr) = .ok fun ea =>
      match m.getLsbD 8, m.getLsbD 7 with
      | false, false => .divuL ea dq dr
      | false, true => .divuL64 ea dq dr
      | true, false => .divsL ea dq dr
      | true, true => .divsL64 ea dq dr := by
  have hzero : (0#1 ++ dq ++ m ++ dr : Word) &&& 0x83F8 = 0 := by
    show _ &&& (BitVec.allOnes 1 ++ 0#3 ++ 0x7F#9 ++ 0#3) = _
    simp only [BitVec.and_append, BitVec.and_zero, BitVec.zero_and, show m &&& 0x7F#9 = 0 from hm]
    rfl
  have hdr : field (0#1 ++ dq ++ m ++ dr) 0 3 = dr := BitVec.extractLsb'_append_eq_right
  have hdq : field (0#1 ++ dq ++ m ++ dr) 12 3 = dq := by
    unfold field
    repeat rw [BitVec.extractLsb'_append_eq_of_le (by decide)]
    exact BitVec.extractLsb'_append_eq_right
  have hsigned : (0#1 ++ dq ++ m ++ dr : Word).getLsbD 11 = m.getLsbD 8 := by
    repeat rw [BitVec.getLsbD_append]
    simp
  have hwide : (0#1 ++ dq ++ m ++ dr : Word).getLsbD 10 = m.getLsbD 7 := by
    repeat rw [BitVec.getLsbD_append]
    simp
  simp only [decodeDivl, hzero, hdr, hdq, hsigned, hwide, ne_eq, not_true_eq_false, if_false] <;> rfl

section ea
variable {x : Word}

theorem decode_divl {f : Ea → Instr} (hx : decodeDivl x = .ok f) (h : ea.wf .data 2 = true) :
    decode ((0x131#10 ++ eaBits ea) :: x :: (eaWords ea ++ rest)) = .ok (f ea, rest) := by
  have hrow := eaRow 0x131#10 (eaBits ea)
  rw [decode_line4 _ (field_eq_of_and_eq (by decide) hrow)]
  simp (disch := decide) only [decodeLine4, decodeLine4Fixed, ne_of_and_eq hrow, and_ne_of_and_eq hrow, and_eq_of_and_eq hrow,
    if_false, if_true, withExtEa_eaWords h (field_ea_low _ _) rest hx]

theorem decode_moveToSr (h : ea.wf .data 1 = true) :
    decode ((0x11B#10 ++ eaBits ea) :: (eaWords ea ++ rest)) = .ok (.moveToSr ea, rest) := by
  have hrow := eaRow 0x11B#10 (eaBits ea)
  rw [decode_line4 _ (field_eq_of_and_eq (by decide) hrow)]
  simp (disch := decide) only [decodeLine4, decodeLine4Fixed, ne_of_and_eq hrow, and_ne_of_and_eq hrow, and_eq_of_and_eq hrow,
    if_false, if_true, withEa_eaWords h (field_ea_low _ _)]

theorem decode_moveFromSr (h : ea.wf .dataAlterable 0 = true) :
    decode ((0x103#10 ++ eaBits ea) :: (eaWords ea ++ rest)) = .ok (.moveFromSr ea, rest) := by
  have hrow := eaRow 0x103#10 (eaBits ea)
  rw [decode_line4 _ (field_eq_of_and_eq (by decide) hrow)]
  simp (disch := decide) only [decodeLine4, decodeLine4Fixed, ne_of_and_eq hrow, and_ne_of_and_eq hrow, and_eq_of_and_eq hrow,
    if_false, if_true, withEa_eaWords h (field_ea_low _ _)]

/-- TAS with the effective address of an immediate operand would be ILLEGAL. -/
theorem decode_tas (h : ea.wf .dataAlterable 0 = true) :
    decode ((0x12B#10 ++ eaBits ea) :: (eaWords ea ++ rest)) = .ok (.tas ea, rest) := by
  have hrow := eaRow 0x12B#10 (eaBits ea)
  have hne : ¬ (0x12B#10 ++ eaBits ea : Word) = 0x4AFC := ne_of_excluded h (field_ea_low _ _) (k := .imm) rfl rfl
  rw [decode_line4 _ (field_eq_of_and_eq (by decide) hrow)]
  simp (disch := decide) only [decodeLine4, decodeLine4Fixed, hne, ne_of_and_eq hrow, and_ne_of_and_eq hrow,
    and_eq_of_and_eq hrow, if_false, if_true, withEa_eaWords h (field_ea_low _ _)]

/-- MOVEM to memory in mode 000 would be EXT. -/
theorem decode_movemStore (long : Bool) (mask : Word) (h : ea.wf .controlAlterableOrPre 0 = true) :
    decode ((0x91#9 ++ BitVec.ofBool long ++ eaBits ea) :: mask :: (eaWords ea ++ rest)) = .ok (.movemStore long mask ea, rest) := by
  have hrow := eaRow (0x91#9 ++ BitVec.ofBool long) (eaBits ea)
  have hea : field (0x91#9 ++ BitVec.ofBool long ++ eaBits ea) 0 6 = eaBits ea := BitVec.extractLsb'_append_eq_right
  have hlong : (0x91#9 ++ BitVec.ofBool long ++ eaBits ea : Word).getLsbD 6 = long := by
    repeat rw [BitVec.getLsbD_append]
    simp
  generalize (0x91#9 ++ BitVec.ofBool long ++ eaBits ea : Word) = w at hrow hea hlong
  have hmode : ¬ field w 3 3 = 0 := mode_ne_of_excluded h hea (k := .dn) (fun _ => rfl) rfl
  rw [decode_line4 _ (by rw [field_eq_of_and_eq (by decide) hrow]; cases long <;> rfl)]
  cases long <;>
    simp (disch := decide) only [decodeLine4, decodeLine4Fixed, ne_of_and_eq hrow, and_ne_of_and_eq hrow, and_eq_of_and_eq hrow,
      hmode, hlong, if_false, if_true] <;>
    exact withExtEa_eaWords h hea rest rfl

theorem decode_movemLoad (long : Bool) (mask : Word) (h : ea.wf .controlOrPost 0 = true) :
    decode ((0x99#9 ++ BitVec.ofBool long ++ eaBits ea) :: mask :: (eaWords ea ++ rest)) = .ok (.movemLoad long mask ea, rest) := by
  have hrow := eaRow (0x99#9 ++ BitVec.ofBool long) (eaBits ea)
  have hea : field (0x99#9 ++ BitVec.ofBool long ++ eaBits ea) 0 6 = eaBits ea := BitVec.extractLsb'_append_eq_right
  have hlong : (0x99#9 ++ BitVec.ofBool long ++ eaBits ea : Word).getLsbD 6 = long := by
    repeat rw [BitVec.getLsbD_append]
    simp
  generalize (0x99#9 ++ BitVec.ofBool long ++ eaBits ea : Word) = w at hrow hea hlong
  rw [decode_line4 _ (by rw [field_eq_of_and_eq (by decide) hrow]; cases long <;> rfl)]
  cases long <;>
    simp (disch := decide) only [decodeLine4, decodeLine4Fixed, ne_of_and_eq hrow, and_ne_of_and_eq hrow, and_eq_of_and_eq hrow,
      hlong, if_false, if_true] <;>
    exact withExtEa_eaWords h hea rest rfl

end ea

theorem decode_movec (x : Word) :
    decode (0x4E7A :: x :: rest) = .ok (.movecFrom (field x 0 12) (regField x), rest) ∧
      decode (0x4E7B :: x :: rest) = .ok (.movecTo (field x 0 12) (regField x), rest) := ⟨rfl, rfl⟩

/-- The rows of line 4 that are fixed but for a number. -/
theorem decode_trap_rest (n : BitVec 4) : decode ((0x4E4#12 ++ n) :: rest) = .ok (.trap n, rest) := by
  have hrow : (0x4E4#12 ++ n : Word) &&& 0xFFF0 = 0x4E4#12 ++ 0#4 := by
    show _ &&& (BitVec.allOnes 12 ++ 0#4) = _
    rw [BitVec.and_append, BitVec.and_allOnes, BitVec.and_zero]
  have hn : field (0x4E4#12 ++ n) 0 4 = n := BitVec.extractLsb'_append_eq_right
  rw [decode_line4 _ (field_eq_of_and_eq (by decide) hrow)]
  simp (disch := decide) only [decodeLine4, decodeLine4Fixed, ne_of_and_eq hrow, and_eq_of_and_eq hrow, if_false, if_true, hn]

theorem decode_register4 (r : RegNo) :
    decode ((0x909#13 ++ r) :: rest) = .ok (.bkpt r, rest) ∧ decode ((0x9CC#13 ++ r) :: rest) = .ok (.moveToUsp r, rest) ∧
      decode ((0x9CD#13 ++ r) :: rest) = .ok (.moveFromUsp r, rest) := by
  refine ⟨?_, ?_, ?_⟩
  · have hrow := registerRow 0x909#13 r
    rw [decode_line4 _ (field_eq_of_and_eq (by decide) hrow)]
    simp (disch := decide) only [decodeLine4, decodeLine4Fixed, ne_of_and_eq hrow, and_ne_of_and_eq hrow, and_eq_of_and_eq hrow,
      if_false, if_true, field_register]
  · have hrow := registerRow 0x9CC#13 r
    rw [decode_line4 _ (field_eq_of_and_eq (by decide) hrow)]
    simp (disch := decide) only [decodeLine4, decodeLine4Fixed, ne_of_and_eq hrow, and_ne_of_and_eq hrow, and_eq_of_and_eq hrow,
      if_false, if_true, field_register]
  · have hrow := registerRow 0x9CD#13 r
    rw [decode_line4 _ (field_eq_of_and_eq (by decide) hrow)]
    simp (disch := decide) only [decodeLine4, decodeLine4Fixed, ne_of_and_eq hrow, and_ne_of_and_eq hrow, and_eq_of_and_eq hrow,
      if_false, if_true, field_register]

end line4

/-! ### Line F -/

section lineF
variable {ea : Ea} (rest : List Word)

theorem decodeLineF_fp {w : Word} (k : BitVec 3) (h : w &&& 0xFFC0 = 0x79#7 ++ k ++ 0#6) (ws : List Word) :
    decodeLineF w ws = decodeFp w ws ∧ field w 6 3 = k ∧ field w 12 4 = 15 := by
  have hrow : w &&& 0xFE00 = 0xF200 := by
    have := congrArg (· &&& (0xFE00 : Word)) h
    simp only [BitVec.and_assoc] at this
    rw [show (0xFFC0 : Word) &&& 0xFE00 = 0xFE00 by decide] at this
    rw [this]
    show (0x79#7 ++ k ++ 0#6) &&& (BitVec.allOnes 7 ++ 0#3 ++ 0#6) = _
    simp only [BitVec.and_append, BitVec.and_allOnes, BitVec.and_zero]
    rfl
  refine ⟨?_, ?_, field_eq_of_and_eq (by decide) hrow⟩
  · simp (disch := decide) only [decodeLineF, and_ne_of_and_eq hrow, if_false, hrow, if_true]
  · rw [field_eq_of_and_eq (by decide) h]
    exact (BitVec.extractLsb'_append_eq_of_le (by decide)).trans BitVec.extractLsb'_append_eq_right

/-- A floating-point operation word with an effective address: its instruction type is in bits 8:6 (R122). -/
theorem decode_fp {k : BitVec 3} {e : BitVec 6} {ws : List Word} {i : Instr}
    (hd : decodeFp (0x79#7 ++ k ++ e) ws = .ok (i, rest)) : decode ((0x79#7 ++ k ++ e) :: ws) = .ok (i, rest) := by
  obtain ⟨hfp, -, hline⟩ := decodeLineF_fp k (eaRow (0x79#7 ++ k) e) ws
  exact decode_lineF_of_ok ws hline (hfp.trans hd)

theorem decodeFp_type (k : BitVec 3) (e : BitVec 6) (ws : List Word) :
    field (0x79#7 ++ k ++ e) 6 3 = k ∧ field (0x79#7 ++ k ++ e) 0 6 = e :=
  ⟨(decodeLineF_fp k (eaRow (0x79#7 ++ k) e) ws).2.1, BitVec.extractLsb'_append_eq_right⟩

theorem decodeFp_general (e : BitVec 6) (cw : Word) (ws : List Word) :
    decodeFp (0x3C8#10 ++ e) (cw :: ws) = decodeGeneral (0x3C8#10 ++ e) cw ws := by
  have htype : field (0x3C8#10 ++ e) 6 3 = 0 := (decodeFp_type 0 e ws).1
  simp [decodeFp, htype]

/-- The four fields of a command word (R123). -/
theorem fields_command (a m d : BitVec 3) (c : BitVec 7) :
    field (a ++ m ++ d ++ c) 13 3 = a ∧ field (a ++ m ++ d ++ c) 10 3 = m ∧ field (a ++ m ++ d ++ c) 7 3 = d ∧
      field (a ++ m ++ d ++ c) 0 7 = c := by
  unfold field
  refine ⟨?_, ?_, ?_, ?_⟩ <;> repeat rw [BitVec.extractLsb'_append_eq_of_le (by decide)]
  · exact BitVec.extractLsb'_eq_self
  all_goals exact BitVec.extractLsb'_append_eq_right

/-- A command word with a selection and ten bits below it. -/
theorem fields_selection (a m : BitVec 3) (c : BitVec 10) :
    field (a ++ m ++ c) 13 3 = a ∧ field (a ++ m ++ c) 10 3 = m ∧ field (a ++ m ++ c) 0 10 = c := by
  unfold field
  refine ⟨?_, ?_, ?_⟩ <;> repeat rw [BitVec.extractLsb'_append_eq_of_le (by decide)]
  · exact BitVec.extractLsb'_eq_self
  all_goals exact BitVec.extractLsb'_append_eq_right

/-- The command word of FMOVEM (R279). -/
theorem fields_fmovem (a : BitVec 3) (ctl dyn : Bool) (list : Byte) :
    let cw : Word := a ++ BitVec.ofBool ctl ++ BitVec.ofBool dyn ++ 0#3 ++ list
    field cw 13 3 = a ∧ cw.getLsbD 12 = ctl ∧ cw.getLsbD 11 = dyn ∧ field cw 8 3 = 0 ∧ field cw 0 8 = list := by
  intro cw
  refine ⟨?_, ?_, ?_, ?_, ?_⟩ <;> simp only [cw, field] <;> (repeat rw [BitVec.extractLsb'_append_eq_of_le (by decide)])
  · exact BitVec.extractLsb'_eq_self
  · repeat rw [BitVec.getLsbD_append]
    simp
  · repeat rw [BitVec.getLsbD_append]
    simp
  all_goals exact BitVec.extractLsb'_append_eq_right

theorem fmtOf_fmtBits (fmt : FpFmt) : fmtOf (fmtBits fmt) = some fmt := by cases fmt <;> rfl
theorem outFmtOf_outFmtBits (fmt : FpOutFmt) : outFmtOf (outFmtBits fmt) = fmt := by cases fmt <;> rfl

theorem cmdInstr_fsincos (c : RegNo) : cmdInstr (6#4 ++ c) = some fun s d => .fsincos s d c := by
  have hhigh : (6#4 ++ c : BitVec 7).extractLsb' 3 4 = 6 := BitVec.extractLsb'_append_eq_left
  have hlow : (6#4 ++ c : BitVec 7).extractLsb' 0 3 = c := BitVec.extractLsb'_append_eq_right
  rw [cmdInstr, if_pos hhigh, hlow]

theorem decode_general {cmd : BitVec 7} {mk : FpSrc → RegNo → Instr} (hcmd : cmdInstr cmd = some mk) {src : FpSrc}
    (h : src.wf = true) (dst : RegNo) : decode (encodeGeneral cmd src dst ++ rest) = .ok (mk src dst, rest) := by
  cases src with
  | reg m =>
    obtain ⟨hclass, hsrc, hdst, hc⟩ := fields_command 0#3 m dst cmd
    refine decode_fp (k := 0) (e := 0) rest ((decodeFp_general 0 _ _).trans ?_)
    simp only [decodeGeneral, commandWord, hclass, hsrc, hdst, hc, hcmd]
    rfl
  | ea fmt e =>
    obtain ⟨hclass, hsrc, hdst, hc⟩ := fields_command 2#3 (fmtBits fmt) dst cmd
    refine decode_fp (k := 0) rest ((decodeFp_general (eaBits e) _ _).trans ?_)
    simp only [decodeGeneral, commandWord, hclass, hsrc, hdst, hc, hcmd, fmtOf_fmtBits]
    exact withEa_eaWords h (field_ea_low _ _) rest _

theorem decode_fmovecr (ofs : BitVec 7) (dst : RegNo) :
    decode (0xF200 :: (0x17#6 ++ dst ++ ofs) :: rest) = .ok (.fmovecr ofs dst, rest) := by
  obtain ⟨hclass, hsrc, hdst, hc⟩ := fields_command 2#3 7#3 dst ofs
  refine decode_fp (k := 0) (e := 0) rest ((decodeFp_general 0 _ _).trans ?_)
  rw [show (0x17#6 : BitVec 6) = 2#3 ++ 7#3 by decide]
  simp only [decodeGeneral, hclass, hsrc, hdst, hc]
  rfl

theorem decode_fmoveOut (fmt : FpOutFmt) (src : RegNo) (k : BitVec 7) (h : ea.wf (.fpDest fmt) 0 = true) :
    decode ((0x3C8#10 ++ eaBits ea) :: moveOutWord fmt src k :: (eaWords ea ++ rest)) = .ok (.fmoveOut fmt src k ea, rest) := by
  obtain ⟨hclass, hsrc, hdst, hc⟩ := fields_command 3#3 (outFmtBits fmt) src k
  refine decode_fp (k := 0) rest ((decodeFp_general (eaBits ea) _ _).trans ?_)
  simp only [decodeGeneral, moveOutWord, hclass, hsrc, hdst, hc, outFmtOf_outFmtBits]
  exact withEa_eaWords h (field_ea_low _ _) rest _

theorem decode_fmoveToCr (sel : BitVec 3) (h : ea.wf (.toCr sel) (2 * selCount sel) = true) :
    decode ((0x3C8#10 ++ eaBits ea) :: (4#3 ++ sel ++ 0#10) :: (eaWords ea ++ rest)) = .ok (.fmoveToCr sel ea, rest) := by
  obtain ⟨hclass, hsel, hlow⟩ := fields_selection 4#3 sel 0#10
  refine decode_fp (k := 0) rest ((decodeFp_general (eaBits ea) _ _).trans ?_)
  simp only [decodeGeneral, hclass, hsel, hlow]
  exact withEa_eaWords h (field_ea_low _ _) rest _

theorem decode_fmoveFromCr (sel : BitVec 3) (h : ea.wf (.fromCr sel) 0 = true) :
    decode ((0x3C8#10 ++ eaBits ea) :: (5#3 ++ sel ++ 0#10) :: (eaWords ea ++ rest)) = .ok (.fmoveFromCr sel ea, rest) := by
  obtain ⟨hclass, hsel, hlow⟩ := fields_selection 5#3 sel 0#10
  refine decode_fp (k := 0) rest ((decodeFp_general (eaBits ea) _ _).trans ?_)
  simp only [decodeGeneral, hclass, hsel, hlow]
  exact withEa_eaWords h (field_ea_low _ _) rest _

theorem decode_fmovemLoad (ctl dyn : Bool) (list : Byte) (h : ea.wf .controlOrPost 0 = true) :
    decode ((0x3C8#10 ++ eaBits ea) :: (6#3 ++ BitVec.ofBool ctl ++ BitVec.ofBool dyn ++ 0#3 ++ list) :: (eaWords ea ++ rest)) =
      .ok (.fmovemLoad ctl dyn list ea, rest) := by
  obtain ⟨hclass, hctl, hdyn, hzero, hlist⟩ := fields_fmovem 6#3 ctl dyn list
  refine decode_fp (k := 0) rest ((decodeFp_general (eaBits ea) _ _).trans ?_)
  simp only [decodeGeneral, hclass, hctl, hdyn, hzero, hlist]
  exact withEa_eaWords h (field_ea_low _ _) rest _

theorem decode_fmovemStore (ctl dyn : Bool) (list : Byte) (h : ea.wf .controlAlterableOrPre 0 = true) :
    decode ((0x3C8#10 ++ eaBits ea) :: (7#3 ++ BitVec.ofBool ctl ++ BitVec.ofBool dyn ++ 0#3 ++ list) :: (eaWords ea ++ rest)) =
      .ok (.fmovemStore ctl dyn list ea, rest) := by
  obtain ⟨hclass, hctl, hdyn, hzero, hlist⟩ := fields_fmovem 7#3 ctl dyn list
  refine decode_fp (k := 0) rest ((decodeFp_general (eaBits ea) _ _).trans ?_)
  simp only [decodeGeneral, hclass, hctl, hdyn, hzero, hlist]
  exact withEa_eaWords h (field_ea_low _ _) rest _

/-! Conditional instructions. -/

theorem predOf_predWord (p : BitVec 5) : predOf (predWord p) = some p := by
  have hhigh : field (predWord p) 5 11 = 0 := BitVec.extractLsb'_append_eq_left
  have hlow : field (predWord p) 0 5 = p := BitVec.extractLsb'_append_eq_right
  rw [predOf, if_pos hhigh, hlow]

theorem withPred_predWord (p : BitVec 5) (mk : BitVec 5 → List Word → Dec Instr) (ws : List Word) :
    withPred mk (predWord p :: ws) = mk p ws := by
  simp [withPred, predOf_predWord]

theorem decode_fscc (p : BitVec 5) (h : ea.wf .dataAlterable 0 = true) :
    decode ((0x3C9#10 ++ eaBits ea) :: predWord p :: (eaWords ea ++ rest)) = .ok (.fscc p ea, rest) := by
  have htype : field (0x3C9#10 ++ eaBits ea) 6 3 = 1 := (decodeFp_type 1 (eaBits ea) rest).1
  have hea : field (0x3C9#10 ++ eaBits ea) 0 6 = eaBits ea := field_ea_low _ _
  have hmode : ¬ field (0x3C9#10 ++ eaBits ea) 3 3 = 1 := mode_ne_of_excluded h hea (k := .an) (fun _ => rfl) rfl
  have h1 : ¬ (0x3C9#10 ++ eaBits ea : Word) = 0xF27A := ne_of_excluded h hea (k := .pcDisp) rfl rfl
  have h2 : ¬ (0x3C9#10 ++ eaBits ea : Word) = 0xF27B := ne_of_excluded h hea (k := .pcIndex) rfl rfl
  have h3 : ¬ (0x3C9#10 ++ eaBits ea : Word) = 0xF27C := ne_of_excluded h hea (k := .imm) rfl rfl
  refine decode_fp (k := 1) rest ?_
  show decodeFp (0x3C9#10 ++ eaBits ea) _ = _
  simp only [decodeFp, htype]
  show decodeFpCond _ _ = _
  rw [decodeFpCond, if_neg hmode, if_neg h1, if_neg h2, if_neg h3, acceptedKind_of_wf h hea]
  exact (withPred_predWord p _ _).trans (withEa_eaWords h hea rest _)

theorem decode_fdbcc (p : BitVec 5) (dn : RegNo) (d : Word) :
    decode ((0x1E49#13 ++ dn) :: predWord p :: d :: rest) = .ok (.fdbcc p dn d, rest) := by
  have hrow := registerRow 0x1E49#13 dn
  have htype : field (0x1E49#13 ++ dn) 6 3 = 1 := field_eq_of_and_eq (by decide) hrow
  have hmode : field (0x1E49#13 ++ dn) 3 3 = 1 := field_eq_of_and_eq (by decide) hrow
  have hfp : (0x1E49#13 ++ dn : Word) &&& 0xFFC0 = 0x79#7 ++ 1#3 ++ 0#6 :=
    of_eq_true (and_eq_of_and_eq hrow (by decide))
  obtain ⟨hF, -, hline⟩ := decodeLineF_fp 1 hfp (predWord p :: d :: rest)
  refine decode_lineF_of_ok _ hline (hF.trans ?_)
  simp only [decodeFp, htype]
  show decodeFpCond _ _ = _
  rw [decodeFpCond, if_pos hmode, withPred_predWord, field_register]
  rfl

theorem decode_ftrapccW (p : BitVec 5) (d : Word) : decode (0xF27A :: predWord p :: d :: rest) = .ok (.ftrapccW p d, rest) := by
  refine decode_fp (k := 1) (e := 0x3A) rest ?_
  show decodeFpCond 0xF27A _ = _
  rw [decodeFpCond, if_neg (by decide), if_pos rfl, withPred_predWord]
  rfl

theorem decode_ftrapccL (p : BitVec 5) (d : Long) :
    decode (0xF27B :: predWord p :: (longWords d ++ rest)) = .ok (.ftrapccL p d, rest) := by
  refine decode_fp (k := 1) (e := 0x3B) rest ?_
  show decodeFpCond 0xF27B _ = _
  rw [decodeFpCond, if_neg (by decide), if_neg (by decide), if_pos rfl, withPred_predWord, withLong, takeLong_longWords]

theorem decode_ftrapcc (p : BitVec 5) : decode (0xF27C :: predWord p :: rest) = .ok (.ftrapcc p, rest) := by
  refine decode_fp (k := 1) (e := 0x3C) rest ?_
  show decodeFpCond 0xF27C _ = _
  rw [decodeFpCond, if_neg (by decide), if_neg (by decide), if_neg (by decide), if_pos rfl, withPred_predWord]

/-- The predicate of a branch is in bits 4:0 of its first word, bit 5 being 0 (R131). -/
theorem predicate_field (k : BitVec 3) (p : BitVec 5) :
    (0x79#7 ++ k ++ (0#1 ++ p) : Word).getLsbD 5 = false ∧ field (0x79#7 ++ k ++ (0#1 ++ p)) 0 5 = p := by
  constructor
  · rw [BitVec.getLsbD_append, if_pos (by decide), BitVec.getLsbD_append]
    rfl
  · exact (BitVec.extractLsb'_append_eq_of_add_le (by decide)).trans BitVec.extractLsb'_append_eq_right

theorem decodeFp_fbccW {w : Word} {p : BitVec 5} {d : Word} (htype : field w 6 3 = 2) (hbit : w.getLsbD 5 = false)
    (hp : field w 0 5 = p) (hnop : ¬ (w = 0xF280 ∧ d = 0)) : decodeFp w (d :: rest) = .ok (.fbccW p d, rest) := by
  simp only [decodeFp, htype]
  simp only [hbit, hp, withWord, takeWord_cons, Bool.false_eq_true, if_false]
  rw [if_neg hnop]
  rfl

/-- FBF *+2 would be FNOP. -/
theorem decode_fbccW (p : BitVec 5) (d : Word) (h : (p != 0 || d != 0) = true) :
    decode ((0x3CA#10 ++ 0#1 ++ p) :: d :: rest) = .ok (.fbccW p d, rest) := by
  rw [show (0x3CA#10 ++ 0#1 ++ p : Word) = 0x79#7 ++ 2#3 ++ (0#1 ++ p) from BitVec.append_assoc]
  obtain ⟨hbit, hp⟩ := predicate_field 2#3 p
  refine decode_fp rest (decodeFp_fbccW rest (decodeFp_type 2 (0#1 ++ p) rest).1 hbit hp ?_)
  rintro ⟨hw, rfl⟩
  have hzero : p = 0 := by rw [← hp, hw]; decide
  simp [hzero] at h

theorem decodeFp_fbccL {w : Word} {p : BitVec 5} (d : Long) (htype : field w 6 3 = 3) (hbit : w.getLsbD 5 = false)
    (hp : field w 0 5 = p) : decodeFp w (longWords d ++ rest) = .ok (.fbccL p d, rest) := by
  simp only [decodeFp, htype]
  simp only [hbit, hp, withLong, takeLong_longWords, Bool.false_eq_true, if_false]
  rfl

theorem decode_fbccL (p : BitVec 5) (d : Long) :
    decode ((0x3CB#10 ++ 0#1 ++ p) :: (longWords d ++ rest)) = .ok (.fbccL p d, rest) := by
  rw [show (0x3CB#10 ++ 0#1 ++ p : Word) = 0x79#7 ++ 3#3 ++ (0#1 ++ p) from BitVec.append_assoc]
  obtain ⟨hbit, hp⟩ := predicate_field 3#3 p
  exact decode_fp rest (decodeFp_fbccL rest d (decodeFp_type 3 (0#1 ++ p) rest).1 hbit hp)

theorem decode_fsave (h : ea.wf .controlAlterableOrPre 0 = true) :
    decode ((0x3CC#10 ++ eaBits ea) :: (eaWords ea ++ rest)) = .ok (.fsave ea, rest) := by
  have htype : field (0x3CC#10 ++ eaBits ea) 6 3 = 4 := (decodeFp_type 4 (eaBits ea) rest).1
  refine decode_fp (k := 4) rest ?_
  show decodeFp (0x3CC#10 ++ eaBits ea) _ = _
  simp only [decodeFp, htype]
  exact withEa_eaWords h (field_ea_low _ _) rest _

theorem decode_frestore (h : ea.wf .controlOrPost 0 = true) :
    decode ((0x3CD#10 ++ eaBits ea) :: (eaWords ea ++ rest)) = .ok (.frestore ea, rest) := by
  have htype : field (0x3CD#10 ++ eaBits ea) 6 3 = 5 := (decodeFp_type 5 (eaBits ea) rest).1
  refine decode_fp (k := 5) rest ?_
  show decodeFp (0x3CD#10 ++ eaBits ea) _ = _
  simp only [decodeFp, htype]
  exact withEa_eaWords h (field_ea_low _ _) rest _

/-! The rows of line F that are not floating-point (R133). -/

/-- Caches, scope and register of CINV and CPUSH, bit 5 telling the two apart. -/
theorem fields_cache (b : BitVec 1) (kk ss : BitVec 2) (an : RegNo) :
    let w : Word := 0xF4#8 ++ kk ++ b ++ ss ++ an
    field w 6 2 = kk ∧ field w 3 2 = ss ∧ field w 0 3 = an ∧ w &&& 0xFF20 = 0xF4#8 ++ 0#2 ++ b ++ 0#2 ++ 0#3 := by
  intro w
  refine ⟨?_, ?_, ?_, ?_⟩
  · simp only [w, field]
    repeat rw [BitVec.extractLsb'_append_eq_of_le (by decide)]
    exact BitVec.extractLsb'_append_eq_right
  · simp only [w, field]
    repeat rw [BitVec.extractLsb'_append_eq_of_le (by decide)]
    exact BitVec.extractLsb'_append_eq_right
  · exact BitVec.extractLsb'_append_eq_right
  · show (0xF4#8 ++ kk ++ b ++ ss ++ an) &&& (BitVec.allOnes 8 ++ 0#2 ++ BitVec.allOnes 1 ++ 0#2 ++ 0#3) = _
    simp only [BitVec.and_append, BitVec.and_allOnes, BitVec.and_zero]

theorem decode_cinv (kk ss : BitVec 2) (an : RegNo) (h : (ss != 0) = true) :
    decode ((0xF4#8 ++ kk ++ 0#1 ++ ss ++ an) :: rest) = .ok (.cinv kk ss an, rest) := by
  obtain ⟨hkk, hss, han, hrow⟩ := fields_cache 0#1 kk ss an
  have hne : ¬ ss = 0 := by simpa using h
  refine decode_lineF_of_ok _ (field_eq_of_and_eq (by decide) hrow) ?_
  simp (disch := decide) only [decodeLineF, and_eq_of_and_eq hrow, hkk, hss, han, hne, if_true, if_false]

theorem decode_cpush (kk ss : BitVec 2) (an : RegNo) (h : (ss != 0) = true) :
    decode ((0xF4#8 ++ kk ++ 1#1 ++ ss ++ an) :: rest) = .ok (.cpush kk ss an, rest) := by
  obtain ⟨hkk, hss, han, hrow⟩ := fields_cache 1#1 kk ss an
  have hne : ¬ ss = 0 := by simpa using h
  refine decode_lineF_of_ok _ (field_eq_of_and_eq (by decide) hrow) ?_
  simp (disch := decide) only [decodeLineF, and_eq_of_and_eq hrow, and_ne_of_and_eq hrow, hkk, hss, han, hne, if_true, if_false]

theorem decode_pflush (op : BitVec 2) (an : RegNo) :
    decode ((0x7A8#11 ++ op ++ an) :: rest) = .ok (.pflush op an, rest) := by
  have hrow : (0x7A8#11 ++ op ++ an : Word) &&& 0xFFE0 = 0x7A8#11 ++ 0#2 ++ 0#3 := by
    show _ &&& (BitVec.allOnes 11 ++ 0#2 ++ 0#3) = _
    simp only [BitVec.and_append, BitVec.and_allOnes, BitVec.and_zero]
  have hop : field (0x7A8#11 ++ op ++ an) 3 2 = op :=
    (BitVec.extractLsb'_append_eq_of_le (by decide)).trans BitVec.extractLsb'_append_eq_right
  have han : field (0x7A8#11 ++ op ++ an) 0 3 = an := BitVec.extractLsb'_append_eq_right
  refine decode_lineF_of_ok _ (field_eq_of_and_eq (by decide) hrow) ?_
  simp (disch := decide) only [decodeLineF, and_eq_of_and_eq hrow, and_ne_of_and_eq hrow, hop, han, if_true, if_false]

theorem decode_ptest (rd : Bool) (an : RegNo) :
    decode ((0x1EA#9 ++ BitVec.ofBool rd ++ 5#3 ++ an) :: rest) = .ok (.ptest rd an, rest) := by
  have hrow : (0x1EA#9 ++ BitVec.ofBool rd ++ 5#3 ++ an : Word) &&& 0xFFB8 = 0x1EA#9 ++ 0#1 ++ 5#3 ++ 0#3 := by
    show _ &&& (BitVec.allOnes 9 ++ 0#1 ++ BitVec.allOnes 3 ++ 0#3) = _
    simp only [BitVec.and_append, BitVec.and_allOnes, BitVec.and_zero]
  have hrd : (0x1EA#9 ++ BitVec.ofBool rd ++ 5#3 ++ an : Word).getLsbD 6 = rd := by
    repeat rw [BitVec.getLsbD_append]
    simp
  have han : field (0x1EA#9 ++ BitVec.ofBool rd ++ 5#3 ++ an) 0 3 = an := BitVec.extractLsb'_append_eq_right
  refine decode_lineF_of_ok _ (field_eq_of_and_eq (by decide) hrow) ?_
  simp (disch := decide) only [decodeLineF, and_eq_of_and_eq hrow, and_ne_of_and_eq hrow, hrd, han, if_true, if_false]

theorem decode_move16PostPost (ax ay : RegNo) :
    decode ((0x1EC4#13 ++ ax) :: (1#1 ++ ay ++ 0#12) :: rest) = .ok (.move16PostPost ax ay, rest) := by
  have hrow := registerRow 0x1EC4#13 ax
  have hx : (1#1 ++ ay ++ 0#12 : Word) &&& 0x8FFF = 0x8000 := by
    show _ &&& (BitVec.allOnes 1 ++ 0#3 ++ BitVec.allOnes 12) = _
    simp only [BitVec.and_append, BitVec.and_allOnes, BitVec.and_zero]
    rfl
  have hay : field (1#1 ++ ay ++ 0#12) 12 3 = ay :=
    (BitVec.extractLsb'_append_eq_of_le (by decide)).trans BitVec.extractLsb'_append_eq_right
  refine decode_lineF_of_ok _ (field_eq_of_and_eq (by decide) hrow) ?_
  simp (disch := decide) only [decodeLineF, and_eq_of_and_eq hrow, and_ne_of_and_eq hrow, if_true, if_false, withWord,
    takeWord_cons, hx, hay, field_register]

/-- MOVE16 with an absolute address, in its four directions. -/
theorem decode_move16Abs (ay : RegNo) (a : Long) :
    decode ((0x1EC0#13 ++ ay) :: (longWords a ++ rest)) = .ok (.move16PostAbs ay a, rest) ∧
      decode ((0x1EC1#13 ++ ay) :: (longWords a ++ rest)) = .ok (.move16AbsPost a ay, rest) ∧
      decode ((0x1EC2#13 ++ ay) :: (longWords a ++ rest)) = .ok (.move16IndAbs ay a, rest) ∧
      decode ((0x1EC3#13 ++ ay) :: (longWords a ++ rest)) = .ok (.move16AbsInd a ay, rest) := by
  refine ⟨?_, ?_, ?_, ?_⟩
  · have hrow := registerRow 0x1EC0#13 ay
    refine decode_lineF_of_ok _ (field_eq_of_and_eq (by decide) hrow) ?_
    simp (disch := decide) only [decodeLineF, and_eq_of_and_eq hrow, and_ne_of_and_eq hrow, if_true, if_false, withLong,
      takeLong_longWords, field_register]
  · have hrow := registerRow 0x1EC1#13 ay
    refine decode_lineF_of_ok _ (field_eq_of_and_eq (by decide) hrow) ?_
    simp (disch := decide) only [decodeLineF, and_eq_of_and_eq hrow, and_ne_of_and_eq hrow, if_true, if_false, withLong,
      takeLong_longWords, field_register]
  · have hrow := registerRow 0x1EC2#13 ay
    refine decode_lineF_of_ok _ (field_eq_of_and_eq (by decide) hrow) ?_
    simp (disch := decide) only [decodeLineF, and_eq_of_and_eq hrow, and_ne_of_and_eq hrow, if_true, if_false, withLong,
      takeLong_longWords, field_register]
  · have hrow := registerRow 0x1EC3#13 ay
    refine decode_lineF_of_ok _ (field_eq_of_and_eq (by decide) hrow) ?_
    simp (disch := decide) only [decodeLineF, and_eq_of_and_eq hrow, and_ne_of_and_eq hrow, if_true, if_false, withLong,
      takeLong_longWords, field_register]

end lineF

/-! ### F-line words that are no legal instruction -/

/-- What a part of the decoder makes of a first word whose following words are not known: if it rejects the word with none of them,
it rejects it whatever they are, and it reads no F-line word. -/
structure Decided (p : List Word → Dec Instr) : Prop where
  illegal : p [] = .error .illegal → ∀ ws, p ws = .error .illegal
  not_fLine : ∀ x, p [] ≠ .ok (.fLine x, [])

theorem decided_illegal : Decided fun _ => .error .illegal := ⟨fun _ _ => rfl, nofun⟩

theorem decided_ite {c : Prop} [Decidable c] {p q : List Word → Dec Instr} (hp : Decided p) (hq : Decided q) :
    Decided fun ws => if c then p ws else q ws := by
  split
  · exact hp
  · exact hq

/-- A part that asks for a word. -/
theorem decided_more {p : List Word → Dec Instr} (h : p [] = .error .more) : Decided p :=
  ⟨fun he => absurd (h.symm.trans he) nofun, fun _ he => nomatch h.symm.trans he⟩

/-- An instruction that is complete. -/
theorem decided_done {i : Instr} (h : ∀ x, i ≠ .fLine x) : Decided fun ws => .ok (i, ws) :=
  ⟨nofun, fun x he => h x (congrArg Prod.fst (Except.ok.inj he))⟩

theorem decided_withEa (c : EaClass) (w : Word) {mk : Ea → Instr} (h : ∀ ea y, mk ea ≠ .fLine y) : Decided (withEa c w 0 mk) := by
  unfold withEa
  split
  · exact decided_illegal
  · next k _ =>
    cases k with
    | dn | an | ind | postInc | preDec | imm => exact decided_done (h _)
    | disp | index | absW | absL | pcDisp | pcIndex => exact decided_more rfl

theorem decided_decodeFp (w : Word) : Decided (decodeFp w) := by
  unfold decodeFp
  split
  · exact decided_more rfl
  · unfold decodeFpCond
    refine decided_ite (decided_more rfl) <| decided_ite (decided_more rfl) <| decided_ite (decided_more rfl) <|
      decided_ite (decided_more rfl) ?_
    split
    · exact decided_illegal
    · exact decided_more rfl
  · exact decided_ite decided_illegal (decided_more rfl)
  · exact decided_ite decided_illegal (decided_more rfl)
  · exact decided_withEa _ w nofun
  · exact decided_withEa _ w nofun
  · exact decided_illegal

theorem decided_decodeLineF (w : Word) : Decided (decodeLineF w) := by
  unfold decodeLineF
  exact decided_ite (decided_ite decided_illegal (decided_done nofun)) <|
    decided_ite (decided_ite decided_illegal (decided_done nofun)) <| decided_ite (decided_done nofun) <|
    decided_ite (decided_done nofun) <| decided_ite (decided_more rfl) <| decided_ite (decided_more rfl) <|
    decided_ite (decided_more rfl) <| decided_ite (decided_more rfl) <| decided_ite (decided_more rfl) <|
    decided_ite (decided_decodeFp w) decided_illegal

theorem decodeLineF_of_fLineAlone {x : BitVec 12} (h : fLineAlone x = true) (ws : List Word) :
    decodeLineF (15#4 ++ x) ws = .error .illegal := by
  have hdec : decode [15#4 ++ x] = .ok (.fLine x, []) := by simpa [fLineAlone] using h
  have hline : field (15#4 ++ x) 12 4 = 15 := field_line _ _
  refine (decided_decodeLineF _).illegal ?_ ws
  rw [decode_lineF _ hline] at hdec
  split at hdec
  · next he => exact he
  · exact absurd hdec ((decided_decodeLineF _).not_fLine x)

theorem decode_fLine_of_alone {x : BitVec 12} (h : fLineAlone x = true) (rest : List Word) :
    decode ((15#4 ++ x) :: rest) = .ok (.fLine x, rest) := by
  have hline : field (15#4 ++ x) 12 4 = 15 := field_line _ _
  rw [decode_lineF _ hline, decodeLineF_of_fLineAlone h, field_below_line]

/-! ### The obligations -/

/-- Settles O1: each row of the opcode table reads back the fields and the extension words that the encoder puts together. -/
theorem decodeEncode : Obligations.DecodeEncode := by
  intro i rest h
  cases i with
  | trap n => exact decode_trap_rest rest n
  | trapccW cc d => exact decode_trapccW cc rest d
  | trapccL cc d => exact decode_trapccL cc rest d
  | trapcc cc => exact decode_trapcc cc rest
  | chkW ea dn => exact decode_chkW rest dn h
  | chkL ea dn => exact decode_chkL rest dn h
  | chk2 sz ea rn => exact decode_chk2 rest sz rn h
  | divuW ea dn => exact decode_divuW rest dn h
  | divsW ea dn => exact decode_divsW rest dn h
  | divuL ea dq dr => exact decode_divl rest (decodeDivl_word dq dr 0 (by decide)) h
  | divuL64 ea dq dr => exact decode_divl rest (decodeDivl_word dq dr 0x80 (by decide)) h
  | divsL ea dq dr => exact decode_divl rest (decodeDivl_word dq dr 0x100 (by decide)) h
  | divsL64 ea dq dr => exact decode_divl rest (decodeDivl_word dq dr 0x180 (by decide)) h
  | bkpt n => exact (decode_register4 rest n).1
  | aLine w => exact decode_aLine w rest
  | fLine w => exact decode_fLine_of_alone h rest
  | illegal | trapv | rte | reset | nop | fnop => rfl
  | stop _ | oriSr _ | andiSr _ | eoriSr _ => rfl
  | moveToSr ea => exact decode_moveToSr rest h
  | moveFromSr ea => exact decode_moveFromSr rest h
  | moveToUsp an => exact (decode_register4 rest an).2.1
  | moveFromUsp an => exact (decode_register4 rest an).2.2
  | movecFrom rc rn =>
    have hrc : field (regBits rn ++ rc) 0 12 = rc := field_below_line _ _
    exact (decode_movec rest _).1.trans (by rw [hrc, regField_append])
  | movecTo rc rn =>
    have hrc : field (regBits rn ++ rc) 0 12 = rc := field_below_line _ _
    exact (decode_movec rest _).2.trans (by rw [hrc, regField_append])
  | movesLoad sz ea rn => exact decode_moves rest sz (decodeMoves_load sz rn) h
  | movesStore sz rn ea => exact decode_moves rest sz (decodeMoves_store sz rn) h
  | cinv kk ss an => exact decode_cinv rest kk ss an h
  | cpush kk ss an => exact decode_cpush rest kk ss an h
  | pflush op an => exact decode_pflush rest op an
  | ptest rd an => exact decode_ptest rest rd an
  | movemStore l mask ea => exact decode_movemStore rest l mask h
  | movemLoad l mask ea => exact decode_movemLoad rest l mask h
  | move16PostPost ax ay => exact decode_move16PostPost rest ax ay
  | move16PostAbs ay a => exact (decode_move16Abs rest ay a).1
  | move16AbsPost a ay => exact (decode_move16Abs rest ay a).2.1
  | move16IndAbs ay a => exact (decode_move16Abs rest ay a).2.2.1
  | move16AbsInd a ay => exact (decode_move16Abs rest ay a).2.2.2
  | tas ea => exact decode_tas rest h
  | cas sz dc du ea => exact decode_cas rest sz dc du h
  | cas2 l rn1 dc1 du1 rn2 dc2 du2 => cases l <;> exact decodeCas2_words rest _ rn1 rn2 dc1 du1 dc2 du2
  | fsincos src dst c => exact decode_general rest (cmdInstr_fsincos c) h dst
  | fmovecr ofs dst => exact decode_fmovecr rest ofs dst
  | fmoveOut fmt src k ea => exact decode_fmoveOut rest fmt src k h
  | fmoveToCr sel ea => exact decode_fmoveToCr rest sel h
  | fmoveFromCr sel ea => exact decode_fmoveFromCr rest sel h
  | fmovemLoad ctl dyn list ea => exact decode_fmovemLoad rest ctl dyn list h
  | fmovemStore ctl dyn list ea => exact decode_fmovemStore rest ctl dyn list h
  | fbccW p d => exact decode_fbccW rest p d h
  | fbccL p d => exact decode_fbccL rest p d
  | fscc p ea => exact decode_fscc rest p h
  | fdbcc p dn d => exact decode_fdbcc rest p dn d
  | ftrapccW p d => exact decode_ftrapccW rest p d
  | ftrapccL p d => exact decode_ftrapccL rest p d
  | ftrapcc p => exact decode_ftrapcc rest p
  | fsave ea => exact decode_fsave rest h
  | frestore ea => exact decode_frestore rest h
  | _ src dst => exact decode_general rest rfl h dst

/-- Settles O2: fifteen closed evaluations of the decoder. -/
theorem wordsDecode : Obligations.WordsDecode := by
  refine ⟨?_, ?_, ?_, ?_, ?_, ?_, ?_, ?_, ?_, ?_, ?_, ?_, ?_, ?_, ?_⟩ <;> rfl

end Sys2Proof
end

