-- ==== Sys2Proof/Proofs/Boundary.lean ====
section
/-!
SUPPORT. What the decoder makes of the first words of an instruction, and the boundary of a step (60_exceptions.md R410, R435,
R441; 41_system_instructions.md R209).
-/
namespace Sys2Proof

/-! ### Words after those that decide -/

/-- What a part of the decoder gives with the words `vs` after those it was given: unless it asked for a further word, it reads
the same, and leaves them. -/
inductive Extends {α : Type} (vs : List Word) : Dec α → Dec α → Prop
  | more (r : Dec α) : Extends vs (.error .more) r
  | ok (a : α) (ws : List Word) : Extends vs (.ok (a, ws)) (.ok (a, ws ++ vs))
  | error (e : DecodeErr) : Extends vs (.error e) (.error e)

section extend
variable {α : Type} {vs : List Word}

theorem extends_ite {c : Prop} [Decidable c] {r r' q q' : Dec α} (hr : Extends vs r r') (hq : Extends vs q q') :
    Extends vs (if c then r else q) (if c then r' else q') := by
  split
  · exact hr
  · exact hq

/-! ### Words and effective addresses -/

theorem extends_takeWord (ws : List Word) : Extends vs (takeWord ws) (takeWord (ws ++ vs)) := by
  cases ws with
  | nil => exact .more _
  | cons w ws => exact .ok w ws

theorem extends_takeLong (ws : List Word) : Extends vs (takeLong ws) (takeLong (ws ++ vs)) := by
  match ws with
  | [] => exact .more _
  | [_] => exact .more _
  | _ :: _ :: ws => exact .ok _ ws

theorem extends_takeWords (n : Nat) (ws : List Word) : Extends vs (takeWords n ws) (takeWords n (ws ++ vs)) := by
  induction n generalizing ws with
  | zero => exact .ok [] ws
  | succ n ih =>
    cases ws with
    | nil => exact .more _
    | cons w ws =>
      rw [List.cons_append]
      unfold takeWords
      exact (ih ws).casesOn (fun _ => .more _) (fun us ws => .ok (w :: us) ws) (fun _ => .error _)

theorem extends_decodeBd (zz : BitVec 2) (ws : List Word) : Extends vs (decodeBd zz ws) (decodeBd zz (ws ++ vs)) := by
  unfold decodeBd
  split
  · exact .ok _ ws
  · exact (extends_takeWord ws).casesOn (fun _ => .more _) (fun _ ws => .ok _ ws) (fun _ => .error _)
  · exact (extends_takeLong ws).casesOn (fun _ => .more _) (fun _ ws => .ok _ ws) (fun _ => .error _)
  · exact .error _

theorem extends_decodeInd (iii : BitVec 3) (ws : List Word) : Extends vs (decodeInd iii ws) (decodeInd iii (ws ++ vs)) := by
  unfold decodeInd
  exact extends_ite (.ok _ ws) <| (extends_decodeBd _ ws).casesOn (fun _ => .more _)
    (fun od ws => .ok (if iii.getLsbD 2 then Indirect.post od else .pre od) ws) (fun _ => .error _)

theorem extends_decodeIndex (ws : List Word) : Extends vs (decodeIndex ws) (decodeIndex (ws ++ vs)) := by
  unfold decodeIndex
  refine (extends_takeWord ws).casesOn (fun _ => .more _) (fun x ws => extends_ite (extends_ite (.error _) ?_) (.ok _ ws)) (fun _ => .error _)
  refine (extends_decodeBd _ ws).casesOn (fun _ => .more _) (fun bd ws => ?_) (fun _ => .error _)
  dsimp only
  exact (extends_decodeInd _ ws).casesOn (fun _ => .more _) (fun ind ws => .ok _ ws) (fun _ => .error _)

theorem extends_decodeEa (k : EaKind) (r : RegNo) (n : Nat) (ws : List Word) :
    Extends vs (decodeEa k r n ws) (decodeEa k r n (ws ++ vs)) := by
  unfold decodeEa
  cases k with
  | dn | an | ind | postInc | preDec => exact .ok _ ws
  | disp | absW | pcDisp => exact (extends_takeWord ws).casesOn (fun _ => .more _) (fun _ ws => .ok _ ws) (fun _ => .error _)
  | absL => exact (extends_takeLong ws).casesOn (fun _ => .more _) (fun _ ws => .ok _ ws) (fun _ => .error _)
  | index | pcIndex => exact (extends_decodeIndex ws).casesOn (fun _ => .more _) (fun _ ws => .ok _ ws) (fun _ => .error _)
  | imm => exact (extends_takeWords n ws).casesOn (fun _ => .more _) (fun _ ws => .ok _ ws) (fun _ => .error _)

theorem extends_withEa (c : EaClass) (w : Word) (n : Nat) (mk : Ea → Instr) (ws : List Word) :
    Extends vs (withEa c w n mk ws) (withEa c w n mk (ws ++ vs)) := by
  unfold withEa
  split
  · exact .error _
  · exact (extends_decodeEa _ _ _ ws).casesOn (fun _ => .more _) (fun ea ws => .ok (mk ea) ws) (fun _ => .error _)

theorem extends_withExtEa (c : EaClass) (w : Word) (n : Nat) (mk : Word → Except DecodeErr (Ea → Instr)) (ws : List Word) :
    Extends vs (withExtEa c w n mk ws) (withExtEa c w n mk (ws ++ vs)) := by
  unfold withExtEa
  split
  · exact .error _
  · refine (extends_takeWord ws).casesOn (fun _ => .more _) (fun x ws => ?_) (fun _ => .error _)
    dsimp only
    split
    · exact .error _
    · exact extends_withEa c w n _ ws

theorem extends_withWord (mk : Word → Except DecodeErr Instr) (ws : List Word) :
    Extends vs (withWord mk ws) (withWord mk (ws ++ vs)) := by
  unfold withWord
  refine (extends_takeWord ws).casesOn (fun _ => .more _) (fun x ws => ?_) (fun _ => .error _)
  dsimp only
  split
  · exact .error _
  · exact .ok _ ws

theorem extends_withLong (mk : Long → Instr) (ws : List Word) : Extends vs (withLong mk ws) (withLong mk (ws ++ vs)) := by
  unfold withLong
  exact (extends_takeLong ws).casesOn (fun _ => .more _) (fun x ws => .ok (mk x) ws) (fun _ => .error _)

theorem extends_withPred {mk : BitVec 5 → List Word → Dec Instr} (h : ∀ p ws, Extends vs (mk p ws) (mk p (ws ++ vs)))
    (ws : List Word) : Extends vs (withPred mk ws) (withPred mk (ws ++ vs)) := by
  unfold withPred
  refine (extends_takeWord ws).casesOn (fun _ => .more _) (fun x ws => ?_) (fun _ => .error _)
  dsimp only
  split
  · exact h _ ws
  · exact .error _

/-! ### The lines -/

theorem extends_decodeCas2 (long : Bool) (ws : List Word) : Extends vs (decodeCas2 long ws) (decodeCas2 long (ws ++ vs)) := by
  unfold decodeCas2
  refine (extends_takeWord ws).casesOn (fun _ => .more _) (fun x ws => extends_ite (.error _) ?_) (fun _ => .error _)
  exact (extends_takeWord ws).casesOn (fun _ => .more _) (fun y ws => extends_ite (.error _) (.ok _ ws)) (fun _ => .error _)

theorem extends_decodeLine0 (w : Word) (ws : List Word) : Extends vs (decodeLine0 w ws) (decodeLine0 w (ws ++ vs)) := by
  unfold decodeLine0
  refine extends_ite (extends_withWord _ ws) <| extends_ite (extends_withWord _ ws) <| extends_ite (extends_withWord _ ws) <|
    extends_ite (extends_decodeCas2 _ ws) <| extends_ite (extends_decodeCas2 _ ws) <| extends_ite ?moves <|
    extends_ite ?cas <| extends_ite ?chk2 (.error _)
  all_goals
    split
    · exact extends_withExtEa _ w _ _ ws
    · exact .error _

theorem rel_ite {c : Prop} [Decidable c] {r r' : Dec α} {o o' : Option (Dec α)} (hr : Extends vs r r')
    (ho : Option.Rel (Extends vs) o o') : Option.Rel (Extends vs) (if c then some r else o) (if c then some r' else o') := by
  split
  · exact .some hr
  · exact ho

theorem extends_decodeLine4Fixed (w : Word) (ws : List Word) :
    Option.Rel (Extends vs) (decodeLine4Fixed w ws) (decodeLine4Fixed w (ws ++ vs)) := by
  unfold decodeLine4Fixed
  exact rel_ite (.ok _ ws) <| rel_ite (.ok _ ws) <| rel_ite (.ok _ ws) <| rel_ite (extends_withWord _ ws) <|
    rel_ite (.ok _ ws) <| rel_ite (.ok _ ws) <| rel_ite (extends_withWord _ ws) <| rel_ite (extends_withWord _ ws) <|
    rel_ite (.ok _ ws) <| rel_ite (.ok _ ws) <| rel_ite (.ok _ ws) <| rel_ite (.ok _ ws) .none

theorem extends_decodeLine4 (w : Word) (ws : List Word) : Extends vs (decodeLine4 w ws) (decodeLine4 w (ws ++ vs)) := by
  unfold decodeLine4
  refine (extends_decodeLine4Fixed w ws).casesOn (fun h => h) ?_
  exact extends_ite (extends_withEa _ w _ _ ws) <| extends_ite (extends_withEa _ w _ _ ws) <|
    extends_ite (extends_withEa _ w _ _ ws) <| extends_ite (extends_withEa _ w _ _ ws) <|
    extends_ite (extends_withEa _ w _ _ ws) <| extends_ite (extends_withExtEa _ w _ _ ws) <|
    extends_ite (extends_ite (.error _) (extends_withExtEa _ w _ _ ws)) <|
    extends_ite (extends_withExtEa _ w _ _ ws) (.error _)

theorem extends_decodeLine5 (w : Word) (ws : List Word) : Extends vs (decodeLine5 w ws) (decodeLine5 w (ws ++ vs)) :=
  extends_ite (extends_withWord _ ws) <| extends_ite (extends_withLong _ ws) <| extends_ite (.ok _ ws) (.error _)

theorem extends_decodeLine8 (w : Word) (ws : List Word) : Extends vs (decodeLine8 w ws) (decodeLine8 w (ws ++ vs)) :=
  extends_ite (extends_withEa _ w _ _ ws) <| extends_ite (extends_withEa _ w _ _ ws) (.error _)

theorem extends_decodeGeneral (w cw : Word) (ws : List Word) :
    Extends vs (decodeGeneral w cw ws) (decodeGeneral w cw (ws ++ vs)) := by
  have hea (c : EaClass) (n : Nat) (mk : Ea → Instr) : Extends vs (withEa c w n mk ws) (withEa c w n mk (ws ++ vs)) :=
    extends_withEa c w n mk ws
  unfold decodeGeneral
  dsimp only
  split
  · split
    · exact .ok _ ws
    · exact .error _
  · split
    · exact extends_ite (.ok _ ws) (.error _)
    · split
      · exact hea _ _ _
      · exact .error _
  · exact hea _ _ _
  · exact extends_ite (.error _) (hea _ _ _)
  · exact extends_ite (.error _) (hea _ _ _)
  · exact extends_ite (.error _) (hea _ _ _)
  · exact extends_ite (.error _) (hea _ _ _)
  · exact .error _

theorem extends_decodeFpCond (w : Word) (ws : List Word) : Extends vs (decodeFpCond w ws) (decodeFpCond w (ws ++ vs)) := by
  unfold decodeFpCond
  refine extends_ite (extends_withPred (fun p ws => extends_withWord (fun d => .ok (.fdbcc p (field w 0 3) d)) ws) ws) <|
    extends_ite (extends_withPred (fun p ws => extends_withWord (fun d => .ok (.ftrapccW p d)) ws) ws) <|
    extends_ite (extends_withPred (fun p ws => extends_withLong (fun d => .ftrapccL p d) ws) ws) <|
    extends_ite (extends_withPred (fun p ws => .ok (Instr.ftrapcc p) ws) ws) ?_
  split
  · exact .error _
  · exact extends_withPred (fun p ws => extends_withEa _ w _ (.fscc p) ws) ws

theorem extends_decodeFp (w : Word) (ws : List Word) : Extends vs (decodeFp w ws) (decodeFp w (ws ++ vs)) := by
  unfold decodeFp
  split
  · exact (extends_takeWord ws).casesOn (fun _ => .more _) (fun cw ws => extends_decodeGeneral w cw ws) (fun _ => .error _)
  · exact extends_decodeFpCond w ws
  · exact extends_ite (.error _) (extends_withWord _ ws)
  · exact extends_ite (.error _) (extends_withLong _ ws)
  · exact extends_withEa _ w _ _ ws
  · exact extends_withEa _ w _ _ ws
  · exact .error _

theorem extends_decodeLineF (w : Word) (ws : List Word) : Extends vs (decodeLineF w ws) (decodeLineF w (ws ++ vs)) :=
  extends_ite (extends_ite (.error _) (.ok _ ws)) <| extends_ite (extends_ite (.error _) (.ok _ ws)) <|
    extends_ite (.ok _ ws) <| extends_ite (.ok _ ws) <| extends_ite (extends_withWord _ ws) <|
    extends_ite (extends_withLong _ ws) <| extends_ite (extends_withLong _ ws) <| extends_ite (extends_withLong _ ws) <|
    extends_ite (extends_withLong _ ws) <| extends_ite (extends_decodeFp w ws) (.error _)

theorem extends_decode (ws : List Word) : Extends vs (decode ws) (decode (ws ++ vs)) := by
  cases ws with
  | nil => exact .more _
  | cons w ws =>
    rw [List.cons_append]
    unfold decode
    dsimp only
    split
    · exact extends_decodeLine0 w ws
    · exact extends_decodeLine4 w ws
    · exact extends_decodeLine5 w ws
    · exact extends_decodeLine8 w ws
    · exact .ok _ ws
    · refine (extends_decodeLineF w ws).casesOn (fun _ => .more _) (fun i ws => .ok i ws) fun e => ?_
      cases e with
      | illegal => exact .ok _ ws
      | more | other => exact .error _
    · exact .error _

end extend

/-- The decoder asks for every word of an instruction but the last. -/
theorem decode_take_more {ws : List Word} {i : Instr} (h : decode ws = .ok (i, [])) {k : Nat} (hk : k < ws.length) :
    decode (ws.take k) = .error .more := by
  have hext : Extends (ws.drop k) (decode (ws.take k)) (decode ws) := by
    simpa using extends_decode (vs := ws.drop k) (ws.take k)
  rw [h] at hext
  generalize decode (ws.take k) = r at hext
  have hne : ws.drop k ≠ [] := by simpa using hk
  generalize he : (Except.ok (i, []) : Dec Instr) = r' at hext
  cases hext with
  | more => rfl
  | ok a us =>
    simp only [Except.ok.injEq, Prod.mk.injEq, List.nil_eq, List.append_eq_nil_iff] at he
    exact absurd he.2.2 hne
  | error e => cases he

end Sys2Proof

namespace Sys2Proof.Machine

/-! ### Boundaries -/

section boundary
variable {s : State}

theorem step_rsti (h : s.input.rsti = true) : step s = .next { s.applyInput with run := .inReset } := by
  simp [step, State.cycle, h]

theorem step_inReset (h : s.input.rsti = false) (hrun : s.run = .inReset) : step s = .next s.applyInput.resetException := by
  have hrun' : s.applyInput.run = .inReset := hrun
  simp [step, State.cycle, h, hrun']

theorem step_halted (h : s.input.rsti = false) (hrun : s.run = .halted) : step s = .next s.applyInput := by
  have hrun' : s.applyInput.run = .halted := hrun
  simp [step, State.cycle, h, hrun']

theorem step_boundary (h : s.input.rsti = false) (hrun : s.run = .running ∨ s.run = .stopped) :
    step s = s.applyInput.boundary s.input := by
  have hrun' : s.applyInput.run = .running ∨ s.applyInput.run = .stopped := hrun
  rcases hrun' with hrun' | hrun' <;> simp [step, State.cycle, h, hrun']

theorem boundary_interrupt {i : BoundaryInput} {level : BitVec 3} (h : (s.sample i.ipl).irq.pending = some level) :
    s.boundary i = .next ((s.sample i.ipl).takeInterrupt level i.iack) := by
  simp [State.boundary, h]

theorem boundary_stopped {i : BoundaryInput} (h : (s.sample i.ipl).irq.pending = none) (hrun : s.run = .stopped) :
    s.boundary i = .next (s.sample i.ipl) := by
  have hrun' : (s.sample i.ipl).run = .stopped := hrun
  simp [State.boundary, h, hrun']

/-- The interrupt level sampled, and what is recognised of it. -/
theorem sample_eq (level : BitVec 3) {p : Option (BitVec 3)}
    (h : recognised level (srI s.sr) (s.irq.nmiLatch || (level == 7 && s.irq.iplPrev != 7)) = p) :
    s.sample level = { s with irq := { ipl := level, iplPrev := level, pending := p,
                                       nmiLatch := s.irq.nmiLatch || (level == 7 && s.irq.iplPrev != 7) } } := by
  subst h
  rfl

end boundary

theorem recognised_above {level mask : BitVec 3} (h : mask < level) (latch : Bool) : recognised level mask latch = some level :=
  if_pos h

theorem recognised_latch {level mask : BitVec 3} (h : ¬ mask < level) : recognised level mask true = some 7 := if_neg h

theorem recognised_none {level mask : BitVec 3} (h : ¬ mask < level) : recognised level mask false = none := if_neg h

/-- Settles O6: each clause is one branch of `State.cycle` or `State.boundary`. -/
theorem boundaryEvents : Obligations.BoundaryEvents := by
  intro s i mask latch sampled
  refine ⟨step_rsti, step_inReset, step_halted, fun hr hrun => ?_⟩
  have hstep : step s = s.applyInput.boundary i := step_boundary hr hrun
  have hsample {p : Option (BitVec 3)} (h : recognised i.ipl (srI s.sr) latch = p) : s.applyInput.sample i.ipl = sampled p :=
    sample_eq (s := s.applyInput) i.ipl h
  have htaken {level : BitVec 3} (h : recognised i.ipl (srI s.sr) latch = some level) :
      step s = .next ((sampled (some level)).takeInterrupt level i.iack) := by
    rw [hstep, boundary_interrupt (level := level) (by rw [hsample h]), hsample h]
  refine ⟨fun h => ?above, fun h hl => ?latch, fun h hl hstop => ?stopped⟩
  case above => exact htaken (recognised_above h latch)
  case latch => exact htaken (by rw [hl]; exact recognised_latch (Nat.not_lt.mpr h))
  case stopped =>
    have hnone : recognised i.ipl (srI s.sr) latch = none := by
      rw [hl]
      exact recognised_none (Nat.not_lt.mpr h)
    rw [hstep, boundary_stopped (s := s.applyInput) (by rw [hsample hnone]) hstop, hsample hnone]

/-! ### One instruction -/

/-- Settles O4: the words are fetched one at a time because the decoder asks for each (92 D7). -/
theorem stepRunsDecoded : Obligations.StepRunsDecoded := by
  intro s t i ws s1 hrun hreset hirq htrace hpc hf hd _ hp
  have hstep : step s = s1.executeNext := step_eq_executeNext hrun hreset hirq
  cases ws with
  | nil => exact absurd hd nofun
  | cons w ws =>
    obtain ⟨u, hw, hf⟩ := hf
    have hbus : BusOnly s1 u := fetchWord_busOnly_of_ok hw
    have hpcU : u.pc = s.pc := hbus.pc_eq
    have hsrU : u.sr = s.sr := hbus.sr_eq
    have hmore : ∀ k < ws.length, decode (w :: ws.take k) = .error .more := fun k hk => by
      simpa using decode_take_more hd (k := k + 1) (by simpa using hk)
    rw [hstep, executeNext_fetch_ok (s := s1) htrace hpc hw, ← hpcU]
    exact executeWord_instr (by rwa [hsrU]) (by rwa [hpcU]) hmore hd

/-! ### Trace -/

theorem goOn_tracePending (s : State) (n : Nat) (f : Flow) (t : State) : (s.goOn n f t).tracePending = traceApplies s.sr f := by
  cases f <;> rfl

/-- Settles O7: the three are what `finishStep` and `traceApplies` say. -/
theorem traceFollowsInstruction : Obligations.TraceFollowsInstruction := by
  refine ⟨fun ia t h => ?_, fun ia t h => ?_, fun s n f t => ?_⟩
  · simp [finishStep, h, traceExc]
  · simp [finishStep, h]
  · rw [goOn_tracePending]
    simp [traceApplies, srT1, srT0, and_assoc]

/-! ### The state after reset -/

/-- Settles O9: every field of `State.reset` by evaluation, the masks of the implementation whatever they are. -/
theorem resetInv : Obligations.ResetInv := by
  refine ⟨⟨Memory.reset_wf, Memory.reset_modified_wf⟩, (by decide : _ = _), ?_, ⟨by decide, by decide⟩, nofun, ?_, rfl⟩
  · exact ⟨by decide, by decide, BitVec.zero_and, BitVec.zero_and, BitVec.zero_and, BitVec.zero_and, BitVec.zero_and,
      BitVec.zero_and⟩
  · intro _ h
    exact absurd h (by decide)

/-! ### Privilege -/

theorem requireSupervisor_bind_user {s : State} (h : srS s.sr = false) {α : Type} (f : Unit → M α) :
    (requireSupervisor >>= f) s = .error (.exc (privilegeExc s.pc)) s := by
  rw [bind_eq, requireSupervisor_user h]

theorem modifySr_user {s : State} (h : srS s.sr = false) (f : Word → Word) :
    modifySr f s = .next (s.takeException s.pc s.regs (privilegeExc s.pc)) := by
  refine runInstr_of_exc ?_
  exact requireSupervisor_bind_user h _

/-- Settles O11: each of these instructions begins with the check of privilege. -/
theorem privilegeViolation : Obligations.PrivilegeViolation := by
  intro i s hi hs
  cases i with
  | rte | stop | reset | moveToSr | moveFromSr | movecFrom | movecTo | movesLoad | movesStore | cinv | cpush | pflush | ptest
  | fsave | frestore =>
    unfold exec
    refine runInstr_of_exc ?_
    exact requireSupervisor_bind_user hs _
  | oriSr imm => exact modifySr_user hs fun v => v ||| imm
  | andiSr imm => exact modifySr_user hs fun v => v &&& imm
  | eoriSr imm => exact modifySr_user hs fun v => v ^^^ imm
  | moveToUsp an => exact exec_moveToUsp_user an s hs
  | moveFromUsp an => exact exec_moveFromUsp_user an s hs
  | _ => exact absurd hi nofun

end Sys2Proof.Machine
end

