-- ==== Sys2Proof/Proofs/Privilege.lean ====
section
/-!
SUPPORT. What the operation word of an instruction shows of its privilege (41_system_instructions.md R209; 92 D36).
-/
namespace Sys2Proof

open Sys2Proof.Machine

/-! ### The rows of privileged words -/

/-- The rows of the opcode table that hold the words of privileged instructions, mask and bits, but for MOVES. -/
def privilegedRows : List (Word × Word) :=
  [(0xFFFF, 0x007C), (0xFFFF, 0x027C), (0xFFFF, 0x0A7C), (0xFFFF, 0x4E70), (0xFFFF, 0x4E72), (0xFFFF, 0x4E73),
   (0xFFFF, 0x4E7A), (0xFFFF, 0x4E7B), (0xFFF0, 0x4E60), (0xFFC0, 0x46C0), (0xFFC0, 0x40C0), (0xFF00, 0xF400),
   (0xFFE0, 0xF500), (0xFFB8, 0xF528), (0xFFC0, 0xF300), (0xFFC0, 0xF340)]

/-- Whether a row has no word in common with any of them. -/
def apart (m v : Word) : Bool := privilegedRows.all fun r => v &&& r.1 != r.2 &&& m

section rows
variable {w m v : Word} (h : w &&& m = v)
include h

theorem and_ne_of_apart (ha : apart m v = true) {r : Word × Word} (hr : r ∈ privilegedRows) : ¬ w &&& r.1 = r.2 :=
  and_ne_of_and_eq h (by simpa using List.all_eq_true.mp ha r hr)

theorem privilegedWord_eq_false (ha : apart m v = true) (hmoves : ¬ (w &&& 0xFF00 = 0x0E00 ∧ field w 6 2 ≠ 3)) :
    privilegedWord w = false := by
  have hrow {m' v' : Word} (hr : (m', v') ∈ privilegedRows) : ¬ w &&& m' = v' := and_ne_of_apart h ha hr
  have hword {v' : Word} (hr : (0xFFFF, v') ∈ privilegedRows) : ¬ w = v' := fun e =>
    hrow hr (e ▸ BitVec.and_allOnes (x := w))
  simp (disch := decide) only [privilegedWord, hrow, hword, decide_false, Bool.or_false, Bool.false_or, Bool.false_and]
  rw [Bool.and_eq_false_iff, Bool.and_eq_false_iff]
  refine .inl ?_
  by_cases hm : w &&& 0xFF00 = 0x0E00
  · exact .inr (by simpa using fun hf => hmoves ⟨hm, hf⟩)
  · exact .inl (decide_eq_false hm)

/-- The same for a row outside that of MOVES. -/
theorem privilegedWord_of_apart (ha : apart m v = true) (hmoves : v &&& 0xFF00 ≠ 0x0E00 &&& m) : privilegedWord w = false :=
  privilegedWord_eq_false h ha fun hm => and_ne_of_and_eq h hmoves hm.1

end rows

/-! ### What each part of the decoder reads -/

/-- A part of the decoder reads privileged instructions only, or none. -/
def Reads (b : Bool) (p : List Word → Dec Instr) : Prop := ∀ ws i rest, p ws = .ok (i, rest) → privilegedInstr i = b

section reads
variable {b : Bool}

theorem reads_error (e : DecodeErr) : Reads b fun _ => .error e := fun _ _ _ h => nomatch h

theorem reads_done {i : Instr} (h : privilegedInstr i = b) : Reads b fun ws => .ok (i, ws) := by
  rintro ws _ _ ⟨⟩
  exact h

theorem reads_ite {c : Prop} [Decidable c] {p q : List Word → Dec Instr} (hp : c → Reads b p) (hq : ¬ c → Reads b q) :
    Reads b fun ws => if c then p ws else q ws := by
  split
  · next h => exact hp h
  · next h => exact hq h

theorem reads_withWord {mk : Word → Except DecodeErr Instr} (h : ∀ x i, mk x = .ok i → privilegedInstr i = b) :
    Reads b (withWord mk) := by
  intro ws i rest hd
  unfold withWord at hd
  split at hd
  · exact nomatch hd
  · next x ws' _ =>
    split at hd
    · exact nomatch hd
    · next j hj =>
      cases hd
      exact h x _ hj

theorem reads_withLong {mk : Long → Instr} (h : ∀ x, privilegedInstr (mk x) = b) : Reads b (withLong mk) := by
  intro ws i rest hd
  unfold withLong at hd
  split at hd
  · exact nomatch hd
  · next x ws' _ =>
    cases hd
    exact h x

theorem reads_withEa {c : EaClass} {w : Word} {n : Nat} {mk : Ea → Instr}
    (h : (acceptedKind c w).isSome = true → ∀ ea, privilegedInstr (mk ea) = b) : Reads b (withEa c w n mk) := by
  intro ws i rest hd
  unfold withEa at hd
  split at hd
  · exact nomatch hd
  · next k hk =>
    split at hd
    · next ea ws' _ =>
      cases hd
      exact h (by rw [hk]; rfl) ea
    · exact nomatch hd

theorem reads_withExtEa {c : EaClass} {w : Word} {n : Nat} {mk : Word → Except DecodeErr (Ea → Instr)}
    (h : (acceptedKind c w).isSome = true → ∀ x f, mk x = .ok f → ∀ ea, privilegedInstr (f ea) = b) :
    Reads b (withExtEa c w n mk) := by
  intro ws i rest hd
  unfold withExtEa at hd
  split at hd
  · exact nomatch hd
  · next k hk =>
    split at hd
    · exact nomatch hd
    · next x ws' _ =>
      split at hd
      · exact nomatch hd
      · next f hf => exact reads_withEa (fun ha => h ha x f hf) ws' i rest hd

theorem reads_withPred {mk : BitVec 5 → List Word → Dec Instr} (h : ∀ p, Reads b (mk p)) : Reads b (withPred mk) := by
  intro ws i rest hd
  unfold withPred at hd
  split at hd
  · exact nomatch hd
  · next x ws' _ =>
    split at hd
    · exact h _ ws' i rest hd
    · exact nomatch hd

end reads

/-! ### The extension words -/

theorem decodeMoves_privileged {sz : Size} {x : Word} {f : Ea → Instr} (h : decodeMoves sz x = .ok f) (ea : Ea) :
    privilegedInstr (f ea) = true := by
  unfold decodeMoves at h
  split_ifs at h <;> cases h <;> rfl

theorem decodeChk2_not_privileged {sz : Size} {x : Word} {f : Ea → Instr} (h : decodeChk2 sz x = .ok f) (ea : Ea) :
    privilegedInstr (f ea) = false := by
  unfold decodeChk2 at h
  split_ifs at h
  cases h
  rfl

theorem decodeCas_not_privileged {sz : Size} {x : Word} {f : Ea → Instr} (h : decodeCas sz x = .ok f) (ea : Ea) :
    privilegedInstr (f ea) = false := by
  unfold decodeCas at h
  split_ifs at h
  cases h
  rfl

theorem decodeDivl_not_privileged {x : Word} {f : Ea → Instr} (h : decodeDivl x = .ok f) (ea : Ea) :
    privilegedInstr (f ea) = false := by
  unfold decodeDivl at h
  split_ifs at h
  cases h
  dsimp only
  split <;> rfl

theorem decodeCas2_not_privileged (long : Bool) : Reads false (decodeCas2 long) := by
  intro ws i rest hd
  unfold decodeCas2 at hd
  split at hd
  · exact nomatch hd
  · split at hd
    · exact nomatch hd
    · split at hd
      · exact nomatch hd
      · split at hd
        · exact nomatch hd
        · cases hd
          rfl

theorem cmdCtor_not_privileged {cmd : BitVec 7} {mk : FpSrc → RegNo → Instr} (h : cmdCtor cmd = some mk) (src : FpSrc) (dst : RegNo) :
    privilegedInstr (mk src dst) = false := by
  unfold cmdCtor at h
  split at h <;> cases h <;> rfl

theorem cmdInstr_not_privileged {cmd : BitVec 7} {mk : FpSrc → RegNo → Instr} (h : cmdInstr cmd = some mk) (src : FpSrc) (dst : RegNo) :
    privilegedInstr (mk src dst) = false := by
  unfold cmdInstr at h
  split at h
  · cases h
    rfl
  · exact cmdCtor_not_privileged h src dst

theorem reads_decodeGeneral (w cw : Word) : Reads false (decodeGeneral w cw) := by
  unfold decodeGeneral
  dsimp only
  split
  · split
    · next mk hmk => exact reads_done (cmdInstr_not_privileged hmk _ _)
    · exact reads_error _
  · split
    · exact reads_ite (fun _ => reads_done rfl) fun _ => reads_error _
    · split
      · next mk hmk => exact reads_withEa fun _ ea => cmdInstr_not_privileged hmk _ _
      · exact reads_error _
  · exact reads_withEa fun _ _ => rfl
  · exact reads_ite (fun _ => reads_error _) fun _ => reads_withEa fun _ _ => rfl
  · exact reads_ite (fun _ => reads_error _) fun _ => reads_withEa fun _ _ => rfl
  · exact reads_ite (fun _ => reads_error _) fun _ => reads_withEa fun _ _ => rfl
  · exact reads_ite (fun _ => reads_error _) fun _ => reads_withEa fun _ _ => rfl
  · exact reads_error _

theorem reads_decodeFpCond (w : Word) : Reads false (decodeFpCond w) := by
  have hword {mk : Word → Instr} (h : ∀ x, privilegedInstr (mk x) = false) : Reads false (withWord fun x => .ok (mk x)) :=
    reads_withWord fun x _ hx => by cases hx; exact h x
  unfold decodeFpCond
  refine reads_ite (fun _ => reads_withPred fun p => hword fun _ => rfl) fun _ =>
    reads_ite (fun _ => reads_withPred fun p => hword fun _ => rfl) fun _ =>
    reads_ite (fun _ => reads_withPred fun p => reads_withLong fun _ => rfl) fun _ =>
    reads_ite (fun _ => reads_withPred fun p => reads_done rfl) fun _ => ?_
  split
  · exact reads_error _
  · exact reads_withPred fun p => reads_withEa fun _ _ => rfl

/-! ### The lines -/

/-- A part that reads no privileged instruction, at a word that shows none. -/
theorem reads_of_false {w : Word} {p : List Word → Dec Instr} (hp : Reads false p) (hw : privilegedWord w = false) :
    Reads (privilegedWord w) p := hw ▸ hp

theorem reads_of_true {w : Word} {p : List Word → Dec Instr} (hp : Reads true p) (hw : privilegedWord w = true) :
    Reads (privilegedWord w) p := hw ▸ hp

theorem reads_oneWord {b : Bool} {mk : Word → Instr} (h : ∀ x, privilegedInstr (mk x) = b) : Reads b (withWord fun x => .ok (mk x)) :=
  reads_withWord fun x _ hx => by cases hx; exact h x

theorem reads_withSize {b : Bool} {o : Option Size} {c : EaClass} {w : Word} {mk : Size → Word → Except DecodeErr (Ea → Instr)}
    (h : (acceptedKind c w).isSome = true → ∀ sz x f, mk sz x = .ok f → ∀ ea, privilegedInstr (f ea) = b) : Reads b fun ws =>
      match o with
      | some sz => withExtEa c w 0 (mk sz) ws
      | none => .error .other := by
  cases o with
  | none => exact reads_error _
  | some sz => exact reads_withExtEa fun ha => h ha sz

theorem privilegedWord_moves {w : Word} (h : w &&& 0xFF00 = 0x0E00 ∧ field w 6 2 ≠ 3)
    (ha : (acceptedKind .memAlterable w).isSome = true) : privilegedWord w = true := by
  have hf : (field w 6 2 != 3) = true := by simpa using h.2
  simp only [privilegedWord, h.1, hf, ha, decide_true, Bool.and_true, Bool.or_true, Bool.true_or]

theorem reads_decodeLine0 (w : Word) : Reads (privilegedWord w) (decodeLine0 w) := by
  unfold decodeLine0
  refine reads_ite (fun h => ?ori) fun _ => reads_ite (fun h => ?andi) fun _ => reads_ite (fun h => ?eori) fun _ =>
    reads_ite (fun h => ?cas2w) fun _ => reads_ite (fun h => ?cas2l) fun _ => reads_ite (fun h => ?moves) fun hm =>
    reads_ite (fun h => ?cas) fun _ => reads_ite (fun h => ?chk2) fun _ => reads_error _
  case ori | andi | eori => exact reads_of_true (reads_oneWord fun _ => rfl) (by rw [h]; decide)
  case cas2w | cas2l => exact reads_of_false (decodeCas2_not_privileged _) (by rw [h]; decide)
  case moves =>
    exact reads_withSize fun ha _ _ _ hx ea => (decodeMoves_privileged hx ea).trans (privilegedWord_moves h ha).symm
  case cas =>
    exact reads_of_false (reads_withSize fun _ _ _ _ hx => decodeCas_not_privileged hx) (privilegedWord_eq_false h (by decide) hm)
  case chk2 =>
    exact reads_of_false (reads_withSize fun _ _ _ _ hx => decodeChk2_not_privileged hx)
      (privilegedWord_eq_false h (by decide) hm)

/-- The same of a row that is there or not. -/
def ReadsRow (b : Bool) (o : Option (Dec Instr)) : Prop := ∀ r ∈ o, ∀ i rest, r = .ok (i, rest) → privilegedInstr i = b

theorem readsRow_none (b : Bool) : ReadsRow b none := fun _ h => absurd h (Option.not_mem_none _)

theorem readsRow_ite {b : Bool} {c : Prop} [Decidable c] {r : Dec Instr} {o : Option (Dec Instr)}
    (hr : c → ∀ i rest, r = .ok (i, rest) → privilegedInstr i = b) (ho : ReadsRow b o) : ReadsRow b (if c then some r else o) := by
  split
  · next h => exact fun r' hr' => Option.mem_some.mp hr' ▸ hr h
  · exact ho

theorem readsRow_decodeLine4Fixed (w : Word) (ws : List Word) : ReadsRow (privilegedWord w) (decodeLine4Fixed w ws) := by
  have hword {v : Word} {i : Instr} (hi : privilegedInstr i = privilegedWord v) (h : w = v) :
      ∀ j rest, (.ok (i, ws) : Dec Instr) = .ok (j, rest) → privilegedInstr j = privilegedWord w :=
    h ▸ reads_done hi ws
  have hwords {v : Word} {mk : Word → Instr} (hv : privilegedWord v = true) (hi : ∀ x, privilegedInstr (mk x) = true) (h : w = v) :
      ∀ j rest, withWord (fun x => .ok (mk x)) ws = .ok (j, rest) → privilegedInstr j = privilegedWord w :=
    h ▸ reads_of_true (reads_oneWord hi) hv ws
  have hnone {m v : Word} {i : Instr} (hi : privilegedInstr i = false) (ha : apart m v = true)
      (hm : v &&& 0xFF00 ≠ 0x0E00 &&& m) (h : w &&& m = v) :
      ∀ j rest, (.ok (i, ws) : Dec Instr) = .ok (j, rest) → privilegedInstr j = privilegedWord w :=
    reads_of_false (reads_done hi) (privilegedWord_of_apart h ha hm) ws
  have husp {v : Word} {i : Instr} (hi : privilegedInstr i = true) (hv : v &&& 0xFFF0 = 0x4E60) (h : w &&& 0xFFF8 = v) :
      ∀ j rest, (.ok (i, ws) : Dec Instr) = .ok (j, rest) → privilegedInstr j = privilegedWord w := by
    have hrow : (w &&& 0xFFF0 = 0x4E60) = True := and_eq_of_and_eq h ⟨by decide, hv⟩
    refine reads_of_true (reads_done hi) ?_ ws
    simp only [privilegedWord, hrow, decide_true, Bool.or_true, Bool.true_or]
  unfold decodeLine4Fixed
  refine readsRow_ite ?illegal <| readsRow_ite ?reset <| readsRow_ite ?nop <| readsRow_ite ?stop <| readsRow_ite ?rte <|
    readsRow_ite ?trapv <| readsRow_ite ?movecFrom <| readsRow_ite ?movecTo <| readsRow_ite ?trap <| readsRow_ite ?toUsp <|
    readsRow_ite ?fromUsp <| readsRow_ite ?bkpt (readsRow_none _)
  case illegal | reset | nop | rte | trapv => exact hword (by decide)
  case stop | movecFrom | movecTo => exact hwords (by decide) fun _ => rfl
  case trap | bkpt => exact hnone rfl (by decide) (by decide)
  case toUsp | fromUsp => exact husp rfl (by decide)

theorem reads_decodeLine4 (w : Word) : Reads (privilegedWord w) (decodeLine4 w) := by
  have hfalse {m v : Word} {p : List Word → Dec Instr} (hp : Reads false p) (ha : apart m v = true)
      (hm : v &&& 0xFF00 ≠ 0x0E00 &&& m) (h : w &&& m = v) : Reads (privilegedWord w) p :=
    reads_of_false hp (privilegedWord_of_apart h ha hm)
  have htoSr (h : w &&& 0xFFC0 = 0x46C0) (ha : (acceptedKind .data w).isSome = true) : privilegedWord w = true := by
    simp only [privilegedWord, h, ha, decide_true, Bool.and_true, Bool.or_true, Bool.true_or]
  have hfromSr (h : w &&& 0xFFC0 = 0x40C0) (ha : (acceptedKind .dataAlterable w).isSome = true) : privilegedWord w = true := by
    simp only [privilegedWord, h, ha, decide_true, Bool.and_true, Bool.or_true, Bool.true_or]
  intro ws i rest hd
  unfold decodeLine4 at hd
  split at hd
  · next r hr => exact readsRow_decodeLine4Fixed w ws r hr i rest hd
  · revert ws i rest
    refine fun ws i rest _ => reads_ite (hfalse (reads_withEa fun _ _ => rfl) (by decide) (by decide)) (fun _ =>
      reads_ite (hfalse (reads_withEa fun _ _ => rfl) (by decide) (by decide)) fun _ =>
      reads_ite (fun h => reads_withEa fun ha _ => (show privilegedInstr (.moveToSr _) = true from rfl).trans (htoSr h ha).symm) fun _ =>
      reads_ite (fun h => reads_withEa fun ha _ => (show privilegedInstr (.moveFromSr _) = true from rfl).trans (hfromSr h ha).symm) fun _ =>
      reads_ite (hfalse (reads_withEa fun _ _ => rfl) (by decide) (by decide)) fun _ =>
      reads_ite (hfalse (reads_withExtEa fun _ _ _ hx => decodeDivl_not_privileged hx) (by decide) (by decide)) fun _ =>
      reads_ite (hfalse (reads_ite (fun _ => reads_error _) fun _ => reads_withExtEa fun _ _ _ hx _ => by cases hx; rfl) (by decide)
        (by decide)) fun _ =>
      reads_ite (hfalse (reads_withExtEa fun _ _ _ hx _ => by cases hx; rfl) (by decide) (by decide)) fun _ => reads_error _)
      ws i rest

theorem reads_decodeLine5 (w : Word) : Reads (privilegedWord w) (decodeLine5 w) := by
  have hfalse {v : Word} {p : List Word → Dec Instr} (hp : Reads false p) (ha : apart 0xF0FF v = true)
      (hm : v &&& 0xFF00 ≠ 0x0E00 &&& 0xF0FF) (h : w &&& 0xF0FF = v) : Reads (privilegedWord w) p :=
    reads_of_false hp (privilegedWord_of_apart h ha hm)
  exact reads_ite (hfalse (reads_oneWord fun _ => rfl) (by decide) (by decide)) fun _ =>
    reads_ite (hfalse (reads_withLong fun _ => rfl) (by decide) (by decide)) fun _ =>
    reads_ite (hfalse (reads_done rfl) (by decide) (by decide)) fun _ => reads_error _

theorem reads_decodeLine8 (w : Word) : Reads (privilegedWord w) (decodeLine8 w) := by
  have hfalse {v : Word} {p : List Word → Dec Instr} (hp : Reads false p) (ha : apart 0xF1C0 v = true)
      (hm : v &&& 0xFF00 ≠ 0x0E00 &&& 0xF1C0) (h : w &&& 0xF1C0 = v) : Reads (privilegedWord w) p :=
    reads_of_false hp (privilegedWord_of_apart h ha hm)
  exact reads_ite (hfalse (reads_withEa fun _ _ => rfl) (by decide) (by decide)) fun _ =>
    reads_ite (hfalse (reads_withEa fun _ _ => rfl) (by decide) (by decide)) fun _ => reads_error _

/-! ### Line F -/

/-- A floating-point word is in the row of its type (R122). -/
theorem fpRow {w : Word} {k : BitVec 3} (h : w &&& 0xFE00 = 0xF200) (hk : field w 6 3 = k) :
    w &&& 0xFFC0 = 0x79#7 ++ k ++ 0#6 := by
  have hid : field w 9 7 = 0x79#7 := field_eq_of_and_eq (by decide) h
  have hw : w = field w 9 7 ++ field w 6 3 ++ field w 0 6 := by
    have h1 : field w 9 7 ++ field w 6 3 = w.extractLsb' 6 10 := BitVec.extractLsb'_append_extractLsb'_eq_extractLsb' rfl
    have h2 : w.extractLsb' 6 10 ++ field w 0 6 = w.extractLsb' 0 16 := BitVec.extractLsb'_append_extractLsb'_eq_extractLsb' rfl
    rw [h1, h2, BitVec.extractLsb'_eq_self]
  calc w &&& 0xFFC0
    _ = (field w 9 7 ++ field w 6 3 ++ field w 0 6) &&& (BitVec.allOnes 7 ++ BitVec.allOnes 3 ++ 0#6) := by rw [← hw]; rfl
    _ = field w 9 7 ++ field w 6 3 ++ 0#6 := by simp only [BitVec.and_append, BitVec.and_allOnes, BitVec.and_zero]
    _ = 0x79#7 ++ k ++ 0#6 := by rw [hid, hk]

theorem privilegedWord_fsave {w : Word} (h : w &&& 0xFFC0 = 0xF300) (ha : (acceptedKind .controlAlterableOrPre w).isSome = true) :
    privilegedWord w = true := by
  simp only [privilegedWord, h, ha, decide_true, Bool.and_true, Bool.or_true, Bool.true_or]

theorem privilegedWord_frestore {w : Word} (h : w &&& 0xFFC0 = 0xF340) (ha : (acceptedKind .controlOrPost w).isSome = true) :
    privilegedWord w = true := by
  simp only [privilegedWord, h, ha, decide_true, Bool.and_true, Bool.or_true]

theorem reads_decodeFp {w : Word} (h : w &&& 0xFE00 = 0xF200) : Reads (privilegedWord w) (decodeFp w) := by
  have htype {k : BitVec 3} (hk : (field w 6 3).toNat = k.toNat) : w &&& 0xFFC0 = 0x79#7 ++ k ++ 0#6 :=
    fpRow h (BitVec.eq_of_toNat_eq hk)
  have hfalse {k : BitVec 3} {p : List Word → Dec Instr} (hk : (field w 6 3).toNat = k.toNat) (hp : Reads false p)
      (ha : apart 0xFFC0 (0x79#7 ++ k ++ 0#6) = true) (hm : (0x79#7 ++ k ++ 0#6) &&& 0xFF00 ≠ (0x0E00 : Word) &&& 0xFFC0) :
      Reads (privilegedWord w) p := reads_of_false hp (privilegedWord_of_apart (htype hk) ha hm)
  unfold decodeFp
  split
  · next hk =>
    refine hfalse (k := 0) hk (fun ws i rest hd => ?_) (by decide) (by decide)
    split at hd
    · exact nomatch hd
    · exact reads_decodeGeneral w _ _ i rest hd
  · next hk => exact hfalse (k := 1) hk (reads_decodeFpCond w) (by decide) (by decide)
  · next hk =>
    refine hfalse (k := 2) hk (reads_ite (fun _ => reads_error _) fun _ => reads_oneWord fun d => ?_) (by decide) (by decide)
    split <;> rfl
  · next hk =>
    exact hfalse (k := 3) hk (reads_ite (fun _ => reads_error _) fun _ => reads_withLong fun _ => rfl) (by decide) (by decide)
  · next hk => exact reads_withEa fun ha _ => (privilegedWord_fsave (htype (k := 4) hk) ha).symm
  · next hk => exact reads_withEa fun ha _ => (privilegedWord_frestore (htype (k := 5) hk) ha).symm
  · exact reads_error _

theorem privilegedWord_cache {w : Word} (h : (w &&& 0xFF00 = 0xF400) = True) (hs : ¬ field w 3 2 = 0) : privilegedWord w = true := by
  have hs' : (field w 3 2 != 0) = true := by simpa using hs
  simp only [privilegedWord, h, hs', decide_true, Bool.and_true, Bool.or_true, Bool.true_or]

theorem privilegedWord_pflush {w : Word} (h : w &&& 0xFFE0 = 0xF500) : privilegedWord w = true := by
  simp only [privilegedWord, h, decide_true, Bool.or_true, Bool.true_or]

theorem privilegedWord_ptest {w : Word} (h : w &&& 0xFFB8 = 0xF528) : privilegedWord w = true := by
  simp only [privilegedWord, h, decide_true, Bool.or_true, Bool.true_or]

theorem reads_decodeLineF (w : Word) : Reads (privilegedWord w) (decodeLineF w) := by
  have hcache {v : Word} {i : Instr} (hi : privilegedInstr i = true) (hv : v &&& 0xFF00 = 0xF400) (h : w &&& 0xFF20 = v) :
      Reads (privilegedWord w) fun ws => if field w 3 2 = 0 then .error .illegal else .ok (i, ws) :=
    reads_ite (fun _ => reads_error _) fun hs =>
      reads_of_true (reads_done hi) (privilegedWord_cache (and_eq_of_and_eq h ⟨by decide, hv⟩) hs)
  have hline {v : Word} {mk : Long → Instr} (hi : ∀ x, privilegedInstr (mk x) = false) (ha : apart 0xFFF8 v = true)
      (hm : v &&& 0xFF00 ≠ 0x0E00 &&& 0xFFF8) (h : w &&& 0xFFF8 = v) : Reads (privilegedWord w) (withLong mk) :=
    reads_of_false (reads_withLong hi) (privilegedWord_of_apart h ha hm)
  refine reads_ite (hcache rfl (by decide)) fun _ => reads_ite (hcache rfl (by decide)) fun _ =>
    reads_ite (fun h => reads_of_true (reads_done rfl) (privilegedWord_pflush h)) fun _ =>
    reads_ite (fun h => reads_of_true (reads_done rfl) (privilegedWord_ptest h)) fun _ =>
    reads_ite (fun h => ?postPost) fun _ => reads_ite (hline (fun _ => rfl) (by decide) (by decide)) fun _ =>
    reads_ite (hline (fun _ => rfl) (by decide) (by decide)) fun _ =>
    reads_ite (hline (fun _ => rfl) (by decide) (by decide)) fun _ =>
    reads_ite (hline (fun _ => rfl) (by decide) (by decide)) fun _ => reads_ite reads_decodeFp fun _ => reads_error _
  refine reads_of_false (reads_withWord fun x i hx => ?_) (privilegedWord_of_apart h (by decide) (by decide))
  split at hx
  · cases hx
    rfl
  · exact nomatch hx

/-! ### The decoder -/

theorem lineRow {w : Word} {k : BitVec 4} (h : field w 12 4 = k) : w &&& 0xF000 = k ++ 0#12 := by
  have hw : w = field w 12 4 ++ field w 0 12 := by
    have h1 : field w 12 4 ++ field w 0 12 = w.extractLsb' 0 16 := BitVec.extractLsb'_append_extractLsb'_eq_extractLsb' rfl
    rw [h1, BitVec.extractLsb'_eq_self]
  calc w &&& 0xF000
    _ = (field w 12 4 ++ field w 0 12) &&& (BitVec.allOnes 4 ++ 0#12) := by rw [← hw]; rfl
    _ = k ++ 0#12 := by rw [BitVec.and_append, BitVec.and_allOnes, BitVec.and_zero, h]

/-- The operation word tells whether the instruction read is privileged; an F-line word is left out, being what line F makes of
words that none of its rows takes. -/
theorem privileged_of_decode {w : Word} {ws rest : List Word} {i : Instr} (h : decode (w :: ws) = .ok (i, rest))
    (hi : ∀ x, i ≠ .fLine x) : privilegedInstr i = privilegedWord w := by
  unfold decode at h
  dsimp only at h
  split at h
  · exact reads_decodeLine0 w ws i rest h
  · exact reads_decodeLine4 w ws i rest h
  · exact reads_decodeLine5 w ws i rest h
  · exact reads_decodeLine8 w ws i rest h
  · next hk =>
    have hrow : w &&& 0xF000 = 0xA000 := lineRow (k := 10) (BitVec.eq_of_toNat_eq hk)
    cases h
    exact (privilegedWord_of_apart hrow (by decide) (by decide)).symm
  · split at h
    · cases h
      exact absurd rfl (hi _)
    · exact reads_decodeLineF w ws i rest h
  · exact nomatch h

/-! ### F-line words that are no legal instruction -/

theorem cacheRow {w : Word} (h : w &&& 0xFF00 = 0xF400) : w &&& 0xFF20 = 0xF400 ∨ w &&& 0xFF20 = 0xF420 := by
  have hbit : w &&& BitVec.twoPow 16 5 = if w.getLsbD 5 then BitVec.twoPow 16 5 else 0 := BitVec.and_twoPow w 5
  have hw : w &&& 0xFF20 = 0xF400 ||| (w &&& BitVec.twoPow 16 5) := by
    rw [← h, show (0xFF20 : Word) = 0xFF00 ||| BitVec.twoPow 16 5 by decide, BitVec.and_or_distrib_left]
  rw [hw, hbit]
  split
  · exact .inr (by decide)
  · exact .inl (by decide)

theorem withEa_ne_illegal {c : EaClass} {w : Word} (h : (acceptedKind c w).isSome = true) (mk : Ea → Instr) :
    withEa c w 0 mk [] ≠ .error .illegal := by
  obtain ⟨k, hk⟩ := Option.isSome_iff_exists.mp h
  unfold withEa
  rw [hk]
  cases k <;> exact nofun

theorem decodeLineF_ne_illegal_of_fp {w : Word} {k : BitVec 3} (h : w &&& 0xFFC0 = 0x79#7 ++ k ++ 0#6)
    (hk : decodeFp w [] ≠ .error .illegal) : decodeLineF w [] ≠ .error .illegal := by
  obtain ⟨hF, -, -⟩ := decodeLineF_fp k h []
  rwa [hF]

/-- Every word of line F that shows a privileged instruction is in a row that takes it. -/
theorem decodeLineF_ne_illegal {w : Word} (hline : field w 12 4 = 15) (h : privilegedWord w = true) :
    decodeLineF w [] ≠ .error .illegal := by
  have hrow : w &&& 0xF000 = 0xF000 := lineRow hline
  simp (disch := decide) only [privilegedWord, ne_of_and_eq hrow, and_ne_of_and_eq hrow, decide_false, Bool.false_or,
    Bool.false_and, Bool.or_eq_true, Bool.and_eq_true, decide_eq_true_eq, or_assoc] at h
  rcases h with ⟨hcache, hs⟩ | hpflush | hptest | ⟨hsave, ha⟩ | ⟨hrestore, ha⟩
  · have hs' : ¬ field w 3 2 = 0 := by simpa using hs
    rcases cacheRow hcache with hc | hc
    · simp only [decodeLineF, hc, hs', if_true, if_false]
      exact nofun
    · simp (disch := decide) only [decodeLineF, hc, and_ne_of_and_eq hc, hs', if_true, if_false]
      exact nofun
  · simp (disch := decide) only [decodeLineF, hpflush, and_ne_of_and_eq hpflush, if_true, if_false]
    exact nofun
  · simp (disch := decide) only [decodeLineF, hptest, and_ne_of_and_eq hptest, if_true, if_false]
    exact nofun
  · refine decodeLineF_ne_illegal_of_fp (k := 4) hsave ?_
    have htype : field w 6 3 = 4 := (decodeLineF_fp 4 hsave []).2.1
    rw [decodeFp, htype]
    exact withEa_ne_illegal ha _
  · refine decodeLineF_ne_illegal_of_fp (k := 5) hrestore ?_
    have htype : field w 6 3 = 5 := (decodeLineF_fp 5 hrestore []).2.1
    rw [decodeFp, htype]
    exact withEa_ne_illegal ha _

theorem privilegedWord_of_fLineAlone {x : BitVec 12} (h : fLineAlone x = true) : privilegedWord (15#4 ++ x) = false := by
  have hline : field (15#4 ++ x) 12 4 = 15 := field_line _ _
  by_contra hp
  exact decodeLineF_ne_illegal hline (by simpa using hp) (decodeLineF_of_fLineAlone h [])

/-! ### The obligation -/

/-- Settles O3: what the decoder reads shows it, and it reads each well-formed instruction from the encoder's words. -/
theorem firstWordShowsPrivilege : Obligations.FirstWordShowsPrivilege := by
  refine ⟨fun i hwf => ?_, fun w ws rest i h hi => ?_⟩
  · by_cases hf : ∃ x, i = .fLine x
    · obtain ⟨x, rfl⟩ := hf
      exact privilegedWord_of_fLineAlone hwf
    · have hd : decode (encode i) = .ok (i, []) := by simpa using decodeEncode i [] hwf
      cases he : encode i with
      | nil => rw [he] at hd; exact nomatch hd
      | cons w ws =>
        rw [he] at hd
        exact (privileged_of_decode hd fun x hx => hf ⟨x, hx⟩).symm
  · refine (privileged_of_decode h ?_).symm.trans hi
    rintro x rfl
    exact absurd hi nofun

end Sys2Proof
end

