-- ==== Sys2Proof/Proofs/Exceptions.lean ====
section
/-!
SUPPORT. Taking an exception where every access reaches memory (60_exceptions.md R400, R405, R411, R445), a double bus fault
(R424, R460) and the reset exception (R420).
-/
namespace Sys2Proof.Machine

/-! ### Entering a handler -/

/-- The state entered through one frame: the frame in memory, its stack pointer, the vector. -/
theorem attempt_frame {s : State} (h : s.plain) (f : Frame) (vector : Byte) :
    s.attempt [f] vector = .ok (({ (s.writeBytes (framesWrites [f])).setStack f.stack f.addr with
      pc := (s.writeBytes (framesWrites [f])).longAt (s.ctl.vbr + 4 * vector.setWidth 32),
      tracePending := false, run := .running } : State).flowChanged, s) := by
  rw [attempt_plain h]
  simp only [State.enter, List.foldl_cons, List.foldl_nil, State.setStack_mem]
  rw [vectorAddr_eq, vector_longAt]

/-- The state entered through two frames. -/
theorem attempt_frames {s : State} (h : s.plain) (f g : Frame) (vector : Byte) :
    s.attempt [f, g] vector = .ok
      (({ (((s.writeBytes (framesWrites [f])).writeBytes (framesWrites [g])).setStack f.stack f.addr).setStack g.stack g.addr with
        pc := ((s.writeBytes (framesWrites [f])).writeBytes (framesWrites [g])).longAt (s.ctl.vbr + 4 * vector.setWidth 32),
        tracePending := false, run := .running } : State).flowChanged, s) := by
  have hw : framesWrites [f, g] = framesWrites [f] ++ framesWrites [g] := by simp [framesWrites]
  rw [attempt_plain h]
  simp only [State.enter, List.foldl_cons, List.foldl_nil, State.setStack_mem, hw, writeBytes_append]
  rw [vectorAddr_eq, vector_longAt]

theorem enterSupervisor_idem (sr : Word) : enterSupervisor (enterSupervisor sr) = enterSupervisor sr := by
  apply BitVec.eq_of_getLsbD_eq
  intro i hi
  simp only [enterSupervisor, BitVec.getLsbD_and, BitVec.getLsbD_or]
  interval_cases i <;> simp

/-- A halted processor has forgotten whether step 1 had been done. -/
theorem halt_enterSupervisor (s : State) : ({ s with sr := enterSupervisor s.sr } : State).halt = s.halt := by
  simp only [State.halt, enterSupervisor_idem]

theorem takeAddressError_eq (s : State) (ia : Long) (regs0 : Regs) (pc target : Long) :
    s.takeAddressError pc target = s.takeException ia regs0
      { vector := 3, cls := .address, stackedPc := pc, format := .two (target &&& 0xFFFFFFFE) } := by
  unfold State.takeAddressError State.takeException State.enterOrHalt
  cases s.tryException { vector := 3, cls := .address, stackedPc := pc, format := .two (target &&& 0xFFFFFFFE) } with
  | ok x => simp
  | error x => rfl

/-! ### Frames of formats $0, $2 and $3 -/

/-- The words of a frame, as R411 lists them. -/
def frameWords (sr : Word) (e : Exc) : List Word :=
  let field : BitVec 4 × List Word := match e.format with
    | .zero => (0, [])
    | .two a => (2, longWords a)
    | .three a => (3, longWords a)
  [sr] ++ longWords e.stackedPc ++ [field.1 ++ 0#2 ++ e.vector ++ 0#2] ++ field.2

theorem frameHead_words (sr : Word) (pc : Long) (fmt : BitVec 4) (v : Byte) :
    frameBytes (frameHead sr pc fmt v) = bytesOfWords ([sr] ++ longWords pc ++ [fmt ++ 0#2 ++ v ++ 0#2]) := by
  have h := frameHead_bytes sr pc fmt v []
  rwa [List.append_nil, show frameBytes [] = [] from rfl, List.append_nil] at h

theorem frameFields_words (sr : Word) (e : Exc) : frameBytes (frameFields sr e) = bytesOfWords (frameWords sr e) := by
  unfold frameFields frameWords
  cases e.format with
  | zero => exact (frameHead_words _ _ _ _).trans (by rw [List.append_nil])
  | two a | three a =>
    rw [frameHead_bytes, frameLong_bytes, show frameBytes [] = [] from rfl, List.append_nil, ← bytesOfWords_append]

theorem frameSize_frameFields (sr : Word) (e : Exc) : frameSize (frameFields sr e) = 2 * (frameWords sr e).length := by
  rw [← frameBytes_length, frameFields_words, bytesOfWords_length]

theorem frameSize_le (sr : Word) (e : Exc) : frameSize (frameFields sr e) ≤ 12 := by
  unfold frameFields
  cases e.format <;> simp [frameHead, frameSize, TSize.bytes]

/-- Where the frame of an exception goes: the stack pointer that names it, its address, the SR that is in it. -/
def Exc.place (e : Exc) (s : State) : StackSel × Long × Word :=
  let k : StackSel := if srM s.sr then .msp else .isp
  e.inPlace.getD (k, s.getStack k - BitVec.ofNat 32 (2 * (frameWords 0 e).length), s.sr)

theorem frameOf_eq (s : State) (e : Exc) : s.frameOf e =
    { stack := (e.place s).1, addr := (e.place s).2.1, fields := frameFields (e.place s).2.2 e } := by
  unfold State.frameOf Exc.place
  cases e.inPlace with
  | none => simp only [State.frameBelow, activeStack_enter, frameSize_frameFields, Option.getD_none]; rfl
  | some x => rfl

/-- The state that exception processing of steps 1, 3 and 4 enters: `m` is the state with the frame in memory. -/
def State.entered (s m : State) (e : Exc) : State :=
  ({ m.setStack (e.place s).1 (e.place s).2.1 with
      sr := enterSupervisor s.sr, pc := m.longAt (s.ctl.vbr + 4 * e.vector.setWidth 32),
      tracePending := false, run := .running } : State).flowChanged

/-- Where every access reaches memory exception processing goes through. -/
theorem tryException_plain {s : State} (h : s.plain) (hw : s.memOk) (e : Exc) :
    ∃ m, Stored s m (e.place s).2.1 (bytesOfWords (frameWords (e.place s).2.2 e)) ∧
      s.tryException e = .ok (s.entered m e, { s with sr := enterSupervisor s.sr }) := by
  have hstored := stored_frame hw (s.frameOf e) (by rw [frameOf_eq]; exact (frameSize_le _ e).trans (by decide))
  have hplain : ({ s with sr := enterSupervisor s.sr } : State).plain := plain_of_eq h rfl rfl rfl
  have hentered := attempt_frame hplain (s.frameOf e) e.vector
  rw [frameOf_eq] at hstored hentered
  rw [← frameFields_words]
  refine ⟨_, hstored, ?_⟩
  unfold State.tryException State.entered
  rw [frameOf_eq, hentered]
  cases (e.place s).1 <;> rfl

/-- Settles O12: exception processing where no access faults. -/
theorem exceptionEntry : Obligations.ExceptionEntry := by
  intro s ia regs0 e h hw
  obtain ⟨m, hm, ht⟩ := tryException_plain h hw e
  have haddress (pc target : Long) := takeAddressError_eq s ia regs0 pc target
  refine ⟨m, hm, fun heven => ?_, fun hodd hcls => ?_, haddress⟩
  · have hne : ¬ (e.cls = .address ∧ (s.entered m e).pc.getLsbD 0 = true) := by
      rintro ⟨hcls, hodd⟩
      rcases heven with he | he
      · exact absurd (he.symm.trans hodd) nofun
      · exact he hcls
    unfold State.takeException
    rw [ht]
    exact if_neg hne
  · unfold State.takeException
    rw [ht]
    exact (if_pos ⟨hcls, hodd⟩).trans (halt_enterSupervisor s)

/-! ### Interrupts -/

theorem interruptSr_eq (sr : Word) (level : BitVec 3) :
    interruptSr sr level &&& 0xEFFF = ((sr ||| 0x2000) &&& 0x28FF) ||| (0#5 ++ level ++ 0#8) := by
  have hlevel : ∀ level : BitVec 3, ((level.setWidth 16 : Word) <<< 8) &&& 0xEFFF = 0#5 ++ level ++ 0#8 := by decide
  unfold interruptSr enterSupervisor
  rw [BitVec.and_or_distrib_right, hlevel, BitVec.and_assoc, BitVec.and_assoc]
  rfl

/-- The state in which the frames of an interrupt are written. -/
def State.interrupted (s : State) (level : BitVec 3) : State :=
  { s with sr := interruptSr s.sr level &&& 0xEFFF, irq := { s.irq with nmiLatch := s.irq.nmiLatch && level != 7 } }

theorem tryInterrupt_one {s : State} (hm : srM s.sr = false) (level : BitVec 3) (vector : Byte) :
    s.tryInterrupt level vector =
      (s.interrupted level).attempt [s.frameBelow .isp (frameHead s.sr s.pc 0 vector)] vector := by
  simp [State.tryInterrupt, State.interruptFrames, hm, State.interrupted]

theorem tryInterrupt_two {s : State} (hm : srM s.sr = true) (level : BitVec 3) (vector : Byte) :
    s.tryInterrupt level vector = (s.interrupted level).attempt
      [s.frameBelow .msp (frameHead s.sr s.pc 0 vector), s.frameBelow .isp (frameHead (s.sr ||| 0x2000) s.pc 1 vector)]
      vector := by
  simp [State.tryInterrupt, State.interruptFrames, hm, State.interrupted]

/-- A frame of four words in memory. -/
theorem stored_frameBelow {s : State} (hw : s.memOk) (t : State) (k : StackSel) (sr : Word) (pc : Long) (fmt : BitVec 4) (v : Byte) :
    Stored s (s.writeBytes (framesWrites [t.frameBelow k (frameHead sr pc fmt v)])) (t.getStack k - 8)
      (bytesOfWords ([sr] ++ longWords pc ++ [fmt ++ 0#2 ++ v ++ 0#2])) := by
  rw [← frameHead_words]
  exact stored_frame hw (t.frameBelow k (frameHead sr pc fmt v)) (Nat.le_of_ble_eq_true rfl)

theorem frameBelow_emit (s : State) (o : Output) (k : StackSel) (fs : FrameFields) :
    (s.emit o).frameBelow k fs = s.frameBelow k fs := rfl

theorem frameBelow_head_addr (s : State) (k : StackSel) (sr : Word) (pc : Long) (fmt : BitVec 4) (v : Byte) :
    (s.frameBelow k (frameHead sr pc fmt v)).addr = s.getStack k - 8 := rfl

/-- Settles O13: exception processing of an interrupt where no access faults. -/
theorem interruptEntry : Obligations.InterruptEntry := by
  intro s level answer h hw vector frame s0 entered
  have hvector : iackVector level answer = vector := by cases answer <;> rfl
  have hplain : ((s.emit (.interruptAcknowledge level)).interrupted level).plain := plain_of_eq h rfl rfl rfl
  have hw0 : s0.memOk := hw
  have htake {u t : State} (ht : (s.emit (.interruptAcknowledge level)).tryInterrupt level vector = .ok (u, t)) :
      s.takeInterrupt level answer = u := by
    simp only [State.takeInterrupt, hvector, ht]
  refine ⟨fun hm => ?_, fun hm => ?_⟩
  · refine ⟨_, stored_frameBelow hw0 s .isp s.sr s.pc 0 vector, ?_⟩
    rw [htake ((tryInterrupt_one (s := s.emit _) hm level vector).trans (attempt_frame hplain _ _))]
    simp only [entered, ← interruptSr_eq, frameBelow_emit]
    rfl
  · have hm1 := stored_frameBelow hw0 s .msp s.sr s.pc 0 vector
    refine ⟨_, _, hm1, stored_frameBelow hm1.2.1 s .isp (s.sr ||| 0x2000) s.pc 1 vector, ?_⟩
    rw [htake ((tryInterrupt_two (s := s.emit _) hm level vector).trans (attempt_frames hplain _ _ _))]
    simp only [entered, ← interruptSr_eq, frameBelow_emit, State.emit_sr, State.emit_pc, frameBelow_head_addr]
    generalize framesWrites [s.frameBelow .msp _] = ws
    generalize framesWrites [s.frameBelow .isp _] = vs
    rfl

/-! ### Double bus faults -/

/-- Every write ends in TEA. -/
def AllWritesFault (s : State) : Prop :=
  s.translationOff = true ∧ ∃ r ∈ s.env.tea, r.lo = 0 ∧ r.hi = 0xFFFFFFFF ∧ r.tt = none ∧ r.tm = none ∧ r.writes = true

theorem AllWritesFault.busTea {s : State} (h : AllWritesFault s) {acc : Access} (hw : acc.write = true) (p : Long) (n : Nat) :
    s.busTea acc p n = true := by
  obtain ⟨-, r, hr, hlo, hhi, htt, htm, hwr⟩ := h
  refine List.any_eq_true.mpr ⟨r, hr, ?_⟩
  have hmeet : rangesMeet r.lo.toNat r.hi.toNat p.toNat (p.toNat + n - 1) = true := by
    have := p.isLt
    simp only [rangesMeet, hlo, hhi, Bool.and_eq_true, decide_eq_true_eq]
    exact ⟨Nat.zero_le _, by show p.toNat ≤ 4294967295; omega⟩
  simp [hw, hwr, htt, htm, hmeet]

theorem transfer_of_allWritesFault {s : State} (h : AllWritesFault s) {acc : Access} (hw : acc.write = true) (off n : Nat) :
    ∃ f, transfer acc off n s = .error f (s.busMove acc.locked) := by
  have hoff : (s.busMove acc.locked).translationOff = true := h.1
  have htea : ∀ p, (s.busMove acc.locked).busTea acc p n = true := fun p => h.busTea hw p n
  refine ⟨{ acc := acc, atc := false, ma := false, wb := .none, cont := .none }, ?_⟩
  simp only [transfer, State.translate, hoff, Bool.true_or, if_true, htea, Bool.or_true]

theorem transfersOf_ne_nil (a : Long) (sz : TSize) : ∃ t ts, transfersOf a sz = t :: ts := by
  unfold transfersOf
  cases sz with
  | byte | line => exact ⟨_, _, rfl⟩
  | word =>
    dsimp only
    split <;> exact ⟨_, _, rfl⟩
  | long =>
    dsimp only
    split_ifs <;> exact ⟨_, _, rfl⟩

/-- Exception processing that has a frame to write ends at its first transfer. -/
theorem attempt_of_allWritesFault {s : State} (h : AllWritesFault s) (k : StackSel) (a : Long) (f : TSize × Long) (fs : FrameFields)
    (vector : Byte) : ∃ fault, s.attempt [{ stack := k, addr := a, fields := f :: fs }] vector = .error (fault, s.busMove false) := by
  obtain ⟨t, ts, hts⟩ := transfersOf_ne_nil a f.1
  obtain ⟨fault, hfault⟩ := transfer_of_allWritesFault h (acc := supervisorAccess a f.1 true) rfl t.1 t.2
  refine ⟨{ fault with wb := writeBackOf (supervisorAccess a f.1 true) (bytesOfValue f.1.bytes f.2.toNat) }, ?_⟩
  have hroute : route (supervisorAccess a f.1 true) s = .error fault (s.busMove false) := by
    rw [route, show (supervisorAccess a f.1 true).addr = a from rfl, show (supervisorAccess a f.1 true).size = f.1 from rfl, hts,
      overTransfers, bind_eq, hfault]
    rfl
  simp only [State.attempt, planEntry, planFrames, planFrame, bind_eq, withWriteBack, hroute]

/-- The processor has halted, from a state with the same memory unless another master has written. -/
def HaltedFrom (s t : State) : Prop := t.run = .halted ∧ (s.env.bus = [] → t.mem = s.mem)

theorem halt_run (s : State) : s.halt.run = .halted := by simp [State.halt, State.setSp]
theorem halt_mem (s : State) : s.halt.mem = s.mem := by simp [State.halt, State.setSp]

/-- It halts on a fault of its first transfer. -/
theorem haltedFrom_busMove {s t : State} (he : t.env = s.env) (hm : t.mem = s.mem) : HaltedFrom s (t.busMove false).halt := by
  refine ⟨halt_run _, fun hb => ?_⟩
  rw [halt_mem, State.busMove_of_nil (he ▸ hb), hm]

/-- The frame of an access fault faults too. -/
theorem takeAccessFault_haltedFrom {s : State} (h : AllWritesFault s) (image : Word) (pc : Long) (f : AccessFault) :
    HaltedFrom s (s.takeAccessFault image pc f) := by
  let s1 : State := { s with sr := enterSupervisor s.sr, freeCount := s.freeCount + 10 }
  have h1 : AllWritesFault s1 := h
  obtain ⟨fault, hfault⟩ := attempt_of_allWritesFault h1 (activeStack s1.sr)
    (s1.frameBelow (activeStack s1.sr) (accessFrame image pc f s.freeCount)).addr (.word, image.setWidth 32) _ 2
  have htake : s.takeAccessFault image pc f = (s1.busMove false).halt := congrArg State.enterOrHalt hfault
  rw [htake]
  exact haltedFrom_busMove rfl rfl

theorem frameFields_cons (image : Word) (e : Exc) : ∃ fs, frameFields image e = (.word, image.setWidth 32) :: fs := by
  unfold frameFields
  cases e.format <;> exact ⟨_, rfl⟩

/-- A fault of an exception's own access leads to one of the access fault's frame, and that halts. -/
theorem takeAccessFault_of_busMove {s t : State} (h : AllWritesFault s) (hc : t.ctl = s.ctl) (he : t.env = (s.busMove false).env)
    (hm : t.mem = (s.busMove false).mem) (image : Word) (pc : Long) (f : AccessFault) :
    HaltedFrom s (t.takeAccessFault image pc f) := by
  have ht : AllWritesFault t := by
    refine ⟨?_, ?_⟩
    · rw [← h.1]
      unfold State.translationOff
      rw [hc]
    · rw [he]
      exact h.2
  obtain ⟨hrun, hmem⟩ := takeAccessFault_haltedFrom ht image pc f
  refine ⟨hrun, fun hb => ?_⟩
  rw [State.busMove_of_nil hb] at he hm
  rw [hmem (he ▸ hb), hm]

/-- Settles O15: the frame's first transfer ends in TEA, and so does that of the access fault's frame. -/
theorem doubleBusFaultHalts : Obligations.DoubleBusFaultHalts := by
  intro s ia regs0 e htr htea
  have h : AllWritesFault s := ⟨htr, htea⟩
  let s1 : State := { s with sr := enterSupervisor s.sr }
  have h1 : AllWritesFault s1 := h
  obtain ⟨fs, hfs⟩ := frameFields_cons (e.place s).2.2 e
  obtain ⟨fault, hfault⟩ := attempt_of_allWritesFault h1 (e.place s).1 (e.place s).2.1 (.word, (e.place s).2.2.setWidth 32) fs
    e.vector
  have htry : s.tryException e = .error (fault, s1.busMove false) := by
    rw [← hfs, ← frameOf_eq] at hfault
    exact hfault
  show HaltedFrom s (s.takeException ia regs0 e)
  unfold State.takeException
  rw [htry]
  dsimp only
  split
  · exact haltedFrom_busMove rfl rfl
  all_goals
    refine takeAccessFault_of_busMove h ?_ ?_ ?_ _ _ _
    all_goals rfl

/-! ### Reset -/

/-- The values of the reset sequence (10_state.md R65). -/
def ResetValues (t : State) : Prop :=
  t.sr.extractLsb' 8 8 = 0x27 ∧ t.ctl.vbr = 0 ∧ t.ctl.cacr.getLsbD 31 = false ∧ t.ctl.cacr.getLsbD 15 = false ∧
    t.ctl.tc.extractLsb' 14 2 = 1 ∧ t.ctl.itt0.getLsbD 15 = false ∧ t.ctl.itt1.getLsbD 15 = false ∧
    t.ctl.dtt0.getLsbD 15 = false ∧ t.ctl.dtt1.getLsbD 15 = false ∧ t.fpu.mode = .null ∧ t.fpu.pending = none ∧
    t.irq.pending = none ∧ t.irq.nmiLatch = false ∧ t.tracePending = false

/-- They say nothing of the other fields. -/
theorem ResetValues.congr {s t : State} (h : ResetValues s) (hsr : t.sr = s.sr) (hctl : t.ctl = s.ctl) (hfpu : t.fpu = s.fpu)
    (hirq : t.irq = s.irq) (htrace : t.tracePending = s.tracePending) : ResetValues t := by
  unfold ResetValues
  rw [hsr, hctl, hfpu, hirq, htrace]
  exact h

theorem resetRegisters_values (s : State) : ResetValues s.resetRegisters := by
  have hsr (x : Word) : (0x2700 ||| (x &&& 0x001F) : Word).extractLsb' 8 8 = 0x27 := by
    rw [BitVec.extractLsb'_or, BitVec.extractLsb'_and, show (0x001F : Word).extractLsb' 8 8 = 0 by decide]
    simp
  have hbit (x y : Long) : (x &&& y &&& 0xFFFF7FFF).getLsbD 15 = false := by
    rw [BitVec.getLsbD_and, show (0xFFFF7FFF : Long).getLsbD 15 = false by decide, Bool.and_false]
  exact ⟨hsr _, rfl, (by decide : (0 : Long).getLsbD 31 = false), (by decide : (0 : Long).getLsbD 15 = false),
    (by decide : (0x4000 : Word).extractLsb' 14 2 = 1), hbit _ _, hbit _ _, hbit _ _, hbit _ _, rfl, rfl, rfl, rfl, rfl⟩

theorem ResetValues.translationOff {s : State} (h : ResetValues s) : s.translationOff = true := by
  obtain ⟨-, -, -, -, htc, h0, h1, h2, h3, -⟩ := h
  have htc15 : s.ctl.tc.getLsbD 15 = false := by
    have hb := congrArg (fun x : BitVec 2 => x.getLsbD 1) htc
    simpa [BitVec.getLsbD_extractLsb'] using hb
  simp only [State.translationOff, htc15, h0, h1, h2, h3, Bool.not_false, Bool.and_self]

/-- Settles O16: the reset sequence leaves translation off, so that both reads reach memory. -/
theorem resetException : Obligations.ResetException := by
  refine ⟨⟨by decide, rfl⟩, fun s htea hbus => ?_⟩
  have hvalues : ResetValues s.resetRegisters := resetRegisters_values s
  have hplain : s.resetRegisters.plain := ⟨hvalues.translationOff, htea, hbus⟩
  have hisp : load (supervisorAccess 0 .long false) s.resetRegisters = .ok (s.longAt 0) s.resetRegisters :=
    load_plain (sz := .long) hplain rfl
  have hplain' : (s.resetRegisters.setStack .isp (s.longAt 0)).plain := plain_of_eq hplain rfl rfl rfl
  have hpc : load (supervisorAccess 4 .long false) (s.resetRegisters.setStack .isp (s.longAt 0)) =
      .ok (s.longAt 4) (s.resetRegisters.setStack .isp (s.longAt 0)) := load_plain (sz := .long) hplain' rfl
  simp only [State.resetException, hisp, hpc]
  have hv (t : State) (hsr : t.sr = s.resetRegisters.sr) (hctl : t.ctl = s.resetRegisters.ctl) (hfpu : t.fpu = s.resetRegisters.fpu)
      (hirq : t.irq = s.resetRegisters.irq) (htrace : t.tracePending = s.resetRegisters.tracePending) :
      ResetValues t := hvalues.congr hsr hctl hfpu hirq htrace
  cases hodd : (s.longAt 4).getLsbD 0 with
  | true => exact ⟨hv _ rfl rfl rfl rfl rfl, rfl, rfl, rfl, nofun, fun _ => rfl⟩
  | false => exact ⟨hv _ rfl rfl rfl rfl rfl, rfl, rfl, rfl, fun _ => ⟨rfl, rfl⟩, nofun⟩

end Sys2Proof.Machine
end

