-- ==== Sys2Proof/Proofs/Return.lean ====
section
/-!
SUPPORT. RTE where every access reaches memory (41_system_instructions.md R200, R201), and how it undoes an exception and an
interrupt.
-/
namespace Sys2Proof.Machine

/-! ### Accesses of an instruction -/

theorem memRead_plain {s : State} (h : s.plain) {acc : Access} {sz : Size} (hs : acc.size = .ofSize sz) :
    memRead acc s = .ok (s.valueAt acc.addr sz) s := by
  rw [memRead, access_eq, load_plain h hs]

/-! ### The frame that RTE reads -/

/-- What RTE does with a frame, given its SR image, its program counter and its format (R200). -/
def rteFrame (ia : Long) (fuel : Nat) (image : Word) (pc : Long) (format : BitVec 4) : M Flow :=
  match format.toNat with
  | 0 => popFrame 8 image >>= fun _ => pure (.jump pc)
  | 1 => popFrame 8 image >>= fun _ => rteLoop ia fuel
  | 2 => popFrame 12 image >>= fun _ => pure (.jump pc)
  | 3 => popFrame 12 image >>= fun _ => pure (.jump pc)
  | 7 => rteFrame7 image pc
  | _ => raise { vector := 14, cls := .keep, stackedPc := ia, format := .zero }

/-- The format of the frame at the active stack pointer. -/
def State.frameFormat (s : State) : BitVec 4 := (s.wordAt (s.sp + 6)).extractLsb' 12 4

theorem format_of_word (w : Word) : (w.setWidth 32).extractLsb' 12 4 = w.extractLsb' 12 4 := by
  apply BitVec.eq_of_getLsbD_eq
  intro i hi
  simp only [BitVec.getLsbD_extractLsb', BitVec.getLsbD_setWidth]
  simp [show 12 + i < 32 by omega]

theorem rteLoop_plain {s : State} (h : s.plain) (ia : Long) (n : Nat) :
    rteLoop ia (n + 1) s = rteFrame ia n (s.wordAt s.sp) (s.longAt (s.sp + 2)) s.frameFormat s := by
  have hword (a : Long) : memRead (rteAccess s.sr a .word) s = .ok ((s.wordAt a).setWidth 32) s :=
    memRead_plain (sz := .word) h rfl
  have hlong (a : Long) : memRead (rteAccess s.sr a .long) s = .ok (s.longAt a) s := memRead_plain (sz := .long) h rfl
  have himage : ((s.wordAt s.sp).setWidth 32).setWidth 16 = s.wordAt s.sp := by simp
  unfold rteLoop
  simp only [bind_eq, fetch_eq, hword, hlong, himage, format_of_word]
  rfl

/-- A frame popped: the pointer that was active moves past it, SR is that of the frame. -/
def State.popped (s : State) (n : Long) : State := { s.setSp (s.sp + n) with sr := s.wordAt s.sp &&& 0xF71F }

theorem popFrame_plain (s : State) (n : Nat) :
    popFrame n (s.wordAt s.sp) s = .ok () (s.popped (BitVec.ofNat 32 n)) := rfl

/-- The number of bytes of a frame of format $0, $2 or $3. -/
def popBytes (format : BitVec 4) : Long := if format = 0 then 8 else 12

theorem rteLoop_last {s : State} (h : s.plain) (hf : s.frameFormat = 0 ∨ s.frameFormat = 2 ∨ s.frameFormat = 3) (ia : Long) (n : Nat) :
    rteLoop ia (n + 1) s = .ok (.jump (s.longAt (s.sp + 2))) (s.popped (popBytes s.frameFormat)) := by
  rw [rteLoop_plain h]
  rcases hf with hf | hf | hf <;> rw [hf] <;> rfl

theorem rteLoop_throwaway {s : State} (h : s.plain) (hf : s.frameFormat = 1) (ia : Long) (n : Nat) :
    rteLoop ia (n + 1) s = rteLoop ia n (s.popped 8) := by
  rw [rteLoop_plain h, hf]
  rfl

theorem rteLoop_access {s : State} (h : s.plain) (hf : s.frameFormat = 7) (ia : Long) (n : Nat) :
    rteLoop ia (n + 1) s = rteFrame7 (s.wordAt s.sp) (s.longAt (s.sp + 2)) s := by
  rw [rteLoop_plain h, hf]
  rfl

theorem rteFrame_format_error {format : BitVec 4} (hf : format ∉ [0, 1, 2, 3, (7 : BitVec 4)]) (ia : Long) (n : Nat) (image : Word)
    (pc : Long) : rteFrame ia n image pc format = raise { vector := 14, cls := .keep, stackedPc := ia, format := .zero } := by
  have hne {k : BitVec 4} (hk : k ∈ [0, 1, 2, 3, (7 : BitVec 4)]) (he : format.toNat = k.toNat) : False :=
    hf (BitVec.eq_of_toNat_eq he ▸ hk)
  unfold rteFrame
  split
  · next he => exact (hne (k := 0) (by decide) he).elim
  · next he => exact (hne (k := 1) (by decide) he).elim
  · next he => exact (hne (k := 2) (by decide) he).elim
  · next he => exact (hne (k := 3) (by decide) he).elim
  · next he => exact (hne (k := 7) (by decide) he).elim
  · rfl

theorem rteLoop_format_error {s : State} (h : s.plain) (hf : s.frameFormat ∉ [0, 1, 2, 3, (7 : BitVec 4)]) (ia : Long) (n : Nat) :
    rteLoop ia (n + 1) s = .error (.exc { vector := 14, cls := .keep, stackedPc := ia, format := .zero }) s := by
  rw [rteLoop_plain h, rteFrame_format_error hf]
  rfl

/-! ### The instruction -/

theorem rteFuel_eq : ∃ n, rteFuel = n + 1 + 1 := ⟨2 ^ 89 - 2, by norm_num [rteFuel]⟩

section exec
variable {s t : State} (hs : srS s.sr = true)
include hs

theorem execRte_eq : exec .rte s = runInstr 1 (fun _ => rteLoop s.pc rteFuel) s := by
  have hbody : exec .rte s = runInstr 1 (fun _ => requireSupervisor >>= fun _ => fetch State.pc >>= fun ia =>
      rteLoop ia rteFuel) s := rfl
  rw [hbody, runInstr_supervisor _ _ hs]
  simp only [runInstr, bind_eq, fetch_eq]

/-- RTE ends in a jump to the program counter of the frame, or in an address error. -/
theorem exec_rte_of_jump {pc : Long} (h : rteLoop s.pc rteFuel s = .ok (.jump pc) t) :
    (pc.getLsbD 0 = false → exec .rte s = .next (s.jumped pc t)) ∧
      (pc.getLsbD 0 = true → exec .rte s = .next (t.takeException s.pc s.regs
        { vector := 3, cls := .address, stackedPc := s.pc, format := .two (pc &&& 0xFFFFFFFE) })) := by
  have hrun : exec .rte s = .next (t.complete s.pc (s.pc + BitVec.ofNat 32 (2 * 1)) s.sr s.regs (.jump pc)) := by
    rw [execRte_eq hs]
    simp only [runInstr, h]
  refine ⟨fun he => ?_, fun ho => ?_⟩
  · rw [hrun]
    simp only [State.complete, he, Bool.false_eq_true, if_false, State.jumped]
  · rw [hrun]
    simp only [State.complete, ho, if_true, addressErrorExc]

theorem exec_rte_of_exc {e : Exc} (h : rteLoop s.pc rteFuel s = .error (.exc e) t) :
    exec .rte s = .next (t.takeException s.pc s.regs e) := by
  rw [execRte_eq hs]
  exact runInstr_of_exc h

theorem exec_rte_of_refused {r : Refusal} (h : rteLoop s.pc rteFuel s = .error (.refused r) t) : exec .rte s = .refused r := by
  rw [execRte_eq hs]
  simp only [runInstr, h, State.aborted]

end exec

theorem popped_plain {s : State} (h : s.plain) (n : Long) : (s.popped n).plain :=
  plain_of_eq h (by simp [State.popped, State.setSp]) (by simp [State.popped, State.setSp]) (by simp [State.popped, State.setSp])

/-- Settles O17: RTE reads one frame, or goes on to a second one behind a throwaway frame. -/
theorem rteReturns : Obligations.RteReturns := by
  unfold Obligations.RteReturns
  intro pop formatAt last s h hs
  obtain ⟨n, hn⟩ := rteFuel_eq
  refine ⟨fun hf => ?_, fun h1 hf => ?_, fun hf => ?_⟩
  · exact exec_rte_of_jump hs (by rw [hn]; exact rteLoop_last h hf s.pc _)
  · refine exec_rte_of_jump hs ?_
    rw [hn, rteLoop_throwaway h h1]
    exact rteLoop_last (popped_plain h 8) hf s.pc n
  · exact exec_rte_of_exc hs (by rw [hn]; exact rteLoop_format_error h hf s.pc _)

/-! ### Access error frames -/

theorem frame7Of_eq (w : Word) : frame7Of w =
    match (w.extractLsb' 12 4).toNat with
    | 0 => some .plain
    | 1 => some .movem
    | 2 => some .trace
    | 4 | 6 => some .unimp
    | 8 | 10 => some .post
    | _ => none := by
  have hbit (k : Nat) (hk : k < 4) : w.getLsbD (12 + k) = (w.extractLsb' 12 4).getLsbD k := by
    rw [BitVec.getLsbD_extractLsb', decide_eq_true hk, Bool.true_and]
  have h15 := hbit 3 (by decide)
  have h14 := hbit 2 (by decide)
  have h13 := hbit 1 (by decide)
  have h12 := hbit 0 (by decide)
  simp only [frame7Of, h15, h14, h13, h12]
  generalize w.extractLsb' 12 4 = b
  revert b
  decide

theorem frame7Of_none {w : Word} (h : w.extractLsb' 12 4 ∉ [0, 1, 2, 4, 6, 8, (10 : BitVec 4)]) : frame7Of w = none := by
  rw [frame7Of_eq]
  generalize w.extractLsb' 12 4 = b at h ⊢
  revert b
  decide

/-- What RTE does with an access error frame, popped, by its continuation (R201). -/
def frame7Flow (pc ea : Long) (place : Option (StackSel × Long × Word)) : Frame7 → M Flow
  | .plain => pure (.jump pc)
  | .movem => update (fun s => { s with movemRestart := some ea }) >>= fun _ => pure (.jump pc)
  | .trace => raise { vector := 9, cls := .trace, stackedPc := pc, format := .two ea, inPlace := place }
  | .unimp => raise { vector := 11, cls := .unimp, stackedPc := pc, format := .two ea, inPlace := place }
  | .post => postVector >>= fun vector =>
      raise { vector := vector, cls := .post, stackedPc := pc, format := .three ea, inPlace := place }

section access
variable {s : State} (h : s.plain) (hf : s.frameFormat = 7)
include h hf

/-- The place of the pending exception's frame: the last words of the frame popped. -/
def State.lastWords (s : State) : Option (StackSel × Long × Word) := some (activeStack s.sr, s.sp + 48, s.wordAt s.sp)

theorem rteLoop_frame7 (n : Nat) : rteLoop s.pc (n + 1) s =
    match frame7Of (s.wordAt (s.sp + 12)) with
    | none => .error (.refused .undefinedContinuation) s
    | some k => frame7Flow (s.longAt (s.sp + 2)) (s.longAt (s.sp + 8)) s.lastWords k (s.popped 60) := by
  have hword (a : Long) : memRead (rteAccess s.sr a .word) s = .ok ((s.wordAt a).setWidth 32) s :=
    memRead_plain (sz := .word) h rfl
  have hlong (a : Long) : memRead (rteAccess s.sr a .long) s = .ok (s.longAt a) s := memRead_plain (sz := .long) h rfl
  have hssw : ((s.wordAt (addrPlus s.sp 12)).setWidth 32).setWidth 16 = s.wordAt (s.sp + 12) := by
    rw [BitVec.setWidth_setWidth_of_le _ (by decide), BitVec.setWidth_eq]
    rfl
  rw [rteLoop_access h hf]
  unfold rteFrame7
  simp only [bind_eq, fetch_eq, hword, hlong, hssw]
  cases frame7Of (s.wordAt (s.sp + 12)) with
  | none => rfl
  | some k =>
    have hpop := popFrame_plain s 60
    simp only [bind_eq, hpop]
    cases k <;> rfl

theorem rteLoop_of_bits {k : Frame7} (hk : frame7Of (s.wordAt (s.sp + 12)) = some k) :
    rteLoop s.pc rteFuel s =
      frame7Flow (s.longAt (s.sp + 2)) (s.longAt (s.sp + 8)) s.lastWords k (s.popped 60) := by
  obtain ⟨n, hn⟩ := rteFuel_eq
  rw [hn, rteLoop_frame7 h hf, hk]

end access

theorem postVectors_mem (k : Byte) : postVectors.getD (k.toNat % 6) 49 ∈ [49, 51, 52, 53, 54, (55 : Byte)] := by
  have hlt : k.toNat % 6 < 6 := Nat.mod_lt _ (by decide)
  have hall : ∀ i < 6, postVectors.getD i 49 ∈ [49, 51, 52, 53, 54, (55 : Byte)] := by decide
  exact hall _ hlt

theorem popped_fpu (s : State) (n : Long) : (s.popped n).fpu = s.fpu := by simp [State.popped, State.setSp]
theorem popped_freeCount (s : State) (n : Long) : (s.popped n).freeCount = s.freeCount := by simp [State.popped, State.setSp]

/-- Settles O18: the special status word names the continuation, and the frame is popped before it goes on. -/
theorem rteAccessError : Obligations.RteAccessError := by
  unfold Obligations.RteAccessError
  intro s h hs hf image pc ea bits t place goes going
  have hkind {k : Frame7} (b : BitVec 4) (hb : bits = b)
      (hk : (match b.toNat with
        | 0 => some .plain
        | 1 => some .movem
        | 2 => some .trace
        | 4 | 6 => some .unimp
        | 8 | 10 => some .post
        | _ => none) = some k) :
      rteLoop s.pc rteFuel s = frame7Flow pc ea place k t := by
    refine rteLoop_of_bits h hf ?_
    rw [frame7Of_eq, show (s.wordAt (s.sp + 12)).extractLsb' 12 4 = b from hb]
    exact hk
  have hgoing {u : State} {e : Exc} (hr : rteLoop s.pc rteFuel s = .error (.exc e) u) :
      exec .rte s = .next (u.takeException s.pc s.regs e) := exec_rte_of_exc hs hr
  refine ⟨fun hb => ?_, fun hb => ?_, fun hb => ?_, fun hb => ?_, fun hb => ⟨fun p hp => ?_, fun hp => ?_⟩, fun hb => ?_⟩
  · exact exec_rte_of_jump hs (hkind 0 hb rfl)
  · exact exec_rte_of_jump hs (hkind 1 hb rfl)
  · exact hgoing (hkind 2 hb rfl)
  · rcases hb with hb | hb
    · exact hgoing (hkind 4 hb rfl)
    · exact hgoing (hkind 6 hb rfl)
  · have hpost : rteLoop s.pc rteFuel s = frame7Flow pc ea place .post t := by
      rcases hb with hb | hb
      · exact hkind 8 hb rfl
      · exact hkind 10 hb rfl
    refine hgoing (hpost.trans ?_)
    have hp' : t.fpu.pending = some p := by rw [← hp]; exact congrArg Fpu.pending (popped_fpu s 60)
    simp only [frame7Flow, postVector, bind_eq, fetch_eq, hp', pure_eq, raise_eq]
  · have hpost : rteLoop s.pc rteFuel s = frame7Flow pc ea place .post t := by
      rcases hb with hb | hb
      · exact hkind 8 hb rfl
      · exact hkind 10 hb rfl
    have hp' : t.fpu.pending = none := by rw [← hp]; exact congrArg Fpu.pending (popped_fpu s 60)
    have hc : t.freeCount = s.freeCount := popped_freeCount s 60
    refine ⟨_, postVectors_mem (Config.freeByte s.freeCount), hgoing (hpost.trans ?_)⟩
    simp only [frame7Flow, postVector, bind_eq, fetch_eq, hp', draw_eq, hc, pure_eq, raise_eq]
  · obtain ⟨n, hn⟩ := rteFuel_eq
    refine exec_rte_of_refused hs (t := s) ?_
    rw [hn, rteLoop_frame7 h hf, frame7Of_none hb]

end Sys2Proof.Machine
end

