-- ==== Sys2Proof/Proofs/Undo.lean ====
section
/-!
SUPPORT. What a state reads of words that have been stored, and how RTE undoes an exception and an interrupt (60_exceptions.md
R400, R445; 41_system_instructions.md R200).
-/
namespace Sys2Proof

/-! ### Bytes and words -/

theorem word_of_bytes (w : Word) : field w 8 8 ++ field w 0 8 = w := by
  have h : field w 8 8 ++ field w 0 8 = w.extractLsb' 0 16 := BitVec.extractLsb'_append_extractLsb'_eq_extractLsb' rfl
  rw [h, BitVec.extractLsb'_eq_self]

theorem bytesOfWords_getElem {ws : List Word} {i : Nat} (h : i < ws.length) :
    (bytesOfWords ws)[2 * i]? = some (field ws[i] 8 8) ∧ (bytesOfWords ws)[2 * i + 1]? = some (field ws[i] 0 8) := by
  induction ws generalizing i with
  | nil => exact absurd h (Nat.not_lt_zero i)
  | cons w ws ih =>
    cases i with
    | zero => exact ⟨rfl, rfl⟩
    | succ i => exact ih (Nat.lt_of_succ_lt_succ h)

end Sys2Proof

namespace Sys2Proof.Machine

/-- The long word at an address is its two words. -/
theorem longAt_words (s : State) (a : Long) : s.longAt a = s.wordAt a ++ s.wordAt (a + 2) := by
  apply BitVec.eq_of_toNat_eq
  have h : (s.wordAt a ++ s.wordAt (a + 2)).toNat = (s.wordAt a).toNat * 2 ^ 16 + (s.wordAt (a + 2)).toNat := toNat_append _ _
  rw [h, longAt_toNat, wordAt_toNat, wordAt_toNat, BitVec.add_assoc, show (2 : Long) + 1 = 3 from rfl]
  ring

theorem long_of_words (v : Long) : v.extractLsb' 16 16 ++ v.extractLsb' 0 16 = v := by
  have h : v.extractLsb' 16 16 ++ v.extractLsb' 0 16 = v.extractLsb' 0 32 :=
    BitVec.extractLsb'_append_extractLsb'_eq_extractLsb' rfl
  rw [h, BitVec.extractLsb'_eq_self]

/-- A word that was stored is read. -/
theorem Stored.wordAt_eq {s t : State} {a : Long} {ws : List Word} (h : Stored s t a (bytesOfWords ws)) {i : Nat}
    (hi : i < ws.length) (hn : ws.length ≤ 2 ^ 31) : t.wordAt (a + BitVec.ofNat 32 (2 * i)) = ws[i] := by
  have hlen : (bytesOfWords ws).length ≤ 2 ^ 32 := by
    rw [bytesOfWords_length]
    omega
  have hbyte {k : Nat} {b : Byte} (hk : k < 2 * ws.length) (hb : (bytesOfWords ws)[k]? = some b) :
      t.byteAt (a + BitVec.ofNat 32 k) = b := by
    have hk' : k < (bytesOfWords ws).length := by rwa [bytesOfWords_length]
    rw [h.byteAt_eq hk' hlen]
    exact Option.some.inj ((List.getElem?_eq_getElem hk').symm.trans hb)
  obtain ⟨h0, h1⟩ := bytesOfWords_getElem hi
  have hnext : a + BitVec.ofNat 32 (2 * i) + 1 = a + BitVec.ofNat 32 (2 * i + 1) := by
    rw [BitVec.add_assoc, BitVec.ofNat_add]
    rfl
  rw [State.wordAt, hnext, hbyte (by omega) h0, hbyte (by omega) h1, word_of_bytes]

/-- The four words that every frame begins with are read back. -/
theorem stored_frameHead {s t : State} {a : Long} {image : Word} {pc : Long} {w : Word} {rest : List Word}
    (h : Stored s t a (bytesOfWords ([image] ++ longWords pc ++ [w] ++ rest))) (hn : rest.length < 2 ^ 30) :
    t.wordAt a = image ∧ t.longAt (a + 2) = pc ∧ t.wordAt (a + 6) = w := by
  have hlen : ([image] ++ longWords pc ++ [w] ++ rest).length ≤ 2 ^ 31 := by
    simp only [List.length_append, List.length_cons, List.length_nil, longWords]
    omega
  have hword (i : Nat) (hi : i < 4) := h.wordAt_eq (i := i) (by simp [longWords]; omega) hlen
  have h0 : t.wordAt a = image := by simpa using hword 0 (by decide)
  have h1 : t.wordAt (a + 2) = pc.extractLsb' 16 16 := hword 1 (by decide)
  have h2 : t.wordAt (a + 4) = pc.extractLsb' 0 16 := hword 2 (by decide)
  have h3 : t.wordAt (a + 6) = w := hword 3 (by decide)
  refine ⟨h0, ?_, h3⟩
  rw [longAt_words, BitVec.add_assoc, show (2 : Long) + 2 = 4 from rfl, h1, h2, long_of_words]

theorem format_of_formatWord (fmt : BitVec 4) (v : Byte) : (fmt ++ 0#2 ++ v ++ 0#2 : Word).extractLsb' 12 4 = fmt :=
  ((BitVec.extractLsb'_append_eq_of_le (by decide)).trans (BitVec.extractLsb'_append_eq_of_le (by decide))).trans
    BitVec.extractLsb'_append_eq_left

/-! ### The record of flow changes -/

/-- A change of flow recorded twice is recorded once. -/
theorem flowChanged_idem {s : State} (h : Memory.wf s.modified) : s.flowChanged.flowChanged = s.flowChanged := by
  have hwf : Memory.wf s.flowChanged.modified := State.flowChanged_wf h
  have hbyte : ∀ b : Byte, afterAct codeFlow (afterAct codeFlow b) = afterAct codeFlow b := by decide
  have hm : s.flowChanged.flowChanged.modified = s.flowChanged.modified := by
    refine Memory.ext (State.flowChanged_wf hwf) hwf fun a => ?_
    unfold State.flowChanged at hwf ⊢
    rw [State.recordAct_read hwf, State.recordAct_read h, if_pos rfl, if_pos rfl, hbyte]
  calc s.flowChanged.flowChanged
    _ = { s.flowChanged with modified := s.flowChanged.flowChanged.modified } := rfl
    _ = s.flowChanged := by rw [hm]

/-! ### The state after RTE -/

/-- A state that differs from another only where an exception and RTE leave it different. -/
def Undone (s t : State) (sr : Word) (irq : Irq) (u : State) : Prop :=
  u = { s with mem := t.mem, modified := t.modified, sr := sr, irq := irq, run := .running, pc := u.pc,
               tracePending := u.tracePending }

/-- RTE's jump from a handler, where T1 and T0 are clear and a change of flow has just been recorded. -/
theorem jumped_of_undone {s t u : State} {sr : Word} {irq : Irq} (h : Undone s t sr irq u) (pc : Long)
    (ht : t.sr &&& 0xC000 = 0) (hf : t.flowChanged = t) :
    t.jumped pc u = { s with mem := t.mem, modified := t.modified, sr := sr, irq := irq, run := .running, pc := pc,
                             tracePending := false } := by
  have hbit {k : Nat} (hk : (0xC000 : Word).getLsbD k = true) : t.sr.getLsbD k = false := by
    have hb : (t.sr &&& 0xC000).getLsbD k = false := by rw [ht]; exact BitVec.getLsbD_zero
    rw [BitVec.getLsbD_and, hk, Bool.and_true] at hb
    exact hb
  have htrace : traceApplies t.sr (.jump pc) = false := by
    simp only [traceApplies, srT1, srT0, hbit (k := 15) (by decide), hbit (k := 14) (by decide)]
    rfl
  have hmod : t.flowChanged.modified = t.modified := congrArg State.modified hf
  unfold State.jumped
  rw [h, htrace]
  calc State.flowChanged _
    _ = { s with mem := t.mem, modified := t.flowChanged.modified, sr := sr, irq := irq, run := .running, pc := pc,
                 tracePending := false } := rfl
    _ = _ := by rw [hmod]

/-! ### Exceptions -/

theorem srS_enterSupervisor (sr : Word) : srS (enterSupervisor sr) = true := by simp [srS, enterSupervisor]

theorem enterSupervisor_trace (sr : Word) : enterSupervisor sr &&& 0xC000 = 0 := by
  unfold enterSupervisor
  rw [BitVec.and_assoc, show (0x3FFF : Word) &&& 0xC000 = 0#16 by decide, BitVec.and_zero]
  rfl

section entered
variable {s : State} (e : Exc) (he : e.inPlace = none) (mem modified : List Host.Cell)

include he in
theorem place_none : e.place s = (activeStack (enterSupervisor s.sr),
    s.getStack (activeStack (enterSupervisor s.sr)) - BitVec.ofNat 32 (2 * (frameWords 0 e).length), s.sr) := by
  unfold Exc.place
  rw [he, activeStack_enter]
  rfl

include he in
/-- The frame popped off a handler's stack: the state that was interrupted. -/
theorem entered_popped {n : Long} (hn : BitVec.ofNat 32 (2 * (frameWords 0 e).length) = n) :
    let t := s.entered { s with mem := mem, modified := modified } e
    t.sp = (e.place s).2.1 ∧ Undone s t (t.wordAt (e.place s).2.1 &&& 0xF71F) s.irq (t.popped n) := by
  intro t
  have hk : activeStack t.sr = (e.place s).1 := by rw [place_none e he]; rfl
  have hsp : t.sp = (e.place s).2.1 := by
    unfold State.sp
    rw [hk]
    exact State.getStack_setStack _ _ _
  refine ⟨hsp, ?_⟩
  have hback : (e.place s).2.1 + n = s.getStack (e.place s).1 := by
    rw [place_none e he, ← hn, BitVec.sub_add_cancel]
  unfold Undone State.popped State.setSp
  rw [hk, hsp, hback]
  generalize t.wordAt (e.place s).2.1 &&& 0xF71F = sr
  have ht : t = s.entered { s with mem := mem, modified := modified } e := rfl
  unfold State.entered at ht
  generalize (e.place s).2.1 = a at ht
  generalize (e.place s).1 = k at ht ⊢
  rw [ht]
  cases k <;> rfl

end entered

/-- What a state reads depends on its memory. -/
theorem wordAt_of_mem {s t : State} (h : t.mem = s.mem) (a : Long) : t.wordAt a = s.wordAt a := by
  simp only [State.wordAt, State.byteAt, h]

theorem longAt_of_mem {s t : State} (h : t.mem = s.mem) (a : Long) : t.longAt a = s.longAt a := by
  simp only [State.longAt, State.byteAt, h]

theorem entered_mem (s m : State) (e : Exc) : (s.entered m e).mem = m.mem := by simp [State.entered]

theorem entered_flowChanged {s m : State} (h : m.memOk) (e : Exc) : (s.entered m e).flowChanged = s.entered m e :=
  flowChanged_idem (by simpa using h.2)

/-- The format of an exception's frame, as a number. -/
def Format.code : Format → BitVec 4
  | .zero => 0
  | .two _ => 2
  | .three _ => 3

theorem Format.code_cases (f : Format) : f.code = 0 ∨ f.code = 2 ∨ f.code = 3 := by cases f <;> simp [Format.code]

/-- The words of a frame, the first four apart. -/
theorem frameWords_head (sr : Word) (e : Exc) : ∃ rest, rest.length ≤ 2 ∧
    frameWords sr e = [sr] ++ longWords e.stackedPc ++ [e.format.code ++ 0#2 ++ e.vector ++ 0#2] ++ rest ∧
    BitVec.ofNat 32 (2 * (frameWords 0 e).length) = popBytes e.format.code := by
  unfold frameWords
  cases e.format with
  | zero => exact ⟨[], by decide, rfl, rfl⟩
  | two a | three a => exact ⟨longWords a, Nat.le_refl 2, rfl, rfl⟩

/-- Settles O19: the frame is read back as it was written, and popped from the pointer that names it. -/
theorem exceptionReturn : Obligations.ExceptionReturn := by
  intro s t u e h hw hplace hpc htry
  obtain ⟨m, hm, hentered⟩ := tryException_plain h hw e
  obtain ⟨rest, hlen, hwords, hpop⟩ := frameWords_head (e.place s).2.2 e
  have ht : t = s.entered { s with mem := m.mem, modified := m.modified } e := by
    rw [← hm.1]
    exact (congrArg Prod.fst (Except.ok.inj (htry.symm.trans hentered)))
  obtain ⟨hsp, hundone⟩ := entered_popped (s := s) e hplace m.mem m.modified hpop
  rw [hwords] at hm
  obtain ⟨himage, hlong, hformat⟩ := stored_frameHead hm (by omega)
  rw [← ht] at hsp hundone
  have hmem : t.mem = m.mem := by rw [ht, entered_mem]
  have hfmt : t.frameFormat = e.format.code := by
    rw [State.frameFormat, hsp, wordAt_of_mem hmem, hformat, format_of_formatWord]
  have hplain : t.plain := by
    rw [ht]
    exact plain_of_eq h (by simp [State.entered]) (by simp [State.entered]) (by simp [State.entered])
  have hsr : t.sr = enterSupervisor s.sr := by rw [ht]; rfl
  have hjump := exec_rte_of_jump (s := t) (by rw [hsr, srS_enterSupervisor]) (by
    obtain ⟨n, hn⟩ := rteFuel_eq
    rw [hn]
    exact rteLoop_last hplain (by rw [hfmt]; exact e.format.code_cases) t.pc _)
  have hflow : t.flowChanged = t := by
    rw [ht, entered_flowChanged]
    exact hm.2.1
  rw [hsp, longAt_of_mem hmem, hlong, hfmt] at hjump
  rw [hjump.1 hpc, jumped_of_undone hundone _ (by rw [hsr, enterSupervisor_trace]) hflow, wordAt_of_mem hmem, himage,
    place_none e hplace]

/-! ### Interrupts -/

/-- A word that no byte stored meets. -/
theorem Stored.wordAt_of_not {s t : State} {a x : Long} {bs : List Byte} (h : Stored s t a bs)
    (h0 : bs.length ≤ (x - a).toNat) (h1 : bs.length ≤ (x + 1 - a).toNat) : t.wordAt x = s.wordAt x := by
  rw [State.wordAt, State.wordAt, h.byteAt_of_not h0, h.byteAt_of_not h1]

/-- Two frames of eight bytes that do not meet: the second leaves the words of the first. -/
theorem Stored.wordAt_of_apart {s t : State} {a b : Long} {bs : List Byte} (h : Stored s t (b - 8) bs) (hbs : bs.length = 8)
    (hab : 8 ≤ (a - b).toNat) (hba : 8 ≤ (b - a).toNat) {k : Nat} (hk : k < 7) :
    t.wordAt (a - 8 + BitVec.ofNat 32 k) = s.wordAt (a - 8 + BitVec.ofNat 32 k) := by
  have hdist (j : Nat) (hj : j < 8) : bs.length ≤ (a - 8 + BitVec.ofNat 32 j - (b - 8)).toNat := by
    rw [hbs]
    rw [BitVec.toNat_sub] at hab hba
    have ha := a.isLt
    have hb := b.isLt
    simp only [BitVec.toNat_sub, BitVec.toNat_add, BitVec.toNat_ofNat, show (8 : Long).toNat = 8 from rfl]
    omega
  refine h.wordAt_of_not (hdist k (by omega)) ?_
  rw [BitVec.add_assoc, show BitVec.ofNat 32 k + 1 = BitVec.ofNat 32 (k + 1) by rw [BitVec.ofNat_add]; rfl]
  exact hdist (k + 1) (by omega)

/-- A frame of eight bytes is still read after another that does not meet it. -/
theorem stored_frameHead_kept {s m t : State} {a b : Long} {image w : Word} {pc : Long} {bs : List Byte}
    (h : Stored s m (a - 8) (bytesOfWords ([image] ++ longWords pc ++ [w]))) (h' : Stored m t (b - 8) bs) (hbs : bs.length = 8)
    (hab : 8 ≤ (a - b).toNat) (hba : 8 ≤ (b - a).toNat) :
    t.wordAt (a - 8) = image ∧ t.longAt (a - 8 + 2) = pc ∧ t.wordAt (a - 8 + 6) = w := by
  obtain ⟨himage, hlong, hformat⟩ := stored_frameHead (rest := []) (by rwa [List.append_nil]) (by decide)
  have hkeep {k : Nat} (hk : k < 7) := h'.wordAt_of_apart hbs hab hba hk
  have h0 : t.wordAt (a - 8) = m.wordAt (a - 8) := by simpa using hkeep (k := 0) (by decide)
  have h2 : t.wordAt (a - 8 + 2) = m.wordAt (a - 8 + 2) := hkeep (k := 2) (by decide)
  have h4 : t.wordAt (a - 8 + 2 + 2) = m.wordAt (a - 8 + 2 + 2) := by
    rw [BitVec.add_assoc]
    exact hkeep (k := 4) (by decide)
  exact ⟨h0.trans himage, by rw [longAt_words, h2, h4, ← longAt_words, hlong], (hkeep (k := 6) (by decide)).trans hformat⟩

theorem interrupted_sr_facts (sr : Word) (level : BitVec 3) :
    activeStack (interruptSr sr level &&& 0xEFFF) = .isp ∧ srS (interruptSr sr level &&& 0xEFFF) = true ∧
      (interruptSr sr level &&& 0xEFFF) &&& 0xC000 = 0 := by
  have hs : srS (interruptSr sr level &&& 0xEFFF) = true := by
    rw [interruptSr_eq]
    simp [srS]
  have hm : srM (interruptSr sr level &&& 0xEFFF) = false := by simp [srM]
  have ht : ((sr ||| 0x2000) &&& 0x28FF : Word) &&& 0xC000 = 0 := by
    rw [BitVec.and_assoc, show (0x28FF : Word) &&& 0xC000 = 0#16 by decide, BitVec.and_zero]
    rfl
  have hl : ∀ l : BitVec 3, ((0#5 ++ l ++ 0#8 : Word)) &&& 0xC000 = 0 := by decide
  refine ⟨by rw [activeStack, hs, hm]; rfl, hs, ?_⟩
  rw [interruptSr_eq, BitVec.and_or_distrib_right, ht, hl]
  rfl

/-- The handler of an interrupt, once its frames are in memory. -/
def State.inHandler (s : State) (level : BitVec 3) (regs : Regs) (pc : Long) (mem modified : List Host.Cell) : State :=
  ({ s.interrupted level with regs := regs, mem := mem, modified := modified, pc := pc, tracePending := false,
                              run := .running } : State).flowChanged

/-- What the acknowledgement of a level 7 interrupt leaves of the interrupt state. -/
def State.acknowledged (s : State) (level : BitVec 3) : Irq := { s.irq with nmiLatch := s.irq.nmiLatch && level != 7 }

/-- The throwaway frame's SR selects the master stack. -/
theorem activeStack_throwaway {sr : Word} (h : srM sr = true) : activeStack ((sr ||| 0x2000) &&& 0xF71F) = .msp := by
  have hs : srS ((sr ||| 0x2000) &&& 0xF71F) = true := by simp [srS]
  have hm : srM ((sr ||| 0x2000) &&& 0xF71F) = true := by
    unfold srM at h ⊢
    rw [BitVec.getLsbD_and, BitVec.getLsbD_or, h]
    decide
  rw [activeStack, hs, hm]
  rfl

section handler
variable (s : State) (level : BitVec 3) (pc : Long) (mem modified : List Host.Cell)

theorem inHandler_sr (regs : Regs) : (s.inHandler level regs pc mem modified).sr = interruptSr s.sr level &&& 0xEFFF := rfl

theorem inHandler_sp (regs : Regs) : (s.inHandler level regs pc mem modified).sp = regs.isp := by
  unfold State.sp
  rw [inHandler_sr, (interrupted_sr_facts s.sr level).1]
  rfl

/-- A frame popped off the interrupt stack. -/
theorem inHandler_popped (regs : Regs) : (s.inHandler level regs pc mem modified).popped 8 =
    { s.inHandler level { regs with isp := regs.isp + 8 } pc mem modified with
      sr := (s.inHandler level regs pc mem modified).wordAt regs.isp &&& 0xF71F } := by
  unfold State.popped State.setSp
  rw [inHandler_sp, inHandler_sr, (interrupted_sr_facts s.sr level).1]
  generalize (s.inHandler level regs pc mem modified).wordAt regs.isp &&& 0xF71F = sr
  rfl

theorem inHandler_plain (h : s.plain) (regs : Regs) : (s.inHandler level regs pc mem modified).plain := plain_of_eq h rfl rfl rfl

theorem inHandler_flowChanged (h : Memory.wf modified) (regs : Regs) :
    (s.inHandler level regs pc mem modified).flowChanged = s.inHandler level regs pc mem modified := flowChanged_idem h

end handler

/-- Settles O20: one frame is popped, or the throwaway frame and then the one on the master stack. -/
theorem interruptReturn : Obligations.InterruptReturn := by
  intro s t u level vector h hw hpc happart htry
  obtain ⟨-, hsup, htrace⟩ := interrupted_sr_facts s.sr level
  have hplain : (s.interrupted level).plain := plain_of_eq h rfl rfl rfl
  have hw0 : (s.interrupted level).memOk := hw
  obtain ⟨n, hn⟩ := rteFuel_eq
  cases hm : srM s.sr with
  | false =>
    have hstored := stored_frameBelow hw0 s .isp s.sr s.pc 0 vector
    have hentered := (tryInterrupt_one hm level vector).trans (attempt_frame hplain _ _)
    rw [frameBelow_head_addr] at hentered
    generalize framesWrites [s.frameBelow .isp _] = ws at hstored hentered
    generalize hm1 : (s.interrupted level).writeBytes ws = m at hstored
    have ht : t = s.inHandler level { s.regs with isp := s.regs.isp - 8 }
        (m.longAt (s.ctl.vbr + 4 * vector.setWidth 32)) m.mem m.modified := by
      rw [← hm1]
      exact congrArg Prod.fst (Except.ok.inj (htry.symm.trans hentered))
    generalize m.longAt (s.ctl.vbr + 4 * vector.setWidth 32) = pc at ht
    have hmem : t.mem = m.mem := by rw [ht]; rfl
    have hsp : t.sp = s.regs.isp - 8 := by rw [ht, inHandler_sp]
    obtain ⟨himage, hlong, hformat⟩ := stored_frameHead (rest := []) (by rwa [List.append_nil]) (by decide)
    have hfmt : t.frameFormat = 0 := by
      rw [State.frameFormat, hsp, wordAt_of_mem hmem]
      exact (congrArg _ hformat).trans (format_of_formatWord _ _)
    have hjump := (exec_rte_of_jump (s := t) (by rw [ht]; exact hsup) (by
      rw [hn]
      exact rteLoop_last (by rw [ht]; exact inHandler_plain _ _ _ _ _ h _) (.inl hfmt) t.pc _)).1
    rw [hsp, longAt_of_mem hmem, show m.longAt (s.regs.isp - 8 + 2) = s.pc from hlong] at hjump
    have hpop : t.popped 8 = { s.inHandler level s.regs pc m.mem m.modified with sr := s.sr &&& 0xF71F } := by
      rw [ht, inHandler_popped, ← ht, BitVec.sub_add_cancel, wordAt_of_mem hmem,
        show m.wordAt (s.regs.isp - 8) = s.sr from himage]
    rw [hjump hpc, hfmt]
    refine congrArg Host.Outcome.next (jumped_of_undone (irq := s.acknowledged level) ?_ _ (by rw [ht]; exact htrace)
      (by rw [ht]; exact inHandler_flowChanged _ _ _ _ _ hstored.2.1.2 _))
    rw [show popBytes 0 = 8 from rfl, hpop, ht]
    rfl
  | true =>
    obtain ⟨happart1, happart2⟩ := happart hm
    have hstored1 := stored_frameBelow hw0 s .msp s.sr s.pc 0 vector
    have hentered := (tryInterrupt_two hm level vector).trans (attempt_frames hplain _ _ _)
    have hstored2 := stored_frameBelow hstored1.2.1 s .isp (s.sr ||| 0x2000) s.pc 1 vector
    rw [frameBelow_head_addr, frameBelow_head_addr] at hentered
    generalize framesWrites [s.frameBelow .msp _] = ws at hstored1 hstored2 hentered
    generalize framesWrites [s.frameBelow .isp _] = vs at hstored2 hentered
    generalize hm2 : ((s.interrupted level).writeBytes ws).writeBytes vs = m at hstored2
    have ht : t = s.inHandler level { s.regs with msp := s.regs.msp - 8, isp := s.regs.isp - 8 }
        (m.longAt (s.ctl.vbr + 4 * vector.setWidth 32)) m.mem m.modified := by
      rw [← hm2]
      exact congrArg Prod.fst (Except.ok.inj (htry.symm.trans hentered))
    generalize m.longAt (s.ctl.vbr + 4 * vector.setWidth 32) = pc at ht
    have hmem : t.mem = m.mem := by rw [ht]; rfl
    have hsp : t.sp = s.regs.isp - 8 := by rw [ht, inHandler_sp]
    obtain ⟨himage1, -, hformat1⟩ := stored_frameHead (rest := []) (by rwa [List.append_nil]) (by decide)
    have hfmt1 : t.frameFormat = 1 := by
      rw [State.frameFormat, hsp, wordAt_of_mem hmem]
      exact (congrArg _ hformat1).trans (format_of_formatWord _ _)
    have hv : t.popped 8 = { s.inHandler level { s.regs with msp := s.regs.msp - 8 } pc m.mem m.modified with
        sr := (s.sr ||| 0x2000) &&& 0xF71F } := by
      rw [ht, inHandler_popped, ← ht, BitVec.sub_add_cancel, wordAt_of_mem hmem,
        show m.wordAt (s.regs.isp - 8) = s.sr ||| 0x2000 from himage1]
    have hact : activeStack ((s.sr ||| 0x2000) &&& 0xF71F) = .msp := activeStack_throwaway hm
    have hsp2 : (t.popped 8).sp = s.regs.msp - 8 := by
      rw [hv, State.sp, hact]
      rfl
    have hmem2 : (t.popped 8).mem = m.mem := by rw [hv]; rfl
    obtain ⟨himage, hlong, hformat⟩ := stored_frameHead_kept hstored1 hstored2 rfl happart1 happart2
    have hfmt2 : (t.popped 8).frameFormat = 0 := by
      rw [State.frameFormat, hsp2, wordAt_of_mem hmem2]
      exact (congrArg _ hformat).trans (format_of_formatWord _ _)
    have hplain1 : t.plain := by rw [ht]; exact inHandler_plain _ _ _ _ _ h _
    have hjump := (exec_rte_of_jump (s := t) (by rw [ht]; exact hsup) (by
      rw [hn, rteLoop_throwaway hplain1 hfmt1]
      exact rteLoop_last (popped_plain hplain1 8) (.inl hfmt2) t.pc n)).1
    rw [hsp2, longAt_of_mem hmem2, show m.longAt (s.regs.msp - 8 + 2) = s.pc from hlong] at hjump
    have hpop : (t.popped 8).popped 8 = { s.inHandler level s.regs pc m.mem m.modified with sr := s.sr &&& 0xF71F } := by
      rw [State.popped, State.setSp, hsp2, wordAt_of_mem hmem2, show m.wordAt (s.regs.msp - 8) = s.sr from himage, hv, hact,
        BitVec.sub_add_cancel]
      rfl
    rw [hjump hpc, hfmt2]
    refine congrArg Host.Outcome.next (jumped_of_undone (irq := s.acknowledged level) ?_ _ (by rw [ht]; exact htrace)
      (by rw [ht]; exact inHandler_flowChanged _ _ _ _ _ hstored2.2.1.2 _))
    rw [show popBytes 0 = 8 from rfl, hpop, ht]
    rfl

end Sys2Proof.Machine
end

