-- ==== Sys2Proof/Proofs/Operands.lean ====
section
/-!
SUPPORT. Accesses to memory (20_memory.md R85, R86, R98, R100), the twelve addressing modes and the operands read and written
through them (30_encoding.md R140, R141).
-/
namespace Sys2Proof.Machine

/-! ### Values stored and read back -/

/-- The operand at an address once it has been stored. -/
theorem Stored.valueAt_eq {s t : State} {a : Long} {sz : Size} {v : Long} (h : Stored s t a (operandBytes sz v)) :
    t.valueAt a sz = zextLong sz v := by
  cases sz with
  | byte =>
    have hb : t.byteAt a = v.setWidth 8 := by simpa [operandBytes] using h.byteAt_eq (k := 0)
    simp only [State.valueAt, hb, zextLong]
  | word =>
    have hw : t.wordAt a = v.setWidth 16 := by simpa using Stored.wordAt_eq h (i := 0)
    simp only [State.valueAt, hw, zextLong]
  | long =>
    have hword (i : Nat) (hi : i < (longWords v).length) := Stored.wordAt_eq (ws := longWords v) h hi (by simp [longWords])
    have h0 : t.wordAt a = v.extractLsb' 16 16 := by simpa [longWords] using hword 0 Nat.zero_lt_two
    have h1 : t.wordAt (a + 2) = v.extractLsb' 0 16 := hword 1 (Nat.one_lt_two)
    simp only [State.valueAt, longAt_words, h0, h1, long_of_words, zextLong]

/-! ### Faults of the first transfer, and another master between two transfers -/

/-- The first transfer of an access. -/
theorem transfersOf_head (a : Long) (sz : TSize) : ∃ n ts, 0 < n ∧ transfersOf a sz = (0, n) :: ts := by
  unfold transfersOf
  cases sz with
  | byte | line => exact ⟨_, _, by decide, rfl⟩
  | word =>
    dsimp only
    split <;> exact ⟨_, _, by decide, rfl⟩
  | long =>
    dsimp only
    split_ifs <;> exact ⟨_, _, by decide, rfl⟩

/-- A bus error at the first transfer of an access: by a TEA range that covers its address, or by the environment's move. -/
def FirstTea (s : State) (acc : Access) : Prop :=
  (∃ r ∈ s.env.tea, (r.tt = none ∨ r.tt = some acc.tt) ∧ (r.tm = none ∨ r.tm = some acc.tm) ∧
    r.lo.toNat ≤ acc.addr.toNat ∧ acc.addr.toNat ≤ r.hi.toNat ∧ (if acc.write then r.writes else r.reads) = true) ∨
  s.busNow.tea = true

theorem FirstTea.busTea {s : State} {acc : Access} (h : FirstTea s acc) (locked : Bool) {n : Nat} (hn : 0 < n) :
    (s.busNow.tea || (s.busMove locked).busTea acc acc.addr n) = true := by
  rcases h with ⟨r, hr, htt, htm, hlo, hhi, hdir⟩ | hnow
  · rw [Bool.or_eq_true]
    refine .inr (List.any_eq_true.mpr ⟨r, hr, ?_⟩)
    have hmeet : rangesMeet r.lo.toNat r.hi.toNat acc.addr.toNat (acc.addr.toNat + n - 1) = true := by
      simp only [rangesMeet, Bool.and_eq_true, decide_eq_true_eq]
      omega
    simp only [hdir, hmeet, Bool.and_eq_true, Bool.or_eq_true, beq_iff_eq]
    exact ⟨⟨⟨trivial, htt⟩, htm⟩, trivial⟩
  · rw [hnow, Bool.true_or]

theorem transfer_of_firstTea {s : State} {acc : Access} (hoff : s.translationOff = true) (h : FirstTea s acc) {n : Nat} (hn : 0 < n) :
    transfer acc 0 n s =
      .error { acc := acc, atc := false, ma := false, wb := .none, cont := .none } (s.busMove acc.locked) := by
  have hoff' : (s.busMove acc.locked).translationOff = true := hoff
  have htea := h.busTea acc.locked hn
  simp only [transfer, State.translate, hoff', Bool.true_or, if_true, BitVec.add_zero, htea]

theorem overTransfers_of_firstTea {α : Type} {s : State} {acc : Access} (hoff : s.translationOff = true) (h : FirstTea s acc)
    (act : Nat → List Long → BusM (List α)) :
    overTransfers acc act (transfersOf acc.addr acc.size) s =
      .error { acc := acc, atc := false, ma := false, wb := .none, cont := .none } (s.busMove acc.locked) := by
  obtain ⟨n, ts, hn, hts⟩ := transfersOf_head acc.addr acc.size
  rw [hts, overTransfers, bind_eq, transfer_of_firstTea hoff h hn]

/-- A transfer with translation off and no bus error, other masters having moved. -/
theorem transfer_of_quiet {s : State} {acc : Access} (hoff : s.translationOff = true) (htea : s.env.tea = [])
    (hnow : s.busNow.tea = false) (off n : Nat) :
    transfer acc off n s = .ok (acc.addr + BitVec.ofNat 32 off) (s.busMove acc.locked) := by
  have hoff' : (s.busMove acc.locked).translationOff = true := hoff
  have hbus (p : Long) : (s.busMove acc.locked).busTea acc p n = false := by simp [State.busTea, htea]
  simp [transfer, State.translate, hoff', hbus, hnow]

/-- The value of two bytes as a long word. -/
theorem longOfBytes_two (x y : Byte) : longOfBytes [x, y] = 0#16 ++ x ++ y := by
  apply BitVec.eq_of_toNat_eq
  have h1 : (0#16 ++ x ++ y : Long).toNat = _ := toNat_append (0#16 ++ x) y
  have h2 : (0#16 ++ x).toNat = _ := toNat_append 0#16 x
  have := x.isLt
  have := y.isLt
  rw [h1, h2]
  simp only [longOfBytes, valueOfBytes, List.length_cons, List.length_nil, BitVec.toNat_ofNat]
  omega

/-- Settles O21: each clause at the transfers of the access. -/
theorem memoryAccesses : Obligations.MemoryAccesses := by
  refine ⟨fun s acc sz v h hw hsz => ⟨load_plain h hsz, ?_⟩, fun s acc hoff h => ?_, fun s acc ws vs bus hoff htea hbus hsz hodd hlock => ?_⟩
  · obtain ⟨t, ht, hstored⟩ := store_plain h hw hsz v
    refine ⟨t, ht, hstored, ?_⟩
    rw [load_plain (hstored.plain h) hsz, hstored.valueAt_eq]
  · have hover {α : Type} (act : Nat → List Long → BusM (List α)) := overTransfers_of_firstTea hoff h act
    exact ⟨hover _, fun bs => by simp only [storeBytes, withWriteBack, bind_eq, hover]⟩
  · have hts : transfersOf acc.addr acc.size = [(0, 1), (1, 1)] := by rw [hsz, transfersOf, hodd]; rfl
    intro first second
    let s1 : State := { s with mem := first, env := { s.env with bus := { writes := vs, tea := false } :: bus } }
    let s2 : State := { s with mem := second, env := { s.env with bus := bus } }
    have hmove1 : s.busMove false = s1 := by simp [State.busMove, State.busNow, hbus, s1, first]
    have hmove2 : s1.busMove false = s2 := rfl
    have hone : transfer acc 0 1 s = .ok acc.addr s1 := by
      rw [transfer_of_quiet hoff htea (by rw [State.busNow, hbus]; rfl), hlock, hmove1, BitVec.add_zero]
    have htwo : transfer acc 1 1 s1 = .ok (acc.addr + 1) s2 := by
      rw [transfer_of_quiet (s := s1) hoff htea rfl, hlock, hmove2]
      rfl
    have hbytes : loadBytes acc s = .ok [s1.byteAt acc.addr, s2.byteAt (acc.addr + 1)] s2 := by
      rw [loadBytes, hts]
      simp only [overTransfers, bind_eq, hone, htwo, busFetch_eq, pure_eq]
      simp [transferAddrs, State.byteAt]
    rw [load, bind_eq, hbytes]
    exact congrArg (EStateM.Result.ok · s2) (longOfBytes_two _ _)

/-! ### Effective addresses -/

theorem readData_plain {s : State} (h : s.plain) (a : Long) (sz : Size) : readData a sz s = .ok (s.valueAt a sz) s := by
  have hread := memRead_plain (acc := { addr := a, size := .ofSize sz, tt := 0, tm := tmData s.sr, write := false, locked := false })
    h (sz := sz) rfl
  simp only [readData, dataAccess, bind_eq, fetch_eq, hread]

theorem writeData_plain {s : State} (h : s.plain) (hw : s.memOk) (a : Long) (sz : Size) (v : Long) :
    ∃ t, writeData a sz v s = .ok () t ∧ Stored s t a (operandBytes sz v) := by
  obtain ⟨t, ht, hstored⟩ := store_plain (sz := sz) h hw
    (acc := { addr := a, size := .ofSize sz, tt := 0, tm := tmData s.sr, write := true, locked := false }) rfl v
  refine ⟨t, ?_, hstored⟩
  simp only [writeData, dataAccess, bind_eq, fetch_eq, memWrite, access_eq, ht]

/-- An index register scaled by 1, 2, 4 or 8. -/
theorem indexValue_eq (x : IndexReg) (s : State) : indexValue x s =
    (if x.long then s.getR x.reg else ((s.getR x.reg).setWidth 16).signExtend 32) * BitVec.ofNat 32 (2 ^ x.scale.toNat) := by
  have hpow : ∀ k : BitVec 2, BitVec.ofNat 32 (2 ^ k.toNat) = BitVec.twoPow 32 k.toNat := by decide
  rw [indexValue, BitVec.shiftLeft_eq_mul_twoPow, hpow]

/-- The address of an indexed mode where memory is plain (R141). -/
def State.indexed (s : State) (base : Long) : IndexExt → Long
  | .brief x d => base + indexValue x s + d.signExtend 32
  | .full x bs is bd ind =>
    let b := (if bs then 0 else base) + dispValue bd
    let i := if is then 0 else indexValue x s
    match ind with
    | .no => b + i
    | .pre od => s.longAt (b + i) + dispValue od
    | .post od => s.longAt b + i + dispValue od

theorem indexAddr_plain {s : State} (h : s.plain) (base : Long) (x : IndexExt) :
    indexAddr base x s = .ok (s.indexed base x) s := by
  have hread (a : Long) : readData a .long s = .ok (s.longAt a) s := readData_plain h a .long
  cases x with
  | brief i d => rfl
  | full i bs is bd ind =>
    cases is <;> cases ind <;>
      simp only [indexAddr, State.indexed, bind_eq, fetch_eq, pure_eq, hread, Bool.false_eq_true, if_false, if_true]

theorem stepOf_eq (n : Nat) (r : RegNo) : BitVec.ofNat 32 (stepOf n r) = if n = 1 ∧ r = 7 then 2 else BitVec.ofNat 32 n := by
  unfold stepOf
  split <;> rfl

/-- Settles O22, mode by mode. -/
theorem effectiveAddresses : Obligations.EffectiveAddresses := by
  intro s ea n ext h step disp index indexed
  have hindexed (base : Long) (x : IndexExt) : s.indexed base x = indexed base x := by
    have hdisp (d : Disp) : dispValue d = disp d := by cases d <;> rfl
    cases x with
    | brief x d => simp only [State.indexed, indexValue_eq, indexed, index]
    | full x bs is bd ind => cases ind <;> simp only [State.indexed, indexValue_eq, indexed, index, hdisp]
  cases ea with
  | dn r | an r | ind r | disp r d | absW a | absL a | pcDisp d | imm ws => rfl
  | postInc r | preDec r => simp only [locate, bind_eq, fetch_eq, pure_eq, addrPlus, stepOf_eq, step]
  | index r x | pcIndex x => simp only [locate, bind_eq, fetch_eq, pure_eq, indexAddr_plain h, hindexed]

/-! ### Operands -/

theorem commit_eq (l : Located) (s : State) : commit l s = .ok () (applyStep l.step s) := by
  obtain ⟨place, step⟩ := l
  cases step <;> rfl

theorem readOperand_of_locate {ea : Ea} {sz : Size} {ext v : Long} {l : Located} {s s1 s2 : State}
    (hl : locate ea sz.bytes ext s = .ok l s1) (hr : readPlace sz l.place s1 = .ok v s2) :
    readOperand ea sz ext s = .ok v (applyStep l.step s2) := by
  simp only [readOperand, bind_eq, hl, hr, commit_eq, pure_eq]

theorem writeOperand_of_locate {ea : Ea} {sz : Size} {ext v : Long} {l : Located} {s s1 s2 : State}
    (hl : locate ea sz.bytes ext s = .ok l s1) (hr : writePlace sz l.place v s1 = .ok () s2) :
    writeOperand ea sz ext v s = .ok () (applyStep l.step s2) := by
  simp only [writeOperand, bind_eq, hl, hr, commit_eq]

/-- The low bits of a register replaced, as a mask. -/
theorem mergeLow_eq (sz : Size) (old new : Long) : mergeLow sz old new = match sz with
    | .byte => (old &&& 0xFFFFFF00) ||| (new &&& 0xFF)
    | .word => (old &&& 0xFFFF0000) ||| (new &&& 0xFFFF)
    | .long => new := by
  cases sz with
  | byte | word =>
    apply BitVec.eq_of_getLsbD_eq
    intro i hi
    simp only [mergeLow, BitVec.getLsbD_append, BitVec.getLsbD_or, BitVec.getLsbD_and, BitVec.getLsbD_extractLsb',
      BitVec.getLsbD_setWidth]
    interval_cases i <;> simp
  | long => rfl

/-- Settles O23, place by place. -/
theorem operandsReadAndWritten : Obligations.OperandsReadAndWritten := by
  intro s ea sz ext v l h hw hl
  obtain ⟨place, step⟩ := l
  cases place with
  | d r =>
    refine ⟨readOperand_of_locate hl rfl, (writeOperand_of_locate hl rfl).trans ?_⟩
    cases sz <;> simp only [State.setDLow, mergeLow_eq]
  | a r =>
    refine ⟨readOperand_of_locate hl rfl, (writeOperand_of_locate hl rfl).trans ?_⟩
    cases sz <;> rfl
  | mem a =>
    obtain ⟨t, ht, hstored⟩ := writeData_plain h hw a sz v
    exact ⟨readOperand_of_locate hl (readData_plain h a sz), t, hstored, writeOperand_of_locate hl ht⟩
  | imm ws => exact readOperand_of_locate hl rfl

end Sys2Proof.Machine
end

