-- ==== Sys2Proof/Proofs/Traps.lean ====
section
/-!
SUPPORT. What finding and reading an operand can change, and the instructions that compare and divide: CHK, CHK2, DIVU, DIVS
(40_trap_instructions.md R164-R167).
-/
namespace Sys2Proof.Machine

/-! ### Reading an operand moves nothing but the bus -/

section reads
variable {R : State → State → Prop} (h : Buses R)
include h

theorem Buses.readData (a : Long) (sz : Size) : Through R (readData a sz) :=
  through_bind h.toRelates (through_fetch h.toRelates _) fun _ => through_memRead h _

theorem Buses.indexAddr (base : Long) (x : IndexExt) : Through R (indexAddr base x) := by
  cases x with
  | brief i d8 => exact through_bind h.toRelates (through_fetch h.toRelates _) fun _ => through_pure h.toRelates _
  | full i bs is bd ind =>
    have hindex : Through R (if is then pure 0 else fetch (indexValue i) : M Long) :=
      through_ite (through_pure h.toRelates _) (through_fetch h.toRelates _)
    cases is <;>
    · refine through_bind h.toRelates hindex fun iv => ?_
      cases ind with
      | no => exact through_pure h.toRelates _
      | pre od | post od => exact through_bind h.toRelates (h.readData _ _) fun _ => through_pure h.toRelates _

theorem Buses.locate (ea : Ea) (n : Nat) (ext : Long) : Through R (locate ea n ext) := by
  cases ea with
  | dn _ | an _ | absW _ | absL _ | pcDisp _ | imm _ => exact through_pure h.toRelates _
  | ind _ | postInc _ | preDec _ | disp _ _ =>
    exact through_bind h.toRelates (through_fetch h.toRelates _) fun _ => through_pure h.toRelates _
  | index _ _ =>
    exact through_bind h.toRelates (through_fetch h.toRelates _) fun _ =>
      through_bind h.toRelates (h.indexAddr _ _) fun _ => through_pure h.toRelates _
  | pcIndex _ => exact through_bind h.toRelates (h.indexAddr _ _) fun _ => through_pure h.toRelates _

theorem Buses.readPlace (sz : Size) (p : Place) : Through R (readPlace sz p) := by
  cases p with
  | d _ | a _ => exact through_fetch h.toRelates _
  | mem _ => exact h.readData _ _
  | imm _ => exact through_pure h.toRelates _

end reads

/-- What a part of an instruction goes through, where it completes. -/
theorem Through.ok {R : State → State → Prop} {ε α : Type} {m : EStateM ε State α} (h : Through R m) {s t : State} {v : α}
    (hm : m s = .ok v t) : R s t := by
  have hr := h s
  rwa [after, hm] at hr

/-- And where it ends early. -/
theorem Through.error {R : State → State → Prop} {ε α : Type} {m : EStateM ε State α} (h : Through R m) {s t : State} {e : ε}
    (hm : m s = .error e t) : R s t := by
  have hr := h s
  rwa [after, hm] at hr

/-- A read operand: found, then read, then its mode's address register written. -/
theorem readOperand_ok {ea : Ea} {sz : Size} {ext v : Long} {s t : State} (h : readOperand ea sz ext s = .ok v t) :
    ∃ l s1 s2, locate ea sz.bytes ext s = .ok l s1 ∧ readPlace sz l.place s1 = .ok v s2 ∧ BusOnly s s2 ∧
      t = applyStep l.step s2 := by
  obtain ⟨l, s1, hl, h⟩ := bind_ok.mp h
  obtain ⟨v', s2, hr, h⟩ := bind_ok.mp h
  rw [bind_eq, commit_eq] at h
  cases h
  exact ⟨l, s1, s2, hl, hr, ((buses_busOnly.locate _ _ _).ok hl).trans ((buses_busOnly.readPlace _ _).ok hr), rfl⟩

theorem setA_eq (r : RegNo) (v : Long) (s : State) : ∃ regs, s.setA r v = { s with regs := regs } ∧ regs.d = s.regs.d := by
  unfold State.setA
  split
  case h_8 => unfold State.setSp State.setStack; split <;> exact ⟨_, rfl, rfl⟩
  all_goals exact ⟨_, rfl, rfl⟩

theorem applyStep_eq (step : Option (RegNo × Long)) (s : State) :
    ∃ regs, applyStep step s = { s with regs := regs } ∧ regs.d = s.regs.d := by
  cases step with
  | none => exact ⟨s.regs, rfl, rfl⟩
  | some x => exact setA_eq x.1 x.2 s

/-- A read operand leaves the data registers, the status register and the program counter. -/
theorem readOperand_keeps {ea : Ea} {sz : Size} {ext v : Long} {s t : State} (h : readOperand ea sz ext s = .ok v t) :
    t.regs.d = s.regs.d ∧ t.sr = s.sr ∧ t.pc = s.pc := by
  obtain ⟨l, s1, s2, -, -, hbus, rfl⟩ := readOperand_ok h
  obtain ⟨regs, hstep, hd⟩ := applyStep_eq l.step s2
  rw [hstep]
  exact ⟨hd.trans (congrArg Regs.d hbus.regs_eq), hbus.sr_eq, hbus.pc_eq⟩

/-! ### The size of a value that is read -/

theorem overTransfers_length {acc : Access} {act : Nat → List Long → BusM (List Byte)}
    (hact : ∀ off as s t (bs : List Byte), act off as s = .ok bs t → bs.length = as.length) {ts : List (Nat × Nat)} {s t : State}
    {bs : List Byte} (h : overTransfers acc act ts s = .ok bs t) : bs.length = (ts.map Prod.snd).sum := by
  induction ts generalizing s bs with
  | nil => cases h; rfl
  | cons x ts ih =>
    obtain ⟨p, s1, -, h⟩ := bind_ok.mp h
    obtain ⟨b, s2, hb, h⟩ := bind_ok.mp h
    obtain ⟨c, s3, hc, h⟩ := bind_ok.mp h
    cases h
    rw [List.length_append, hact _ _ _ _ _ hb, ih hc]
    simp [transferAddrs]

theorem transfersOf_sum (a : Long) (sz : TSize) : ((transfersOf a sz).map Prod.snd).sum = sz.bytes := by
  unfold transfersOf
  cases sz with
  | byte | line => rfl
  | word => dsimp only; split <;> rfl
  | long => dsimp only; split_ifs <;> rfl

theorem loadBytes_length {acc : Access} {s t : State} {bs : List Byte} (h : loadBytes acc s = .ok bs t) :
    bs.length = acc.size.bytes := by
  rw [overTransfers_length _ h, transfersOf_sum]
  intro off as s t bs hb
  cases hb
  simp

theorem valueOfBytes_lt (bs : List Byte) : valueOfBytes bs < 256 ^ bs.length := by
  induction bs with
  | nil => exact Nat.one_pos
  | cons b bs ih =>
    have hb := b.isLt
    have hmul : b.toNat * 256 ^ bs.length ≤ 255 * 256 ^ bs.length := Nat.mul_le_mul_right _ (by omega)
    rw [valueOfBytes, List.length_cons, Nat.pow_succ]
    omega

/-- A long word that fits in an operand size. -/
theorem zextLong_of_lt {sz : Size} {v : Long} (h : v.toNat < 256 ^ sz.bytes) : zextLong sz v = v := by
  cases sz with
  | byte | word =>
    apply BitVec.eq_of_toNat_eq
    simp only [Size.bytes] at h
    simp only [zextLong, BitVec.toNat_setWidth]
    omega
  | long => rfl

theorem zextLong_zextLong (sz : Size) (v : Long) : zextLong sz (zextLong sz v) = zextLong sz v := by
  cases sz with
  | byte | word => simp only [zextLong, BitVec.setWidth_setWidth_of_le _ (Nat.le_refl _), BitVec.setWidth_setWidth_of_le,
      Nat.reduceLeDiff]
  | long => rfl

/-- A load of an operand size is zero-extended. -/
theorem load_zext {acc : Access} {sz : Size} (hs : acc.size = .ofSize sz) {s t : State} {v : Long} (h : load acc s = .ok v t) :
    zextLong sz v = v := by
  obtain ⟨bs, u, hbs, h⟩ := bind_ok.mp h
  cases h
  have hlen : bs.length = sz.bytes := by
    rw [loadBytes_length hbs, hs]
    cases sz <;> rfl
  refine zextLong_of_lt (lt_of_le_of_lt ?_ (hlen ▸ valueOfBytes_lt bs))
  exact Nat.mod_le _ _

/-- So is an operand that is read. -/
theorem readPlace_zext {sz : Size} {p : Place} {s t : State} {v : Long} (h : readPlace sz p s = .ok v t) : zextLong sz v = v := by
  cases p with
  | d r | a r | imm ws =>
    cases h
    exact zextLong_zextLong _ _
  | mem a =>
    simp only [readPlace, readData, dataAccess, bind_eq, fetch_eq, memRead, access_eq] at h
    split at h
    · next hl =>
      cases h
      exact load_zext rfl hl
    · cases h

theorem readOperand_zext {ea : Ea} {sz : Size} {ext v : Long} {s t : State} (h : readOperand ea sz ext s = .ok v t) :
    zextLong sz v = v := by
  obtain ⟨l, s1, s2, -, hr, -, -⟩ := readOperand_ok h
  exact readPlace_zext hr

/-! ### CHK and CHK2 -/

/-- What CHK does once its operand is read: `t n` is the state with the condition codes, N telling which check failed. -/
theorem chk_cases {sz : Size} {ea : Ea} {dn : RegNo} {s s1 : State} {b : Long}
    (h : readOperand ea sz (addrPlus s.pc 2) s = .ok b s1) :
    ∃ (n z v c : Bool) (k : Nat),
      let value := signedOf sz (s.getD dn)
      let t (n : Bool) : State := ({ s1 with freeCount := k } : State).setNzvc n z v c
      let trap (n : Bool) : Host.Outcome State Fault Refusal := .next ((t n).takeException s.pc s.regs
        (trapExc 6 s.pc (s.pc + BitVec.ofNat 32 (2 * eaLength 0 ea))))
      (value < 0 → chk sz ea dn s = trap true) ∧
      (0 ≤ value → signedOf sz b < value → chk sz ea dn s = trap false) ∧
      (0 ≤ value → value ≤ signedOf sz b → chk sz ea dn s = .next (s.goOn (eaLength 0 ea) .seq (t n))) := by
  obtain ⟨hd, -, hpc⟩ := readOperand_keeps h
  have hv : s1.getD dn = s.getD dn := by rw [State.getD, hd, State.getD]
  let k := s1.freeCount
  refine ⟨Config.freeBit k, Config.freeBit (k + 1), Config.freeBit (k + 1 + 1), Config.freeBit (k + 1 + 1 + 1), k + 4, ?_⟩
  refine ⟨fun hneg => ?_, fun hpos hout => ?_, fun hpos hin => ?_⟩
  · refine runInstr_of_exc ?_
    simp only [extAddr, bind_eq, fetch_eq, h, draw_eq, hv, hpc, if_pos hneg, update_eq, raise_eq]
    rfl
  · refine runInstr_of_exc ?_
    simp only [extAddr, bind_eq, fetch_eq, h, draw_eq, hv, hpc, if_neg (not_lt.mpr hpos), if_pos hout, update_eq, raise_eq]
    rfl
  · refine runInstr_of_seq ?_
    simp only [extAddr, bind_eq, fetch_eq, h, draw_eq, hv, if_neg (not_lt.mpr hpos), if_neg (not_lt.mpr hin), update_eq,
      pure_eq]
    rfl

/-- Settles O26: both sizes are the same check. -/
theorem chkChecksBound : Obligations.ChkChecksBound := by
  intro long ea dn s s1 b sz i value h
  cases long with
  | false => exact chk_cases (sz := .word) (dn := dn) h
  | true => exact chk_cases (sz := .long) (dn := dn) h

/-- A value outside its bounds (R165). -/
theorem outOfBounds_cases (lower upper v : Long) (free : Bool) :
    (lower.toInt ≤ v.toInt → v.toInt ≤ upper.toInt → (outOfBounds lower upper v).getD free = false) ∧
    (lower.toInt ≤ upper.toInt → v.toInt < lower.toInt ∨ upper.toInt < v.toInt → (outOfBounds lower upper v).getD free = true) ∧
    (upper.toInt < lower.toInt → lower.toNat ≤ v.toNat → v.toNat ≤ upper.toNat → (outOfBounds lower upper v).getD free = false) ∧
    (upper.toInt < lower.toInt → lower.toNat ≤ upper.toNat → v.toNat < lower.toNat ∨ upper.toNat < v.toNat →
      (outOfBounds lower upper v).getD free = true) := by
  unfold outOfBounds
  refine ⟨fun h1 h2 => ?_, fun h1 h2 => ?_, fun h1 h2 h3 => ?_, fun h1 h2 h3 => ?_⟩
  · rw [if_pos (h1.trans h2), Option.getD_some, decide_eq_false_iff_not]
    omega
  · rw [if_pos h1, Option.getD_some, decide_eq_true h2]
  · rw [if_neg (not_le.mpr h1), if_pos (h2.trans h3), Option.getD_some, decide_eq_false_iff_not]
    omega
  · rw [if_neg (not_le.mpr h1), if_pos h2, Option.getD_some, decide_eq_true h3]

/-- The value that CHK2 compares: the low bits of a data register, an address register whole. -/
def State.chk2Value (s : State) (sz : Size) : Reg → Long
  | .d r => sextLong sz (s.getD r)
  | .a r => s.getA r

/-- CHK2 once both bounds are read: where they have no order C is free. -/
theorem exec_chk2 {sz : Size} {ea : Ea} {rn : Reg} {s s1 s2 s3 : State} {l : Located} {lo hi lower upper value : Long}
    (hl : locate ea sz.bytes (addrPlus s.pc 4) s = .ok l s1) (hlo : readPlace sz l.place s1 = .ok lo s2)
    (hhi : readPlace sz (.mem (addrPlus (placeAddr l.place) sz.bytes)) s2 = .ok hi s3)
    (hlower : lower = sextLong sz lo) (hupper : upper = sextLong sz hi) (hvalue : value = s.chk2Value sz rn) :
    ∃ (n v free : Bool) (k : Nat), ∀ c, c = (outOfBounds lower upper value).getD free →
      let t : State := ({ s3 with freeCount := k } : State).setNzvc n (decide (value = lower ∨ value = upper)) v c
      exec (.chk2 sz ea rn) s =
        if c then .next (t.takeException s.pc s.regs (trapExc 6 s.pc (s.pc + BitVec.ofNat 32 (2 * eaLength 1 ea))))
        else .next (s.goOn (eaLength 1 ea) .seq t) := by
  have hbus : BusOnly s s3 := (((buses_busOnly.locate _ _ _).ok hl).trans ((buses_busOnly.readPlace _ _).ok hlo)).trans
    ((buses_busOnly.readPlace _ _).ok hhi)
  have hvalue' : value = s3.chk2Value sz rn := by
    rw [hvalue]
    obtain ⟨_, _, _, rfl⟩ := hbus
    cases rn <;> rfl
  have hz : (value == lower || value == upper) = decide (value = lower ∨ value = upper) := by
    rw [Bool.decide_or]
    rfl
  let k := s3.freeCount
  refine ⟨Config.freeBit k, Config.freeBit (k + 1), Config.freeBit (k + 1 + 1), k + 3, ?_⟩
  intro c hc t
  have hbody : exec (.chk2 sz ea rn) s = runInstr (eaLength 1 ea) (fun next _ =>
      (if c then raise (trapExc 6 s.pc next) else pure .seq : M Flow) t) s := by
    simp only [t, ← hz, hc]
    unfold exec execChk2 runInstr
    cases rn <;>
      simp only [extAddr, bind_eq, fetch_eq, hl, hlo, hhi, draw_eq, update_eq, hbus.pc_eq, hvalue', hlower, hupper] <;> rfl
  rw [hbody]
  cases c with
  | true => exact runInstr_of_exc rfl
  | false => exact runInstr_of_seq rfl

/-- Settles O27: the value is compared once both bounds are read, and C tells whether the trap is taken. -/
theorem chk2ChecksBounds : Obligations.Chk2ChecksBounds := by
  intro sz ea rn s s1 s2 s3 l lo hi lower upper value hl hlo hhi
  have hvalue : value = s.chk2Value sz rn := by cases rn <;> rfl
  obtain ⟨n, v, free, k, hexec⟩ := exec_chk2 hl hlo hhi (rfl : lower = _) (rfl : upper = _) hvalue
  obtain ⟨h1, h2, h3, h4⟩ := outOfBounds_cases lower upper value free
  have hin (hc : (outOfBounds lower upper value).getD free = false) := (hexec false hc.symm).trans (if_neg Bool.false_ne_true)
  have hout (hc : (outOfBounds lower upper value).getD free = true) := (hexec true hc.symm).trans (if_pos rfl)
  refine ⟨n, v, k, fun ha hb => hin (h1 ha hb), fun ha hb => hout (h2 ha hb), fun ha hb hc => hin (h3 ha hb hc),
    fun ha hb hc => hout (h4 ha hb hc), fun _ _ => ?_⟩
  cases hc : (outOfBounds lower upper value).getD free with
  | false => exact .inl (hin hc)
  | true => exact .inr (hout hc)

/-! ### The divides -/

theorem divideByZero_eq (next : Long) {s s1 : State} (hpc : s1.pc = s.pc) (hsr : s1.sr = s.sr) :
    ∃ n z v k, divideByZero next s1 =
      .error (.exc (trapExc 5 s.pc next)) (({ s1 with freeCount := k } : State).setNzvc n z v (s.sr.getLsbD 0)) := by
  rw [← hpc, ← hsr]
  exact ⟨_, _, _, _, rfl⟩

theorem divideOverflow_eq (s : State) : ∃ n z k, divideOverflow s =
    .ok .seq (({ s with freeCount := k } : State).setNzvc n z true false) :=
  ⟨_, _, _, rfl⟩

/-- Quotient and remainder are those that R166 describes: the remainder smaller than the divisor and with the dividend's sign. -/
theorem tdiv_tmod_of_eq {a b q r : Int} (hb : b ≠ 0) (h : a = q * b + r) (hr : |r| < |b|) (hs : 0 ≤ r * a) :
    a.tdiv b = q ∧ a.tmod b = r := by
  have hnat : (b.natAbs : Int) = |b| := Int.natCast_natAbs b
  have heq : r + b * q = a := by rw [h, Int.mul_comm b q, Int.add_comm]
  obtain ⟨hlo, hhi⟩ := abs_lt.mp hr
  rcases lt_trichotomy a 0 with ha | ha | ha
  · exact (Int.tdiv_tmod_unique' ha.le hb).mpr ⟨heq, by rw [hnat]; exact hlo, by nlinarith⟩
  · have hq : q = 0 := by
      have habs : |q| * |b| < 1 * |b| := by
        rw [← abs_mul, show q * b = -r by omega, abs_neg, one_mul]
        exact hr
      exact Int.abs_lt_one_iff.mp (lt_of_mul_lt_mul_right habs (abs_nonneg b))
    have hr0 : r = 0 := by rw [hq] at h; omega
    rw [ha, hq, hr0]
    simp
  · exact (Int.tdiv_tmod_unique ha.le hb).mpr ⟨heq, by nlinarith, by rw [hnat]; exact hhi⟩

/-- A number that fits in `w` bits, signed or unsigned, is 0 exactly where its bits are. -/
theorem ofInt_eq_zero {w : Nat} {q : Int} (hlo : -2 ^ w < q) (hhi : q < 2 ^ w) :
    (BitVec.ofInt w q == 0) = decide (q = 0) := by
  have hiff : BitVec.ofInt w q = 0 ↔ q = 0 := by
    refine ⟨fun h => ?_, fun h => by rw [h]; rfl⟩
    have hn := congrArg BitVec.toNat h
    rw [BitVec.toNat_ofInt, show (0 : BitVec w).toNat = 0 from rfl] at hn
    have hdvd : (2 ^ w : Int) ∣ q := by
      apply Int.dvd_of_emod_eq_zero
      have hpos : 0 ≤ q % (2 ^ w : Int) := Int.emod_nonneg _ (by positivity)
      push_cast at hn
      omega
    exact Int.eq_zero_of_abs_lt_dvd hdvd (abs_lt.mpr ⟨hlo, hhi⟩)
  rw [Bool.eq_iff_iff, beq_iff_eq, decide_eq_true_iff]
  exact hiff

/-- A quotient as a signed number of `w + 1` bits, or as an unsigned one, fits exactly between these bounds. -/
theorem quotient_zero {w : Nat} {signed : Bool} {q : Int} (hpos : signed = false → 0 ≤ q)
    (hfits : if signed then -2 ^ w ≤ q ∧ q < 2 ^ w else q < 2 ^ (w + 1)) :
    (BitVec.ofInt (w + 1) q == 0) = decide (q = 0) := by
  have hpow0 : (0 : Int) < 2 ^ w := by positivity
  have hpow : (2 : Int) ^ w < 2 ^ (w + 1) := by rw [pow_succ]; linarith
  cases signed with
  | false =>
    have := hpos rfl
    exact ofInt_eq_zero (by linarith) hfits
  | true =>
    obtain ⟨hlo, hhi⟩ := hfits
    exact ofInt_eq_zero (by linarith) (by linarith)

/-- Unsigned numbers have an unsigned quotient. -/
theorem quotient_nonneg {signed : Bool} {n m : Nat} {x y : Int} {q : Int}
    (hq : (if signed then x else (n : Int)).tdiv (if signed then y else (m : Int)) = q) : signed = false → 0 ≤ q := by
  rintro rfl
  rw [← hq]
  exact Int.tdiv_nonneg (Int.natCast_nonneg n) (Int.natCast_nonneg m)

/-- A word is a number of 16 bits, whether its sign is extended or not. -/
theorem divisor_word {d : Long} (hd : zextLong .word d = d) (signed : Bool) :
    (if signed then signedOf .word d else (d.toNat : Int)) =
      if signed then (d.setWidth 16).toInt else ((d.setWidth 16).toNat : Int) := by
  cases signed with
  | true => exact BitVec.toInt_signExtend_of_le (by decide)
  | false =>
    have h := congrArg BitVec.toNat hd
    simp only [zextLong, BitVec.toNat_setWidth] at h
    simp only [Bool.false_eq_true, if_false, BitVec.toNat_setWidth]
    omega

/-- Settles O28: quotient and remainder are the ones that truncated division gives. -/
theorem divideWords : Obligations.DivideWords := by
  intro signed ea dn s s1 d i dividend divisor length h
  obtain ⟨hd, hsr, hpc⟩ := readOperand_keeps h
  have hexec : exec i s = divideWord signed ea dn s := by cases signed <;> rfl
  have hx : s1.getD dn = s.getD dn := congrArg (fun b : Bank Long => b.get dn) hd
  have hdivisor := divisor_word (readOperand_zext h) signed
  refine ⟨fun hz => ?_, fun q r hne heq hr hsign => ?_⟩
  · obtain ⟨n, z, v, k, hzero⟩ := divideByZero_eq (s.pc + BitVec.ofNat 32 (2 * length)) hpc hsr
    refine ⟨n, z, v, k, hexec.trans (runInstr_of_exc (Eq.trans ?_ hzero))⟩
    simp only [extAddr, bind_eq, fetch_eq, h, if_pos hz, length]
  · have hz : d ≠ 0 := by
      rintro rfl
      exact hne (by cases signed <;> rfl)
    obtain ⟨hq, hrem⟩ := tdiv_tmod_of_eq hne heq hr hsign
    have hpos := quotient_nonneg hq
    simp only [dividend, divisor] at hq hrem
    refine ⟨fun hfits => ?_, fun hfits => ?_⟩
    · rw [hexec]
      refine runInstr_of_seq ?_
      have hle : if signed then -32768 ≤ q ∧ q ≤ 32767 else q ≤ 0xFFFF := by
        cases signed
        · exact Int.le_of_lt_add_one hfits
        · exact ⟨hfits.1, Int.le_of_lt_add_one hfits.2⟩
      rw [← quotient_zero (w := 15) hpos hfits]
      simp only [extAddr, bind_eq, fetch_eq, h, if_neg hz, hx, hdivisor, hq, hrem, if_pos hle, update_eq, pure_eq]
    · obtain ⟨n, z, k, hover⟩ := divideOverflow_eq s1
      refine ⟨n, z, k, hexec.trans (runInstr_of_seq (Eq.trans ?_ hover))⟩
      have hlt : ¬ if signed then -32768 ≤ q ∧ q ≤ 32767 else q ≤ 0xFFFF := by
        intro hle
        refine hfits ?_
        cases signed
        · exact Int.lt_add_one_of_le hle
        · exact ⟨hle.1, Int.lt_add_one_of_le hle.2⟩
      simp only [extAddr, bind_eq, fetch_eq, h, if_neg hz, hx, hdivisor, hq, if_neg hlt]

/-- Settles O29: as the word divides, whichever dividend is taken. -/
theorem divideLongs : Obligations.DivideLongs := by
  intro signed wide ea dq dr s s1 d i both dividend divisor length h
  obtain ⟨hd, hsr, hpc⟩ := readOperand_keeps h
  have hexec : exec i s = divideLong signed wide ea dq dr s := by cases signed <;> cases wide <;> rfl
  have hx (n : RegNo) : s1.getD n = s.getD n := congrArg (fun b : Bank Long => b.get n) hd
  refine ⟨fun hz => ?_, fun q r hne heq hr hsign => ?_⟩
  · obtain ⟨n, z, v, k, hzero⟩ := divideByZero_eq (s.pc + BitVec.ofNat 32 (2 * length)) hpc hsr
    refine ⟨n, z, v, k, hexec.trans (runInstr_of_exc (Eq.trans ?_ hzero))⟩
    simp only [extAddr, bind_eq, fetch_eq, h, if_pos hz, length]
  · have hz : d ≠ 0 := by
      rintro rfl
      exact hne (by cases signed <;> rfl)
    obtain ⟨hq, hrem⟩ := tdiv_tmod_of_eq hne heq hr hsign
    have hpos : signed = false → 0 ≤ q := by
      cases wide <;> exact quotient_nonneg hq
    intro fits
    simp only [dividend, divisor, both] at hq hrem
    refine ⟨fun hfits => ?_, fun hfits => ?_⟩
    · rw [hexec]
      refine runInstr_of_seq ?_
      have hle : if signed then -2147483648 ≤ q ∧ q ≤ 2147483647 else q ≤ 0xFFFFFFFF := by
        cases signed
        · exact Int.le_of_lt_add_one hfits
        · exact ⟨hfits.1, Int.le_of_lt_add_one hfits.2⟩
      rw [← quotient_zero (w := 31) hpos hfits]
      simp only [extAddr, bind_eq, fetch_eq, h, if_neg hz, hx, hq, hrem, if_pos hle, update_eq, pure_eq]
    · obtain ⟨n, z, k, hover⟩ := divideOverflow_eq s1
      refine ⟨n, z, k, hexec.trans (runInstr_of_seq (Eq.trans ?_ hover))⟩
      have hlt : ¬ if signed then -2147483648 ≤ q ∧ q ≤ 2147483647 else q ≤ 0xFFFFFFFF := by
        intro hle
        refine hfits ?_
        cases signed
        · exact Int.lt_add_one_of_le hle
        · exact ⟨hle.1, Int.lt_add_one_of_le hle.2⟩
      simp only [extAddr, bind_eq, fetch_eq, h, if_neg hz, hx, hq, if_neg hlt]

end Sys2Proof.Machine
end

