-- ==== Sys2Proof/Proofs/System.lean ====
section
/-!
SUPPORT. RESET, STOP, the moves of the status register, MOVEC, MOVES, and cache and translation-cache maintenance
(41_system_instructions.md R203-R213).
-/
namespace Sys2Proof.Machine

/-- An instruction that completes after an SR manipulation. -/
theorem runInstr_of_srChange {words : Nat} {body : Long → M Flow} {s t : State}
    (h : body (s.pc + BitVec.ofNat 32 (2 * words)) s = .ok .srChange t) :
    runInstr words body s = .next (s.goOn words .srChange t) := by
  simp [runInstr, h, State.complete, State.goOn]

/-! ### RESET and STOP -/

/-- STOP is traced where T1 and T0 differ. -/
theorem traceApplies_srChange (sr : Word) : traceApplies sr .srChange = (sr.getLsbD 15 != sr.getLsbD 14) := by
  unfold traceApplies srT1 srT0
  cases sr.getLsbD 15 <;> cases sr.getLsbD 14 <;> rfl

/-- Settles O32: behind the check of privilege RESET is one update and STOP stops where no trace is due. -/
theorem resetAndStop : Obligations.ResetAndStop := by
  intro s imm hs loaded
  refine ⟨?_, fun h => ?_, fun h => ?_⟩ <;> unfold exec
  · exact (runInstr_supervisor 1 (fun _ => update (State.emit .resetOut) >>= fun _ => pure .seq) hs).trans (runInstr_update 1 _ s)
  · refine (runInstr_supervisor _ _ hs).trans (runInstr_of_srChange ?_)
    have htrace : traceApplies s.sr .srChange = false := by rw [traceApplies_srChange, h, bne_self_eq_false]
    simp only [bind_eq, fetch_eq, update_eq, htrace, Bool.false_eq_true, if_false, pure_eq]
    rfl
  · refine (runInstr_supervisor _ _ hs).trans (runInstr_of_srChange ?_)
    have htrace : traceApplies s.sr .srChange = true := by rw [traceApplies_srChange, bne_iff_ne]; exact h
    simp only [bind_eq, fetch_eq, update_eq, htrace, if_true, pure_eq]
    rfl

/-! ### The status register -/

theorem modifySr_supervisor {s : State} (hs : srS s.sr = true) (f : Word → Word) :
    modifySr f s = .next (s.goOn 2 .srChange { s with sr := f s.sr &&& 0xF71F }) :=
  (runInstr_supervisor _ _ hs).trans (runInstr_of_srChange rfl)

/-- Settles O33: each write drops the bits that do not exist. -/
theorem statusRegisterMoves : Obligations.StatusRegisterMoves := by
  intro s hs
  refine ⟨fun v => modifySr_supervisor hs (· ||| v), fun v => modifySr_supervisor hs (· &&& v),
    fun v => modifySr_supervisor hs (· ^^^ v), fun ea d s1 h => ?_, fun ea t h => ?_⟩
  · unfold exec
    refine (runInstr_supervisor _ _ hs).trans (runInstr_of_srChange ?_)
    simp only [extAddr, bind_eq, fetch_eq, h, update_eq, pure_eq]
    rfl
  · unfold exec
    refine (runInstr_supervisor _ _ hs).trans (runInstr_of_seq ?_)
    simp only [extAddr, bind_eq, fetch_eq, h, pure_eq]

/-! ### MOVEC -/

section movec
variable {s : State} (hs : srS s.sr = true) (rc : BitVec 12) (rn : Reg)
include hs

theorem exec_movecFrom {v : Long} (h : readControl rc s = some v) :
    exec (.movecFrom rc rn) s = .next (s.goOn 2 .seq (s.setR rn v)) := by
  unfold exec
  refine (runInstr_supervisor _ _ hs).trans (runInstr_of_seq ?_)
  simp only [bind_eq, fetch_eq, h, update_eq, pure_eq]

theorem exec_movecTo {t : State} (h : writeControl rc (s.getR rn) s = some t) :
    exec (.movecTo rc rn) s = .next (s.goOn 2 .seq t) := by
  unfold exec
  refine (runInstr_supervisor _ _ hs).trans (runInstr_of_seq ?_)
  simp only [bind_eq, fetch_eq, h, update_eq, pure_eq]

theorem exec_movec_illegal (h : readControl rc s = none) (h' : writeControl rc (s.getR rn) s = none) :
    ∀ i ∈ [Instr.movecFrom rc rn, .movecTo rc rn], exec i s = .next (s.takeException s.pc s.regs (illegalExc s.pc)) := by
  intro i hi
  rcases List.mem_pair.mp hi with rfl | rfl <;> unfold exec <;> refine (runInstr_supervisor _ _ hs).trans (runInstr_of_exc ?_)
  · simp only [bind_eq, fetch_eq, h, raise_eq]
  · simp only [bind_eq, fetch_eq, h', raise_eq]

end movec

/-- The numbers of the fifteen control registers (R207). -/
def controlNumbers : List (BitVec 12) :=
  [0x000, 0x001, 0x002, 0x003, 0x004, 0x005, 0x006, 0x007, 0x800, 0x801, 0x803, 0x804, 0x805, 0x806, 0x807]

/-- Any other number names none. -/
theorem control_none {rc : BitVec 12} (h : rc ∉ controlNumbers) (v : Long) (s : State) :
    readControl rc s = none ∧ writeControl rc v s = none := by
  have hnum : rc.toNat ∉ controlNumbers.map BitVec.toNat := by
    rintro hmem
    obtain ⟨k, hk, he⟩ := List.mem_map.mp hmem
    exact h (BitVec.eq_of_toNat_eq he ▸ hk)
  constructor
  · unfold readControl
    split
    case h_16 => rfl
    all_goals
      rename_i he
      exact absurd (by rw [he]; decide) hnum
  · unfold writeControl
    split
    case h_16 => rfl
    all_goals
      rename_i he
      exact absurd (by rw [he]; decide) hnum

theorem tc_mask (v : Long) : v.setWidth 16 &&& 0xC000 = (v &&& 0xC000).setWidth 16 := by
  rw [BitVec.setWidth_and]
  rfl

/-- Settles O34: the table is that of `readControl` and `writeControl`, row by row. -/
theorem movecMovesControlRegisters : Obligations.MovecMovesControlRegisters := by
  intro s rn hs v table
  have hsfc : v.setWidth 3 = v.extractLsb' 0 3 := BitVec.setWidth_eq_extractLsb' (by decide)
  have htable : ∀ x ∈ table, readControl x.1 s = some x.2.1 ∧ writeControl x.1 v s = some x.2.2 := by
    simp only [table, List.forall_mem_cons, ← hsfc, ← tc_mask]
    exact ⟨⟨rfl, rfl⟩, ⟨rfl, rfl⟩, ⟨rfl, rfl⟩, ⟨rfl, rfl⟩, ⟨rfl, rfl⟩, ⟨rfl, rfl⟩, ⟨rfl, rfl⟩, ⟨rfl, rfl⟩, ⟨rfl, rfl⟩, ⟨rfl, rfl⟩,
      ⟨rfl, rfl⟩, ⟨rfl, rfl⟩, ⟨rfl, rfl⟩, ⟨rfl, rfl⟩, ⟨rfl, rfl⟩, fun _ hx => absurd hx List.not_mem_nil⟩
  refine ⟨fun x hx => ?_, fun rc hrc => ?_⟩
  · obtain ⟨hread, hwrite⟩ := htable x hx
    exact ⟨exec_movecFrom hs _ rn hread, exec_movecTo hs _ rn hwrite⟩
  · obtain ⟨hread, hwrite⟩ := control_none (rc := rc) hrc v s
    exact exec_movec_illegal hs rc rn hread hwrite

/-! ### MOVES -/

/-- Settles O35: the load or the store comes between the address and its register's step. -/
theorem movesMoves : Obligations.MovesMoves := by
  intro s sz ea rn s1 l a hs hl hplace space
  have hbus := (buses_busOnly.locate _ _ _).ok hl
  have hctl : s1.ctl = s.ctl := by obtain ⟨_, _, _, rfl⟩ := hbus; rfl
  have haddr : placeAddr l.place = a := by rw [hplace]; rfl
  refine ⟨fun v t hload => ?_, fun t hstore => ?_⟩ <;> unfold exec <;>
    refine (runInstr_supervisor _ _ hs).trans (runInstr_of_seq ?_)
  · have hread : memRead (movesAccess s1.ctl.sfc a sz false) s1 = .ok v t := by
      rw [memRead, access_eq, hctl, show movesAccess s.ctl.sfc a sz false = space s.ctl.sfc false from rfl, hload]
    cases rn <;> simp only [extAddr, bind_eq, fetch_eq, hl, haddr, hread, commit_eq, update_eq, pure_eq]
  · have hvalue : s1.getR rn = s.getR rn := by obtain ⟨_, _, _, rfl⟩ := hbus; cases rn <;> rfl
    have hwrite : memWrite (movesAccess s1.ctl.dfc a sz true) (s1.getR rn) s1 = .ok () t := by
      rw [memWrite, access_eq, hctl, hvalue, show movesAccess s.ctl.dfc a sz true = space s.ctl.dfc true from rfl, hstore]
    simp only [extAddr, bind_eq, fetch_eq, hl, haddr, hwrite, commit_eq, pure_eq]

/-! ### Cache and translation-cache maintenance -/

theorem pageOf_eq (s : State) (x : Long) : s.pageOf x = x.toNat / (if s.ctl.tc.getLsbD 14 then 8192 else 4096) := by
  unfold State.pageOf
  split <;> rfl

/-- An act recorded or not is a change of the record alone. -/
theorem recordAct_if (b : Bool) (act : Byte) (c : Nat → Bool) (s : State) : (if b then s.recordAct act c else s) =
    { s with modified := (if b then s.recordAct act c else s).modified } := by
  cases b <;> rfl

/-- What is recorded of a byte after an act that covers some. -/
theorem recordAct_recorded {s : State} (hw : Memory.wf s.modified) (act : Byte) (c : Nat → Bool) (x : Long) :
    Memory.read (s.recordAct act c).modified x.toNat =
      if c x.toNat = false then s.recordAt x
      else if s.recordAt x = 0 ∨ s.recordAt x ||| act = 15 then 0
      else s.recordAt x ||| act := by
  rw [State.recordAct_read hw]
  cases c x.toNat <;> rfl

/-- Settles O36: each act is recorded as `recordAct` says, for the bytes that it covers. -/
theorem cacheAndMmuMaintenance : Obligations.CacheAndMmuMaintenance := by
  intro s k c an read emitted page covers recorded
  have hcovers (x : Long) : s.covers c (s.getA an) x.toNat = covers x := by
    simp only [State.covers, BitVec.ofNat_toNat, BitVec.setWidth_eq, pageOf_eq]
    rfl
  have hrecord (b : Bool) {act : Byte} {t : State} (ht : t.modified = s.modified) {cov : Nat → Bool} {covered : Long → Bool}
      (hcov : ∀ x : Long, cov x.toNat = covered x) :
      recorded act (fun x => b && covered x) (if b then t.recordAct act cov else t).modified := by
    intro hw
    have hw' : Memory.wf t.modified := ht ▸ hw.2
    cases b with
    | false => exact ⟨hw', fun x => by rw [if_neg Bool.false_ne_true, ht]; rfl⟩
    | true =>
      refine ⟨t.recordAct_wf hw' _ _, fun x => ?_⟩
      have hx : t.recordAt x = s.recordAt x := by rw [State.recordAt, ht]; rfl
      rw [if_pos rfl, recordAct_recorded hw', hcov, hx]
      rfl
  refine ⟨⟨_, rfl, hrecord true rfl fun _ => rfl⟩, fun hs => ⟨?_, ?_, ?_, ?_⟩⟩
  · refine ⟨_, ?_, hrecord (k.getLsbD 1) (t := s.emit (.cacheInvalidate k c (s.getA an))) rfl hcovers⟩
    exact ((runInstr_supervisor 1 _ hs).trans (runInstr_update 1 _ s)).trans
      (congrArg (fun u => Host.Outcome.next (s.goOn 1 .seq u)) (recordAct_if _ _ _ _))
  · refine ⟨_, ?_, hrecord (k.getLsbD 0) (t := s.emit (.cachePush k c (s.getA an))) rfl hcovers⟩
    exact ((runInstr_supervisor 1 _ hs).trans (runInstr_update 1 _ s)).trans
      (congrArg (fun u => Host.Outcome.next (s.goOn 1 .seq u)) (recordAct_if _ _ _ _))
  · exact (runInstr_supervisor 1 _ hs).trans (runInstr_update 1 _ s)
  · exact (runInstr_supervisor 1 _ hs).trans (runInstr_update 1 _ s)

end Sys2Proof.Machine
end

