-- ==== Sys2Proof/Proofs/Locked.lean ====
section
/-!
SUPPORT. MOVE16 and the locked instructions TAS, CAS, CAS2 (41_system_instructions.md R221-R224).
-/
namespace Sys2Proof.Machine

/-! ### MOVE16 -/

theorem copyLine_plain {s : State} (h : s.plain) (hw : s.memOk) (src dst : Long) :
    ∃ t, copyLine src dst s = .ok () t ∧ Stored s t (dst &&& 0xFFFFFFF0)
      ((List.range 16).map fun k => s.byteAt ((src &&& 0xFFFFFFF0) + BitVec.ofNat 32 k)) := by
  have hread : memReadBytes (lineAccess s.sr src false) s =
      .ok ((List.range 16).map fun k => s.byteAt ((src &&& 0xFFFFFFF0) + BitVec.ofNat 32 k)) s := by
    rw [memReadBytes, access_eq, loadBytes_plain h]
    rfl
  obtain ⟨t, ht, hstored⟩ := storeBytes_plain h hw (lineAccess s.sr dst true)
    (bs := (List.range 16).map fun k => s.byteAt ((src &&& 0xFFFFFFF0) + BitVec.ofNat 32 k)) rfl
  refine ⟨t, ?_, hstored⟩
  simp only [copyLine, bind_eq, fetch_eq, hread, memWriteBytes, access_eq, ht]

/-- Settles O39: every form copies one line between reading its addresses and stepping its registers. -/
theorem move16CopiesLine : Obligations.Move16CopiesLine := by
  intro s ax ay addr h hw copies
  have hcopy {i : Instr} {words : Nat} {src dst : Long} {after : State → State}
      (hi : ∀ t, copyLine src dst s = .ok () t → exec i s = .next (s.goOn words .seq (after t))) :
      copies i src dst words after := by
    obtain ⟨t, ht, hstored⟩ := copyLine_plain h hw src dst
    exact ⟨t, hstored, hi t ht⟩
  refine ⟨hcopy fun t ht => ?_, hcopy fun t ht => ?_, hcopy fun t ht => ?_, hcopy fun t ht => ?_, hcopy fun t ht => ?_⟩
  all_goals
    unfold exec
    refine runInstr_of_seq ?_
    simp only [bind_eq, fetch_eq, ht, update_eq, pure_eq]
    rfl

/-! ### Locked accesses -/

theorem lockBus_plain {s : State} (h : s.plain) : lockBus s = .ok () s := by
  rw [lockBus, update_eq, State.busMove_of_nil h.2.2]

theorem readLocked_plain {s : State} (h : s.plain) (a : Long) (sz : Size) : readLocked a sz s = .ok (s.valueAt a sz) s := by
  have hread := memRead_plain (acc := { addr := a, size := .ofSize sz, tt := 0, tm := tmData s.sr, write := false, locked := true })
    h (sz := sz) rfl
  simp only [readLocked, lockedAccess, bind_eq, fetch_eq, hread]

theorem writeLocked_plain {s : State} (h : s.plain) (hw : s.memOk) (a : Long) (sz : Size) (v : Long) :
    ∃ t, writeLocked a sz v s = .ok () t ∧ Stored s t a (operandBytes sz v) := by
  obtain ⟨t, ht, hstored⟩ := store_plain (sz := sz) h hw
    (acc := { addr := a, size := .ofSize sz, tt := 0, tm := tmData s.sr, write := true, locked := true }) rfl v
  refine ⟨t, ?_, hstored⟩
  simp only [writeLocked, lockedAccess, bind_eq, fetch_eq, memWrite, access_eq, ht]

/-! ### TAS -/

theorem byte_flags (b : Byte) : (b.setWidth 32 : Long).getLsbD 7 = b.getLsbD 7 ∧
    ((b.setWidth 32 : Long) == 0) = decide (b = 0) := by
  revert b
  decide

/-- Bit 7 of a data register set through its low byte. -/
theorem mergeLow_bit7 (v : Long) : mergeLow .byte v (zextLong .byte v ||| 0x80) = v ||| 0x80 := by
  apply BitVec.eq_of_getLsbD_eq
  intro i hi
  simp only [mergeLow, zextLong, BitVec.getLsbD_append, BitVec.getLsbD_or, BitVec.getLsbD_extractLsb', BitVec.getLsbD_setWidth]
  interval_cases i <;> simp

/-- Settles O40: the byte is read and written once, and the flags are those of what was read. -/
theorem tasSetsBit7 : Obligations.TasSetsBit7 := by
  intro s ea l h hw hl flags
  have hflags (b : Byte) (t : State) : t.setNzvc ((b.setWidth 32 : Long).getLsbD 7)
      ((b.setWidth 32 : Long) == 0) false false = flags b t := by
    rw [(byte_flags b).1, (byte_flags b).2]
  refine ⟨fun r hr => ?_, fun a ha => ?_⟩
  · unfold exec
    refine runInstr_of_seq ?_
    rw [← hflags]
    simp only [extAddr, bind_eq, fetch_eq, hl, hr, readPlace, writePlace, update_eq, commit_eq, pure_eq]
    rw [State.setDLow, mergeLow_bit7]
    rfl
  · obtain ⟨t, ht, hstored⟩ := writeLocked_plain h hw a .byte (s.valueAt a .byte ||| 0x80)
    refine ⟨t, ?_, ?_⟩
    · have hbyte : ((s.byteAt a).setWidth 32 ||| 0x80).setWidth 8 = s.byteAt a ||| 0x80 := by
        rw [BitVec.setWidth_or, BitVec.setWidth_setWidth_of_le _ (by decide), BitVec.setWidth_eq]
        rfl
      rw [← hbyte]
      exact hstored
    · unfold exec
      refine runInstr_of_seq ?_
      rw [← hflags]
      simp only [extAddr, bind_eq, fetch_eq, hl, ha, lockBus_plain h, readLocked_plain h, ht, update_eq, commit_eq, pure_eq]
      rfl

/-! ### The flags of a comparison -/

/-- The flags of a subtraction of numbers of `n` bits, from the bits and from the numbers they stand for. -/
theorem sub_flags {n : Nat} (x y : BitVec n) :
    ((x - y == 0) = decide (x.toInt - y.toInt = 0)) ∧
    ((x.msb != y.msb && (x - y).msb != x.msb) =
      decide (x.toInt - y.toInt < -2 ^ (n - 1) ∨ 2 ^ (n - 1) ≤ x.toInt - y.toInt)) := by
  constructor
  · rw [Bool.eq_iff_iff, beq_iff_eq, decide_eq_true_iff, Int.sub_eq_zero, BitVec.toInt_inj]
    exact ⟨fun h => by rw [← BitVec.sub_add_cancel x y, h]; exact BitVec.zero_add y, fun h => by rw [h]; exact BitVec.sub_self y⟩
  · have h : BitVec.ssubOverflow x y = (x.msb != y.msb && (x - y).msb != x.msb) := by
      rw [BitVec.ssubOverflow_eq]
      cases x.msb <;> cases y.msb <;> cases (x - y).msb <;> rfl
    rw [← h, BitVec.ssubOverflow, Bool.decide_or, Bool.or_comm]

/-- The low bits of an operand, as a number of its own width. -/
def lowBits : (sz : Size) → Long → BitVec sz.bits
  | .byte, v => v.setWidth 8
  | .word, v => v.setWidth 16
  | .long, v => v

theorem setWidth_sub {n w : Nat} (h : n ≤ w) (x y : BitVec w) : (x - y).setWidth n = x.setWidth n - y.setWidth n := by
  rw [BitVec.sub_eq_add_neg, BitVec.setWidth_add _ _ h, BitVec.setWidth_neg_of_le h, ← BitVec.sub_eq_add_neg]

theorem lowBits_sub (sz : Size) (m c : Long) : lowBits sz (m - c) = lowBits sz m - lowBits sz c := by
  cases sz with
  | byte | word => exact setWidth_sub (by decide) m c
  | long => rfl

theorem signedOf_eq (sz : Size) (v : Long) : signedOf sz v = (lowBits sz v).toInt := by
  cases sz with
  | byte | word => exact BitVec.toInt_signExtend_of_le (by decide)
  | long => rfl

theorem signBit_eq (sz : Size) (v : Long) : signBit sz v = (lowBits sz v).msb := by
  cases sz <;> simp [signBit, lowBits, BitVec.msb_eq_getLsbD_last, Size.bits]

theorem lowBits_zext (sz : Size) (v : Long) : lowBits sz (zextLong sz v) = lowBits sz v := by
  cases sz with
  | byte | word => exact (BitVec.setWidth_setWidth_of_le _ (by decide)).trans (BitVec.setWidth_eq _)
  | long => rfl

theorem zextLong_eq_zero (sz : Size) (v : Long) : (zextLong sz v == 0) = (lowBits sz v == 0) := by
  cases sz with
  | byte | word =>
    rw [Bool.eq_iff_iff, beq_iff_eq, beq_iff_eq, ← BitVec.toNat_inj, ← BitVec.toNat_inj]
    simp only [zextLong, lowBits, BitVec.toNat_setWidth, BitVec.ofNat_eq_ofNat, BitVec.toNat_ofNat, Size.bits]
    omega
  | long => rfl

/-- The condition codes of CAS and CAS2 are those of the subtraction of the numbers. -/
theorem setSubFlags_eq (sz : Size) (m c : Long) (s : State) : setSubFlags sz m c s = s.compared sz m c := by
  obtain ⟨hz, hv⟩ := sub_flags (lowBits sz m) (lowBits sz c)
  unfold setSubFlags State.compared subFlags
  simp only [zextLong_eq_zero, signBit_eq, lowBits_zext, lowBits_sub, hz, hv, signedOf_eq]

/-! ### CAS and CAS2 -/

theorem wordBytes (x y : Byte) : bytesOfWords [x ++ y] = [x, y] := by
  have hx : field (x ++ y) 8 8 = x := BitVec.extractLsb'_append_eq_left
  have hy : field (x ++ y) 0 8 = y := BitVec.extractLsb'_append_eq_right
  rw [bytesOfWords, hx, hy, bytesOfWords]

/-- The bytes of an operand in memory. -/
theorem operandBytes_valueAt (s : State) (a : Long) (sz : Size) :
    operandBytes sz (s.valueAt a sz) = (List.range sz.bytes).map fun i => s.byteAt (a + BitVec.ofNat 32 i) := by
  cases sz with
  | byte => simp [operandBytes, State.valueAt, Size.bytes, List.range_succ]
  | word => simp [operandBytes, State.valueAt, Size.bytes, List.range_succ, State.wordAt, wordBytes]
  | long =>
    have hwords : longWords (s.longAt a) = [s.wordAt a, s.wordAt (a + 2)] := by
      rw [longAt_words, longWords, BitVec.extractLsb'_append_eq_left, BitVec.extractLsb'_append_eq_right]
    rw [operandBytes, State.valueAt, longBytes, hwords, show [s.wordAt a, s.wordAt (a + 2)] = [s.wordAt a] ++ [s.wordAt (a + 2)]
      from rfl, bytesOfWords_append, State.wordAt, State.wordAt, wordBytes, wordBytes, BitVec.add_assoc]
    simp [Size.bytes, List.range_succ]

/-- An operand written with the value it has leaves memory as it is. -/
theorem Stored.mem_of_same {s t : State} (hw : s.memOk) {a : Long} {sz : Size}
    (h : Stored s t a (operandBytes sz (s.valueAt a sz))) : t.mem = s.mem := by
  refine Memory.ext_long h.2.1.1 hw.1 fun x => ?_
  have hxa : a + BitVec.ofNat 32 (x - a).toNat = x := by
    rw [BitVec.ofNat_toNat, BitVec.setWidth_eq, BitVec.add_comm, BitVec.sub_add_cancel]
  have hx := (h.2.2 x).1
  rw [operandBytes_valueAt, List.getElem?_map] at hx
  by_cases hlt : (x - a).toNat < sz.bytes
  · rw [List.getElem?_range hlt] at hx
    exact hx.trans (congrArg s.byteAt hxa)
  · rw [List.getElem?_eq_none (by simpa using hlt)] at hx
    exact hx

/-- Settles O41: the operand is written in both cases, the compare register where it differs. -/
theorem casComparesAndSwaps : Obligations.CasComparesAndSwaps := by
  intro s sz dc du ea l a h hw hl ha m c flags
  have hplace : placeAddr l.place = a := by rw [ha]; rfl
  refine ⟨fun heq => ?_, fun hne => ?_⟩
  · obtain ⟨t, ht, hstored⟩ := writeLocked_plain h hw a sz (s.getD du)
    refine ⟨t, hstored, ?_⟩
    unfold exec
    refine runInstr_of_seq ?_
    simp only [extAddr, bind_eq, fetch_eq, hl, hplace, lockBus_plain h, readLocked_plain h, ht, update_eq, commit_eq, pure_eq,
      if_pos (show s.valueAt a sz = zextLong sz (s.getD dc) from heq), setSubFlags_eq]
    rfl
  · obtain ⟨t, ht, hstored⟩ := writeLocked_plain h hw a sz (s.valueAt a sz)
    refine ⟨t, hstored, hstored.mem_of_same hw, ?_⟩
    unfold exec
    refine runInstr_of_seq ?_
    simp only [extAddr, bind_eq, fetch_eq, hl, hplace, lockBus_plain h, readLocked_plain h, ht, update_eq, commit_eq, pure_eq,
      if_neg (show ¬ s.valueAt a sz = zextLong sz (s.getD dc) from hne), setSubFlags_eq]
    rfl

/-- Settles O42: by which of the two comparisons fails. -/
theorem cas2ComparesAndSwaps : Obligations.Cas2ComparesAndSwaps := by
  intro s long rn1 rn2 dc1 du1 dc2 du2 h hw sz m1 m2 c1 c2 i
  refine ⟨fun h1 h2 => ?_, fun h1 => ?_, fun h1 h2 => ?_⟩
  · obtain ⟨t, ht, hstored⟩ := writeLocked_plain h hw (s.getR rn1) sz (s.getD du1)
    obtain ⟨t', ht', hstored'⟩ := writeLocked_plain (hstored.plain h) hstored.2.1 (s.getR rn2) sz (s.getD du2)
    refine ⟨t, t', hstored, hstored', ?_⟩
    unfold exec
    refine runInstr_of_seq ?_
    simp only [m1, m2, c1, c2, sz] at *
    simp only [bind_eq, fetch_eq, lockBus_plain h, readLocked_plain h, ht, ht', update_eq, pure_eq, if_pos h1,
      if_pos (And.intro h1 h2), setSubFlags_eq]
  · unfold exec
    refine runInstr_of_seq ?_
    simp only [m1, m2, c1, sz] at *
    simp only [bind_eq, fetch_eq, lockBus_plain h, readLocked_plain h, update_eq, pure_eq, if_neg h1,
      if_neg (fun x : _ ∧ _ => h1 x.1), setSubFlags_eq]
  · unfold exec
    refine runInstr_of_seq ?_
    simp only [m1, m2, c1, c2, sz] at *
    simp only [bind_eq, fetch_eq, lockBus_plain h, readLocked_plain h, update_eq, pure_eq, if_pos h1,
      if_neg (fun x : _ ∧ _ => h2 x.2), setSubFlags_eq]

end Sys2Proof.Machine
end

