-- ==== Sys2Proof/Proofs/Quiet.lean ====
section
/-!
SUPPORT. Accesses where translation is off and no other master moves, but an address may answer TEA (20_memory.md R86, R98): what
such an access does, whatever else is in the state.
-/
namespace Sys2Proof.Machine

/-- Translation off and no move of another master to come. -/
def State.quiet (s : State) : Prop := s.translationOff = true ∧ s.env.bus = []

theorem State.plain.quiet {s : State} (h : s.plain) : s.quiet := ⟨h.1, h.2.2⟩

theorem State.quiet.congr {s t : State} (h : s.quiet) (hc : t.ctl = s.ctl) (he : t.env = s.env) : t.quiet :=
  ⟨by rw [← h.1]; unfold State.translationOff; rw [hc], by rw [he, h.2]⟩

/-- Whether a transfer of an access meets no TEA. -/
def State.passes (s : State) (acc : Access) (t : Nat × Nat) : Bool := !s.busTea acc (acc.addr + BitVec.ofNat 32 t.1) t.2

/-- Whether an access meets none. -/
def State.reaches (s : State) (acc : Access) : Bool := (transfersOf acc.addr acc.size).all (s.passes acc)

theorem State.passes_congr {s t : State} (h : t.env.tea = s.env.tea) (acc : Access) : t.passes acc = s.passes acc := by
  funext x
  simp only [State.passes, State.busTea, h]

theorem State.reaches_congr {s t : State} (h : t.env.tea = s.env.tea) (acc : Access) : t.reaches acc = s.reaches acc := by
  rw [State.reaches, State.passes_congr h, State.reaches]

theorem State.reaches_of_nil {s : State} (h : s.env.tea = []) (acc : Access) : s.reaches acc = true := by
  simp [State.reaches, State.passes, State.busTea, h]

/-- The fault of an access that meets TEA. -/
def teaFault (acc : Access) : AccessFault := { acc := acc, atc := false, ma := false, wb := .none, cont := .none }

/-- The bytes that the transfers of a store write, each with its address. -/
def transferWrites (acc : Access) (bs : List Byte) (ts : List (Nat × Nat)) : List (Long × Byte) :=
  ts.flatMap fun t => (transferAddrs (acc.addr + BitVec.ofNat 32 t.1) t.2).zip (bs.drop t.1)

/-- They are within the access. -/
theorem transferWrites_within {acc : Access} {bs : List Byte} (hn : bs.length = acc.size.bytes) {ts : List (Nat × Nat)}
    (hts : ts ⊆ transfersOf acc.addr acc.size) : ∀ w ∈ transferWrites acc bs ts, (w.1 - acc.addr).toNat < acc.size.bytes := by
  intro w hw
  have hall : w ∈ transferWrites acc bs (transfersOf acc.addr acc.size) := by
    obtain ⟨t, ht, hmem⟩ := List.mem_flatMap.mp hw
    exact List.mem_flatMap.mpr ⟨t, hts ht, hmem⟩
  rw [transferWrites, transfers_zip acc hn] at hall
  obtain ⟨i, hi, hwi⟩ := List.mem_map.mp (List.of_mem_zip hall).1
  have hlt : i < acc.size.bytes := hn ▸ List.mem_range.mp hi
  have hsize : acc.size.bytes < 2 ^ 32 := by cases acc.size <;> decide
  rw [← hwi, BitVec.add_comm, BitVec.add_sub_cancel, BitVec.toNat_ofNat, Nat.mod_eq_of_lt (by omega)]
  exact hlt

/-- The value of the bytes of an operand, whatever TEA ranges there are. -/
theorem longOfBytes_valueAt (s : State) (a : Long) {n : TSize} {sz : Size} (hs : n = .ofSize sz) :
    longOfBytes ((List.range n.bytes).map fun i => s.byteAt (a + BitVec.ofNat 32 i)) = s.valueAt a sz := by
  let p : State := { s with ctl := { s.ctl with tc := 0, itt0 := 0, itt1 := 0, dtt0 := 0, dtt1 := 0 },
                            env := { s.env with tea := [], bus := [] } }
  have hp : p.plain := ⟨by simp [State.translationOff, p], rfl, rfl⟩
  have hload := load_plain hp (acc := { addr := a, size := n, tt := 0, tm := 0, write := false, locked := false }) hs
  rw [load, bind_eq, loadBytes_plain hp] at hload
  have hvalue : p.valueAt a sz = s.valueAt a sz := by cases sz <;> rfl
  exact (EStateM.Result.ok.inj hload).1.trans hvalue

section quiet
variable {s : State} (h : s.quiet)
include h

theorem transfer_quiet (acc : Access) (t : Nat × Nat) : transfer acc t.1 t.2 s =
    if s.passes acc t then .ok (acc.addr + BitVec.ofNat 32 t.1) s else .error (teaFault acc) s := by
  have hnow : s.busNow.tea = false := by rw [State.busNow, h.2]; rfl
  unfold State.passes
  cases hb : s.busTea acc (acc.addr + BitVec.ofNat 32 t.1) t.2 <;>
    simp [transfer, State.busMove_of_nil h.2, State.translate, h.1, hb, hnow, teaFault]

/-- Where what is done at each transfer changes nothing, an access does it at one transfer after the other, up to TEA. -/
theorem overTransfers_quiet {α : Type} (acc : Access) {act : Nat → List Long → BusM (List α)} {f : Nat → List Long → List α}
    (ha : ∀ off as, act off as s = .ok (f off as) s) (ts : List (Nat × Nat)) : overTransfers acc act ts s =
      if ts.all (s.passes acc) then
        .ok (ts.flatMap fun t => f t.1 (transferAddrs (acc.addr + BitVec.ofNat 32 t.1) t.2)) s
      else .error (teaFault acc) s := by
  induction ts with
  | nil => rfl
  | cons t ts ih =>
    rw [overTransfers, bind_eq, transfer_quiet h]
    cases ht : s.passes acc t with
    | false => simp [ht]
    | true =>
      simp only [if_true, bind_eq, ha, ih, List.all_cons, ht, Bool.true_and]
      cases ts.all (s.passes acc) <;> rfl

theorem loadBytes_quiet (acc : Access) : loadBytes acc s =
    if s.reaches acc then .ok ((List.range acc.size.bytes).map fun i => s.byteAt (acc.addr + BitVec.ofNat 32 i)) s
    else .error (teaFault acc) s := by
  have haddrs := congrArg (List.map fun a : Long => Memory.read s.mem a.toNat) (transfers_addrs acc)
  rw [List.map_flatMap, List.map_map] at haddrs
  unfold loadBytes
  rw [overTransfers_quiet h acc (fun _ _ => busFetch_eq _ s), haddrs]
  rfl

/-- A load reads what a plain one reads, or faults and changes nothing. -/
theorem load_quiet {acc : Access} {sz : Size} (hs : acc.size = .ofSize sz) : load acc s =
    if s.reaches acc then .ok (s.valueAt acc.addr sz) s else .error (teaFault acc) s := by
  rw [load, bind_eq, loadBytes_quiet h]
  cases s.reaches acc with
  | false => rfl
  | true =>
    simp only [if_true, pure_eq]
    rw [longOfBytes_valueAt s acc.addr hs]

/-- The bytes that the transfers of a store write before one that meets TEA. -/
theorem storeTransfers_quiet (acc : Access) (bs : List Byte) (ts : List (Nat × Nat)) :
    overTransfers acc (storeTransfer bs) ts s =
      let u := s.writeBytes (transferWrites acc bs (ts.takeWhile (s.passes acc)))
      if ts.all (s.passes acc) then .ok [] u else .error (teaFault acc) u := by
  induction ts generalizing s with
  | nil => rfl
  | cons t ts ih =>
    rw [overTransfers, bind_eq, transfer_quiet h]
    cases ht : s.passes acc t with
    | false => simp [ht]; rfl
    | true =>
      have hnext (ws : List (Long × Byte)) : (s.writeBytes ws).quiet := h.congr rfl rfl
      have hpass (ws : List (Long × Byte)) : (s.writeBytes ws).passes acc = s.passes acc := State.passes_congr rfl acc
      simp only [if_true, bind_eq, storeTransfer, busUpdate_eq, pure_eq, ih (hnext _), hpass, List.all_cons, ht, Bool.true_and,
        List.takeWhile_cons, transferWrites, List.flatMap_cons, writeBytes_append]
      cases ts.all (s.passes acc) <;> rfl

/-- A store that meets no TEA stores its bytes. -/
theorem store_quiet (hw : s.memOk) {acc : Access} {sz : Size} (hs : acc.size = .ofSize sz) (v : Long) (hr : s.reaches acc = true) :
    ∃ t, store acc v s = .ok () t ∧ Stored s t acc.addr (operandBytes sz v) := by
  have hbytes : acc.size.bytes = sz.bytes := by rw [hs]; cases sz <;> rfl
  have hlen : (operandBytes sz v).length = acc.size.bytes := by rw [operandBytes_length, hbytes]
  have hall : (transfersOf acc.addr acc.size).takeWhile (s.passes acc) = transfersOf acc.addr acc.size :=
    List.takeWhile_eq_self_iff.mpr (List.all_eq_true.mp hr)
  refine ⟨_, ?_, stored_writes hw acc.addr (operandBytes sz v) (by rw [operandBytes_length]; cases sz <;> decide)⟩
  rw [store, hbytes, bytesOfValue_operand, storeBytes, withWriteBack, bind_eq, storeTransfers_quiet h, hall, transferWrites,
    transfers_zip acc hlen]
  simp only [if_pos (show (transfersOf acc.addr acc.size).all (s.passes acc) = true from hr), pure_eq]

end quiet

/-- A store that meets TEA faults, after it has written some of its bytes. -/
theorem store_quiet_error {s : State} {acc : Access} (v : Long) (hr : s.reaches acc = false) :
    ∃ (f : AccessFault) (ws : List (Long × Byte)), (∀ w ∈ ws, (w.1 - acc.addr).toNat < acc.size.bytes) ∧
      ∀ u : State, u.quiet → u.env.tea = s.env.tea → store acc v u = .error f (u.writeBytes ws) := by
  refine ⟨{ teaFault acc with wb := writeBackOf acc (bytesOfValue acc.size.bytes v.toNat) },
    transferWrites acc (bytesOfValue acc.size.bytes v.toNat) ((transfersOf acc.addr acc.size).takeWhile (s.passes acc)),
    transferWrites_within (bytesOfValue_length _ _) (List.takeWhile_prefix _).subset, fun u hu htea => ?_⟩
  rw [store, storeBytes, withWriteBack, bind_eq, storeTransfers_quiet hu, State.passes_congr htea]
  simp only [if_neg (show ¬ (transfersOf acc.addr acc.size).all (s.passes acc) = true by rw [← State.reaches, hr]; decide)]

/-- Writing bytes where one is written gives the same there in all memories. -/
theorem Memory.read_writes_congr {ws : List (Long × Byte)} {m m' : List Host.Cell} (h : Memory.wf m) (h' : Memory.wf m') {x : Long}
    (hx : ∃ w ∈ ws, w.1 = x) : Memory.read (Memory.writes m ws) x.toNat = Memory.read (Memory.writes m' ws) x.toNat := by
  induction ws generalizing m m' with
  | nil => obtain ⟨w, hw, -⟩ := hx; exact absurd hw List.not_mem_nil
  | cons w ws ih =>
    have hm := Memory.wf_write (b := w.2) w.1.isLt h
    have hm' := Memory.wf_write (b := w.2) w.1.isLt h'
    by_cases hlater : ∃ v ∈ ws, v.1 = x
    · exact ih hm hm' hlater
    · have hno : ∀ v ∈ ws, v.1 ≠ x := fun v hv he => hlater ⟨v, hv, he⟩
      have hwx : w.1 = x := by
        obtain ⟨v, hv, he⟩ := hx
        rcases List.mem_cons.mp hv with rfl | hv
        · exact he
        · exact absurd he (hno v hv)
      rw [Memory.writes, Memory.writes, Memory.read_writes_of_not_mem hm hno, Memory.read_writes_of_not_mem hm' hno,
        Memory.read_write h, Memory.read_write h', if_pos (by rw [hwx]), if_pos (by rw [hwx])]

/-- Bytes that are in memory already, written, leave every memory that agrees there as it is. -/
theorem Memory.writes_of_agree {ws : List (Long × Byte)} {m m' : List Host.Cell} (h : Memory.wf m) (h' : Memory.wf m')
    (hsame : Memory.writes m ws = m) (hagree : ∀ w ∈ ws, Memory.read m' w.1.toNat = Memory.read m w.1.toNat) :
    Memory.writes m' ws = m' := by
  refine Memory.ext_long (Memory.wf_writes h') h' fun x => ?_
  by_cases hx : ∃ w ∈ ws, w.1 = x
  · rw [Memory.read_writes_congr h' h hx, hsame]
    obtain ⟨w, hw, rfl⟩ := hx
    exact (hagree w hw).symm
  · exact Memory.read_writes_of_not_mem h' fun w hw he => hx ⟨w, hw, he⟩

/-- A store that faults and changes nothing does so in every state that agrees where it writes. -/
theorem store_error_of_agree {s u : State} (h : s.quiet) (hu : u.quiet) (hw : s.memOk) (hw' : u.memOk) (htea : u.env.tea = s.env.tea)
    {acc : Access} {sz : Size} (hsz : acc.size = .ofSize sz) {v : Long} {f : AccessFault} (herr : store acc v s = .error f s)
    (hagree : ∀ x : Long, (x - acc.addr).toNat < acc.size.bytes → u.byteAt x = s.byteAt x ∧ u.recordAt x = s.recordAt x) :
    store acc v u = .error f u := by
  have hr : s.reaches acc = false := by
    cases hr : s.reaches acc with
    | false => rfl
    | true =>
      obtain ⟨t, ht, -⟩ := store_quiet h hw hsz v hr
      exact absurd (ht.symm.trans herr) nofun
  obtain ⟨g, ws, hwithin, hstore⟩ := store_quiet_error v hr
  have hs := herr.symm.trans (hstore s h rfl)
  obtain ⟨rfl, hsame⟩ := EStateM.Result.error.inj hs
  have hmem : Memory.writes s.mem ws = s.mem := (congrArg State.mem hsame).symm
  have hmod : Memory.writes s.modified (ws.map fun w => (w.1, codeWritten)) = s.modified := (congrArg State.modified hsame).symm
  have hmem' := Memory.writes_of_agree hw.1 hw'.1 hmem fun w hw => (hagree w.1 (hwithin w hw)).1
  have hmod' := Memory.writes_of_agree hw.2 hw'.2 hmod fun w hw => by
    obtain ⟨v, hv, rfl⟩ := List.mem_map.mp hw
    exact (hagree v.1 (hwithin v hv)).2
  rw [hstore u hu htea]
  refine congrArg (EStateM.Result.error f) ?_
  unfold State.writeBytes
  rw [hmem', hmod']

end Sys2Proof.Machine
end

