-- ==== Sys2Proof/Proofs/Movem.lean ====
section
/-!
SUPPORT. MOVEM where translation is off and no other master moves (41_system_instructions.md R220; 61_access_fault_recovery.md
R506).
-/
namespace Sys2Proof.Machine

/-! ### The registers of a mask -/

/-- The registers that a predicate names, D0 first and A7 last. -/
def regsWhere (m : Nat → Bool) : List Reg := ((List.range 16).filter m).map movemReg

theorem movemRegs_up (mask : Word) : movemRegs false mask = regsWhere fun k => mask.getLsbD k := rfl

/-- With -(An) the mask is reversed, and so is the order of transfer. -/
theorem movemRegs_down (mask : Word) : movemRegs true mask = (regsWhere fun k => mask.getLsbD (15 - k)).reverse := by
  have hrev : (List.range 16).reverse = (List.range 16).map (15 - ·) := by decide
  have hfilter : ((List.range 16).filter fun k => mask.getLsbD (15 - (15 - k))) = (List.range 16).filter fun k => mask.getLsbD k := by
    refine List.filter_congr fun k hk => ?_
    have hlt := List.mem_range.mp hk
    rw [show 15 - (15 - k) = k by omega]
  rw [regsWhere, ← List.map_reverse, ← List.filter_reverse, hrev, List.filter_map, List.map_map]
  exact congrArg (List.map fun k => movemReg (15 - k)) hfilter.symm

theorem regsWhere_length (m : Nat → Bool) : (regsWhere m).length ≤ 16 := by
  rw [regsWhere, List.length_map]
  exact (List.length_filter_le _ _).trans (by simp)

/-! ### The operand's address -/

/-- A located operand, or the address that RTE handed over, which is then used up. -/
theorem movemLocate_of_located {s : State} {ea : Ea} {l : Located} {a : Long} (sz : Size) (n : Nat)
    (hk : ea.kind ∉ [EaKind.preDec, .postInc])
    (h : if movemRestartable ea.kind = true ∧ s.movemRestart.isSome then s.movemRestart = some a
      else locate ea sz.bytes (addrPlus s.pc 4) s = .ok l s ∧ l.place = .mem a) :
    movemLocate ea sz n s = .ok (a, none) { s with movemRestart := none } := by
  cases hr : s.movemRestart with
  | none =>
    rw [hr, if_neg (by simp)] at h
    obtain ⟨hl, hplace⟩ := h
    have hs : s = { s with movemRestart := none } := by rw [← hr]
    have hlocate : movemLocate ea sz n s = (locate ea sz.bytes (addrPlus s.pc 4) >>= fun l => pure (placeAddr l.place, none)) s := by
      cases ea with
      | preDec r | postInc r => exact absurd (by simp [Ea.kind]) hk
      | _ => simp only [movemLocate, bind_eq, fetch_eq, extAddr, hr]
    rw [hlocate]
    simp only [bind_eq, hl, hplace, pure_eq, placeAddr]
    rw [← hs]
  | some b =>
    rw [hr] at h
    have hlocate : movemLocate ea sz n s = (if movemRestartable ea.kind then
          update (fun s => { s with movemRestart := none }) >>= fun _ => pure (b, none)
        else locate ea sz.bytes (addrPlus s.pc 4) >>= fun l =>
          update (fun s => { s with movemRestart := none }) >>= fun _ => pure (placeAddr l.place, none)) s := by
      cases ea with
      | preDec r | postInc r => exact absurd (by simp [Ea.kind]) hk
      | _ => simp only [movemLocate, bind_eq, fetch_eq, extAddr, hr]
    rw [hlocate]
    cases hm : movemRestartable ea.kind with
    | true =>
      rw [hm, if_pos (by simp)] at h
      simp only [if_true, bind_eq, update_eq, pure_eq, Option.some.inj h]
    | false =>
      rw [hm, if_neg (by simp)] at h
      obtain ⟨hl, hplace⟩ := h
      simp only [Bool.false_eq_true, if_false, bind_eq, update_eq, pure_eq, hl, hplace, placeAddr]

theorem movemLocate_postInc (s : State) (r : RegNo) (sz : Size) (n : Nat) : movemLocate (.postInc r) sz n s =
    .ok (s.getA r, some (r, s.getA r + BitVec.ofNat 32 (n * sz.bytes))) { s with movemRestart := none } := rfl

theorem movemLocate_preDec (s : State) (r : RegNo) (sz : Size) (n : Nat) : movemLocate (.preDec r) sz n s =
    .ok (s.getA r - BitVec.ofNat 32 sz.bytes, some (r, s.getA r - BitVec.ofNat 32 (n * sz.bytes)))
      { s with movemRestart := none } := rfl

/-! ### The instruction, from its loop -/

theorem withMovemEa_ok {α : Type} {a : Long} {m : M α} {s t : State} {v : α} (h : m s = .ok v t) :
    withMovemEa a m s = .ok v t := by
  rw [withMovemEa, h]

theorem withMovemEa_fault {α : Type} {a : Long} {m : M α} {s t : State} {f : AccessFault} (h : m s = .error (.access f) t) :
    withMovemEa a m s = .error (.access { f with cont := .cm a }) t := by
  rw [withMovemEa, h]

/-- An instruction that meets an access fault stacks its own address. -/
theorem runInstr_of_access {words : Nat} {body : Long → M Flow} {s t : State} {f : AccessFault}
    (h : body (s.pc + BitVec.ofNat 32 (2 * words)) s = .error (.access f) t) :
    runInstr words body s = .next (t.takeAccessFault t.sr s.pc f) := by
  simp [runInstr, h, State.aborted]

/-- The step of the address of a MOVEM to memory. -/
def movemStep (sz : Size) (down : Bool) : Long := if down then -(BitVec.ofNat 32 sz.bytes) else BitVec.ofNat 32 sz.bytes

section store
variable {s s0 t : State} {long down : Bool} {mask : Word} {ea : Ea} {a : Long} {st : Option (RegNo × Long)}
  (hdown : (ea.kind == .preDec) = down)
  (hl : movemLocate ea (movemSize long) (movemRegs down mask).length s = .ok (a, st) s0)
include hdown hl

theorem exec_movemStore_ok
    (hloop : movemStoreFrom (movemSize long) (movemStep (movemSize long) down) a (movemRegs down mask) s0 = .ok () t) :
    exec (.movemStore long mask ea) s = .next (s.goOn (eaLength 1 ea) .seq (applyStep st t)) := by
  subst hdown
  unfold movemStep at hloop
  unfold exec
  refine runInstr_of_seq ?_
  cases st <;> simp only [bind_eq, hl, withMovemEa_ok hloop, pure_eq, update_eq, applyStep]

theorem exec_movemStore_fault {f : AccessFault}
    (hloop : movemStoreFrom (movemSize long) (movemStep (movemSize long) down) a (movemRegs down mask) s0 =
      .error (.access f) t) :
    exec (.movemStore long mask ea) s = .next (t.takeAccessFault t.sr s.pc { f with cont := .cm a }) := by
  subst hdown
  unfold movemStep at hloop
  unfold exec
  refine runInstr_of_access ?_
  simp only [bind_eq, hl, withMovemEa_fault hloop]

end store

/-! ### The stores -/

/-- The access of an operand store. -/
def storeAccess (sr : Word) (a : Long) (sz : Size) : Access :=
  { addr := a, size := .ofSize sz, tt := 0, tm := tmData sr, write := true, locked := false }

theorem writeData_of_ok {a : Long} {sz : Size} {v : Long} {s t : State} (h : store (storeAccess s.sr a sz) v s = .ok () t) :
    writeData a sz v s = .ok () t := by
  rw [storeAccess] at h
  simp only [writeData, dataAccess, bind_eq, fetch_eq, memWrite, access_eq, h]

theorem writeData_of_error {a : Long} {sz : Size} {v : Long} {s t : State} {f : AccessFault}
    (h : store (storeAccess s.sr a sz) v s = .error f t) : writeData a sz v s = .error (.access f) t := by
  rw [storeAccess] at h
  simp only [writeData, dataAccess, bind_eq, fetch_eq, memWrite, access_eq, h]

/-- The register's value that a MOVEM stores. -/
def movemImage (sz : Size) (s : State) (rs : List Reg) : List Byte := rs.flatMap fun r => operandBytes sz (s.getR r)

theorem movemImage_length (sz : Size) (s : State) (rs : List Reg) : (movemImage sz s rs).length = sz.bytes * rs.length := by
  rw [movemImage, List.length_flatMap]
  simp [operandBytes_length, Nat.mul_comm]

theorem State.getR_congr {s t : State} (hr : t.regs = s.regs) (hs : t.sr = s.sr) (r : Reg) : t.getR r = s.getR r := by
  cases r with
  | d k => simp only [State.getR, State.getD, hr]
  | a k => simp only [State.getR, State.getA, State.sp, State.getStack, hr, hs]

theorem movemImage_congr {sz : Size} {s t : State} (hr : t.regs = s.regs) (hs : t.sr = s.sr) (rs : List Reg) :
    movemImage sz t rs = movemImage sz s rs :=
  congrArg (List.flatMap · rs) (funext fun r => by rw [State.getR_congr hr hs])

/-- Two runs of bytes, the later one before the first. -/
theorem Stored.prepend {s t u : State} {a : Long} {bs cs : List Byte} (h : Stored s t (a + BitVec.ofNat 32 cs.length) bs)
    (h' : Stored t u a cs) (hn : cs.length + bs.length ≤ 2 ^ 32) : Stored s u a (cs ++ bs) := by
  refine ⟨by rw [h'.1, h.1], h'.2.1, fun x => ?_⟩
  have hx := (x - a).isLt
  rw [(h'.2.2 x).1, (h.2.2 x).1, (h'.2.2 x).2, (h.2.2 x).2, sub_append x a (by omega)]
  by_cases hlt : (x - a).toNat < cs.length
  · rw [List.getElem?_append_left hlt, List.getElem?_eq_getElem hlt, if_pos hlt,
      if_pos (by rw [List.length_append]; omega)]
    simp
  · have hsub : ((x - a).toNat + (2 ^ 32 - cs.length)) % 2 ^ 32 = (x - a).toNat - cs.length := by omega
    rw [List.getElem?_append_right (by omega), List.getElem?_eq_none (l := cs) (by omega), if_neg hlt, hsub, List.length_append]
    refine ⟨by simp, ?_⟩
    by_cases hc : (x - a).toNat - cs.length < bs.length
    · rw [if_pos hc, if_pos (by omega)]
    · rw [if_neg hc, if_neg (by omega)]

/-- Whether a store of an operand meets no TEA. -/
def State.storable (s : State) (a : Long) (sz : Size) : Bool := s.reaches (storeAccess s.sr a sz)

theorem State.storable_congr {s t : State} (htea : t.env.tea = s.env.tea) (hsr : t.sr = s.sr) (a : Long) (sz : Size) :
    t.storable a sz = s.storable a sz := by
  rw [State.storable, hsr, State.reaches_congr htea, State.storable]

theorem writeData_quiet {s : State} (h : s.quiet) (hw : s.memOk) {a : Long} {sz : Size} (v : Long) (hr : s.storable a sz = true) :
    ∃ t, writeData a sz v s = .ok () t ∧ Stored s t a (operandBytes sz v) := by
  obtain ⟨t, ht, hstored⟩ := store_quiet h hw (acc := storeAccess s.sr a sz) rfl v hr
  exact ⟨t, writeData_of_ok ht, hstored⟩

/-- The address of an operand of a run upwards, counted from its second one. -/
theorem run_up_succ (a : Long) (n i : Nat) : a + BitVec.ofNat 32 n + BitVec.ofNat 32 (n * i) = a + BitVec.ofNat 32 (n * (i + 1)) := by
  rw [BitVec.add_assoc, ← BitVec.ofNat_add, Nat.mul_succ, Nat.add_comm n]

theorem run_down_succ (a : Long) (n i : Nat) : a + -BitVec.ofNat 32 n - BitVec.ofNat 32 (n * i) = a - BitVec.ofNat 32 (n * (i + 1)) := by
  rw [Nat.mul_succ, Nat.add_comm, BitVec.ofNat_add]
  exact ((fun x y z => by ring) : ∀ x y z : Long, x + -y - z = x - (y + z)) _ _ _

/-- Registers stored one after the other upwards. -/
theorem movemStoreFrom_up {s : State} (h : s.quiet) (hw : s.memOk) {sz : Size} {a : Long} {rs : List Reg}
    (hn : sz.bytes * rs.length ≤ 2 ^ 32) (hr : ∀ i < rs.length, s.storable (a + BitVec.ofNat 32 (sz.bytes * i)) sz = true) :
    ∃ t, movemStoreFrom sz (BitVec.ofNat 32 sz.bytes) a rs s = .ok () t ∧ Stored s t a (movemImage sz s rs) := by
  induction rs generalizing s a with
  | nil => exact ⟨s, rfl, Stored.refl hw a⟩
  | cons r rs ih =>
    have hlen : sz.bytes + sz.bytes * rs.length ≤ 2 ^ 32 := by rw [List.length_cons, Nat.mul_succ] at hn; omega
    obtain ⟨u, hu, hfirst⟩ := writeData_quiet h hw (s.getR r) (by simpa using hr 0 (by simp))
    obtain ⟨t, ht, hrest⟩ := ih (h.congr hfirst.ctl_eq hfirst.env_eq) hfirst.2.1 (by omega) fun i hi => by
      rw [State.storable_congr (by rw [hfirst.env_eq]) hfirst.sr_eq, run_up_succ]
      exact hr (i + 1) (by simpa using hi)
    rw [movemImage_congr hfirst.regs_eq hfirst.sr_eq] at hrest
    refine ⟨t, by simp only [movemStoreFrom, bind_eq, fetch_eq, hu, ht], ?_⟩
    refine hfirst.append (by rwa [operandBytes_length]) ?_
    rw [operandBytes_length]
    exact (congrArg (sz.bytes + ·) (movemImage_length sz s rs)).trans_le hlen

/-- Registers stored one after the other downwards lie in memory the other way round. -/
theorem movemStoreFrom_down {s : State} (h : s.quiet) (hw : s.memOk) {sz : Size} {a : Long} {rs : List Reg}
    (hn : sz.bytes * rs.length ≤ 2 ^ 32)
    (hr : ∀ i < rs.length, s.storable (a - BitVec.ofNat 32 sz.bytes - BitVec.ofNat 32 (sz.bytes * i)) sz = true) :
    ∃ t, movemStoreFrom sz (-BitVec.ofNat 32 sz.bytes) (a - BitVec.ofNat 32 sz.bytes) rs s = .ok () t ∧
      Stored s t (a - BitVec.ofNat 32 (sz.bytes * rs.length)) (movemImage sz s rs.reverse) := by
  induction rs generalizing s a with
  | nil => exact ⟨s, rfl, Stored.refl hw _⟩
  | cons r rs ih =>
    have hlen : sz.bytes * rs.length + sz.bytes ≤ 2 ^ 32 := by rw [List.length_cons, Nat.mul_succ] at hn; omega
    obtain ⟨u, hu, hfirst⟩ := writeData_quiet h hw (s.getR r) (by simpa using hr 0 (by simp))
    obtain ⟨t, ht, hrest⟩ := ih (a := a - BitVec.ofNat 32 sz.bytes) (h.congr hfirst.ctl_eq hfirst.env_eq) hfirst.2.1 (by omega)
      fun i hi => by
        rw [State.storable_congr (by rw [hfirst.env_eq]) hfirst.sr_eq, sub_eq_add_neg (a - _), run_down_succ]
        exact hr (i + 1) (by simpa using hi)
    rw [movemImage_congr hfirst.regs_eq hfirst.sr_eq, sub_eq_add_neg a, run_down_succ] at hrest
    refine ⟨t, by simp only [movemStoreFrom, bind_eq, fetch_eq, hu, ht, ← sub_eq_add_neg], ?_⟩
    have himage : movemImage sz s (r :: rs).reverse = movemImage sz s rs.reverse ++ operandBytes sz (s.getR r) := by
      simp [movemImage]
    have hcs : (movemImage sz s rs.reverse).length = sz.bytes * rs.length := by rw [movemImage_length, List.length_reverse]
    have hplace : a - BitVec.ofNat 32 sz.bytes =
        a - BitVec.ofNat 32 (sz.bytes * (rs.length + 1)) + BitVec.ofNat 32 (movemImage sz s rs.reverse).length := by
      rw [hcs, ← run_down_succ]
      exact ((fun x y z => by ring) : ∀ x y z : Long, x - y = x + -y - z + z) _ _ _
    rw [himage]
    refine Stored.prepend (hplace ▸ hfirst) hrest ?_
    rw [hcs, operandBytes_length]
    exact hlen

/-- A fault of the store after some. -/
theorem movemStoreFrom_fault {sz : Size} {step a : Long} {rs qs : List Reg} {r : Reg} {s t u : State} {x : Abort}
    (hok : movemStoreFrom sz step a rs s = .ok () t)
    (hfault : writeData (a + BitVec.ofNat 32 rs.length * step) sz (t.getR r) t = .error x u) :
    movemStoreFrom sz step a (rs ++ r :: qs) s = .error x u := by
  induction rs generalizing a s with
  | nil =>
    obtain ⟨-, rfl⟩ := EStateM.Result.ok.inj hok
    simp only [List.length_nil, BitVec.zero_mul, BitVec.add_zero] at hfault
    simp only [List.nil_append, movemStoreFrom, bind_eq, fetch_eq, hfault]
  | cons q rs ih =>
    simp only [List.cons_append, movemStoreFrom, bind_eq, fetch_eq] at hok ⊢
    cases hq : writeData a sz (s.getR q) s with
    | error e v => rw [hq] at hok; exact absurd hok nofun
    | ok w v =>
      rw [hq] at hok
      refine ih hok ?_
      rw [← hfault]
      refine congrArg (fun b => writeData b sz (t.getR r) t) ?_
      rw [List.length_cons, BitVec.ofNat_add]
      exact ((fun x y z => by ring) : ∀ x y z : Long, x + y + z * y = x + (z + 1) * y) _ _ _

theorem storable_of_ok {s t : State} (h : s.quiet) {a : Long} {sz : Size} {v : Long}
    (hok : store (storeAccess s.sr a sz) v s = .ok () t) : s.storable a sz = true := by
  cases hr : s.storable a sz with
  | true => rfl
  | false =>
    obtain ⟨f, ws, -, herr⟩ := store_quiet_error v hr
    exact absurd (hok.symm.trans (herr s h rfl)) nofun

/-- The list of a run, parted at one of its registers. -/
theorem take_getD_drop {α : Type} {l : List α} {j : Nat} (hj : j < l.length) (d : α) : l = l.take j ++ l.getD j d :: l.drop (j + 1) := by
  rw [List.getD_eq_getElem _ _ hj, ← List.drop_eq_getElem_cons hj, List.take_append_drop]

/-- An address at or after the end of a run of bytes and within one operand of it is outside the run. -/
theorem outside_of_after {x a : Long} {n m : Nat} (hx : (x - (a + BitVec.ofNat 32 n)).toNat < m) (hnm : n + m ≤ 2 ^ 32) :
    n ≤ (x - a).toNat := by
  rw [sub_append x a (by omega)] at hx
  have := (x - a).isLt
  omega

/-- So is one within an operand that ends where the run begins. -/
theorem outside_of_before {x a : Long} {n m : Nat} (hx : (x - a).toNat < m) (hnm : n + m ≤ 2 ^ 32) :
    n ≤ (x - (a + BitVec.ofNat 32 m)).toNat := by
  rw [sub_append x a (by omega)]
  omega

section fault
variable {s : State} (h : s.quiet) (hw : s.memOk) {sz : Size} {rs : List Reg} {j : Nat} {f : AccessFault}
  (hn : sz.bytes * rs.length ≤ 2 ^ 31) (hj : j < rs.length)
include h hw

/-- A store that faults after others that do not touch it faults then as at the beginning. -/
theorem writeData_fault_of_stored {a b : Long} {bs : List Byte} {t : State} {v : Long}
    (hstored : Stored { s with movemRestart := none } t b bs)
    (herr : store (storeAccess s.sr a sz) v s = .error f s) (hapart : ∀ x : Long, (x - a).toNat < sz.bytes → bs.length ≤ (x - b).toNat) :
    writeData a sz v t = .error (.access f) t := by
  refine writeData_of_error ?_
  rw [hstored.sr_eq]
  refine store_error_of_agree h (h.congr hstored.ctl_eq hstored.env_eq) hw hstored.2.1 (by rw [hstored.env_eq]) rfl herr fun x hx => ?_
  have hx' := hapart x (by cases sz <;> exact hx)
  refine ⟨hstored.byteAt_of_not hx', ?_⟩
  rw [(hstored.2.2 x).2, if_neg (by omega)]
  rfl

include hn hj

theorem movemStoreFrom_up_fault {a : Long}
    (hok : ∀ i < j, ∃ t, store (storeAccess s.sr (a + BitVec.ofNat 32 (sz.bytes * i)) sz) (s.getR (rs.getD i (.d 0))) s = .ok () t)
    (herr : store (storeAccess s.sr (a + BitVec.ofNat 32 (sz.bytes * j)) sz) (s.getR (rs.getD j (.d 0))) s = .error f s) :
    ∃ t, Stored { s with movemRestart := none } t a (movemImage sz s (rs.take j)) ∧
      movemStoreFrom sz (BitVec.ofNat 32 sz.bytes) a rs { s with movemRestart := none } = .error (.access f) t := by
  have hlen : (rs.take j).length = j := List.length_take_of_le (by omega)
  have hsum : sz.bytes * j + sz.bytes ≤ 2 ^ 32 := (Nat.mul_succ sz.bytes j ▸ Nat.mul_le_mul_left sz.bytes hj).trans (by omega)
  obtain ⟨t, ht, hstored⟩ := movemStoreFrom_up (s := { s with movemRestart := none }) h hw (sz := sz) (a := a) (rs := rs.take j)
    (by rw [hlen]; omega) fun i hi => by
      obtain ⟨u, hu⟩ := hok i (by omega)
      exact storable_of_ok h hu
  have hbytes : (movemImage sz s (rs.take j)).length = sz.bytes * j := by rw [movemImage_length, hlen]
  refine ⟨t, hstored, ?_⟩
  rw [take_getD_drop hj (.d 0)]
  refine movemStoreFrom_fault ht ?_
  rw [hlen, ← BitVec.ofNat_mul, Nat.mul_comm j, State.getR_congr hstored.regs_eq hstored.sr_eq]
  refine writeData_fault_of_stored h hw hstored herr fun x hx => ?_
  exact hbytes ▸ outside_of_after hx hsum

theorem movemStoreFrom_down_fault {a : Long}
    (hok : ∀ i < j, ∃ t, store (storeAccess s.sr (a - BitVec.ofNat 32 sz.bytes - BitVec.ofNat 32 (sz.bytes * i)) sz)
      (s.getR (rs.getD i (.d 0))) s = .ok () t)
    (herr : store (storeAccess s.sr (a - BitVec.ofNat 32 sz.bytes - BitVec.ofNat 32 (sz.bytes * j)) sz)
      (s.getR (rs.getD j (.d 0))) s = .error f s) :
    ∃ t, Stored { s with movemRestart := none } t (a - BitVec.ofNat 32 (sz.bytes * j)) (movemImage sz s (rs.take j).reverse) ∧
      movemStoreFrom sz (-BitVec.ofNat 32 sz.bytes) (a - BitVec.ofNat 32 sz.bytes) rs { s with movemRestart := none } =
        .error (.access f) t := by
  have hlen : (rs.take j).length = j := List.length_take_of_le (by omega)
  have hsum : sz.bytes * j + sz.bytes ≤ 2 ^ 32 := (Nat.mul_succ sz.bytes j ▸ Nat.mul_le_mul_left sz.bytes hj).trans (by omega)
  obtain ⟨t, ht, hstored⟩ := movemStoreFrom_down (s := { s with movemRestart := none }) h hw (sz := sz) (a := a) (rs := rs.take j)
    (by rw [hlen]; omega) fun i hi => by
      obtain ⟨u, hu⟩ := hok i (by omega)
      exact storable_of_ok h hu
  have hbytes : (movemImage sz s (rs.take j).reverse).length = sz.bytes * j := by rw [movemImage_length, List.length_reverse, hlen]
  rw [hlen] at hstored
  refine ⟨t, hstored, ?_⟩
  rw [take_getD_drop hj (.d 0)]
  refine movemStoreFrom_fault ht ?_
  have hplace : a - BitVec.ofNat 32 sz.bytes + BitVec.ofNat 32 j * -BitVec.ofNat 32 sz.bytes =
      a - BitVec.ofNat 32 sz.bytes - BitVec.ofNat 32 (sz.bytes * j) := by rw [BitVec.ofNat_mul]; ring
  have hrun : a - BitVec.ofNat 32 (sz.bytes * j) =
      a - BitVec.ofNat 32 sz.bytes - BitVec.ofNat 32 (sz.bytes * j) + BitVec.ofNat 32 sz.bytes := by ring
  rw [hlen, hplace, State.getR_congr hstored.regs_eq hstored.sr_eq]
  refine writeData_fault_of_stored h hw hstored herr fun x hx => ?_
  refine hbytes.trans_le ?_
  rw [hrun]
  exact outside_of_before hx hsum

end fault

theorem movemSize_mul_le (long : Bool) {n : Nat} (hn : n ≤ 16) : (movemSize long).bytes * n ≤ 2 ^ 31 := by
  cases long <;> simp only [movemSize, Size.bytes, if_true, Bool.false_eq_true, if_false] <;> omega

/-- Settles O37: the loop of a MOVEM stores register after register (`movemStoreFrom_up`, `movemStoreFrom_down`), up to one whose
bytes the earlier stores do not touch (`writeData_fault_of_stored`). -/
theorem movemStores : Obligations.MovemStores := by
  unfold Obligations.MovemStores
  intro s long mask hoff hbus hw sz s0 regs up down image located storing
  have h : s.quiet := ⟨hoff, hbus⟩
  have hup : movemRegs false mask = up := rfl
  have hdown : movemRegs true mask = down.reverse := movemRegs_down mask
  have hupLen : sz.bytes * up.length ≤ 2 ^ 31 := movemSize_mul_le long (regsWhere_length _)
  have hdownLen : sz.bytes * down.reverse.length ≤ 2 ^ 31 :=
    movemSize_mul_le long (List.length_reverse.trans_le (regsWhere_length _))
  have hkind {ea : Ea} {l : Located} {a : Long} (hl : located ea l a) : (ea.kind == .preDec) = false := by
    obtain ⟨hk, -⟩ := hl
    cases hx : ea.kind <;> simp_all
  have hlocate {ea : Ea} {l : Located} {a : Long} (hl : located ea l a) :
      movemLocate ea (movemSize long) (movemRegs false mask).length s = .ok (a, none) s0 := by
    obtain ⟨hk, hl⟩ := hl
    have hindex : movemRestartable ea.kind = true ↔ ea.kind = .index := by
      cases hx : ea.kind <;> simp_all [movemRestartable]
    exact movemLocate_of_located (l := l) _ _ (by simp_all) ((if_congr (and_congr_left' hindex) rfl rfl).mpr hl)
  refine ⟨fun htea => ⟨fun ea l a hl => ?_, ?_⟩, fun j f => ⟨fun ea l a hl hj hok herr => ?_, ?_⟩⟩
  · obtain ⟨t, ht, hstored⟩ := movemStoreFrom_up (s := s0) h hw (sz := sz) (a := a) (rs := up) (by omega)
      fun i _ => State.reaches_of_nil htea _
    exact ⟨t, hstored, exec_movemStore_ok (hkind hl) (hlocate hl) (hup ▸ ht)⟩
  · intro r low
    obtain ⟨t, ht, hstored⟩ := movemStoreFrom_down (s := s0) h hw (sz := sz) (a := s.getA r) (rs := down.reverse) (by omega)
      fun i _ => State.reaches_of_nil htea _
    have hlen : (image down).length = sz.bytes * down.length := movemImage_length sz s down
    have hlow : s.getA r - BitVec.ofNat 32 (sz.bytes * down.reverse.length) = low := by rw [List.length_reverse, ← hlen]
    rw [List.reverse_reverse, hlow] at hstored
    refine ⟨t, hstored, ?_⟩
    refine (exec_movemStore_ok (down := true) (ea := .preDec r) rfl (movemLocate_preDec s r _ _) (hdown ▸ ht)).trans ?_
    rw [hdown, Nat.mul_comm]
    exact congrArg (fun b => Host.Outcome.next (s.goOn 2 .seq (t.setA r b))) hlow
  · obtain ⟨t, hstored, ht⟩ := movemStoreFrom_up_fault h hw hupLen hj hok herr
    refine ⟨t, hstored, (exec_movemStore_fault (hkind hl) (hlocate hl) (hup ▸ ht)).trans ?_⟩
    rw [hstored.sr_eq]
  · intro r first last hj hok herr
    obtain ⟨t, hstored, ht⟩ := movemStoreFrom_down_fault h hw hdownLen hj hok herr
    refine ⟨t, hstored, (exec_movemStore_fault (down := true) (ea := .preDec r) rfl (movemLocate_preDec s r _ _) (hdown ▸ ht)).trans ?_⟩
    rw [hstored.sr_eq]
    rfl

end Sys2Proof.Machine
end

