-- ==== Sys2Proof/Proofs/MovemLoad.lean ====
section
/-!
SUPPORT. MOVEM from memory where translation is off and no other master moves (41_system_instructions.md R220).
-/
namespace Sys2Proof.Machine

/-! ### Writes of an address register -/

/-- The registers after a write of address register `n`, where `k` is the active stack pointer. -/
def Regs.setA (k : StackSel) (n : RegNo) (v : Long) (r : Regs) : Regs :=
  match n.toNat with
  | 0 => { r with a0 := v }
  | 1 => { r with a1 := v }
  | 2 => { r with a2 := v }
  | 3 => { r with a3 := v }
  | 4 => { r with a4 := v }
  | 5 => { r with a5 := v }
  | 6 => { r with a6 := v }
  | _ => match k with
    | .usp => { r with usp := v }
    | .msp => { r with msp := v }
    | .isp => { r with isp := v }

theorem State.setA_regs (n : RegNo) (v : Long) (s : State) :
    s.setA n v = { s with regs := Regs.setA (activeStack s.sr) n v s.regs } := by
  have hn := n.isLt
  unfold State.setA Regs.setA State.setSp State.setStack
  generalize n.toNat = i at hn
  match i, hn with
  | 0, _ | 1, _ | 2, _ | 3, _ | 4, _ | 5, _ | 6, _ => rfl
  | 7, _ => cases activeStack s.sr <;> rfl

theorem State.setA_setA (n : RegNo) (v w : Long) (s : State) : (s.setA n v).setA n w = s.setA n w := by
  have hn := n.isLt
  simp only [State.setA_regs, Regs.setA]
  generalize n.toNat = i at hn
  match i, hn with
  | 0, _ | 1, _ | 2, _ | 3, _ | 4, _ | 5, _ | 6, _ => rfl
  | 7, _ => cases activeStack s.sr <;> rfl

theorem State.setA_comm {n m : RegNo} (h : n ≠ m) (v w : Long) (s : State) : (s.setA n v).setA m w = (s.setA m w).setA n v := by
  have hn := n.isLt
  have hm := m.isLt
  have hne : n.toNat ≠ m.toNat := fun e => h (BitVec.eq_of_toNat_eq e)
  simp only [State.setA_regs, Regs.setA]
  generalize n.toNat = i at hn hne
  generalize m.toNat = j at hm hne
  cases activeStack s.sr <;>
  match i, hn with
  | 0, _ | 1, _ | 2, _ | 3, _ | 4, _ | 5, _ | 6, _ | 7, _ =>
    match j, hm with
    | 0, _ | 1, _ | 2, _ | 3, _ | 4, _ | 5, _ | 6, _ | 7, _ => first | rfl | exact absurd rfl hne

theorem State.setD_setA_comm (n m : RegNo) (v w : Long) (s : State) : (s.setD n v).setA m w = (s.setA m w).setD n v := by
  have hm := m.isLt
  simp only [State.setA_regs, State.setD, Regs.setA]
  generalize m.toNat = i at hm
  match i, hm with
  | 0, _ | 1, _ | 2, _ | 3, _ | 4, _ | 5, _ | 6, _ => rfl
  | 7, _ => cases activeStack s.sr <;> rfl

/-- A register that is not the address register written last. -/
theorem State.setR_setA_comm {q : Reg} {r : RegNo} (h : q ≠ .a r) (v w : Long) (s : State) :
    (s.setR q v).setA r w = (s.setA r w).setR q v := by
  cases q with
  | d n => exact s.setD_setA_comm n r v w
  | a n => exact s.setA_comm (fun e => h (by rw [e])) v w

/-! ### The loads -/

/-- The access of an operand load. -/
def loadAccess (sr : Word) (a : Long) (sz : Size) : Access :=
  { addr := a, size := .ofSize sz, tt := 0, tm := tmData sr, write := false, locked := false }

/-- The states in which a load answers the same. -/
structure State.LoadsAs (s t : State) : Prop where
  mem : t.mem = s.mem
  ctl : t.ctl = s.ctl
  env : t.env = s.env
  sr : t.sr = s.sr

theorem State.LoadsAs.refl (s : State) : s.LoadsAs s := ⟨rfl, rfl, rfl, rfl⟩

theorem State.LoadsAs.valueAt {s t : State} (h : s.LoadsAs t) (a : Long) (sz : Size) : t.valueAt a sz = s.valueAt a sz := by
  cases sz <;> simp only [State.valueAt, State.longAt, State.wordAt, State.byteAt, h.mem]

theorem readData_of_load {s t : State} (hs : s.quiet) (h : s.LoadsAs t) {a v : Long} {sz : Size}
    (hok : load (loadAccess s.sr a sz) s = .ok v s) : readData a sz t = .ok v t := by
  have hq := hs.congr h.ctl h.env
  rw [load_quiet hs (sz := sz) rfl] at hok
  have hload : load (loadAccess s.sr a sz) t = .ok v t := by
    rw [load_quiet hq (sz := sz) rfl, State.reaches_congr (s := s) (by rw [h.env]), h.valueAt]
    split at hok
    · next hr => rw [if_pos hr, (EStateM.Result.ok.inj hok).1]
    · exact absurd hok nofun
  rw [← h.sr, loadAccess] at hload
  simp only [readData, dataAccess, bind_eq, fetch_eq, memRead, access_eq, hload]

theorem readData_of_load_error {s t : State} (hs : s.quiet) (h : s.LoadsAs t) {a : Long} {sz : Size} {f : AccessFault}
    (herr : load (loadAccess s.sr a sz) s = .error f s) : readData a sz t = .error (.access f) t := by
  have hq := hs.congr h.ctl h.env
  rw [load_quiet hs (sz := sz) rfl] at herr
  have hload : load (loadAccess s.sr a sz) t = .error f t := by
    rw [load_quiet hq (sz := sz) rfl, State.reaches_congr (s := s) (by rw [h.env])]
    split at herr
    · exact absurd herr nofun
    · next hr => rw [if_neg hr, (EStateM.Result.error.inj herr).1]
  rw [← h.sr, loadAccess] at hload
  simp only [readData, dataAccess, bind_eq, fetch_eq, memRead, access_eq, hload]

/-- A register loaded, but not the one that (An)+ writes at the end. -/
def movemPut (base : Option Reg) (sz : Size) (v : Nat → Long) (t : State) (x : Reg × Nat) : State :=
  if base = some x.1 then t else t.setR x.1 (sextLong sz (v x.2))

theorem State.LoadsAs.put {s t : State} (h : s.LoadsAs t) (base : Option Reg) (sz : Size) (v : Nat → Long) (x : Reg × Nat) :
    s.LoadsAs (movemPut base sz v t x) := by
  unfold movemPut
  split
  · exact h
  · exact ⟨by rw [State.setR_mem, h.mem], by rw [State.setR_ctl, h.ctl], by rw [State.setR_env, h.env],
      by rw [State.setR_sr, h.sr]⟩

theorem movemPut_none (sz : Size) (v : Nat → Long) : movemPut none sz v = fun t x => t.setR x.1 (sextLong sz (v x.2)) := by
  funext t x
  rw [movemPut, if_neg (by simp)]

/-- Registers loaded one after the other, from the `k`th on. -/
theorem movemLoadFrom_ok {s t : State} (hs : s.quiet) (h : s.LoadsAs t) {base : Option Reg} {sz : Size} {a : Long} {rs : List Reg}
    {v : Nat → Long} {k : Nat}
    (hv : ∀ i < rs.length, load (loadAccess s.sr (a + BitVec.ofNat 32 (sz.bytes * i)) sz) s = .ok (v (k + i)) s) :
    movemLoadFrom base sz a rs t = .ok () ((rs.zipIdx k).foldl (movemPut base sz v) t) := by
  induction rs generalizing t a k with
  | nil => rfl
  | cons r rs ih =>
    have hfirst := readData_of_load hs h (hv 0 (by simp))
    simp only [Nat.mul_zero, BitVec.add_zero, Nat.add_zero] at hfirst
    simp only [movemLoadFrom, bind_eq, hfirst, update_eq, List.zipIdx_cons, List.foldl_cons]
    refine ih (h.put base sz v (r, k)) fun i hi => ?_
    rw [addrPlus, run_up_succ, Nat.add_assoc, Nat.add_comm 1]
    exact hv (i + 1) (by simpa using hi)

/-- A fault of the load after some. -/
theorem movemLoadFrom_fault {s t : State} (hs : s.quiet) (h : s.LoadsAs t) {base : Option Reg} {sz : Size} {a : Long} {rs qs : List Reg}
    {r : Reg} {v : Nat → Long} {k : Nat} {f : AccessFault}
    (hv : ∀ i < rs.length, load (loadAccess s.sr (a + BitVec.ofNat 32 (sz.bytes * i)) sz) s = .ok (v (k + i)) s)
    (herr : load (loadAccess s.sr (a + BitVec.ofNat 32 (sz.bytes * rs.length)) sz) s = .error f s) :
    movemLoadFrom base sz a (rs ++ r :: qs) t = .error (.access f) ((rs.zipIdx k).foldl (movemPut base sz v) t) := by
  induction rs generalizing t a k with
  | nil =>
    have hfirst := readData_of_load_error hs h herr
    simp only [List.length_nil, Nat.mul_zero, BitVec.add_zero] at hfirst
    simp only [List.nil_append, movemLoadFrom, bind_eq, hfirst, List.zipIdx_nil, List.foldl_nil]
  | cons q rs ih =>
    have hfirst := readData_of_load hs h (hv 0 (by simp))
    simp only [Nat.mul_zero, BitVec.add_zero, Nat.add_zero] at hfirst
    simp only [List.cons_append, movemLoadFrom, bind_eq, hfirst, update_eq, List.zipIdx_cons, List.foldl_cons]
    refine ih (h.put base sz v (q, k)) (fun i hi => ?_) ?_
    · rw [addrPlus, run_up_succ, Nat.add_assoc, Nat.add_comm 1]
      exact hv (i + 1) (by simpa using hi)
    · rw [addrPlus, run_up_succ]
      exact herr

/-- What is loaded into the register of (An)+ is overwritten at the end. -/
theorem movemPut_base (r : RegNo) (sz : Size) (v : Nat → Long) (x : Long) (xs : List (Reg × Nat)) {t u : State}
    (h : t.setA r x = u.setA r x) :
    (xs.foldl (movemPut (some (.a r)) sz v) t).setA r x = (xs.foldl (movemPut none sz v) u).setA r x := by
  induction xs generalizing t u with
  | nil => exact h
  | cons y xs ih =>
    refine ih ?_
    unfold movemPut
    by_cases hy : y.1 = .a r
    · rw [hy, if_pos rfl, if_neg (by simp), State.setR, State.setA_setA, h]
    · rw [if_neg (by simpa using fun e => hy e.symm), if_neg (by simp), State.setR_setA_comm hy, State.setR_setA_comm hy, h]

/-! ### The instruction -/

section load
variable {s s0 t : State} {long : Bool} {mask : Word} {ea : Ea} {a : Long} {st : Option (RegNo × Long)}
  (hl : movemLocate ea (movemSize long) (movemRegs false mask).length s = .ok (a, st) s0)
include hl

theorem exec_movemLoad_ok
    (hloop : movemLoadFrom (st.map fun x => .a x.1) (movemSize long) a (movemRegs false mask) s0 = .ok () t) :
    exec (.movemLoad long mask ea) s = .next (s.goOn (eaLength 1 ea) .seq (applyStep st t)) := by
  unfold exec
  refine runInstr_of_seq ?_
  cases st <;> simp only [bind_eq, hl, withMovemEa_ok hloop, pure_eq, update_eq, applyStep]

theorem exec_movemLoad_fault {f : AccessFault}
    (hloop : movemLoadFrom (st.map fun x => .a x.1) (movemSize long) a (movemRegs false mask) s0 = .error (.access f) t) :
    exec (.movemLoad long mask ea) s = .next (t.takeAccessFault t.sr s.pc { f with cont := .cm a }) := by
  unfold exec
  refine runInstr_of_access ?_
  simp only [bind_eq, hl, withMovemEa_fault hloop]

end load

theorem foldl_movemPut_sr (base : Option Reg) (sz : Size) (v : Nat → Long) (xs : List (Reg × Nat)) (t : State) :
    (xs.foldl (movemPut base sz v) t).sr = t.sr := by
  induction xs generalizing t with
  | nil => rfl
  | cons x xs ih => rw [List.foldl_cons, ih, ((State.LoadsAs.refl t).put base sz v x).sr]

/-- Settles O38: the loop of a MOVEM loads register after register (`movemLoadFrom_ok`, `movemLoadFrom_fault`), and what it would
load into the register of (An)+ does not matter (`movemPut_base`). -/
theorem movemLoads : Obligations.MovemLoads := by
  unfold Obligations.MovemLoads
  intro s long mask hoff hbus sz s0 regs loaded values located loading faults
  have h : s.quiet := ⟨hoff, hbus⟩
  have hs0 : s.LoadsAs s0 := ⟨rfl, rfl, rfl, rfl⟩
  have hvalues (htea : s.env.tea = []) (a : Long) : ∀ i < regs.length,
      load (loadAccess s.sr (a + BitVec.ofNat 32 (sz.bytes * i)) sz) s = .ok (values a (0 + i)) s := fun i _ => by
    rw [load_quiet h (sz := sz) rfl, if_pos (State.reaches_of_nil htea _), Nat.zero_add]
    rfl
  have hfaults {ea : Ea} {a : Long} {st : Option (RegNo × Long)}
      (hl : movemLocate ea (movemSize long) (movemRegs false mask).length s = .ok (a, st) s0) :
      faults ea a (st.map fun x => .a x.1) := fun j v f hj hv herr => by
    have hlen : (regs.take j).length = j := List.length_take_of_le (by omega)
    have hloop := movemLoadFrom_fault (base := st.map fun x => .a x.1) (r := regs.getD j (.d 0)) (qs := regs.drop (j + 1)) (k := 0)
      (v := v) h hs0 (fun i hi => by rw [Nat.zero_add]; exact hv i (hlen ▸ hi)) (hlen ▸ herr)
    rw [← take_getD_drop hj] at hloop
    refine (exec_movemLoad_fault hl hloop).trans ?_
    rw [foldl_movemPut_sr]
    rfl
  have hloaded (v : Nat → Long) : loaded regs v = (regs.zipIdx 0).foldl (movemPut none sz v) s0 := by rw [movemPut_none]
  refine ⟨fun ea l a hl => ?_, fun r => ⟨hfaults (st := some (r, _)) (movemLocate_postInc s r _ _), fun htea => ?_⟩⟩
  · have hlocate : movemLocate ea (movemSize long) (movemRegs false mask).length s = .ok (a, none) s0 := by
      obtain ⟨hk, hl⟩ := hl
      have hmode : movemRestartable ea.kind = true ↔ ea.kind ∈ [EaKind.index, .pcDisp, .pcIndex] := by
        cases ea.kind <;> decide
      exact movemLocate_of_located (l := l) _ _ hk ((if_congr (and_congr_left' hmode) rfl rfl).mpr hl)
    refine ⟨hfaults (st := none) hlocate, fun htea => ?_⟩
    have hloop := movemLoadFrom_ok (base := none) (k := 0) h hs0 (hvalues htea a)
    rw [hloaded]
    exact exec_movemLoad_ok hlocate hloop
  · have hloop := movemLoadFrom_ok (base := some (.a r)) (k := 0) h hs0 (hvalues htea (s.getA r))
    rw [hloaded]
    refine (exec_movemLoad_ok (movemLocate_postInc s r _ _) hloop).trans ?_
    refine congrArg (fun t => Host.Outcome.next (s.goOn 2 .seq t)) ?_
    rw [Nat.mul_comm]
    exact movemPut_base r sz (values (s.getA r)) _ (regs.zipIdx 0) rfl

end Sys2Proof.Machine
end

