-- ==== Sys2Proof/Proofs/FpBase.lean ====
section
/-!
SUPPORT. The steps common to floating-point instructions (42_fp_instructions.md R260, R261, R264): the pending exception, the
source operand, and the instructions by their kind.
-/
namespace Sys2Proof.Machine

/-! ### The common steps -/

theorem fpCommon_of_pending {s : State} {p : Pending} (h : s.fpu.pending = some p) :
    fpCommon s = .error (.exc (preInstructionExc p.vector s.pc)) s := by
  rw [fpCommon, h]

theorem fpCommon_of_none {s : State} (h : s.fpu.pending = none) : fpCommon s = .ok () s.fpAwake := by
  rw [fpCommon, h]
  rfl

/-- The null mode becoming idle changes the mode alone. -/
theorem State.fpAwake_eq (s : State) : ∃ m, s.fpAwake = { s with fpu := { s.fpu with mode := m } } := by
  unfold State.fpAwake
  split
  · exact ⟨_, rfl⟩
  · exact ⟨s.fpu.mode, rfl⟩

@[simp] theorem State.fpAwake_pc (s : State) : s.fpAwake.pc = s.pc := by unfold State.fpAwake; split <;> rfl
@[simp] theorem State.fpAwake_sr (s : State) : s.fpAwake.sr = s.sr := by unfold State.fpAwake; split <;> rfl
@[simp] theorem State.fpAwake_fp (s : State) : s.fpAwake.fp = s.fp := by unfold State.fpAwake; split <;> rfl
@[simp] theorem State.fpAwake_regs (s : State) : s.fpAwake.regs = s.regs := by unfold State.fpAwake; split <;> rfl
@[simp] theorem State.fpAwake_ctl (s : State) : s.fpAwake.ctl = s.ctl := by unfold State.fpAwake; split <;> rfl
@[simp] theorem State.fpAwake_env (s : State) : s.fpAwake.env = s.env := by unfold State.fpAwake; split <;> rfl
@[simp] theorem State.fpAwake_mem (s : State) : s.fpAwake.mem = s.mem := by unfold State.fpAwake; split <;> rfl
@[simp] theorem State.fpAwake_modified (s : State) : s.fpAwake.modified = s.modified := by unfold State.fpAwake; split <;> rfl
@[simp] theorem State.fpAwake_freeCount (s : State) : s.fpAwake.freeCount = s.freeCount := by
  unfold State.fpAwake; split <;> rfl
@[simp] theorem State.fpAwake_pending (s : State) : s.fpAwake.fpu.pending = s.fpu.pending := by
  unfold State.fpAwake; split <;> rfl

theorem fpCommon_bind_of_pending {α : Type} {s : State} {p : Pending} (h : s.fpu.pending = some p) (f : Unit → M α) :
    (fpCommon >>= f) s = .error (.exc (preInstructionExc p.vector s.pc)) s := by
  rw [bind_eq, fpCommon_of_pending h]

theorem fpCond_bind_of_pending {α : Type} {s : State} {p : Pending} (h : s.fpu.pending = some p) (c : BitVec 5) (f : Bool → M α) :
    (fpCond c >>= f) s = .error (.exc (preInstructionExc p.vector s.pc)) s := by
  rw [bind_eq, fpCond, fpCommon_bind_of_pending h]

/-! ### The instructions by their kind -/

theorem exec_arithmetic {i : Instr} {op : FpOp} {form : Option Prec} {cmd : BitVec 7} {src : FpSrc} {dst : RegNo}
    (h : fpArithmetic i = some (op, form, cmd, src, dst)) (s : State) : exec i s = fpArith op form cmd src dst s := by
  unfold fpArithmetic at h
  split at h <;> cases h <;> rfl

/-- The command of FSINCOS has its second destination in its low bits. -/
theorem fsincosCommand : ∀ c : RegNo, 6#4 ++ c = 0x30#7 ||| c.setWidth 7 := by decide

theorem exec_unimplemented {i : Instr} {dyadic : Bool} {cmd : BitVec 7} {src : FpSrc} {dst : RegNo}
    (h : fpUnimplemented i = some (dyadic, cmd, src, dst)) (s : State) : exec i s = fpUnimp dyadic cmd src dst s := by
  unfold fpUnimplemented at h
  split at h
  case h_28 src dst c =>
    cases h
    rw [← fsincosCommand c]
    rfl
  all_goals cases h <;> rfl

section pending
variable {s : State} {p : Pending} (h : s.fpu.pending = some p)
include h

theorem fpArith_of_pending (op : FpOp) (form : Option Prec) (cmd : BitVec 7) (src : FpSrc) (dst : RegNo) :
    fpArith op form cmd src dst s = .next (s.takeException s.pc s.regs (preInstructionExc p.vector s.pc)) :=
  runInstr_of_exc (body := fun _ => fpCommon >>= _) (fpCommon_bind_of_pending h _)

theorem fpUnimp_of_pending (dyadic : Bool) (cmd : BitVec 7) (src : FpSrc) (dst : RegNo) :
    fpUnimp dyadic cmd src dst s = .next (s.takeException s.pc s.regs (preInstructionExc p.vector s.pc)) := by
  unfold fpUnimp
  refine runInstr_of_exc ?_
  exact fpCommon_bind_of_pending h _

theorem fpBranch_of_pending (words : Nat) (c : BitVec 5) (d : Long) :
    fpBranch words c d s = .next (s.takeException s.pc s.regs (preInstructionExc p.vector s.pc)) := by
  unfold fpBranch
  refine runInstr_of_exc ?_
  exact fpCond_bind_of_pending h _ _

theorem fpTrap_of_pending (words : Nat) (c : BitVec 5) :
    fpTrap words c s = .next (s.takeException s.pc s.regs (preInstructionExc p.vector s.pc)) := by
  unfold fpTrap
  refine runInstr_of_exc ?_
  exact fpCond_bind_of_pending h _ _

/-- A pending exception is reported by every kind. -/
theorem exec_of_pending {i : Instr} (hi : reportsPending i = true) :
    exec i s = .next (s.takeException s.pc s.regs (preInstructionExc p.vector s.pc)) := by
  cases i
  case fbccW | fbccL => exact fpBranch_of_pending h _ _ _
  case ftrapccW | ftrapccL | ftrapcc => exact fpTrap_of_pending h _ _
  case fscc | fdbcc =>
    unfold exec
    refine runInstr_of_exc ?_
    exact fpCond_bind_of_pending h _ _
  case fmovecr | fmoveOut | fmoveToCr | fmoveFromCr | fmovemLoad | fmovemStore | fnop =>
    unfold exec
    refine runInstr_of_exc ?_
    exact fpCommon_bind_of_pending h _
  case fmove | fsmove | fdmove | fabs | fsabs | fdabs | fneg | fsneg | fdneg | fsqrt | fssqrt | fdsqrt | fadd | fsadd | fdadd
      | fsub | fssub | fdsub | fmul | fsmul | fdmul | fdiv | fsdiv | fddiv | fcmp | ftst =>
    exact fpArith_of_pending h _ _ _ _ _
  case fint | fsinh | fintrz | flognp1 | fetoxm1 | ftanh | fatan | fasin | fatanh | fsin | ftan | fetox | ftwotox | ftentox
      | flogn | flog10 | flog2 | fcosh | facos | fcos | fgetexp | fgetman | fmod | fsgldiv | frem | fscale | fsglmul | fsincos =>
    exact fpUnimp_of_pending h _ _ _ _
  all_goals exact absurd hi Bool.false_ne_true

end pending

/-- Settles O43: every such instruction begins with the step that reports the exception. -/
theorem pendingExceptionReported : Obligations.PendingExceptionReported := by
  unfold Obligations.PendingExceptionReported
  exact fun i s p hi hp => exec_of_pending hp hi

/-! ### The source operand -/

section operates
variable {R : State → State → Prop} (h : Operates R)
include h

theorem Operates.fpOfSingle (v : Long) : Through R (fpOfSingle v) := by
  unfold Machine.fpOfSingle
  refine through_ite (through_pure h.toRelates _) (through_ite (through_pure h.toRelates _) (through_ite (through_pure h.toRelates _) ?_))
  exact through_bind h.toRelates (through_draw h.toBuses _) fun _ => through_pure h.toRelates _

theorem Operates.fpOfDouble (hi lo : Long) : Through R (fpOfDouble hi lo) := by
  unfold Machine.fpOfDouble
  refine through_ite (through_pure h.toRelates _) (through_ite (through_pure h.toRelates _) (through_ite (through_pure h.toRelates _) ?_))
  exact through_bind h.toRelates (through_draw h.toBuses _) fun _ => through_pure h.toRelates _

theorem Operates.fpOfPacked (l0 l1 l2 : Long) : Through R (fpOfPacked l0 l1 l2) :=
  through_bind h.toRelates (through_draw h.toBuses _) fun _ => through_bind h.toRelates (through_draw h.toBuses _) fun _ =>
    through_pure h.toRelates _

theorem Operates.operandOfLongs (fmt : FpFmt) (ls : List Long) : Through R (operandOfLongs fmt ls) := by
  unfold Machine.operandOfLongs
  split
  case h_4 => exact h.fpOfSingle _
  case h_5 => exact h.fpOfDouble _ _
  case h_7 => exact h.fpOfPacked _ _ _
  all_goals exact through_pure h.toRelates _

theorem Operates.readFpLongs (fmt : FpFmt) (p : Place) : Through R (readFpLongs fmt p) := by
  unfold Machine.readFpLongs
  cases p with
  | d _ | a _ => exact through_fetch h.toRelates _
  | mem a =>
    dsimp only
    split
    · exact through_readLongs h _ _
    · exact through_readLongs h _ _
    · exact through_bind h.toRelates (through_readData h _ _) fun _ => through_pure h.toRelates _
  | imm ws =>
    dsimp only
    split <;> exact through_pure h.toRelates _

theorem Operates.fpSource (src : FpSrc) : Through R (fpSource src) := by
  cases src with
  | reg m => exact through_bind h.toRelates (through_fetch h.toRelates _) fun _ => through_pure h.toRelates _
  | ea fmt ea =>
    exact through_bind h.toRelates (through_fetch h.toRelates _) fun _ =>
      through_bind h.toRelates (through_locate h _ _ _) fun _ => through_bind h.toRelates (h.readFpLongs _ _) fun _ =>
        through_bind h.toRelates (through_commit h _) fun _ => through_bind h.toRelates (h.operandOfLongs _ _) fun _ =>
          through_pure h.toRelates _

end operates

/-- What the operations of an operand leave: the floating-point unit, the program counter, SR. -/
structure State.KeepsUnit (s t : State) : Prop where
  fp : t.fp = s.fp
  fpu : t.fpu = s.fpu
  pc : t.pc = s.pc
  sr : t.sr = s.sr

theorem operates_keepsUnit : Operates State.KeepsUnit where
  refl _ := ⟨rfl, rfl, rfl, rfl⟩
  trans _ _ _ h h' := ⟨h'.fp.trans h.fp, h'.fpu.trans h.fpu, h'.pc.trans h.pc, h'.sr.trans h.sr⟩
  bus s l := ⟨by simp, by simp, by simp, by simp⟩
  count _ _ := ⟨rfl, rfl, rfl, rfl⟩
  write _ _ := ⟨rfl, rfl, rfl, rfl⟩
  setD _ _ _ := ⟨rfl, rfl, rfl, rfl⟩
  setA s n v := ⟨by simp, by simp, by simp, by simp⟩

theorem fpSource_keepsUnit {src : FpSrc} {s t : State} {r : FpOperand × Option Long} (h : fpSource src s = .ok r t) :
    s.KeepsUnit t := (operates_keepsUnit.fpSource src).ok h

/-! ### An arithmetic instruction, from its operation -/

/-- The operation of an arithmetic instruction at `s` on its operand. -/
def arithJob (op : FpOp) (form : Option Prec) (cmd : BitVec 7) (src : FpSrc) (dst : RegNo) (s : State) (o : FpOperand) : FpJob :=
  { ia := s.pc, cw := commandWord cmd src dst, op := op, src := o, dst := dst, dval := s.getFp dst, form := form }

theorem exec_arithmetic_ok {i : Instr} {op : FpOp} {form : Option Prec} {cmd : BitVec 7} {src : FpSrc} {dst : RegNo}
    (h : fpArithmetic i = some (op, form, cmd, src, dst)) {s s1 t : State} {o : FpOperand} {a : Option Long}
    (hp : s.fpu.pending = none) (hsrc : fpSource src s.fpAwake = .ok (o, a) s1)
    (hjob : runJob (arithJob op form cmd src dst s o) s1 = .ok () t) :
    exec i s = .next (s.goOn (fpLength src) .seq t) := by
  rw [exec_arithmetic h]
  unfold fpArith
  refine runInstr_of_seq ?_
  have hk := fpSource_keepsUnit hsrc
  have hdst : s1.getFp dst = s.getFp dst := by rw [State.getFp, hk.fp, State.fpAwake_fp, State.getFp]
  have hpc : s1.pc = s.pc := by rw [hk.pc, State.fpAwake_pc]
  rw [arithJob] at hjob
  simp only [bind_eq, fpCommon_of_none hp, hsrc, fetch_eq, hdst, hpc, hjob, pure_eq]

end Sys2Proof.Machine
end

