-- ==== Sys2Proof/Proofs/FpFlags.lean ====
section
/-!
SUPPORT. The bytes of FPSR (10_state.md R36): what each of the operations on it makes of the condition codes, the quotient, the
exceptions and the accrued exceptions.
-/
namespace Sys2Proof.Machine

/-- FPSR once an exception is set. -/
def excBits (x : FpExc) (f : Long) : Long := f ||| (1 <<< x.bit)

theorem State.setExc_fpsr (x : FpExc) (s : State) : (s.setExc x).fp.fpsr = excBits x s.fp.fpsr := rfl
theorem State.setFpcc_fpsr (n z i nan : Bool) (s : State) : (s.setFpcc n z i nan).fp.fpsr = withFpcc s.fp.fpsr n z i nan := rfl
theorem State.accrue_fpsr (s : State) : s.accrue.fp.fpsr = accrueBits s.fp.fpsr := rfl

/-! ### Bit by bit -/

theorem excBits_getLsbD (x : FpExc) (f : Long) (k : Nat) : (excBits x f).getLsbD k = (f.getLsbD k || decide (k = x.bit)) := by
  have hbit : x.bit < 32 := by cases x <;> decide
  rw [excBits, BitVec.getLsbD_or]
  refine congrArg (f.getLsbD k || ·) ?_
  rw [show (1 <<< x.bit : Long) = BitVec.twoPow 32 x.bit from (BitVec.twoPow_eq _ _).symm, BitVec.getLsbD_twoPow]
  by_cases hk : k = x.bit
  · simp [hk, hbit]
  · simp [hk, Ne.symm hk]

theorem withFpcc_getLsbD (f : Long) (n z i nan : Bool) (k : Nat) : (withFpcc f n z i nan).getLsbD k =
    if k = 27 then n else if k = 26 then z else if k = 25 then i else if k = 24 then nan else f.getLsbD k := by
  by_cases hk : k < 32
  · rw [withFpcc]
    simp only [BitVec.getLsbD_append, BitVec.getLsbD_extractLsb']
    interval_cases k <;> simp
  · rw [BitVec.getLsbD_of_ge _ _ (by omega), BitVec.getLsbD_of_ge f _ (by omega), if_neg (by omega), if_neg (by omega),
      if_neg (by omega), if_neg (by omega)]

/-- The bits that FPSR's exceptions set in its accrued exceptions (43_fp_exceptions.md R303). -/
def accruedBit (f : Long) (k : Nat) : Bool :=
  match k with
  | 7 => f.getLsbD 15 || f.getLsbD 14 || f.getLsbD 13
  | 6 => f.getLsbD 12
  | 5 => f.getLsbD 11 && f.getLsbD 9
  | 4 => f.getLsbD 10
  | 3 => f.getLsbD 8 || f.getLsbD 9 || f.getLsbD 12
  | _ => false

theorem accrueBits_getLsbD (f : Long) (k : Nat) : (accrueBits f).getLsbD k = (f.getLsbD k || accruedBit f k) := by
  by_cases hk : k < 32
  · rw [accrueBits, BitVec.getLsbD_or]
    refine congrArg (f.getLsbD k || ·) ?_
    simp only [BitVec.getLsbD_setWidth, BitVec.getLsbD_append]
    interval_cases k <;> simp [accruedBit, excSet, FpExc.bit]
  · rw [BitVec.getLsbD_of_ge _ _ (by omega), BitVec.getLsbD_of_ge f _ (by omega)]
    unfold accruedBit
    split <;> first | omega | rfl

theorem clearedBits_getLsbD (f : Long) (k : Nat) : (f &&& 0xFFFF00FF).getLsbD k = (f.getLsbD k && decide (k < 8 ∨ 16 ≤ k)) := by
  by_cases hk : k < 32
  · rw [BitVec.getLsbD_and]
    refine congrArg (f.getLsbD k && ·) ?_
    exact (by decide : ∀ k : Fin 32, (0xFFFF00FF#32).getLsbD k = decide (k.val < 8 ∨ 16 ≤ k.val)) ⟨k, hk⟩
  · rw [BitVec.getLsbD_of_ge _ _ (by omega), BitVec.getLsbD_of_ge f _ (by omega), Bool.false_and]

/-- Values of FPSR whose accrued exceptions and quotient are the same. -/
def SameKept (f g : Long) : Prop := ∀ k, k < 8 ∨ (16 ≤ k ∧ k < 24) → g.getLsbD k = f.getLsbD k

theorem sameKept_excBits (x : FpExc) (f : Long) : SameKept f (excBits x f) := fun k hk => by
  have hbit : 8 ≤ x.bit ∧ x.bit < 16 := by cases x <;> decide
  rw [excBits_getLsbD, decide_eq_false (by omega), Bool.or_false]

theorem sameKept_withFpcc (f : Long) (n z i nan : Bool) : SameKept f (withFpcc f n z i nan) := fun k hk => by
  rw [withFpcc_getLsbD, if_neg (by omega), if_neg (by omega), if_neg (by omega), if_neg (by omega)]

theorem sameKept_cleared (f : Long) : SameKept f (f &&& 0xFFFF00FF) := fun k hk => by
  rw [clearedBits_getLsbD, decide_eq_true (by omega), Bool.and_true]

theorem accrueBits_getLsbD_of_ge (f : Long) {k : Nat} (hk : 8 ≤ k) : (accrueBits f).getLsbD k = f.getLsbD k := by
  obtain ⟨j, rfl⟩ := Nat.exists_eq_add_of_le' hk
  exact (accrueBits_getLsbD f (j + 8)).trans (Bool.or_false _)

/-- What is accrued, from an FPSR with the accrued exceptions there were. -/
theorem accrued_of_sameKept {f g : Long} (h : SameKept f g) : Accrued f (accrueBits g) := by
  refine ⟨?_, ?_, ?_, ?_, ?_⟩
  all_goals
    rw [accrueBits_getLsbD, h _ (by decide)]
    simp (disch := decide) only [accruedBit, accrueBits_getLsbD_of_ge, Bool.or_assoc]

/-- What is not accrued. -/
theorem accrued_of_noExc {f g : Long} (h : SameKept f g) (hexc : ∀ k, 8 ≤ k → k < 16 → g.getLsbD k = false) : Accrued f g := by
  refine ⟨?_, ?_, ?_, ?_, ?_⟩
  all_goals
    rw [h _ (by decide)]
    simp (disch := decide) only [hexc, Bool.or_false, Bool.false_and]

theorem SameKept.refl (f : Long) : SameKept f f := fun _ _ => rfl

theorem SameKept.trans {f g k : Long} (h : SameKept f g) (h' : SameKept g k) : SameKept f k := fun i hi => (h' i hi).trans (h i hi)

theorem SameKept.quotient {f g : Long} (h : SameKept f g) : g.extractLsb' 16 8 = f.extractLsb' 16 8 := by
  refine BitVec.eq_of_getLsbD_eq fun i hi => ?_
  rw [BitVec.getLsbD_extractLsb', BitVec.getLsbD_extractLsb', h _ (by omega)]

/-- Accruing leaves the quotient. -/
theorem accrueBits_quotient (f : Long) : (accrueBits f).extractLsb' 16 8 = f.extractLsb' 16 8 := by
  refine BitVec.eq_of_getLsbD_eq fun i hi => ?_
  rw [BitVec.getLsbD_extractLsb', BitVec.getLsbD_extractLsb', accrueBits_getLsbD_of_ge _ (by omega)]

end Sys2Proof.Machine
end

