-- ==== Sys2Proof/Proofs/FpSteps.lean ====
section
/-!
SUPPORT. What the operations of the floating-point unit leave unchanged (42_fp_instructions.md R261, R264; 43_fp_exceptions.md
R301, R303): every one ends, and changes its destination, FPSR and the internal state of the unit alone.
-/
namespace Sys2Proof.Machine

/-! ### Steps of an operation -/

/-- One step of an operation with destination `dst`, which it writes if `stores`. -/
structure FpStep (dst : RegNo) (stores : Bool) (s t : State) : Prop where
  rest : t = { s with fp := t.fp, fpu := t.fpu, freeCount := t.freeCount }
  fpcr : t.fp.fpcr = s.fp.fpcr
  fpiar : t.fp.fpiar = s.fp.fpiar
  regs : ∀ n, n ≠ dst ∨ stores = false → t.getFp n = s.getFp n
  kept : SameKept s.fp.fpsr t.fp.fpsr
  posted : ∀ p, t.fpu.pending = some p → p.post = false ∨ s.fpu.pending = some p

section steps
variable {dst : RegNo} {stores : Bool}

theorem FpStep.refl (s : State) : FpStep dst stores s s := ⟨rfl, rfl, rfl, fun _ _ => rfl, .refl _, fun _ h => .inr h⟩

theorem FpStep.trans {s t u : State} (h : FpStep dst stores s t) (h' : FpStep dst stores t u) : FpStep dst stores s u where
  rest := by rw [h'.rest, h.rest]
  fpcr := h'.fpcr.trans h.fpcr
  fpiar := h'.fpiar.trans h.fpiar
  regs n hn := (h'.regs n hn).trans (h.regs n hn)
  kept := h.kept.trans h'.kept
  posted p hp := (h'.posted p hp).elim .inl (h.posted p)

theorem fpStep_setExc (x : FpExc) (s : State) : FpStep dst stores s (s.setExc x) :=
  ⟨rfl, rfl, rfl, fun _ _ => rfl, sameKept_excBits x _, fun _ h => .inr h⟩

theorem fpStep_setFpcc (n z i nan : Bool) (s : State) : FpStep dst stores s (s.setFpcc n z i nan) :=
  ⟨rfl, rfl, rfl, fun _ _ => rfl, sameKept_withFpcc _ _ _ _ _, fun _ h => .inr h⟩

theorem fpStep_store (hs : stores = true) (x : FpReal) (s : State) : FpStep dst stores s (setFpccOf x (s.setFp dst x)) := by
  refine .trans (t := s.setFp dst x) ⟨rfl, rfl, rfl, fun n hn => ?_, .refl _, fun _ h => .inr h⟩
    (fpStep_setFpcc x.sign (isZero x) (isInf x) (isNan x) _)
  exact State.getFp_setFp_of_ne (hn.resolve_right (by simp [hs])) x s

theorem fpStep_post (ia : Long) (vector : Byte) (unit : FpUnit) (fill : Fpu → Fpu) (s : State) :
    FpStep dst stores s { s with fpu := postedFpu s ia vector unit false fill, freeCount := s.freeCount + 8 } :=
  ⟨rfl, rfl, rfl, fun _ _ => rfl, .refl _, fun p h => .inl (by rw [← Option.some.inj h])⟩

/-! ### Operations that end -/

/-- From the states that allow it, a part of an operation ends in a state that it goes to in a step. -/
def Steps (dst : RegNo) (stores : Bool) (form : Option Prec) {α : Type} (m : M α) : Prop :=
  ∀ s, (roundPrec form s.fp.fpcr).isSome = true → ∃ a t, m s = .ok a t ∧ FpStep dst stores s t

/-- The same, with the exceptions accrued at its end. -/
def Accrues (dst : RegNo) (stores : Bool) (form : Option Prec) (m : M Unit) : Prop :=
  ∀ s, (roundPrec form s.fp.fpcr).isSome = true → ∃ t, m s = .ok () t.accrue ∧ FpStep dst stores s t

variable {form : Option Prec} {α β : Type}

theorem steps_update {f : State → State} (h : ∀ s, FpStep dst stores s (f s)) : Steps dst stores form (update f) :=
  fun s _ => ⟨(), f s, rfl, h s⟩

theorem steps_fetch (f : State → α) : Steps dst stores form (fetch f) := fun s _ => ⟨f s, s, rfl, .refl s⟩

theorem steps_draw (f : Nat → α) : Steps dst stores form (draw f) :=
  fun s _ => ⟨f s.freeCount, _, rfl, rfl, rfl, rfl, fun _ _ => rfl, .refl _, fun _ h => .inr h⟩

theorem steps_bind {m : M α} {f : α → M β} (hm : Steps dst stores form m) (hf : ∀ a, Steps dst stores form (f a)) :
    Steps dst stores form (m >>= f) := fun s hs => by
  obtain ⟨a, t, hmt, hst⟩ := hm s hs
  obtain ⟨b, u, hfu, htu⟩ := hf a t (by rwa [hst.fpcr])
  exact ⟨b, u, by rw [bind_eq, hmt]; exact hfu, hst.trans htu⟩

theorem accrues_bind {m : M α} {f : α → M Unit} (hm : Steps dst stores form m) (hf : ∀ a, Accrues dst stores form (f a)) :
    Accrues dst stores form (m >>= f) := fun s hs => by
  obtain ⟨a, t, hmt, hst⟩ := hm s hs
  obtain ⟨u, hfu, htu⟩ := hf a t (by rwa [hst.fpcr])
  exact ⟨u, by rw [bind_eq, hmt]; exact hfu, hst.trans htu⟩

theorem accrues_accrue : Accrues dst stores form (update State.accrue) := fun s _ => ⟨s, rfl, .refl s⟩

theorem steps_ite {c : Prop} [Decidable c] {m m' : M α} (h : Steps dst stores form m) (h' : Steps dst stores form m') :
    Steps dst stores form (if c then m else m') := by
  split
  · exact h
  · exact h'

theorem accrues_ite {c : Prop} [Decidable c] {m m' : M Unit} (h : Accrues dst stores form m) (h' : Accrues dst stores form m') :
    Accrues dst stores form (if c then m else m') := by
  split
  · exact h
  · exact h'

/-! ### The parts of the operations -/

theorem steps_setExc (x : FpExc) : Steps dst stores form (update (State.setExc x)) := steps_update (fpStep_setExc x)

theorem steps_setFpcc (n z i nan : Bool) : Steps dst stores form (update (State.setFpcc n z i nan)) :=
  steps_update (fpStep_setFpcc n z i nan)

theorem steps_post (ia : Long) (vector : Byte) (unit : FpUnit) (fill : Fpu → Fpu) :
    Steps dst stores form (postExc ia vector unit false fill) := steps_update (fpStep_post ia vector unit fill)

theorem steps_freeFpcc : Steps dst stores form freeFpcc :=
  steps_bind (steps_draw _) fun _ => steps_bind (steps_draw _) fun _ => steps_bind (steps_draw _) fun _ =>
    steps_bind (steps_draw _) fun _ => steps_setFpcc _ _ _ _

theorem steps_fpStore (hs : stores = true) (x : FpReal) : Steps dst stores form (fpStore dst x) :=
  steps_update (fpStep_store hs x)

theorem accrues_finish (hs : stores = true) (ia : Long) (cw : Word) (unit : FpUnit) (sign : Bool) (v : Inter) (p : Prec) :
    Accrues dst stores form (finish ia cw unit sign v (some p) dst) := by
  have htail (fpcr : Long) (r : Rounded) (c : Bool) (fill : Fpu → Fpu) : Accrues dst stores form
      (if overflows p r.exp then do
        update (State.setExc .ovfl)
        postExc ia FpExc.ovfl.vector unit false fill
        freeFpcc
        update State.accrue
      else do
        fpStore dst { sign := sign, exp := exp15 r.exp, man := r.man }
        if c then do
          postExc ia FpExc.inex2.vector unit false (withCommand unit cw)
          update State.accrue
        else update State.accrue) :=
    accrues_ite
      (accrues_bind (steps_setExc _) fun _ => accrues_bind (steps_post _ _ _ _) fun _ =>
        accrues_bind steps_freeFpcc fun _ => accrues_accrue)
      (accrues_bind (steps_fpStore hs _) fun _ =>
        accrues_ite (accrues_bind (steps_post _ _ _ _) fun _ => accrues_accrue) accrues_accrue)
  refine accrues_bind (steps_fetch _) fun fpcr => accrues_ite ?_ (accrues_ite ?_ ?_)
  · exact accrues_bind (steps_setExc _) fun _ => accrues_bind (steps_post _ _ _ _) fun _ =>
      accrues_bind steps_freeFpcc fun _ => accrues_accrue
  · exact accrues_bind (steps_setExc _) fun _ => htail fpcr _ _ _
  · exact htail fpcr _ _ _

end steps

/-! ### The operations -/

section job
variable (j : FpJob)

theorem accrues_special (hs : j.op.stores = true) (x : FpReal) : Accrues j.dst j.op.stores j.form (special j x) :=
  accrues_bind (steps_fpStore hs x) fun _ => accrues_accrue

theorem accrues_finishJob (hs : j.op.stores = true) (unit : FpUnit) (sign : Bool) (v : Inter) :
    Accrues j.dst j.op.stores j.form (finishJob j unit sign v) := fun s hp => by
  obtain ⟨p, hp'⟩ := Option.isSome_iff_exists.mp hp
  have h := accrues_finish (form := j.form) (dst := j.dst) hs j.ia j.cw unit sign v p s hp
  rw [finishJob, bind_eq, fetch_eq]
  dsimp only
  rwa [hp']

theorem steps_deliver (x : FpReal) : Steps j.dst j.op.stores j.form (deliver j x) := by
  unfold deliver
  split
  case h_1 => exact steps_setFpcc _ _ _ _
  case h_2 => exact steps_setFpcc _ _ _ _
  case h_3 hcmp htst => exact steps_fpStore (by cases hop : j.op <;> simp_all [FpOp.stores]) x

theorem steps_withhold (x : FpReal) : Steps j.dst j.op.stores j.form (withhold j x) :=
  steps_ite steps_freeFpcc (steps_deliver j x)

theorem accrues_doSnan (nan : FpReal) : Accrues j.dst j.op.stores j.form (doSnan j nan) := by
  refine accrues_bind (steps_setExc _) fun _ => accrues_bind (steps_fetch _) fun fpcr => accrues_ite ?_ ?_
  · exact accrues_bind (steps_post _ _ _ _) fun _ => accrues_bind (steps_withhold j _) fun _ => accrues_accrue
  · exact accrues_bind (steps_deliver j _) fun _ => accrues_accrue

theorem accrues_doOperr (hs : j.op.stores = true) : Accrues j.dst j.op.stores j.form (doOperr j) := by
  refine accrues_bind (steps_setExc _) fun _ => accrues_bind (steps_fetch _) fun fpcr => accrues_ite ?_ ?_
  · exact accrues_bind (steps_post _ _ _ _) fun _ => accrues_bind steps_freeFpcc fun _ => accrues_accrue
  · exact accrues_bind (steps_fpStore hs _) fun _ => accrues_accrue

theorem accrues_doDz (hs : j.op.stores = true) (sign : Bool) : Accrues j.dst j.op.stores j.form (doDz j sign) := by
  refine accrues_bind (steps_setExc _) fun _ => accrues_bind (steps_fetch _) fun fpcr => accrues_ite ?_ ?_
  · exact accrues_bind (steps_post _ _ _ _) fun _ => accrues_bind steps_freeFpcc fun _ => accrues_accrue
  · exact accrues_bind (steps_fpStore hs _) fun _ => accrues_accrue

theorem accrues_doMove (hs : j.op.stores = true) (sign : Bool) : Accrues j.dst j.op.stores j.form (doMove j sign) :=
  accrues_ite (accrues_special j hs _) (accrues_finishJob j hs _ _ _)

theorem accrues_doAdd (hs : j.op.stores = true) (x : FpReal) : Accrues j.dst j.op.stores j.form (doAdd j x) := by
  refine accrues_ite (accrues_ite (accrues_doOperr j hs) (accrues_special j hs _)) ?_
  refine accrues_ite (accrues_special j hs _) (accrues_ite (accrues_special j hs _) (accrues_ite ?_ (accrues_finishJob j hs _ _ _)))
  exact accrues_bind (steps_fetch _) fun _ => accrues_special j hs _

theorem accrues_doMul (hs : j.op.stores = true) : Accrues j.dst j.op.stores j.form (doMul j) :=
  accrues_ite (accrues_doOperr j hs) (accrues_ite (accrues_special j hs _) (accrues_ite (accrues_special j hs _)
    (accrues_finishJob j hs _ _ _)))

theorem accrues_doDiv (hs : j.op.stores = true) : Accrues j.dst j.op.stores j.form (doDiv j) :=
  accrues_ite (accrues_doOperr j hs) (accrues_ite (accrues_special j hs _) (accrues_ite (accrues_doDz j hs _)
    (accrues_ite (accrues_special j hs _) (accrues_finishJob j hs _ _ _))))

theorem accrues_doSqrt (hs : j.op.stores = true) : Accrues j.dst j.op.stores j.form (doSqrt j) :=
  accrues_ite (accrues_special j hs _) (accrues_ite (accrues_doOperr j hs) (accrues_ite (accrues_special j hs _)
    (accrues_finishJob j hs _ _ _)))

theorem accrues_operate : Accrues j.dst j.op.stores j.form (operate j) := by
  unfold operate
  split
  case h_1 hop => exact accrues_doMove j (by rw [hop]; rfl) _
  case h_2 hop => exact accrues_doMove j (by rw [hop]; rfl) _
  case h_3 hop => exact accrues_doMove j (by rw [hop]; rfl) _
  case h_4 hop => exact accrues_doSqrt j (by rw [hop]; rfl)
  case h_5 hop => exact accrues_doAdd j (by rw [hop]; rfl) _
  case h_6 hop => exact accrues_doAdd j (by rw [hop]; rfl) _
  case h_7 hop => exact accrues_doMul j (by rw [hop]; rfl)
  case h_8 hop => exact accrues_doDiv j (by rw [hop]; rfl)
  case h_9 => exact accrues_bind (steps_setFpcc _ _ _ _) fun _ => accrues_accrue
  case h_10 => exact accrues_bind (steps_setFpcc _ _ _ _) fun _ => accrues_accrue

/-! ### From the operands on -/

/-- The state in which an operation begins: FPIAR written, EXC cleared. -/
def State.fpBegun (ia : Long) (s : State) : State := { s with fp := { s.fp with fpiar := ia, fpsr := s.fp.fpsr &&& 0xFFFF00FF } }

theorem fpBegin_eq (ia : Long) (s : State) : fpBegin ia s = .ok () (s.fpBegun ia) := rfl

/-- The operand that is delivered where one is a NAN: the destination's before the source's. -/
def FpJob.nan (j : FpJob) : FpReal := if j.op.dyadic && isNan j.dval then j.dval else j.src.val

/-- What an operation does once begun. -/
def FpJob.rest (j : FpJob) : M Unit :=
  if j.unsupported then postUnsupported j
  else if isSnan j.src.val || (j.op.dyadic && isSnan j.dval) then doSnan j j.nan
  else if isNan j.src.val || (j.op.dyadic && isNan j.dval) then do
    deliver j j.nan
    update State.accrue
  else operate j

theorem runJob_eq (s : State) : runJob j s = j.rest (s.fpBegun j.ia) := rfl

theorem FpJob.rest_of_supported (h : j.unsupported = false) : Accrues j.dst j.op.stores j.form j.rest := by
  unfold FpJob.rest
  rw [if_neg (by simp [h])]
  exact accrues_ite (accrues_doSnan j _) (accrues_ite (accrues_bind (steps_deliver j _) fun _ => accrues_accrue) (accrues_operate j))

/-- The fields of a state frame for an operand of an unimplemented data type (43_fp_exceptions.md R306). -/
def FpJob.fillUnsupported (u : Fpu) : Fpu :=
  let u1 := { u with cmdreg1b := cmd1bOf j.cw, etemp := j.src.val }
  let u2 := if j.src.packed.isSome then u1 else { u1 with stag := j.src.tag }
  let u3 := if j.op.dyadic then { u2 with dtag := tagOf j.dval } else u2
  if j.src.packed.isSome then withPacked j u3
  else if j.op.dyadic then { u3 with fptemp := j.dval } else u3

theorem postUnsupported_eq (s : State) : postUnsupported j s =
    .ok () { s with fpu := postedFpu s j.ia 55 .e1 false j.fillUnsupported, freeCount := s.freeCount + 8 } := rfl

theorem FpJob.rest_of_unsupported (h : j.unsupported = true) (s : State) : j.rest s =
    .ok () { s with fpu := postedFpu s j.ia 55 .e1 false j.fillUnsupported, freeCount := s.freeCount + 8 } := by
  rw [FpJob.rest, if_pos h, postUnsupported_eq]

/-- An operation ends, and leaves what is not its own. -/
structure FpDone (dst : RegNo) (stores : Bool) (ia : Long) (s t : State) : Prop where
  rest : t = { s with fp := t.fp, fpu := t.fpu, freeCount := t.freeCount }
  fpcr : t.fp.fpcr = s.fp.fpcr
  fpiar : t.fp.fpiar = ia
  regs : ∀ n, n ≠ dst ∨ stores = false → t.getFp n = s.getFp n
  quotient : t.fp.fpsr.extractLsb' 16 8 = s.fp.fpsr.extractLsb' 16 8
  accrued : Accrued s.fp.fpsr t.fp.fpsr
  posted : ∀ p, t.fpu.pending = some p → p.post = false ∨ s.fpu.pending = some p

theorem runJob_done {s : State} (h : (roundPrec j.form s.fp.fpcr).isSome = true) :
    ∃ t, runJob j s = .ok () t ∧ FpDone j.dst j.op.stores j.ia s t := by
  have hbegun : SameKept s.fp.fpsr (s.fpBegun j.ia).fp.fpsr := sameKept_cleared _
  rw [runJob_eq]
  cases hu : j.unsupported with
  | false =>
    obtain ⟨t, ht, hstep⟩ := j.rest_of_supported hu (s.fpBegun j.ia) h
    have hkept := hbegun.trans hstep.kept
    refine ⟨t.accrue, ht, ?_, hstep.fpcr, hstep.fpiar, hstep.regs, ?_, accrued_of_sameKept hkept, hstep.posted⟩
    · exact congrArg State.accrue hstep.rest
    · exact (accrueBits_quotient _).trans hkept.quotient
  | true =>
    refine ⟨_, j.rest_of_unsupported hu _, rfl, rfl, rfl, fun _ _ => rfl, hbegun.quotient, ?_, ?_⟩
    · refine accrued_of_noExc hbegun fun k hk hk' => ?_
      exact (clearedBits_getLsbD _ k).trans (by rw [decide_eq_false (by omega), Bool.and_false])
    · exact fun p hp => .inl (by rw [← Option.some.inj hp])

end job

/-- Settles O44: an operation ends (`runJob_done`), and the operand's fetch leaves the floating-point unit alone. -/
theorem fpArithmeticCompletes : Obligations.FpArithmeticCompletes := by
  unfold Obligations.FpArithmeticCompletes
  intro i op form cmd src dst s s1 o a hi hp hprec hsrc
  have hk := fpSource_keepsUnit hsrc
  have hfp : s1.fp = s.fp := hk.fp.trans s.fpAwake_fp
  obtain ⟨t, ht, hd⟩ := runJob_done (arithJob op form cmd src dst s o) (s := s1) (by rw [hfp]; exact hprec)
  have hfps (n : RegNo) : s1.getFp n = s.getFp n := by rw [State.getFp, hfp, State.getFp]
  refine ⟨t, exec_arithmetic_ok hi hp hsrc ht, hd.rest, hd.fpcr.trans (by rw [hfp]), hd.fpiar,
    fun n hn => (hd.regs n hn).trans (hfps n), hd.quotient.trans (by rw [hfp]), hfp ▸ hd.accrued, fun p hpost => ?_⟩
  refine (hd.posted p hpost).resolve_right ?_
  rw [hk.fpu, State.fpAwake_pending, hp]
  exact nofun

end Sys2Proof.Machine
end

