-- ==== Sys2Proof/Proofs/FpUnsup.lean ====
section
/-!
SUPPORT. The floating-point instructions and operands left to software (42_fp_instructions.md R263; 43_fp_exceptions.md R305, R306).
-/
namespace Sys2Proof.Machine

/-! ### Operands of an unimplemented data type -/

theorem FpJob.unsupported_iff (j : FpJob) : j.unsupported = true ↔ j.src.packed.isSome = true ∨ j.src.tag = tagUnnormal ∨
    j.src.tag = tagDenormal ∨ (j.op.dyadic = true ∧ tagOf j.dval = tagUnnormal) := by
  simp [FpJob.unsupported, or_assoc]

/-- The low part of two bit vectors put together. -/
theorem extractLsb'_append_low {n m : Nat} (x : BitVec n) (y : BitVec m) : (x ++ y).extractLsb' 0 m = y := by
  refine BitVec.eq_of_getLsbD_eq fun k hk => ?_
  simp only [BitVec.getLsbD_extractLsb', BitVec.getLsbD_append, Nat.zero_add, hk, decide_true, Bool.true_and, if_true]

theorem commandWord_eq (src : FpSrc) (dst : RegNo) : ∃ hi : BitVec 9, ∀ cmd, commandWord cmd src dst = hi ++ cmd := by
  cases src with
  | reg m => exact ⟨0#3 ++ m ++ dst, fun _ => rfl⟩
  | ea fmt _ => exact ⟨2#3 ++ fmtBits fmt ++ dst, fun _ => rfl⟩

/-- The command register has $05 for FSQRT's $04 (42_fp_instructions.md R284). -/
theorem cmd1bOf_commandWord (cmd : BitVec 7) (src : FpSrc) (dst : RegNo) :
    cmd1bOf (commandWord cmd src dst) = if cmd = 4 then commandWord 5 src dst else commandWord cmd src dst := by
  obtain ⟨hi, hword⟩ := commandWord_eq src dst
  have hor : ∀ hi : BitVec 9, (hi ++ 4#7) ||| 1 = hi ++ 5#7 := by decide
  rw [cmd1bOf, hword cmd, extractLsb'_append_low, hword 5]
  split
  · next h => rw [h]; exact hor hi
  · rfl

section fill
variable (j : FpJob) (u : Fpu)

theorem fillUnsupported_etemp : (j.fillUnsupported u).etemp = j.src.val := by
  cases h : j.src.packed <;> cases hd : j.op.dyadic <;> simp [FpJob.fillUnsupported, withPacked, h, hd]

theorem fillUnsupported_cmdreg1b : (j.fillUnsupported u).cmdreg1b = cmd1bOf j.cw := by
  cases h : j.src.packed <;> cases hd : j.op.dyadic <;> simp [FpJob.fillUnsupported, withPacked, h, hd]

theorem fillUnsupported_stag (h : j.src.packed = none) : (j.fillUnsupported u).stag = j.src.tag := by
  cases hd : j.op.dyadic <;> simp [FpJob.fillUnsupported, h, hd]

theorem fillUnsupported_dtag (hd : j.op.dyadic = true) : (j.fillUnsupported u).dtag = tagOf j.dval := by
  cases h : j.src.packed <;> simp [FpJob.fillUnsupported, withPacked, h, hd]

theorem fillUnsupported_fptemp (hd : j.op.dyadic = true) (h : j.src.packed = none) : (j.fillUnsupported u).fptemp = j.dval := by
  simp [FpJob.fillUnsupported, h, hd]

theorem fillUnsupported_packed {l0 l1 l2 : Long} (h : j.src.packed = some (l0, l1, l2)) :
    (j.fillUnsupported u).fptemp.man.extractLsb' 0 32 = l0 := by
  cases hd : j.op.dyadic <;>
  · simp only [FpJob.fillUnsupported, withPacked, h, hd, Option.isSome_some, if_true, Bool.false_eq_true, if_false]
    exact extractLsb'_append_low _ l0

end fill

/-- Settles O49: the operation posts the exception at once, with these fields. -/
theorem fpUnsupportedDataType : Obligations.FpUnsupportedDataType := by
  unfold Obligations.FpUnsupportedDataType
  intro i op form cmd src dst s s1 o a hi hp hsrc hunsup
  have hk := fpSource_keepsUnit hsrc
  have hfp : s1.fp = s.fp := hk.fp.trans s.fpAwake_fp
  have hrest := (arithJob op form cmd src dst s o).rest_of_unsupported ((FpJob.unsupported_iff _).mpr hunsup) (s1.fpBegun s.pc)
  refine ⟨_, exec_arithmetic_ok hi hp hsrc hrest, ?_, rfl, rfl, rfl, rfl, fillUnsupported_etemp _ _, rfl,
    fillUnsupported_stag (arithJob op form cmd src dst s o) _, fun _ _ _ => fillUnsupported_packed (arithJob op form cmd src dst s o) _,
    fun hd => ⟨fillUnsupported_dtag _ _ hd, fillUnsupported_fptemp (arithJob op form cmd src dst s o) _ hd⟩,
    (fillUnsupported_cmdreg1b _ _).trans (cmd1bOf_commandWord _ _ _)⟩
  rw [State.fpBegun, hfp]

/-! ### Unimplemented instructions -/

/-- What an unimplemented instruction with no exception pending and its operand fetched comes to. -/
theorem exec_unimplemented_ok {i : Instr} {dyadic : Bool} {cmd : BitVec 7} {src : FpSrc} {dst : RegNo}
    (h : fpUnimplemented i = some (dyadic, cmd, src, dst)) {s s1 : State} {o : FpOperand} {a : Option Long}
    (hp : s.fpu.pending = none) (hsrc : fpSource src s.fpAwake = .ok (o, a) s1) :
    exec i s = .next (State.takeException
      { s1 with fpu := { unimpOperands dyadic o (s.getFp dst) (s1.freeCount + 1) s1.fpu with
                         e1 := unimpE1 dyadic o (s.getFp dst), cmdreg1b := commandWord cmd src dst, fpiarcu := s.pc, mode := .unimp },
                freeCount := s1.freeCount + 3 } s.pc s.regs
      { vector := 11, cls := .unimp, stackedPc := s.pc + BitVec.ofNat 32 (2 * fpLength src),
        format := .two (a.getD (Config.freeLong s1.freeCount)) }) := by
  have hk := fpSource_keepsUnit hsrc
  have hdst : s1.getFp dst = s.getFp dst := by rw [State.getFp, hk.fp, State.fpAwake_fp, State.getFp]
  have hpc : s1.pc = s.pc := by rw [hk.pc, State.fpAwake_pc]
  rw [exec_unimplemented h]
  unfold fpUnimp
  refine runInstr_of_exc ?_
  simp only [bind_eq, fpCommon_of_none hp, hsrc, fetch_eq, raiseUnimp, draw_eq, update_eq, raise_eq, hdst, hpc]

theorem exec_fmovecr_ok (ofs : BitVec 7) (dst : RegNo) {s : State} (hp : s.fpu.pending = none) :
    exec (.fmovecr ofs dst) s = .next (State.takeException
      { s with fpu := { s.fpu with etemp := Config.freeReal (s.freeCount + 1), stag := (Config.freeByte (s.freeCount + 1)).setWidth 3,
                                   e1 := false, cmdreg1b := 0x17#6 ++ dst ++ ofs, fpiarcu := s.pc, mode := .unimp },
               freeCount := s.freeCount + 3 } s.pc s.regs
      { vector := 11, cls := .unimp, stackedPc := s.pc + 4, format := .two (Config.freeLong s.freeCount) }) := by
  obtain ⟨m, hm⟩ := s.fpAwake_eq
  unfold exec
  refine runInstr_of_exc ?_
  simp only [bind_eq, fpCommon_of_none hp, fetch_eq, raiseUnimp, draw_eq, update_eq, raise_eq, hm, Option.getD_none]
  rfl

section operands
variable (dyadic : Bool) (o : FpOperand) (d : FpReal) (n : Nat) (u : Fpu)

theorem unimpOperands_etemp : (unimpOperands dyadic o d n u).etemp = o.val := by
  cases h : o.packed <;> cases dyadic <;> simp [unimpOperands, h]

theorem unimpOperands_stag : (unimpOperands dyadic o d n u).stag = o.tag := by
  cases h : o.packed <;> cases dyadic <;> simp [unimpOperands, h]

theorem unimpOperands_pending : (unimpOperands dyadic o d n u).pending = u.pending := by
  cases h : o.packed <;> cases dyadic <;> simp [unimpOperands, h]

theorem unimpOperands_packed {l0 l1 l2 : Long} (h : o.packed = some (l0, l1, l2)) :
    (unimpOperands dyadic o d n u).fptemp.man.extractLsb' 0 32 = l0 := by
  cases dyadic <;>
  · simp only [unimpOperands, h]
    exact extractLsb'_append_low _ l0

theorem unimpOperands_dtag (hd : dyadic = true) : (unimpOperands dyadic o d n u).dtag = tagOf d := by
  cases h : o.packed <;> simp [unimpOperands, h, hd]

theorem unimpOperands_fptemp (hd : dyadic = true) (h : o.packed = none) : (unimpOperands dyadic o d n u).fptemp = d := by
  simp [unimpOperands, h, hd]

theorem unimpE1_iff : unimpE1 dyadic o d = true ↔
    o.packed.isSome = true ∨ o.tag = tagUnnormal ∨ o.tag = tagDenormal ∨ (dyadic = true ∧ tagOf d = tagUnnormal) := by
  simp [unimpE1, or_assoc]

end operands

/-- Settles O51: what these instructions come to (`exec_unimplemented_ok`), field by field. -/
theorem unimplementedGoesToSoftware : Obligations.UnimplementedGoesToSoftware := by
  unfold Obligations.UnimplementedGoesToSoftware
  refine ⟨fun i dyadic cmd src dst s s1 o a hi hp hsrc => ?_, fun ofs dst s hp => ?_⟩
  · have hk := fpSource_keepsUnit hsrc
    refine ⟨_, _, fun x hx => ?_, exec_unimplemented_ok hi hp hsrc, rfl, rfl, ?_, rfl, rfl, unimpOperands_etemp _ _ _ _ _,
      unimpOperands_stag _ _ _ _ _, fun _ _ _ => unimpOperands_packed _ _ _ _ _,
      fun hd => ⟨unimpOperands_dtag _ _ _ _ _ hd, unimpOperands_fptemp dyadic o _ _ _ hd⟩, unimpE1_iff _ _ _⟩
    · rw [hx, Option.getD_some]
    · exact (unimpOperands_pending _ _ _ _ _).trans (by rw [hk.fpu, State.fpAwake_pending, hp])
  · exact ⟨_, _, exec_fmovecr_ok ofs dst hp, rfl, rfl, hp, rfl, rfl, rfl⟩

end Sys2Proof.Machine
end

