-- ==== Sys2Proof/Proofs/FpSpecial.lean ====
section
/-!
SUPPORT. The results of operations that are not numbers rounded (42_fp_instructions.md R264-R272; 43_fp_exceptions.md R313, R314,
R323): NANs, infinities, zeros, comparisons.
-/
namespace Sys2Proof.Machine

/-! ### Kinds of values -/

theorem isNan_iff (x : FpReal) : isNan x = true ↔ x.exp = 0x7FFF ∧ x.man.extractLsb' 0 63 ≠ 0 := by
  unfold isNan tagOf
  split_ifs <;> simp_all [tagNan, tagInfinity, tagNormalized, tagZero, tagUnnormal]

theorem isZero_iff (x : FpReal) : isZero x = true ↔ x.exp = 0 ∧ x.man = 0 := by
  have hman : x.man.getLsbD 63 = true → x.man ≠ 0 := fun h he => by simp [he] at h
  unfold isZero tagOf
  split_ifs <;> simp_all [tagNan, tagInfinity, tagNormalized, tagZero, tagUnnormal]

theorem isNormal_iff (x : FpReal) : isNormal x = true ↔ x.exp ≠ 0x7FFF ∧ x.man.getLsbD 63 = true := by
  unfold isNormal tagOf
  split_ifs <;> simp_all [tagNan, tagInfinity, tagNormalized, tagZero, tagUnnormal]

theorem tagOf_ne_denormal (x : FpReal) : tagOf x ≠ tagDenormal := by
  unfold tagOf
  split_ifs <;> decide

/-! ### A NAN made quiet -/

theorem quieten_getLsbD (x : FpReal) : (quieten x).man.getLsbD 62 = true := by
  simp only [quieten, BitVec.getLsbD_or]
  exact Bool.or_true _

theorem isNan_quieten {x : FpReal} (h : isNan x = true) : isNan (quieten x) = true := by
  obtain ⟨hexp, -⟩ := (isNan_iff x).mp h
  refine (isNan_iff _).mpr ⟨hexp, fun he => ?_⟩
  have hbit := congrArg (BitVec.getLsbD · 62) he
  simp only [BitVec.getLsbD_extractLsb', Nat.zero_add, quieten_getLsbD] at hbit
  exact absurd hbit (by decide)

theorem quieten_of_quiet {x : FpReal} (h : isNan x = true) (hq : isSnan x = false) : quieten x = x := by
  have hbit : x.man.getLsbD 62 = true := by simpa [isSnan, h] using hq
  have hman : x.man ||| 0x4000000000000000 = x.man := by
    refine BitVec.eq_of_getLsbD_eq fun k hk => ?_
    rw [BitVec.getLsbD_or, show (0x4000000000000000 : BitVec 64) = BitVec.twoPow 64 62 from rfl, BitVec.getLsbD_twoPow]
    by_cases hk' : 62 = k
    · rw [← hk', hbit, Bool.true_or]
    · simp [hk']
  rw [quieten, hman]

/-! ### What is delivered -/

/-- The state with a result stored, or for FCMP and FTST its condition codes. -/
def FpJob.delivered (j : FpJob) (x : FpReal) (s : State) : State :=
  match j.op with
  | .cmp => s.setFpcc false (isZero x) false (isNan x)
  | .tst => setFpccOf x s
  | _ => setFpccOf x (s.setFp j.dst x)

theorem deliver_eq (j : FpJob) (x : FpReal) (s : State) : deliver j x s = .ok () (j.delivered x s) := by
  unfold deliver FpJob.delivered
  cases j.op <;> rfl

section delivered
variable (j : FpJob) (x : FpReal) (s : State)

theorem delivered_of_stores (h : j.op.stores = true) : j.delivered x s = setFpccOf x (s.setFp j.dst x) := by
  unfold FpJob.delivered
  cases hop : j.op <;> simp_all [FpOp.stores]

theorem delivered_getFp (h : j.op.stores = true) : (j.delivered x s).getFp j.dst = x := by
  rw [delivered_of_stores j x s h]
  exact State.getFp_setFp _ _ _

theorem delivered_getFp_of_not (h : j.op.stores = false) : (j.delivered x s).getFp j.dst = s.getFp j.dst := by
  unfold FpJob.delivered
  cases hop : j.op <;> simp_all [FpOp.stores] <;> rfl

theorem delivered_fpu : (j.delivered x s).fpu = s.fpu := by
  unfold FpJob.delivered
  cases j.op <;> rfl

theorem delivered_fpsr : ∃ n z i, (j.delivered x s).fp.fpsr = withFpcc s.fp.fpsr n z i (isNan x) := by
  unfold FpJob.delivered
  cases j.op <;> exact ⟨_, _, _, rfl⟩

end delivered

/-- The state with condition codes that are free. -/
def State.freedFpcc (s : State) : State :=
  { s.setFpcc (Config.freeBit s.freeCount) (Config.freeBit (s.freeCount + 1)) (Config.freeBit (s.freeCount + 2))
      (Config.freeBit (s.freeCount + 3)) with freeCount := s.freeCount + 4 }

theorem freeFpcc_eq (s : State) : freeFpcc s = .ok () s.freedFpcc := rfl

/-- The state with an exception posted. -/
def State.posted (ia : Long) (vector : Byte) (unit : FpUnit) (fill : Fpu → Fpu) (s : State) : State :=
  { s with fpu := postedFpu s ia vector unit false fill, freeCount := s.freeCount + 8 }

theorem postExc_eq (ia : Long) (vector : Byte) (unit : FpUnit) (fill : Fpu → Fpu) (s : State) :
    postExc ia vector unit false fill s = .ok () (s.posted ia vector unit fill) := rfl

/-! ### Signaling NANs -/

theorem fpsr_accrue_getLsbD (s : State) {k : Nat} (hk : 8 ≤ k) : s.accrue.fp.fpsr.getLsbD k = s.fp.fpsr.getLsbD k :=
  accrueBits_getLsbD_of_ge _ hk

theorem withhold_eq (j : FpJob) (x : FpReal) (s : State) :
    ∃ t n z i nan, withhold j x s = .ok () t ∧ t.getFp j.dst = s.getFp j.dst ∧ t.fpu = s.fpu ∧
      t.fp.fpsr = withFpcc s.fp.fpsr n z i nan := by
  unfold withhold
  cases h : j.op.stores with
  | true => exact ⟨_, _, _, _, _, freeFpcc_eq s, rfl, rfl, rfl⟩
  | false =>
    obtain ⟨n, z, i, hf⟩ := delivered_fpsr j x s
    exact ⟨_, n, z, i, _, deliver_eq j x s, delivered_getFp_of_not j x s h, delivered_fpu j x s, hf⟩

theorem doSnan_of_enabled (j : FpJob) (x : FpReal) {s : State} (h : s.fp.fpcr.getLsbD 14 = true) :
    ∃ t, doSnan j x s = .ok () t ∧ t.getFp j.dst = s.getFp j.dst ∧
      t.fpu.pending = some { vector := 54, unit := .e1, post := false } ∧ t.fp.fpsr.getLsbD 14 = true := by
  have hen : trapEnabled s.fp.fpcr .snan = true := h
  obtain ⟨t, n, z, i, nan, ht, hreg, hfpu, hfpsr⟩ := withhold_eq j (quieten x) ((s.setExc .snan).posted j.ia FpExc.snan.vector .e1
    (withOperands j (if isSnan j.src.val then quieten j.src.val else j.src.val) (if isSnan j.dval then quieten j.dval else j.dval)))
  refine ⟨t.accrue, ?_, hreg, congrArg Fpu.pending hfpu, ?_⟩
  · unfold doSnan
    simp only [bind_eq, update_eq, fetch_eq]
    rw [show (s.setExc .snan).fp.fpcr = s.fp.fpcr from rfl, if_pos hen]
    simp only [bind_eq, postExc_eq, ht, update_eq]
  · rw [fpsr_accrue_getLsbD _ (by decide), hfpsr, withFpcc_getLsbD]
    exact (excBits_getLsbD .snan _ 14).trans (Bool.or_true _)

theorem doSnan_of_disabled (j : FpJob) (x : FpReal) {s : State} (h : s.fp.fpcr.getLsbD 14 = false) :
    doSnan j x s = .ok () (j.delivered (quieten x) (s.setExc .snan)).accrue := by
  have hen : trapEnabled s.fp.fpcr .snan = false := h
  unfold doSnan
  simp only [bind_eq, update_eq, fetch_eq]
  rw [show (s.setExc .snan).fp.fpcr = s.fp.fpcr from rfl, if_neg (by simp [hen])]
  simp only [bind_eq, deliver_eq, update_eq]

/-! ### Operations on supported operands -/

/-- What holds where the operation of an instruction at `s` begins. -/
structure FpBegun (s b : State) : Prop where
  fpcr : b.fp.fpcr = s.fp.fpcr
  fps : b.fp.fp = s.fp.fp
  pending : b.fpu.pending = none
  exc : ∀ k, 8 ≤ k → k < 16 → b.fp.fpsr.getLsbD k = false

theorem FpBegun.getFp {s b : State} (h : FpBegun s b) (n : RegNo) : b.getFp n = s.getFp n := by
  rw [State.getFp, h.fps, State.getFp]

theorem fpBegun_of_source {src : FpSrc} {s s1 : State} {r : FpOperand × Option Long} (hp : s.fpu.pending = none)
    (hsrc : fpSource src s.fpAwake = .ok r s1) : FpBegun s (s1.fpBegun s.pc) := by
  have hk := fpSource_keepsUnit hsrc
  have hfp : s1.fp = s.fp := hk.fp.trans s.fpAwake_fp
  refine ⟨(congrArg FpRegs.fpcr hfp :), (congrArg FpRegs.fp hfp :), ?_, fun k hk hk' => ?_⟩
  · show s1.fpu.pending = none
    rw [hk.fpu, State.fpAwake_pending, hp]
  · exact (clearedBits_getLsbD _ k).trans (by rw [decide_eq_false (by omega), Bool.and_false])

theorem arithJob_supported {op : FpOp} {form : Option Prec} {cmd : BitVec 7} {src : FpSrc} {dst : RegNo} {s : State} {x : FpReal}
    (hx : tagOf x ≠ tagUnnormal) (hd : op.dyadic = true → tagOf (s.getFp dst) ≠ tagUnnormal) :
    (arithJob op form cmd src dst s (operandOf x)).unsupported = false := by
  rw [Bool.eq_false_iff]
  intro h
  rcases (FpJob.unsupported_iff _).mp h with hp | ht | ht | ⟨hop, ht⟩
  · exact absurd hp Bool.false_ne_true
  · exact hx ht
  · exact tagOf_ne_denormal x ht
  · exact hd hop ht

/-- The bits of FPSR after a delivery. -/
theorem delivered_accrue_getLsbD (j : FpJob) (x : FpReal) (s : State) :
    (j.delivered x s).accrue.fp.fpsr.getLsbD 24 = isNan x ∧
      ∀ k, 8 ≤ k → k < 24 → (j.delivered x s).accrue.fp.fpsr.getLsbD k = s.fp.fpsr.getLsbD k := by
  obtain ⟨n, z, i, hf⟩ := delivered_fpsr j x s
  refine ⟨?_, fun k hk hk' => ?_⟩
  · rw [fpsr_accrue_getLsbD _ (by decide), hf, withFpcc_getLsbD]
    rfl
  · rw [fpsr_accrue_getLsbD _ hk, hf, withFpcc_getLsbD, if_neg (by omega), if_neg (by omega), if_neg (by omega), if_neg (by omega)]

/-- Whether an operand is a signaling NAN. -/
def FpJob.signaling (j : FpJob) : Bool := isSnan j.src.val || (j.op.dyadic && isSnan j.dval)

theorem isNan_nan {j : FpJob} (h : (isNan j.src.val || (j.op.dyadic && isNan j.dval)) = true) : isNan j.nan = true := by
  rw [FpJob.nan]
  cases hd : j.op.dyadic && isNan j.dval with
  | true => exact (Bool.and_eq_true_iff.mp hd).2
  | false => rw [if_neg (by simp), ← h, hd, Bool.or_false]

/-- A quiet NAN is delivered. -/
theorem rest_of_quiet {j : FpJob} (hu : j.unsupported = false) (hany : (isNan j.src.val || (j.op.dyadic && isNan j.dval)) = true)
    (hsig : j.signaling = false) (b : State) : j.rest b = .ok () (j.delivered j.nan b).accrue := by
  unfold FpJob.rest
  rw [if_neg (by simp [hu]), ← FpJob.signaling, if_neg (by simp [hsig]), if_pos hany]
  simp only [bind_eq, deliver_eq, update_eq]

/-- What an operation with a NAN operand makes of it. -/
theorem rest_of_nan {j : FpJob} {b : State} (hu : j.unsupported = false) (hany : (isNan j.src.val || (j.op.dyadic && isNan j.dval)) = true)
    (hp : b.fpu.pending = none) (hexc : b.fp.fpsr.getLsbD 14 = false) :
    ∃ t, j.rest b = .ok () t ∧ t.fp.fpsr.getLsbD 14 = j.signaling ∧
      ((j.signaling && b.fp.fpcr.getLsbD 14) = false → t.fpu.pending = none ∧ t.fp.fpsr.getLsbD 24 = true ∧
        (j.op.stores = true → t.getFp j.dst = quieten j.nan)) ∧
      ((j.signaling && b.fp.fpcr.getLsbD 14) = true →
        t.getFp j.dst = b.getFp j.dst ∧ t.fpu.pending = some { vector := 54, unit := .e1, post := false }) := by
  have hnan : isNan j.nan = true := isNan_nan hany
  cases hsig : j.signaling with
  | false =>
    have hquiet : quieten j.nan = j.nan := by
      obtain ⟨hsrc, hdst⟩ := Bool.or_eq_false_iff.mp hsig
      refine quieten_of_quiet hnan ?_
      rw [FpJob.nan]
      cases h : j.op.dyadic && isNan j.dval with
      | true => simpa [(Bool.and_eq_true_iff.mp h).1] using hdst
      | false => exact hsrc
    obtain ⟨hbit, hbits⟩ := delivered_accrue_getLsbD j j.nan b
    refine ⟨_, rest_of_quiet hu hany hsig b, (hbits 14 (by decide) (by decide)).trans hexc, fun _ => ⟨?_, hbit.trans hnan, fun hs => ?_⟩,
      fun h => absurd h (by simp)⟩
    · exact (congrArg Fpu.pending (delivered_fpu j j.nan b)).trans hp
    · rw [hquiet]
      exact delivered_getFp j j.nan b hs
  | true =>
    unfold FpJob.rest
    rw [if_neg (by simp [hu]), ← FpJob.signaling, if_pos hsig]
    cases hen : b.fp.fpcr.getLsbD 14 with
    | true =>
      obtain ⟨t, ht, hreg, hpend, hbit⟩ := doSnan_of_enabled j j.nan hen
      exact ⟨t, ht, hbit, fun h => absurd h (by simp), fun _ => ⟨hreg, hpend⟩⟩
    | false =>
      obtain ⟨hbit, hbits⟩ := delivered_accrue_getLsbD j (quieten j.nan) (b.setExc .snan)
      refine ⟨_, doSnan_of_disabled j j.nan hen, ?_, fun _ => ⟨?_, hbit.trans (isNan_quieten hnan), fun hs => ?_⟩,
        fun h => absurd h (by simp)⟩
      · rw [hbits 14 (by decide) (by decide)]
        exact (excBits_getLsbD .snan _ 14).trans (Bool.or_true _)
      · exact (congrArg Fpu.pending (delivered_fpu j (quieten j.nan) (b.setExc .snan))).trans hp
      · exact delivered_getFp j (quieten j.nan) _ hs

/-- Settles O47: the instruction's operation is one with a NAN operand (`rest_of_nan`). -/
theorem fpNanOperands : Obligations.FpNanOperands := by
  unfold Obligations.FpNanOperands
  intro i op form cmd src dst s s1 x a hi hp hsrc hx hdst d fromDst signaling quiet hnan
  have hb := fpBegun_of_source hp hsrc
  have hany : (isNan x || (op.dyadic && isNan d)) = true := by
    rcases hnan with h | h
    · exact Bool.or_eq_true_iff.mpr (.inr h)
    · exact Bool.or_eq_true_iff.mpr (.inl h)
  obtain ⟨t, ht, hbit, hquiet, htrap⟩ := rest_of_nan (arithJob_supported (form := form) (cmd := cmd) (src := src) hx hdst) hany hb.pending
    (hb.exc 14 (by decide) (by decide))
  rw [hb.fpcr] at hquiet htrap
  refine ⟨t, exec_arithmetic_ok hi hp hsrc ht, hbit, hquiet, fun h => ?_⟩
  obtain ⟨hreg, hpend⟩ := htrap h
  exact ⟨hreg.trans (hb.getFp dst), hpend⟩

end Sys2Proof.Machine
end

