-- ==== Sys2Proof/Proofs/FpOps.lean ====
section
/-!
SUPPORT. Infinities and zeros as operands (42_fp_instructions.md R265-R271; 43_fp_exceptions.md R314, R323), and exact sums as
numbers.
-/
namespace Sys2Proof.Machine

/-! ### Exact sums -/

theorem fpValue_eq (x : FpReal) : fpValue x = (if x.sign then -1 else 1) * (x.man.toNat : ℚ) * (2 : ℚ) ^ unitExp x := rfl

/-- The exact sum of two values is the sum of the numbers they stand for. -/
theorem exactSum_value (x y : FpReal) : ((exactSum x y).1 : ℚ) * (2 : ℚ) ^ (exactSum x y).2 = fpValue x + fpValue y := by
  have hpart (z : FpReal) (e : Int) (he : e ≤ unitExp z) :
      (((if z.sign then -((z.man.toNat * 2 ^ (unitExp z - e).toNat : Nat) : Int) else ((z.man.toNat * 2 ^ (unitExp z - e).toNat : Nat) : Int)) : Int) : ℚ)
        * (2 : ℚ) ^ e = fpValue z := by
    have hpow : (2 : ℚ) ^ (unitExp z - e).toNat * (2 : ℚ) ^ e = (2 : ℚ) ^ unitExp z := by
      rw [← zpow_natCast, ← zpow_add₀ (by norm_num), Int.toNat_of_nonneg (by omega), Int.sub_add_cancel]
    rw [fpValue_eq, ← hpow]
    cases z.sign <;> push_cast <;> simp <;> ring
  simp only [exactSum]
  rw [Int.cast_add, add_mul]
  exact congrArg₂ (· + ·) (hpart x _ (min_le_left _ _)) (hpart y _ (min_le_right _ _))

/-- It is 0 just where their sum is. -/
theorem exactSum_eq_zero (x y : FpReal) : (exactSum x y).1 = 0 ↔ fpValue x + fpValue y = 0 := by
  have hpow : (2 : ℚ) ^ (exactSum x y).2 ≠ 0 := zpow_ne_zero _ (by norm_num)
  rw [← exactSum_value, mul_eq_zero, or_iff_left hpow, Int.cast_eq_zero]

/-! ### Kinds of values -/

theorem isInf_of_isZero {x : FpReal} (h : isZero x = true) : isInf x = false := by
  unfold isZero at h
  unfold isInf
  rw [beq_iff_eq.mp h]
  rfl

theorem isZero_of_isInf {x : FpReal} (h : isInf x = true) : isZero x = false := by
  unfold isInf at h
  unfold isZero
  rw [beq_iff_eq.mp h]
  rfl

theorem isZero_of_isNormal {x : FpReal} (h : isNormal x = true) : isZero x = false := by
  unfold isNormal at h
  unfold isZero
  rw [beq_iff_eq.mp h]
  rfl

theorem isInf_of_isNormal {x : FpReal} (h : isNormal x = true) : isInf x = false := by
  unfold isNormal at h
  unfold isInf
  rw [beq_iff_eq.mp h]
  rfl

theorem fpValue_of_isZero {x : FpReal} (h : isZero x = true) : fpValue x = 0 := by
  rw [fpValue_eq, ((isZero_iff x).mp h).2]
  simp

/-- Numbers, zeros and infinities are no NANs and of a supported type. -/
theorem tagOf_of_number {x : FpReal} (h : isNormal x = true ∨ isZero x = true ∨ isInf x = true) : isNan x = false ∧ tagOf x ≠ tagUnnormal := by
  unfold isNan
  rcases h with h | h | h
  · rw [isNormal, beq_iff_eq] at h; rw [h]; decide
  · rw [isZero, beq_iff_eq] at h; rw [h]; decide
  · rw [isInf, beq_iff_eq] at h; rw [h]; decide

theorem isSnan_of_not_nan {x : FpReal} (h : isNan x = false) : isSnan x = false := by rw [isSnan, h, Bool.false_and]

theorem eq_fpZero_of_isZero {x : FpReal} (h : isZero x = true) : x = fpZero x.sign := by
  obtain ⟨hexp, hman⟩ := (isZero_iff x).mp h
  cases x
  simp only at hexp hman
  rw [fpZero, hexp, hman]

theorem roundModeOf_eq_rm (f : Long) : (roundModeOf f == .rm) = (f.extractLsb' 4 2 == 2) := by
  unfold roundModeOf
  generalize f.extractLsb' 4 2 = m
  exact (by decide : ∀ m : BitVec 2, ((match m.toNat with | 0 => RoundMode.rn | 1 => .rz | 2 => .rm | _ => .rp) == .rm) = (m == 2)) m

/-! ### Results that are delivered as they are, and exceptions with a default result -/

/-- The condition codes that an FPSR has. -/
theorem withFpcc_codes (f : Long) (n z i nan : Bool) :
    (withFpcc f n z i nan).extractLsb' 24 4 = BitVec.ofBool n ++ BitVec.ofBool z ++ BitVec.ofBool i ++ BitVec.ofBool nan := by
  refine BitVec.eq_of_getLsbD_eq fun k hk => ?_
  rw [BitVec.getLsbD_extractLsb', withFpcc_getLsbD]
  simp only [BitVec.getLsbD_append]
  interval_cases k <;> simp

theorem accrueBits_codes (f : Long) : (accrueBits f).extractLsb' 24 4 = f.extractLsb' 24 4 := by
  refine BitVec.eq_of_getLsbD_eq fun k hk => ?_
  rw [BitVec.getLsbD_extractLsb', BitVec.getLsbD_extractLsb', accrueBits_getLsbD_of_ge _ (by omega)]

/-- An operation that ends with a result stored as it is. -/
def Gives (j : FpJob) (m : M Unit) (b : State) (r : FpReal) : Prop :=
  ∃ t, m b = .ok () t ∧ t.getFp j.dst = r ∧ t.fpu.pending = none ∧
    t.fp.fpsr.extractLsb' 24 4 = BitVec.ofBool r.sign ++ BitVec.ofBool (isZero r) ++ BitVec.ofBool (isInf r) ++ 0#1

theorem gives_special (j : FpJob) {r : FpReal} {b : State} (hr : isNan r = false) (hp : b.fpu.pending = none) :
    Gives j (special j r) b r := by
  refine ⟨_, rfl, State.getFp_setFp _ _ _, hp, (accrueBits_codes _).trans ((withFpcc_codes _ _ _ _ _).trans ?_)⟩
  rw [hr]
  rfl

/-- An operation that sets an exception; its default result, or with the trap enabled the exception posted. -/
def Excepts (j : FpJob) (m : M Unit) (b : State) (exc : FpExc) (r : FpReal) : Prop :=
  ∃ t, m b = .ok () t ∧ t.fp.fpsr.getLsbD exc.bit = true ∧
    (b.fp.fpcr.getLsbD exc.bit = false → t.getFp j.dst = r ∧ t.fpu.pending = none) ∧
    (b.fp.fpcr.getLsbD exc.bit = true → t.getFp j.dst = b.getFp j.dst ∧
      t.fpu.pending = some { vector := exc.vector, unit := .e1, post := false })

/-- The exception `exc`, its state frame's fields, its default result. -/
def defaultOr (j : FpJob) (exc : FpExc) (fill : Fpu → Fpu) (r : FpReal) : M Unit := do
  update (State.setExc exc)
  let fpcr ← fetch fun s => s.fp.fpcr
  if trapEnabled fpcr exc then
    postExc j.ia exc.vector .e1 false fill
    freeFpcc
  else fpStore j.dst r
  update State.accrue

theorem excepts_defaultOr (j : FpJob) (exc : FpExc) (fill : Fpu → Fpu) (r : FpReal) {b : State} (hp : b.fpu.pending = none) :
    Excepts j (defaultOr j exc fill r) b exc r := by
  have hbit (f : Long) (n z i nan : Bool) : (accrueBits (withFpcc (excBits exc f) n z i nan)).getLsbD exc.bit = true := by
    have hrange : 8 ≤ exc.bit ∧ exc.bit < 16 := by cases exc <;> decide
    rw [accrueBits_getLsbD_of_ge _ hrange.1, withFpcc_getLsbD, if_neg (by omega), if_neg (by omega), if_neg (by omega),
      if_neg (by omega), excBits_getLsbD, decide_eq_true rfl, Bool.or_true]
  cases hen : b.fp.fpcr.getLsbD exc.bit with
  | true =>
    have hrun : defaultOr j exc fill r b = .ok () (((b.setExc exc).posted j.ia exc.vector .e1 fill).freedFpcc).accrue := by
      unfold defaultOr
      simp only [bind_eq, update_eq, fetch_eq]
      rw [if_pos (show trapEnabled (b.setExc exc).fp.fpcr exc = true from hen)]
      simp only [bind_eq, postExc_eq, freeFpcc_eq, update_eq]
    refine ⟨_, hrun, hbit _ _ _ _ _, fun h => absurd (hen.symm.trans h) (by decide), fun _ => ⟨rfl, rfl⟩⟩
  | false =>
    have hrun : defaultOr j exc fill r b = .ok () (setFpccOf r ((b.setExc exc).setFp j.dst r)).accrue := by
      unfold defaultOr
      simp only [bind_eq, update_eq, fetch_eq]
      rw [if_neg (show ¬ trapEnabled (b.setExc exc).fp.fpcr exc = true by simp [trapEnabled, hen])]
      simp only [bind_eq, fpStore, update_eq]
    exact ⟨_, hrun, hbit _ _ _ _ _, fun _ => ⟨State.getFp_setFp _ _ _, hp⟩, fun h => absurd (hen.symm.trans h) (by decide)⟩

theorem excepts_doOperr (j : FpJob) {b : State} (hp : b.fpu.pending = none) : Excepts j (doOperr j) b .operr fpNanDefault :=
  excepts_defaultOr j .operr (withOperands j j.src.val j.dval) fpNanDefault hp

theorem excepts_doDz (j : FpJob) (sign : Bool) {b : State} (hp : b.fpu.pending = none) : Excepts j (doDz j sign) b .dz (fpInf sign) :=
  excepts_defaultOr j .dz _ (fpInf sign) hp

/-! ### The operations on infinities and zeros -/

theorem isNan_fpInf (sign : Bool) : isNan (fpInf sign) = false := by cases sign <;> decide

theorem isNan_fpZero (sign : Bool) : isNan (fpZero sign) = false := by cases sign <;> decide

section ops
variable (j : FpJob) {b : State} (hp : b.fpu.pending = none)
include hp

theorem doMove_of_special {sign : Bool} (h : isZero j.src.val = true ∨ isInf j.src.val = true) (hn : isNan j.src.val = false) :
    Gives j (doMove j sign) b { j.src.val with sign := sign } := by
  have hspecial : (isZero { j.src.val with sign := sign } || isInf { j.src.val with sign := sign }) = true := by
    rw [Bool.or_eq_true]
    exact h
  unfold doMove
  rw [if_pos hspecial]
  exact gives_special j hn hp

section add
variable {y : FpReal} (hd : isNan j.dval = false)
include hd

/-- A sum of which an operand is an infinity. -/
theorem doAdd_of_inf (hy : isNan y = false) :
    (isInf j.dval = true → isInf y = true → j.dval.sign = y.sign → Gives j (doAdd j y) b j.dval) ∧
    (isInf j.dval = true → isInf y = true → j.dval.sign ≠ y.sign → Excepts j (doAdd j y) b .operr fpNanDefault) ∧
    (isInf j.dval = true → isInf y = false → Gives j (doAdd j y) b j.dval) ∧
    (isInf j.dval = false → isInf y = true → Gives j (doAdd j y) b y) := by
  unfold doAdd
  refine ⟨fun h h' hs => ?_, fun h h' hs => ?_, fun h h' => ?_, fun h h' => ?_⟩ <;> simp only [h, h']
  · simp only [Bool.and_self, if_true, hs, bne_self_eq_false, Bool.false_eq_true, if_false]
    exact gives_special j hd hp
  · simp only [Bool.and_self, if_true, bne_iff_ne, ne_eq, hs, not_false_eq_true]
    exact excepts_doOperr j hp
  · simp only [Bool.and_false, Bool.false_eq_true, if_false, if_true]
    exact gives_special j hd hp
  · simp only [Bool.and_true, Bool.false_eq_true, if_false, if_true]
    exact gives_special j hy hp

/-- A sum of numbers that is 0. -/
theorem doAdd_of_zero (hdi : isInf j.dval = false) (hyi : isInf y = false) (hsum : fpValue j.dval + fpValue y = 0) :
    (isZero j.dval = true → isZero y = true → j.dval.sign = y.sign → Gives j (doAdd j y) b j.dval) ∧
    (¬(isZero j.dval = true ∧ isZero y = true ∧ j.dval.sign = y.sign) →
      Gives j (doAdd j y) b (fpZero (b.fp.fpcr.extractLsb' 4 2 == 2))) := by
  have hexact : (exactSum j.dval y).1 = 0 := (exactSum_eq_zero _ _).mpr hsum
  unfold doAdd
  simp only [hdi, hyi, Bool.and_self, Bool.false_eq_true, if_false, hexact, if_true]
  refine ⟨fun hz hz' hs => ?_, fun hz => ?_⟩
  · obtain ⟨t, ht, hrest⟩ := gives_special j (b := b) hd hp
    refine ⟨t, ?_, hrest⟩
    rw [← ht, bind_eq, fetch_eq]
    dsimp only
    rw [if_pos (by simp [hz, hz', hs]), ← eq_fpZero_of_isZero hz]
  · obtain ⟨t, ht, hrest⟩ := gives_special j (b := b) (isNan_fpZero (b.fp.fpcr.extractLsb' 4 2 == 2)) hp
    refine ⟨t, ?_, hrest⟩
    rw [← ht, bind_eq, fetch_eq]
    dsimp only
    rw [if_neg (by simpa [and_assoc] using hz), roundModeOf_eq_rm]

end add

theorem doMul_of_special : let sign := j.dval.sign != j.src.val.sign
    (isInf j.dval = true → isZero j.src.val = true → Excepts j (doMul j) b .operr fpNanDefault) ∧
    (isZero j.dval = true → isInf j.src.val = true → Excepts j (doMul j) b .operr fpNanDefault) ∧
    (isInf j.dval = true → isZero j.src.val = false → Gives j (doMul j) b (fpInf sign)) ∧
    (isInf j.src.val = true → isZero j.dval = false → Gives j (doMul j) b (fpInf sign)) ∧
    (isZero j.dval = true → isInf j.src.val = false → Gives j (doMul j) b (fpZero sign)) ∧
    (isZero j.src.val = true → isInf j.dval = false → Gives j (doMul j) b (fpZero sign)) := by
  unfold doMul
  have hoperr := excepts_doOperr j hp
  have hinf (sign : Bool) := gives_special j (isNan_fpInf sign) hp
  have hzero (sign : Bool) := gives_special j (isNan_fpZero sign) hp
  refine ⟨fun h h' => ?_, fun h h' => ?_, fun h h' => ?_, fun h h' => ?_, fun h h' => ?_, fun h h' => ?_⟩
  · simpa [h, h', isZero_of_isInf h] using hoperr
  · simpa [h, h', isInf_of_isZero h] using hoperr
  · simpa [h, h', isZero_of_isInf h] using hinf _
  · simpa [h, h', isZero_of_isInf h] using hinf _
  · simpa [h, h', isInf_of_isZero h] using hzero _
  · simpa [h, h', isInf_of_isZero h] using hzero _

theorem doDiv_of_special : let sign := j.dval.sign != j.src.val.sign
    (isInf j.dval = true → isInf j.src.val = true → Excepts j (doDiv j) b .operr fpNanDefault) ∧
    (isZero j.dval = true → isZero j.src.val = true → Excepts j (doDiv j) b .operr fpNanDefault) ∧
    (isInf j.dval = true → isInf j.src.val = false → Gives j (doDiv j) b (fpInf sign)) ∧
    (isNormal j.dval = true → isZero j.src.val = true → Excepts j (doDiv j) b .dz (fpInf sign)) ∧
    (isInf j.src.val = true → isInf j.dval = false → Gives j (doDiv j) b (fpZero sign)) ∧
    (isZero j.dval = true → isZero j.src.val = false → Gives j (doDiv j) b (fpZero sign)) := by
  unfold doDiv
  have hoperr := excepts_doOperr j hp
  have hdz (sign : Bool) := excepts_doDz j sign hp
  have hinf (sign : Bool) := gives_special j (isNan_fpInf sign) hp
  have hzero (sign : Bool) := gives_special j (isNan_fpZero sign) hp
  refine ⟨fun h h' => ?_, fun h h' => ?_, fun h h' => ?_, fun h h' => ?_, fun h h' => ?_, fun h h' => ?_⟩
  · simpa [h, h', isZero_of_isInf h] using hoperr
  · simpa [h, h', isInf_of_isZero h] using hoperr
  · simpa [h, h', isZero_of_isInf h] using hinf _
  · simpa [h', isZero_of_isNormal h, isInf_of_isNormal h, isInf_of_isZero h'] using hdz _
  · simpa [h, h', isZero_of_isInf h] using hzero _
  · simpa [h, h', isInf_of_isZero h] using hzero _

theorem doSqrt_of_special (hn : isNan j.src.val = false) :
    (isZero j.src.val = true → Gives j (doSqrt j) b j.src.val) ∧
    (isZero j.src.val = false → j.src.val.sign = true → Excepts j (doSqrt j) b .operr fpNanDefault) ∧
    (isInf j.src.val = true → j.src.val.sign = false → Gives j (doSqrt j) b j.src.val) := by
  unfold doSqrt
  have hoperr := excepts_doOperr j hp
  have hsrc := gives_special j hn hp
  refine ⟨fun h => ?_, fun h h' => ?_, fun h h' => ?_⟩
  · simpa [h] using hsrc
  · simpa [h, h'] using hoperr
  · simpa [h, h', isZero_of_isInf h] using hsrc

end ops

/-- An operation on numbers, zeros and infinities is not stopped by a check. -/
theorem rest_of_numbers {j : FpJob} (hu : j.unsupported = false) (hs : isNan j.src.val = false)
    (hd : j.op.dyadic = true → isNan j.dval = false) : j.rest = operate j := by
  have hdst : (j.op.dyadic && isNan j.dval) = false := by
    cases h : j.op.dyadic with
    | false => rfl
    | true => exact hd h
  have hsnan : (j.op.dyadic && isSnan j.dval) = false := by
    rw [isSnan, ← Bool.and_assoc, hdst, Bool.false_and]
  unfold FpJob.rest
  rw [if_neg (by simp [hu]), if_neg (by simp [isSnan_of_not_nan hs, hsnan]), if_neg (by simp [hs, hdst])]

/-- Settles O48: each operation by the kinds of its operands (`doMove_of_special` to `doSqrt_of_special`). -/
theorem fpSpecialOperands : Obligations.FpSpecialOperands := by
  unfold Obligations.FpSpecialOperands
  intro i op form cmd src dst s s1 x a hi hp hsrc hx d hd sign y gives excepts operandError
  have hb := fpBegun_of_source hp hsrc
  have hbp := hb.pending
  obtain ⟨hxn, hxt⟩ := tagOf_of_number hx
  have hdn (h : op.dyadic = true) := tagOf_of_number (hd h)
  have hrest : (arithJob op form cmd src dst s (operandOf x)).rest = operate (arithJob op form cmd src dst s (operandOf x)) :=
    rest_of_numbers (arithJob_supported hxt fun h => (hdn h).2) hxn fun h => (hdn h).1
  have hgives {r : FpReal} (h : Gives (arithJob op form cmd src dst s (operandOf x))
      (operate (arithJob op form cmd src dst s (operandOf x))) (s1.fpBegun s.pc) r) : gives r := by
    obtain ⟨t, ht, hends⟩ := h
    exact ⟨t, exec_arithmetic_ok hi hp hsrc ((congrFun hrest _).trans ht), hends⟩
  have hexcepts {exc : FpExc} {r : FpReal} (h : Excepts (arithJob op form cmd src dst s (operandOf x))
      (operate (arithJob op form cmd src dst s (operandOf x))) (s1.fpBegun s.pc) exc r) : excepts exc.bit exc.vector r := by
    obtain ⟨t, ht, hbit, hoff, hon⟩ := h
    rw [hb.fpcr] at hoff hon
    rw [show (s1.fpBegun s.pc).getFp (arithJob op form cmd src dst s (operandOf x)).dst = d from hb.getFp dst] at hon
    exact ⟨t, exec_arithmetic_ok hi hp hsrc ((congrFun hrest _).trans ht), hbit, hoff, hon⟩
  have hxs (h : isNormal x = false) : isZero x = true ∨ isInf x = true := by simpa [h] using hx
  have hrm : (s1.fpBegun s.pc).fp.fpcr = s.fp.fpcr := hb.fpcr
  have hadd {z : FpReal} (hz : isNan z = false) (hdz : isNan d = false)
      (hop : operate (arithJob op form cmd src dst s (operandOf x)) = doAdd (arithJob op form cmd src dst s (operandOf x)) z) :
      (isInf d → isInf z → d.sign = z.sign → gives d) ∧ (isInf d → isInf z → d.sign ≠ z.sign → operandError) ∧
      (isInf d → isInf z = false → gives d) ∧ (isInf d = false → isInf z → gives z) ∧
      (isZero d → isZero z → d.sign = z.sign → gives d) ∧
      (isInf d = false → isInf z = false → ¬(isZero d ∧ isZero z ∧ d.sign = z.sign) → fpValue d + fpValue z = 0 →
        gives (fpZero (s.fp.fpcr.extractLsb' 4 2 == 2))) := by
    obtain ⟨h1, h2, h3, h4⟩ := doAdd_of_inf (arithJob op form cmd src dst s (operandOf x)) hbp hdz hz
    have hzero := doAdd_of_zero (arithJob op form cmd src dst s (operandOf x)) (y := z) hbp hdz
    rw [← hop] at h1 h2 h3 h4 hzero
    rw [hrm] at hzero
    refine ⟨fun h h' hs => hgives (h1 h h' hs), fun h h' hs => hexcepts (h2 h h' hs), fun h h' => hgives (h3 h h'),
      fun h h' => hgives (h4 h h'), fun h h' hs => hgives ((hzero (isInf_of_isZero h) (isInf_of_isZero h') ?_).1 h h' hs),
      fun h h' hn hsum => hgives ((hzero h h' hsum).2 hn)⟩
    show fpValue d + fpValue z = 0
    rw [fpValue_of_isZero h, fpValue_of_isZero h', add_zero]
  cases op with
  | move => exact fun h => hgives (doMove_of_special (arithJob .move form cmd src dst s (operandOf x)) hbp (hxs h) hxn)
  | abs => exact fun h => hgives (doMove_of_special (arithJob .abs form cmd src dst s (operandOf x)) hbp (hxs h) hxn)
  | neg => exact fun h => hgives (doMove_of_special (arithJob .neg form cmd src dst s (operandOf x)) hbp (hxs h) hxn)
  | add => exact hadd hxn (hdn rfl).1 rfl
  | sub => exact hadd (z := { x with sign := !x.sign }) hxn (hdn rfl).1 rfl
  | mul =>
    obtain ⟨h1, h2, h3, h4, h5, h6⟩ := doMul_of_special (arithJob .mul form cmd src dst s (operandOf x)) hbp
    exact ⟨fun h h' => hexcepts (h1 h h'), fun h h' => hexcepts (h2 h h'), fun h h' => hgives (h3 h h'),
      fun h h' => hgives (h4 h h'), fun h h' => hgives (h5 h h'), fun h h' => hgives (h6 h h')⟩
  | div =>
    obtain ⟨h1, h2, h3, h4, h5, h6⟩ := doDiv_of_special (arithJob .div form cmd src dst s (operandOf x)) hbp
    exact ⟨fun h h' => hexcepts (h1 h h'), fun h h' => hexcepts (h2 h h'), fun h h' => hgives (h3 h h'),
      fun h h' => hexcepts (h4 h h'), fun h h' => hgives (h5 h h'), fun h h' => hgives (h6 h h')⟩
  | sqrt =>
    obtain ⟨h1, h2, h3⟩ := doSqrt_of_special (arithJob .sqrt form cmd src dst s (operandOf x)) hbp hxn
    exact ⟨fun h => hgives (h1 h), fun h h' => hexcepts (h2 h h'), fun h h' => hgives (h3 h h')⟩
  | cmp | tst => trivial

end Sys2Proof.Machine
end

