-- ==== Sys2Proof/Proofs/FpCompare.lean ====
section
/-!
SUPPORT. FCMP, FTST and the predicates (42_fp_instructions.md R264, R270, R272).
-/
namespace Sys2Proof.Machine

/-! ### The predicates -/

/-- The predicates after a comparison of operands that are in an order. -/
theorem fpTruth_of_ordered {α : Type} [LinearOrder α] {f : Long} {d x : α} (hn : fpN f = true ↔ d < x) (hz : fpZ f = true ↔ d = x)
    (hnan : fpNan f = false) (p : BitVec 5) : fpTruth p f = true ↔ match p.toNat % 16 with
      | 0 | 8 => False
      | 1 | 9 => d = x
      | 2 | 10 => x < d
      | 3 | 11 => x ≤ d
      | 4 | 12 => d < x
      | 5 | 13 => d ≤ x
      | 6 | 14 => d ≠ x
      | _ => True := by
  have hk : p.toNat % 16 < 16 := Nat.mod_lt _ (by decide)
  unfold fpTruth
  rw [hnan]
  generalize p.toNat % 16 = k at hk
  rcases lt_trichotomy d x with h | h | h
  · have hn' : fpN f = true := hn.mpr h
    have hz' : fpZ f = false := Bool.eq_false_iff.mpr fun hb => h.ne (hz.mp hb)
    rw [hn', hz']
    interval_cases k <;> simp [h, h.le, h.ne, h.not_gt, h.not_ge]
  · have hn' : fpN f = false := Bool.eq_false_iff.mpr fun hb => (hn.mp hb).ne h
    have hz' : fpZ f = true := hz.mpr h
    rw [hn', hz']
    interval_cases k <;> simp [h]
  · have hn' : fpN f = false := Bool.eq_false_iff.mpr fun hb => h.not_gt (hn.mp hb)
    have hz' : fpZ f = false := Bool.eq_false_iff.mpr fun hb => h.ne' (hz.mp hb)
    rw [hn', hz']
    interval_cases k <;> simp [h, h.le, h.ne', h.not_gt, h.not_ge]

theorem fpTruth_of_unordered {f : Long} (hn : fpN f = false) (hz : fpZ f = false) (hnan : fpNan f = true) (p : BitVec 5) :
    fpTruth p f = true ↔ 8 ≤ p.toNat % 16 := by
  have hk : p.toNat % 16 < 16 := Nat.mod_lt _ (by decide)
  unfold fpTruth
  rw [hn, hz, hnan]
  generalize p.toNat % 16 = k at hk
  interval_cases k <;> simp

/-! ### The order of numbers and infinities -/

/-- The numbers, and beyond all of them the two infinities. -/
def fpPlace (y : FpReal) : WithBot (WithTop ℚ) :=
  if isInf y then (if y.sign then ⊥ else ↑(⊤ : WithTop ℚ)) else ↑(fpValue y : WithTop ℚ)

theorem fpValue_neg (x : FpReal) : fpValue { x with sign := !x.sign } = -fpValue x := by
  simp only [fpValue]
  cases x.sign <;> simp

/-- What FCMP makes of its operands: less than, equal to, or greater than 0. -/
def fpOrder (d s : FpReal) : Int :=
  if isInf d && isInf s then (if d.sign == s.sign then 0 else if d.sign then -1 else 1)
  else if isInf d then (if d.sign then -1 else 1)
  else if isInf s then (if s.sign then 1 else -1)
  else (exactSum d { s with sign := !s.sign }).1

theorem exactSum_order (d s : FpReal) : ((exactSum d { s with sign := !s.sign }).1 < 0 ↔ fpValue d < fpValue s) ∧
    ((exactSum d { s with sign := !s.sign }).1 = 0 ↔ fpValue d = fpValue s) := by
  have hsum := exactSum_value d { s with sign := !s.sign }
  have hpow : (0 : ℚ) < (2 : ℚ) ^ (exactSum d { s with sign := !s.sign }).2 := zpow_pos (by norm_num) _
  rw [fpValue_neg, ← sub_eq_add_neg] at hsum
  constructor
  · rw [← sub_neg (a := fpValue d), ← hsum, ← Int.cast_lt_zero (R := ℚ)]
    exact ⟨fun h => mul_neg_of_neg_of_pos h hpow, fun h => neg_of_mul_neg_left h hpow.le⟩
  · rw [exactSum_eq_zero, fpValue_neg, ← sub_eq_add_neg, sub_eq_zero]

/-- It tells the order of their places. -/
theorem fpOrder_place (d s : FpReal) : (fpOrder d s < 0 ↔ fpPlace d < fpPlace s) ∧ (fpOrder d s = 0 ↔ fpPlace d = fpPlace s) := by
  have hbot (q : ℚ) : ⊥ < ((q : WithTop ℚ) : WithBot (WithTop ℚ)) := WithBot.bot_lt_coe _
  have htop (q : ℚ) : ((q : WithTop ℚ) : WithBot (WithTop ℚ)) < ⊤ :=
    WithBot.coe_lt_coe.mpr (WithTop.coe_lt_top q)
  unfold fpOrder fpPlace
  cases hd : isInf d <;> cases hs : isInf s
  · simpa using exactSum_order d s
  · cases s.sign <;> simp [htop, (hbot _).not_gt]
  · cases d.sign <;> simp [hbot, (hbot _).ne]
  · cases d.sign <;> cases s.sign <;> simp

/-! ### FCMP and FTST -/

/-- The condition codes that a state has. -/
theorem codes_setFpcc (n z i nan : Bool) (s : State) :
    fpN (s.setFpcc n z i nan).accrue.fp.fpsr = n ∧ fpZ (s.setFpcc n z i nan).accrue.fp.fpsr = z ∧
      fpNan (s.setFpcc n z i nan).accrue.fp.fpsr = nan := by
  have hbit (k : Nat) (hk : 8 ≤ k) : (s.setFpcc n z i nan).accrue.fp.fpsr.getLsbD k = (withFpcc s.fp.fpsr n z i nan).getLsbD k :=
    accrueBits_getLsbD_of_ge _ hk
  refine ⟨(hbit 27 (by decide)).trans ?_, (hbit 26 (by decide)).trans ?_, (hbit 24 (by decide)).trans ?_⟩ <;>
    rw [withFpcc_getLsbD] <;> rfl

theorem doCmp_eq (j : FpJob) (b : State) : doCmp j b =
    .ok () (b.setFpcc (decide (fpOrder j.dval j.src.val < 0)) (fpOrder j.dval j.src.val == 0) false false).accrue := rfl

/-- Settles O50: FCMP's condition codes tell the order of its operands' places (`fpOrder_place`), and a predicate reads it there
(`fpTruth_of_ordered`); a quiet NAN leaves them unordered. -/
theorem compareAndTest : Obligations.CompareAndTest := by
  unfold Obligations.CompareAndTest
  intro src dst s s1 x a hp hsrc d place
  have hb := fpBegun_of_source hp hsrc
  refine ⟨fun hx hd => ?_, fun hnan hxs hds hxt hdt => ?_, fun hx => ?_⟩
  · obtain ⟨hxn, hxt⟩ := tagOf_of_number hx
    obtain ⟨hdn, hdt⟩ := tagOf_of_number hd
    have hrest := rest_of_numbers (arithJob_supported (op := .cmp) (form := none) (cmd := 0x38) (src := src) hxt fun _ => hdt) hxn
      fun _ => hdn
    obtain ⟨hn, hz, hnan⟩ := codes_setFpcc (decide (fpOrder d x < 0)) (fpOrder d x == 0) false false (s1.fpBegun s.pc)
    obtain ⟨hlt, heq⟩ := fpOrder_place d x
    refine ⟨_, exec_arithmetic_ok rfl hp hsrc ((congrFun hrest _).trans (doCmp_eq _ _)), hb.fps, fun p => ?_⟩
    refine fpTruth_of_ordered (d := fpPlace d) (x := fpPlace x) ?_ ?_ hnan p
    · rw [← hlt]
      exact (Bool.eq_iff_iff.mp hn).trans decide_eq_true_iff
    · rw [← heq]
      exact (Bool.eq_iff_iff.mp hz).trans beq_iff_eq
  · have hany : (isNan x || isNan d) = true := Bool.or_eq_true_iff.mpr hnan
    have hsig : (isSnan x || isSnan d) = false := Bool.or_eq_false_iff.mpr ⟨hxs, hds⟩
    have hisnan := isNan_nan (j := arithJob .cmp none 0x38 src dst s (operandOf x)) hany
    have hrest := rest_of_quiet (arithJob_supported (op := .cmp) (form := none) (cmd := 0x38) (src := src) hxt fun _ => hdt) hany hsig
      (s1.fpBegun s.pc)
    generalize (arithJob .cmp none 0x38 src dst s (operandOf x)).nan = y at hisnan hrest
    obtain ⟨hn, hz, hcode⟩ := codes_setFpcc false (isZero y) false (isNan y) (s1.fpBegun s.pc)
    refine ⟨_, exec_arithmetic_ok rfl hp hsrc hrest, fun p => fpTruth_of_unordered hn ?_ (hcode.trans hisnan) p⟩
    refine hz.trans ?_
    rw [isNan, beq_iff_eq] at hisnan
    rw [isZero, hisnan]
    rfl
  · obtain ⟨hxn, hxt⟩ := tagOf_of_number hx
    have hrest := rest_of_numbers (arithJob_supported (op := .tst) (form := none) (cmd := 0x3A) (src := src) (dst := dst) (s := s) hxt nofun)
      hxn nofun
    refine ⟨_, exec_arithmetic_ok rfl hp hsrc ((congrFun hrest _).trans rfl), hb.fps, hb.pending, ?_⟩
    refine (accrueBits_codes _).trans ((withFpcc_codes _ _ _ _ _).trans ?_)
    rw [show isNan (arithJob .tst none 0x3A src dst s (operandOf x)).src.val = false from hxn]
    rfl

end Sys2Proof.Machine
end

