-- ==== Sys2Proof/Proofs/FpRegsMove.lean ====
section
/-!
SUPPORT. Sequences of long words in memory, and the moves of floating-point control and data registers where memory is plain
(42_fp_instructions.md R278, R279).
-/
namespace Sys2Proof.Machine

/-! ### Where an operand is, in states alike -/

theorem State.indexed_congr {s t : State} (hr : t.regs = s.regs) (hs : t.sr = s.sr) (hm : t.mem = s.mem) (base : Long) (x : IndexExt) :
    t.indexed base x = s.indexed base x := by
  have hlong (a : Long) : t.longAt a = s.longAt a := by simp only [State.longAt, State.byteAt, hm]
  cases x with
  | brief i d => simp only [State.indexed, indexValue, State.getR_congr hr hs]
  | full i bs is bd ind => cases ind <;> simp only [State.indexed, indexValue, State.getR_congr hr hs, hlong]

/-- Where memory is plain the place of an operand depends on the registers, SR and memory alone. -/
theorem locate_congr {s t : State} (h : s.plain) (ht : t.plain) (hr : t.regs = s.regs) (hs : t.sr = s.sr) (hm : t.mem = s.mem)
    {ea : Ea} {n : Nat} {ext : Long} {l : Located} (hl : locate ea n ext s = .ok l s) : locate ea n ext t = .ok l t := by
  have hA (r : RegNo) : t.getA r = s.getA r := State.getR_congr hr hs (.a r)
  cases ea with
  | dn _ | an _ | absW _ | absL _ | pcDisp _ | imm _ =>
    cases hl
    rfl
  | ind r | postInc r | preDec r | disp r _ =>
    simp only [locate, bind_eq, fetch_eq, pure_eq] at hl ⊢
    rw [hA, (EStateM.Result.ok.inj hl).1]
  | index r x =>
    simp only [locate, bind_eq, fetch_eq, pure_eq, indexAddr_plain h] at hl
    simp only [locate, bind_eq, fetch_eq, pure_eq, indexAddr_plain ht, hA, State.indexed_congr hr hs hm]
    rw [(EStateM.Result.ok.inj hl).1]
  | pcIndex x =>
    simp only [locate, bind_eq, pure_eq, indexAddr_plain h] at hl
    simp only [locate, bind_eq, pure_eq, indexAddr_plain ht, State.indexed_congr hr hs hm]
    rw [(EStateM.Result.ok.inj hl).1]

theorem State.fpAwake_plain {s : State} (h : s.plain) : s.fpAwake.plain :=
  plain_of_eq h s.fpAwake_ctl (by rw [State.fpAwake_env]) (by rw [State.fpAwake_env])

theorem State.fpAwake_memOk {s : State} (h : s.memOk) : s.fpAwake.memOk := by
  rw [State.memOk, State.fpAwake_mem, State.fpAwake_modified]
  exact h

theorem locate_fpAwake {s : State} (h : s.plain) {ea : Ea} {n : Nat} {ext : Long} {l : Located} (hl : locate ea n ext s = .ok l s) :
    locate ea n ext s.fpAwake = .ok l s.fpAwake :=
  locate_congr h (State.fpAwake_plain h) s.fpAwake_regs s.fpAwake_sr s.fpAwake_mem hl

/-! ### Sequences of long words -/

/-- The long words from an address up. -/
def State.longsAt (s : State) (a : Long) (n : Nat) : List Long := (List.range n).map fun k => s.longAt (a + BitVec.ofNat 32 (4 * k))

theorem State.longsAt_succ (s : State) (a : Long) (n : Nat) : s.longsAt a (n + 1) = s.longAt a :: s.longsAt (addrPlus a 4) n := by
  simp only [State.longsAt, List.range_succ_eq_map, List.map_cons, List.map_map, Nat.mul_zero, BitVec.add_zero]
  refine congrArg (s.longAt a :: ·) (List.map_congr_left fun k _ => ?_)
  exact congrArg s.longAt (run_up_succ a 4 k).symm

theorem readLongs_plain {s : State} (h : s.plain) (a : Long) (n : Nat) : readLongs a n s = .ok (s.longsAt a n) s := by
  induction n generalizing a with
  | zero => rfl
  | succ n ih =>
    have hread : readData a .long s = .ok (s.longAt a) s := readData_plain h a .long
    simp only [readLongs, bind_eq, hread, ih, pure_eq, State.longsAt_succ]

theorem longBytes_length (v : Long) : (longBytes v).length = 4 := operandBytes_length .long v

theorem flatMap_longBytes_length (vs : List Long) : (vs.flatMap longBytes).length = 4 * vs.length := by
  rw [List.length_flatMap]
  simp [longBytes_length, Nat.mul_comm]

theorem writeLongs_plain {s : State} (h : s.plain) (hw : s.memOk) (a : Long) {vs : List Long} (hn : 4 * vs.length ≤ 2 ^ 32) :
    ∃ t, writeLongs a vs s = .ok () t ∧ Stored s t a (vs.flatMap longBytes) := by
  induction vs generalizing s a with
  | nil => exact ⟨s, rfl, Stored.refl hw a⟩
  | cons v vs ih =>
    have hlen : 4 + 4 * vs.length ≤ 2 ^ 32 := by rw [List.length_cons] at hn; omega
    obtain ⟨u, hu, hfirst⟩ := writeData_plain h hw a .long v
    obtain ⟨t, ht, hrest⟩ := ih (hfirst.plain h) hfirst.2.1 (addrPlus a 4) (by omega)
    refine ⟨t, by simp only [writeLongs, bind_eq, hu, ht], ?_⟩
    refine hfirst.append (cs := vs.flatMap longBytes) (by rwa [operandBytes_length]) ?_
    rw [operandBytes_length]
    exact (congrArg (4 + ·) (flatMap_longBytes_length vs)).trans_le hlen

/-! ### The control registers -/

theorem selectedCrs_length : ∀ sel : BitVec 3, (selectedCrs sel).length = selCount sel := by decide

/-- The control registers of a selection, loaded with the long words of a sequence in their order. -/
def State.crsLoaded (sel : BitVec 3) (v : Nat → Long) (t : State) : State :=
  { t with fp := { t.fp with
      fpcr := if sel.getLsbD 2 then v 0 &&& 0x0000FFF0 else t.fp.fpcr
      fpsr := if sel.getLsbD 1 then v (sel.getLsbD 2).toNat &&& 0x0FFFFFF8 else t.fp.fpsr
      fpiar := if sel.getLsbD 0 then v ((sel.getLsbD 2).toNat + (sel.getLsbD 1).toNat) else t.fp.fpiar } }

theorem setCrs_selected (sel : BitVec 3) (v : Nat → Long) (t : State) :
    setCrs (selectedCrs sel) ((List.range (selectedCrs sel).length).map v) t = t.crsLoaded sel v := by
  unfold selectedCrs State.crsLoaded
  cases sel.getLsbD 2 <;> cases sel.getLsbD 1 <;> cases sel.getLsbD 0 <;> rfl

/-- A place in a register has no address register to write. -/
theorem step_of_locate {ea : Ea} {n : Nat} {ext : Long} {s t : State} {l : Located} (hl : locate ea n ext s = .ok l t)
    (hp : ∀ a, l.place ≠ .mem a) : l.step = none := by
  cases ea with
  | dn _ | an _ | imm _ =>
    cases hl
    rfl
  | absW _ | absL _ | pcDisp _ | ind _ | postInc _ | preDec _ | disp _ _ =>
    cases hl
    exact absurd rfl (hp _)
  | index r x =>
    obtain ⟨_, _, -, hl⟩ := bind_ok.mp hl
    obtain ⟨m, u, -, hl⟩ := bind_ok.mp hl
    cases hl
    exact absurd rfl (hp _)
  | pcIndex x =>
    obtain ⟨m, u, -, hl⟩ := bind_ok.mp hl
    cases hl
    exact absurd rfl (hp _)

theorem longsOfWords_flatMap (vs : List Long) : longsOfWords (vs.flatMap longWords) = vs := by
  induction vs with
  | nil => rfl
  | cons v vs ih =>
    have hv : v.extractLsb' 16 16 ++ v.extractLsb' 0 16 = v := by
      refine BitVec.eq_of_getLsbD_eq fun k hk => ?_
      simp only [BitVec.getLsbD_append, BitVec.getLsbD_extractLsb']
      by_cases h : k < 16
      · simp [h]
      · simp [h, show k - 16 < 16 by omega, show 16 + (k - 16) = k by omega]
    show (v.extractLsb' 16 16 ++ v.extractLsb' 0 16) :: longsOfWords (vs.flatMap longWords) = _
    rw [ih, hv]

/-- The long words that a move to control registers takes from a place. -/
def State.longsOf (s : State) (n : Nat) : Place → List Long
  | .mem a => s.longsAt a n
  | .imm ws => longsOfWords ws
  | .d r => [s.getD r]
  | .a r => [s.getA r]

theorem crs_fpAwake (sel : BitVec 3) (s : State) :
    (selectedCrs sel).map (fun r => getCr r s.fpAwake) = (selectedCrs sel).map fun r => getCr r s := by
  refine List.map_congr_left fun r _ => ?_
  cases r <;> simp only [getCr, State.fpAwake_fp]

section control
variable {s : State} (hplain : s.plain) (hp : s.fpu.pending = none) {sel : BitVec 3} {ea : Ea} {l : Located}
  (hl : locate ea (4 * selCount sel) (addrPlus s.pc 4) s = .ok l s)
include hplain hp hl

theorem exec_fmoveToCr : exec (.fmoveToCr sel ea) s = .next (s.goOn (eaLength 1 ea) .seq
    (setCrs (selectedCrs sel) (s.longsOf (selectedCrs sel).length l.place) (applyStep l.step s.fpAwake))) := by
  have hloc := locate_fpAwake hplain hl
  rw [← selectedCrs_length] at hloc
  have hlongs (a : Long) (n : Nat) : s.fpAwake.longsAt a n = s.longsAt a n := by
    simp only [State.longsAt, State.longAt, State.byteAt, State.fpAwake_mem]
  unfold exec
  refine runInstr_of_seq ?_
  simp only [bind_eq, fpCommon_of_none hp, extAddr, fetch_eq, State.fpAwake_pc, hloc]
  cases l.place with
  | mem a => simp only [bind_eq, readLongs_plain (State.fpAwake_plain hplain), hlongs, commit_eq, update_eq, pure_eq, State.longsOf]
  | imm ws => simp only [bind_eq, pure_eq, commit_eq, update_eq, State.longsOf]
  | d r => simp only [bind_eq, fetch_eq, pure_eq, commit_eq, update_eq, State.longsOf, State.getD, State.fpAwake_regs]
  | a r =>
    have hA : s.fpAwake.getA r = s.getA r := State.getR_congr s.fpAwake_regs s.fpAwake_sr (.a r)
    simp only [bind_eq, fetch_eq, pure_eq, commit_eq, update_eq, State.longsOf, hA]

theorem exec_fmoveFromCr_mem {a : Long} (ha : l.place = .mem a) {t : State}
    (ht : writeLongs a ((selectedCrs sel).map fun r => getCr r s) s.fpAwake = .ok () t) :
    exec (.fmoveFromCr sel ea) s = .next (s.goOn (eaLength 1 ea) .seq (applyStep l.step t)) := by
  have hloc := locate_fpAwake hplain hl
  rw [← selectedCrs_length] at hloc
  rw [← crs_fpAwake] at ht
  unfold exec
  refine runInstr_of_seq ?_
  simp only [bind_eq, fpCommon_of_none hp, extAddr, fetch_eq, State.fpAwake_pc, hloc, ha, ht, commit_eq, pure_eq]

theorem exec_fmoveFromCr_reg {r : Reg} (hr : l.place = match r with | .d n => .d n | .a n => .a n) {v : Long}
    (hv : ((selectedCrs sel).map fun r => getCr r s) = [v]) :
    exec (.fmoveFromCr sel ea) s = .next (s.goOn (eaLength 1 ea) .seq (s.fpAwake.setR r v)) := by
  have hloc := locate_fpAwake hplain hl
  have hstep := step_of_locate hl fun a => by cases r <;> simp [hr]
  rw [← selectedCrs_length] at hloc
  rw [← crs_fpAwake] at hv
  unfold exec
  refine runInstr_of_seq ?_
  cases r <;> simp only [bind_eq, fpCommon_of_none hp, extAddr, fetch_eq, State.fpAwake_pc, hloc, hr, hv, update_eq, commit_eq, hstep,
    applyStep, pure_eq] <;> rfl

end control

/-- Settles O55: the moves by their places (`exec_fmoveToCr`, `exec_fmoveFromCr_mem`, `exec_fmoveFromCr_reg`). -/
theorem fpControlRegisterMoves : Obligations.FpControlRegisterMoves := by
  unfold Obligations.FpControlRegisterMoves
  intro s sel ea l hplain hw hp hl sr cr ia loaded values
  have hvalues : values = (selectedCrs sel).map fun r => getCr r s := by
    rw [selectedCrs, List.map_append, List.map_append]
    refine congrArg₂ (· ++ ·) (congrArg₂ (· ++ ·) ?_ ?_) ?_ <;> split <;> rfl
  have hone {r : Reg} {v : Long} (hv : values = [v]) (hr : l.place = match r with | .d n => .d n | .a n => .a n) :
      exec (.fmoveToCr sel ea) s = .next (s.goOn (eaLength 1 ea) .seq (loaded (fun _ => s.getR r) s.fpAwake)) := by
    have hlen : (selectedCrs sel).length = 1 := by
      have := congrArg List.length (hvalues ▸ hv)
      rwa [List.length_map] at this
    have hsource : s.longsOf (selectedCrs sel).length l.place = (List.range (selectedCrs sel).length).map fun _ => s.getR r := by
      rw [hlen, hr]
      cases r <;> rfl
    rw [exec_fmoveToCr hplain hp hl, hsource, setCrs_selected, step_of_locate hl fun a => by cases r <;> simp [hr]]
    rfl
  have hto := exec_fmoveToCr hplain hp hl
  refine ⟨fun a ha => ⟨?_, ?_⟩, fun ws hws => ?_, fun r v hv => ⟨fun hr => ⟨?_, ?_⟩, fun hr => ⟨?_, ?_⟩⟩⟩
  · rw [hto, ha]
    exact congrArg (fun t => Host.Outcome.next (s.goOn (eaLength 1 ea) .seq t)) (setCrs_selected sel _ _)
  · have hlen : 4 * ((selectedCrs sel).map fun r => getCr r s).length ≤ 2 ^ 32 := by
      rw [List.length_map]
      exact (by decide : ∀ sel : BitVec 3, 4 * (selectedCrs sel).length ≤ 2 ^ 32) sel
    obtain ⟨t, ht, hstored⟩ := writeLongs_plain (State.fpAwake_plain hplain) (State.fpAwake_memOk hw) a hlen
    exact ⟨t, hvalues ▸ hstored, exec_fmoveFromCr_mem hplain hp hl ha ht⟩
  · subst hws
    have hplace : l = { place := .imm ((List.range (selCount sel)).flatMap fun k => longWords (ws k)), step := none } := by
      cases hl
      rfl
    have hsource : s.longsOf (selectedCrs sel).length l.place = (List.range (selectedCrs sel).length).map ws := by
      rw [hplace, selectedCrs_length]
      rw [← longsOfWords_flatMap ((List.range (selCount sel)).map ws), List.flatMap_map]
      rfl
    rw [hto, hsource, setCrs_selected, hplace]
    rfl
  · exact hone hv (r := .d r) hr
  · exact exec_fmoveFromCr_reg hplain hp hl (r := .d r) hr (hvalues ▸ hv)
  · exact hone hv (r := .a r) hr
  · exact exec_fmoveFromCr_reg hplain hp hl (r := .a r) hr (hvalues ▸ hv)

/-! ### The data registers -/

/-- The bytes of floating-point data registers in memory. -/
def fpImage (s : State) (rs : List RegNo) : List Byte := rs.flatMap fun r => (extLongs (s.getFp r)).flatMap longBytes

theorem extLongs_bytes_length (x : FpReal) : ((extLongs x).flatMap longBytes).length = 12 := flatMap_longBytes_length _

theorem fpImage_length (s : State) (rs : List RegNo) : (fpImage s rs).length = 12 * rs.length := by
  rw [fpImage, List.length_flatMap]
  simp only [extLongs_bytes_length, List.map_const', List.sum_replicate, smul_eq_mul, Nat.mul_comm]

theorem fpImage_congr {s t : State} (h : t.fp = s.fp) (rs : List RegNo) : fpImage t rs = fpImage s rs := by
  simp only [fpImage, State.getFp, h]

theorem Stored.fp_eq {s t : State} {a : Long} {bs : List Byte} (h : Stored s t a bs) : t.fp = s.fp := by rw [h.1]

section write
variable {s : State} (h : s.plain) (hw : s.memOk)
include h hw

/-- Registers written one after the other upwards. -/
theorem fmovemWrite_up (a : Long) {rs : List RegNo} (hn : rs.length ≤ 8) :
    ∃ t, fmovemWrite 12 a rs s = .ok () t ∧ Stored s t a (fpImage s rs) := by
  induction rs generalizing s a with
  | nil => exact ⟨s, rfl, Stored.refl hw a⟩
  | cons r rs ih =>
    have hlen : rs.length + 1 ≤ 8 := hn
    obtain ⟨u, hu, hfirst⟩ := writeLongs_plain h hw a (vs := extLongs (s.getFp r)) (by simp [extLongs])
    obtain ⟨t, ht, hrest⟩ := ih (hfirst.plain h) hfirst.2.1 (a + 12) (by omega)
    rw [fpImage_congr hfirst.fp_eq] at hrest
    refine ⟨t, by simp only [fmovemWrite, bind_eq, fetch_eq, hu, ht], ?_⟩
    refine hfirst.append (cs := fpImage s rs) (by rwa [extLongs_bytes_length]) ?_
    rw [extLongs_bytes_length, fpImage_length]
    omega

/-- Registers written one after the other downwards lie in memory the other way round. -/
theorem fmovemWrite_down (a : Long) {rs : List RegNo} (hn : rs.length ≤ 8) :
    ∃ t, fmovemWrite (-12) (a - 12) rs s = .ok () t ∧
      Stored s t (a - BitVec.ofNat 32 (12 * rs.length)) (fpImage s rs.reverse) := by
  induction rs generalizing s a with
  | nil => exact ⟨s, rfl, Stored.refl hw _⟩
  | cons r rs ih =>
    have hlen : rs.length + 1 ≤ 8 := hn
    obtain ⟨u, hu, hfirst⟩ := writeLongs_plain h hw (a - 12) (vs := extLongs (s.getFp r)) (by simp [extLongs])
    obtain ⟨t, ht, hrest⟩ := ih (hfirst.plain h) hfirst.2.1 (a - 12) (by omega)
    rw [fpImage_congr hfirst.fp_eq, show a - 12 = a + -BitVec.ofNat 32 12 from sub_eq_add_neg _ _, run_down_succ] at hrest
    refine ⟨t, by simp only [fmovemWrite, bind_eq, fetch_eq, hu, ← sub_eq_add_neg, ht], ?_⟩
    have himage : fpImage s (r :: rs).reverse = fpImage s rs.reverse ++ (extLongs (s.getFp r)).flatMap longBytes := by
      simp [fpImage]
    have hcs : (fpImage s rs.reverse).length = 12 * rs.length := by rw [fpImage_length, List.length_reverse]
    have hplace : a - 12 = a - BitVec.ofNat 32 (12 * (rs.length + 1)) + BitVec.ofNat 32 (fpImage s rs.reverse).length := by
      rw [hcs, ← run_down_succ]
      exact ((fun x y z => by ring) : ∀ x y z : Long, x - y = x + -y - z + z) _ _ _
    rw [himage]
    refine Stored.prepend (hplace ▸ hfirst) hrest ?_
    rw [hcs, extLongs_bytes_length]
    omega

end write

/-- The values read one after the other. -/
theorem fmovemRead_plain {s : State} (h : s.plain) (a : Long) (n : Nat) : fmovemRead a n s = .ok ((List.range n).map fun k =>
    let b := a + BitVec.ofNat 32 (12 * k)
    fpOfLongs (s.longAt b) (s.longAt (b + 4)) (s.longAt (b + 8))) s := by
  induction n generalizing a with
  | zero => rfl
  | succ n ih =>
    have hthree : s.longsAt a 3 = [s.longAt a, s.longAt (a + 4), s.longAt (a + 8)] := by
      simp [State.longsAt, List.range_succ]
    simp only [fmovemRead, bind_eq, readLongs_plain h, hthree, ih, pure_eq, List.range_succ_eq_map, List.map_cons, List.map_map,
      Nat.mul_zero, BitVec.add_zero]
    refine congrArg (fun xs => EStateM.Result.ok (_ :: xs) s) (List.map_congr_left fun k _ => ?_)
    simp only [Function.comp, addrPlus, run_up_succ]

/-- Registers set from values one after the other. -/
theorem setFps_map (rs : List RegNo) (v : Nat → FpReal) (k : Nat) (t : State) :
    setFps rs ((List.range rs.length).map fun i => v (k + i)) t = (rs.zipIdx k).foldl (fun t x => t.setFp x.1 (v x.2)) t := by
  induction rs generalizing k t with
  | nil => rfl
  | cons r rs ih =>
    rw [List.length_cons, List.range_succ_eq_map, List.map_cons, setFps, List.zipIdx_cons, List.foldl_cons, List.map_map, ← ih]
    refine congrArg (fun xs => setFps rs xs _) (List.map_congr_left fun i _ => ?_)
    exact congrArg v (by simp; omega)

theorem fmovemRegs_length (ctl : Bool) (list : Byte) : (fmovemRegs ctl list).length ≤ 8 := by
  rw [fmovemRegs, List.length_map]
  exact (List.length_filter_le _ _).trans (by simp)

theorem fmovemList_fpAwake (dyn : Bool) (list : Byte) (s : State) : fmovemList dyn list s.fpAwake = fmovemList dyn list s := by
  simp only [fmovemList, State.getD, State.fpAwake_regs]

/-- Settles O56: the registers are written upwards, or from the last down (`fmovemWrite_up`, `fmovemWrite_down`), and read upwards
(`fmovemRead_plain`). -/
theorem fmovemMovesRegisters : Obligations.FmovemMovesRegisters := by
  unfold Obligations.FmovemMovesRegisters
  intro s ctl dyn list ea l a hplain hw hp names regs hl ha
  have hregs : fmovemRegs ctl (fmovemList dyn list s.fpAwake) = regs := by rw [fmovemList_fpAwake]; rfl
  have hloc := locate_fpAwake hplain hl
  have hawake := State.fpAwake_plain hplain
  have hwAwake := State.fpAwake_memOk hw
  have hlen : regs.length ≤ 8 := hregs ▸ fmovemRegs_length ctl _
  constructor
  · obtain ⟨t, ht, hstored⟩ : ∃ t, (if ea.kind = .preDec then fmovemWrite (-12) (addrPlus a (12 * regs.length) - 12) regs.reverse
        else fmovemWrite 12 a regs) s.fpAwake = .ok () t ∧ Stored s.fpAwake t a (fpImage s.fpAwake regs) := by
      split
      · have hdown := fmovemWrite_down hawake hwAwake (addrPlus a (12 * regs.length)) (rs := regs.reverse)
          (by rwa [List.length_reverse])
        rwa [List.reverse_reverse, List.length_reverse, addrPlus, BitVec.add_sub_cancel] at hdown
      · exact fmovemWrite_up hawake hwAwake a hlen
    rw [fpImage_congr s.fpAwake_fp] at hstored
    refine ⟨t, hstored, ?_⟩
    unfold exec
    refine runInstr_of_seq ?_
    simp only [bind_eq, fpCommon_of_none hp, extAddr, fetch_eq, State.fpAwake_pc, hregs, hloc, ha, placeAddr]
    by_cases hk : ea.kind = .preDec
    · rw [if_pos hk] at ht ⊢
      simp only [bind_eq, ht, commit_eq, pure_eq]
    · rw [if_neg hk] at ht ⊢
      simp only [bind_eq, ht, commit_eq, pure_eq]
  · unfold exec
    refine runInstr_of_seq ?_
    simp only [bind_eq, fpCommon_of_none hp, extAddr, fetch_eq, State.fpAwake_pc, hregs, hloc, ha, placeAddr,
      fmovemRead_plain hawake, commit_eq, update_eq, pure_eq]
    have hlong (b : Long) : s.fpAwake.longAt b = s.longAt b := by simp only [State.longAt, State.byteAt, State.fpAwake_mem]
    have hset := setFps_map regs (fun k => let b := a + BitVec.ofNat 32 (12 * k)
      fpOfLongs (s.longAt b) (s.longAt (b + 4)) (s.longAt (b + 8))) 0 (applyStep l.step s.fpAwake)
    simp only [Nat.zero_add] at hset
    simp only [hlong, hset]

end Sys2Proof.Machine
end

