-- ==== Sys2Proof/Proofs/FpConditionals.lean ====
section
/-!
SUPPORT. The conditional floating-point instructions (42_fp_instructions.md R270, R273-R276; 43_fp_exceptions.md R312).
-/
namespace Sys2Proof.Machine

/-! ### The test -/

theorem State.fpTested_keeps (s : State) (p : BitVec 5) :
    (s.fpTested p).pc = s.pc ∧ (s.fpTested p).sr = s.sr ∧ (s.fpTested p).regs = s.regs := by
  unfold State.fpTested
  split
  · exact ⟨s.fpAwake_pc, s.fpAwake_sr, s.fpAwake_regs⟩
  · exact ⟨s.fpAwake_pc, s.fpAwake_sr, s.fpAwake_regs⟩

/-- BSUN does not change what a predicate reads. -/
theorem fpTruth_fpTested (p q : BitVec 5) (s : State) : fpTruth q (s.fpTested p).fp.fpsr = fpTruth q s.fp.fpsr := by
  have hbit (k : Nat) (hk : k ∈ [24, 26, 27]) : (s.fp.fpsr ||| 0x00008080).getLsbD k = s.fp.fpsr.getLsbD k := by
    rw [BitVec.getLsbD_or, (by decide : ∀ k ∈ [24, 26, 27], (0x00008080 : Long).getLsbD k = false) k hk, Bool.or_false]
  unfold State.fpTested
  split
  · show fpTruth q (s.fpAwake.fp.fpsr ||| 0x00008080) = _
    rw [State.fpAwake_fp]
    unfold fpTruth fpN fpZ fpNan
    rw [hbit 24 (by decide), hbit 26 (by decide), hbit 27 (by decide)]
  · rw [State.fpAwake_fp]

section cond
variable {s : State} (hp : s.fpu.pending = none) {p : BitVec 5}
include hp

theorem fpCond_of_trap (h : s.bsunTraps p = true) : fpCond p s = .error (.exc (preInstructionExc 48 s.pc)) (s.fpTested p) := by
  obtain ⟨hnan, htrap⟩ := Bool.and_eq_true_iff.mp h
  have htrap' : trapEnabled s.fpAwake.setBsun.fp.fpcr .bsun = true := by
    show trapEnabled s.fpAwake.fp.fpcr .bsun = true
    rw [State.fpAwake_fp, htrap]
  unfold fpCond State.fpTested
  simp only [bind_eq, fpCommon_of_none hp, fetch_eq, State.fpAwake_pc, State.fpAwake_fp, hnan, if_true, update_eq, htrap', raise_eq]
  rfl

theorem fpCond_of_not_trap (h : s.bsunTraps p = false) : fpCond p s = .ok (fpTruth p s.fp.fpsr) (s.fpTested p) := by
  rw [← fpTruth_fpTested p p s]
  unfold fpCond State.fpTested
  simp only [bind_eq, fpCommon_of_none hp, fetch_eq, State.fpAwake_pc, State.fpAwake_fp]
  cases hnan : p.getLsbD 4 && fpNan s.fp.fpsr with
  | false => simp only [Bool.false_eq_true, if_false, fetch_eq]
  | true =>
    have htrap : trapEnabled s.fpAwake.setBsun.fp.fpcr .bsun = false := by
      show trapEnabled s.fpAwake.fp.fpcr .bsun = false
      rw [State.fpAwake_fp]
      rwa [State.bsunTraps, hnan, Bool.true_and] at h
    simp only [if_true, bind_eq, update_eq, fetch_eq, htrap, Bool.false_eq_true, if_false]

end cond

/-! ### Branches -/

/-- An instruction that jumps to an even address, or to an odd one. -/
theorem runInstr_of_jump {words : Nat} {body : Long → M Flow} {s t : State} {target : Long}
    (h : body (s.pc + BitVec.ofNat 32 (2 * words)) s = .ok (.jump target) t) : runInstr words body s =
      .next (if target.getLsbD 0 then t.takeException s.pc s.regs (addressErrorExc s.pc target) else s.jumped target t) := by
  simp [runInstr, h, State.complete, State.jumped]

/-- What a branch of an instruction at `s` that has come to `t` leads to. -/
def Branches (s : State) (words : Nat) (target : Long) (t : State) (taken : Bool) (o : Host.Outcome State Fault Refusal) : Prop :=
  (target.getLsbD 0 = false → taken = true → o = .next (s.jumped target t)) ∧
  (target.getLsbD 0 = false → taken = false → o = .next (s.goOn words .seq t)) ∧
  (target.getLsbD 0 = true → o = .next (t.takeException s.pc s.regs (addressErrorExc s.pc target)))

theorem branches_runInstr {words : Nat} {body : Long → M Flow} {s t : State} {target : Long} {taken : Bool} (hpc : t.pc = s.pc)
    (h : body (s.pc + BitVec.ofNat 32 (2 * words)) s = branchTo target taken t) :
    Branches s words target t taken (runInstr words body s) := by
  unfold branchTo at h
  rw [bind_eq, fetch_eq] at h
  dsimp only at h
  refine ⟨fun he ht => ?_, fun he ht => ?_, fun ho => ?_⟩
  · rw [ht, if_pos rfl] at h
    rw [runInstr_of_jump h, he]
    rfl
  · rw [ht, if_neg (by simp), he, if_neg (by simp)] at h
    exact runInstr_of_seq h
  · cases taken with
    | true =>
      rw [if_pos rfl] at h
      rw [runInstr_of_jump h, ho]
      rfl
    | false =>
      rw [if_neg (by simp), ho, if_pos rfl, hpc] at h
      exact runInstr_of_exc h

theorem fpCond_bind_of_trap {α : Type} {s : State} (hp : s.fpu.pending = none) {p : BitVec 5} (h : s.bsunTraps p = true) (f : Bool → M α) :
    (fpCond p >>= f) s = .error (.exc (preInstructionExc 48 s.pc)) (s.fpTested p) := by
  rw [bind_eq, fpCond_of_trap hp h]

theorem fpBranch_of_trap {s : State} (hp : s.fpu.pending = none) {p : BitVec 5} (h : s.bsunTraps p = true) (words : Nat) (d : Long) :
    fpBranch words p d s = .next ((s.fpTested p).takeException s.pc s.regs (preInstructionExc 48 s.pc)) := by
  unfold fpBranch
  refine runInstr_of_exc ?_
  exact fpCond_bind_of_trap hp h _

theorem fpTrap_of_trap {s : State} (hp : s.fpu.pending = none) {p : BitVec 5} (h : s.bsunTraps p = true) (words : Nat) :
    fpTrap words p s = .next ((s.fpTested p).takeException s.pc s.regs (preInstructionExc 48 s.pc)) := by
  unfold fpTrap
  refine runInstr_of_exc ?_
  exact fpCond_bind_of_trap hp h _

section conditional
variable {s : State} (hp : s.fpu.pending = none) {p : BitVec 5} (h : s.bsunTraps p = false)
include hp h

theorem branches_fpBranch (words : Nat) (d : Long) :
    Branches s words (s.pc + 2 + d) (s.fpTested p) (fpTruth p s.fp.fpsr) (fpBranch words p d s) := by
  obtain ⟨hpc, -, -⟩ := s.fpTested_keeps p
  unfold fpBranch
  refine branches_runInstr hpc ?_
  simp only [bind_eq, fpCond_of_not_trap hp h, fetch_eq, hpc]
  rfl

theorem fpTrap_of_not_trap (words : Nat) : fpTrap words p s =
    if fpTruth p s.fp.fpsr then .next ((s.fpTested p).takeException s.pc s.regs
        { vector := 7, cls := .restart, stackedPc := s.pc + BitVec.ofNat 32 (2 * words), format := .two s.pc })
      else .next (s.goOn words .seq (s.fpTested p)) := by
  obtain ⟨hpc, -, -⟩ := s.fpTested_keeps p
  unfold fpTrap
  cases hb : fpTruth p s.fp.fpsr with
  | true =>
    refine runInstr_of_exc ?_
    simp only [bind_eq, fpCond_of_not_trap hp h, hb, fetch_eq, hpc, if_true, raise_eq]
  | false =>
    refine runInstr_of_seq ?_
    simp only [bind_eq, fpCond_of_not_trap hp h, hb, fetch_eq, Bool.false_eq_true, if_false, pure_eq]

end conditional

/-- Settles O57: the test (`fpCond_of_trap`, `fpCond_of_not_trap`), then each instruction's own. -/
theorem fpConditionals : Obligations.FpConditionals := by
  unfold Obligations.FpConditionals
  intro s p hp t b jumps traps
  obtain ⟨hpc, hsr, hregs⟩ := s.fpTested_keeps p
  refine ⟨?_, fun htrap i hi => ?_, fun htrap => ⟨fun d => ?_, fun d => ?_, ?_, fun d => ?_, fun d => ?_, fun ea u hu => ?_, ?_⟩⟩
  · unfold exec
    refine runInstr_of_seq ?_
    simp only [bind_eq, fpCommon_of_none hp, pure_eq]
  · simp only [List.mem_cons, List.not_mem_nil, or_false] at hi
    rcases hi with rfl | ⟨d, rfl | rfl⟩ | ⟨d, rfl | rfl⟩ | ⟨ea, rfl⟩ | ⟨dn, d, rfl⟩
    · exact fpTrap_of_trap hp htrap 2
    · exact fpBranch_of_trap hp htrap 2 _
    · exact fpTrap_of_trap hp htrap 3
    · exact fpBranch_of_trap hp htrap 3 _
    · exact fpTrap_of_trap hp htrap 4
    all_goals
      unfold exec
      refine runInstr_of_exc ?_
      exact fpCond_bind_of_trap hp htrap _
  · exact branches_fpBranch hp htrap 2 (d.signExtend 32)
  · exact branches_fpBranch hp htrap 3 d
  · exact fpTrap_of_not_trap hp htrap 2
  · exact fpTrap_of_not_trap hp htrap 3
  · exact fpTrap_of_not_trap hp htrap 4
  · unfold exec
    refine runInstr_of_seq ?_
    have hext : addrPlus s.pc (2 + 2 * 1) = addrPlus s.pc 4 := rfl
    simp only [bind_eq, fpCond_of_not_trap hp htrap, extAddr, fetch_eq, hpc, hext]
    rw [hu]
    rfl
  · intro dn d target count
    have hbody {u : State} {taken : Bool} (hu : u.pc = s.pc)
        (ht : (if b then branchTo target false t else branchTo target (count != 0xFFFF)
          (t.setDLow .word dn (count.setWidth 32))) = branchTo target taken u) : Branches s 3 target u taken (exec (.fdbcc p dn d) s) := by
      unfold exec
      refine branches_runInstr hu (Eq.trans ?_ ht)
      simp only [bind_eq, fpCond_of_not_trap hp htrap, fetch_eq, hpc]
      cases hb : fpTruth p s.fp.fpsr
      · simp only [Bool.false_eq_true, if_false, bind_eq, fetch_eq, update_eq, State.getD, hregs, b, hb]
        rfl
      · simp only [if_true, b, hb]
        rfl
    have hcounted : t.setDLow .word dn (count.setWidth 32) = t.setD dn ((s.getD dn).extractLsb' 16 16 ++ count) := by
      show t.setD dn (mergeLow .word (t.getD dn) (count.setWidth 32)) = _
      rw [show t.getD dn = s.getD dn from congrArg (fun r : Regs => r.d.get dn) hregs]
      show t.setD dn ((s.getD dn).extractLsb' 16 16 ++ (count.setWidth 32).setWidth 16) = _
      rw [BitVec.setWidth_setWidth_of_le _ (by decide), BitVec.setWidth_eq]
    have hne : (count != 0xFFFF) = decide (count ≠ 0xFFFF) := by
      rw [bne, beq_eq_decide, ← decide_not]
    refine ⟨fun hb => hbody hpc (if_pos hb), fun hb => hbody hpc ((if_neg (by simp [hb])).trans ?_)⟩
    rw [hcounted, hne]

end Sys2Proof.Machine
end

