-- ==== Sys2Proof/Proofs/FpMoveOut.lean ====
section
/-!
SUPPORT. FMOVE out of a floating-point register (42_fp_instructions.md R262, R277; 43_fp_exceptions.md R302, R304): the state in
which its value is stored, how it goes on or traps, and the values that are left to software.
-/
namespace Sys2Proof.Machine

/-! ### States that differ in the floating-point unit alone -/

/-- A state with the floating-point registers and the internal state of the unit of another. -/
def State.withUnit (s u : State) : State := { s with fp := u.fp, fpu := u.fpu, freeCount := u.freeCount }

theorem State.fpAwake_withUnit (s : State) : s.fpAwake = s.withUnit s.fpAwake := by
  obtain ⟨m, hm⟩ := s.fpAwake_eq
  rw [hm]
  rfl

theorem applyStep_withUnit (step : Option (RegNo × Long)) (s u : State) :
    applyStep step (s.withUnit u) = (applyStep step s).withUnit u := by
  cases step with
  | none => rfl
  | some x =>
    simp only [applyStep, State.setA_regs]
    rfl

theorem State.withUnit_plain {s : State} (h : s.plain) (u : State) : (s.withUnit u).plain := h

theorem State.withUnit_memOk {s : State} (h : s.memOk) (u : State) : (s.withUnit u).memOk := h

/-- A store leaves the unit as it was. -/
theorem Stored.withUnit {s u m : State} {a : Long} {bs : List Byte} (h : Stored (s.withUnit u) m a bs) :
    Stored s (m.withUnit s) a bs ∧ m = (m.withUnit s).withUnit u := by
  obtain ⟨hrest, hw, hbytes⟩ := h
  refine ⟨⟨?_, hw, hbytes⟩, ?_⟩
  · rw [hrest]
    rfl
  · rw [hrest]
    rfl

/-! ### The bytes of FPSR -/

/-- FPSR with other exceptions. -/
def withExc (f : Long) (exc : Byte) : Long := (f &&& (0xFFFF00FF : Long)) ||| (exc.setWidth 32 <<< 8)

theorem withExc_getLsbD (f : Long) (exc : Byte) (k : Nat) :
    (withExc f exc).getLsbD k = if k < 8 ∨ 16 ≤ k then f.getLsbD k else exc.getLsbD (k - 8) := by
  rw [withExc, BitVec.getLsbD_or, clearedBits_getLsbD, BitVec.getLsbD_shiftLeft, BitVec.getLsbD_setWidth]
  by_cases hk : k < 8 ∨ 16 ≤ k
  · rw [if_pos hk, decide_eq_true hk, Bool.and_true]
    rcases hk with hk | hk
    · simp [hk]
    · rw [BitVec.getLsbD_of_ge exc _ (by omega), Bool.and_false, Bool.and_false, Bool.or_false]
  · rw [if_neg hk, decide_eq_false hk, Bool.and_false, Bool.false_or, decide_eq_true (by omega : k < 32),
      decide_eq_false (by omega : ¬ k < 8), decide_eq_true (by omega : k - 8 < 32), Bool.not_false, Bool.true_and, Bool.true_and,
      Bool.true_and]

theorem withExc_zero (f : Long) : withExc f 0 = f &&& 0xFFFF00FF := by
  rw [withExc, show ((0 : Byte).setWidth 32 <<< 8 : Long) = 0 from rfl]
  exact BitVec.or_zero

/-- The bit of an exception in its byte. -/
def FpExc.mask (x : FpExc) : Byte := 1 <<< (x.bit - 8)

theorem excBits_withExc (x : FpExc) (f : Long) (exc : Byte) : excBits x (withExc f exc) = withExc f (exc ||| x.mask) := by
  have hmask : (1 <<< x.bit : Long) = x.mask.setWidth 32 <<< 8 := by cases x <;> rfl
  rw [excBits, withExc, withExc, hmask, BitVec.or_assoc, ← BitVec.shiftLeft_or_distrib, ← BitVec.setWidth_or]

theorem excByte_accrueBits (f : Long) : excByte (accrueBits f) = excByte f := by
  refine BitVec.eq_of_getLsbD_eq fun i hi => ?_
  rw [excByte, excByte, BitVec.getLsbD_extractLsb', BitVec.getLsbD_extractLsb', accrueBits_getLsbD_of_ge _ (by omega)]

theorem excByte_withExc (f : Long) (exc : Byte) : excByte (withExc f exc) = exc := by
  refine BitVec.eq_of_getLsbD_eq fun i hi => ?_
  rw [excByte, BitVec.getLsbD_extractLsb', withExc_getLsbD, if_neg (by omega), decide_eq_true hi, Bool.true_and,
    Nat.add_sub_cancel_left]

theorem withExc_codes (f : Long) (exc : Byte) : (accrueBits (withExc f exc)).extractLsb' 16 16 = f.extractLsb' 16 16 := by
  refine BitVec.eq_of_getLsbD_eq fun i hi => ?_
  rw [BitVec.getLsbD_extractLsb', BitVec.getLsbD_extractLsb', accrueBits_getLsbD_of_ge _ (by omega), withExc_getLsbD,
    if_pos (by omega)]

theorem sameKept_withExc (f : Long) (exc : Byte) : SameKept f (withExc f exc) := fun k hk => by
  rw [withExc_getLsbD, if_pos (by omega)]

/-! ### The unit while a value is moved out -/

/-- The floating-point unit of a move out that has met the exceptions `exc` (43_fp_exceptions.md R304). -/
structure OutUnit (s : State) (src : RegNo) (cw : Word) (exc : Byte) (t : State) : Prop where
  fp : t.fp = { s.fp with fpiar := s.pc, fpsr := withExc s.fp.fpsr exc }
  pending : t.fpu.pending = none
  cmd : t.fpu.cmdreg1b = cw
  stag : t.fpu.stag = tagOf (s.getFp src)

section unit
variable {s t : State} {src : RegNo} {cw : Word} {exc : Byte} (h : OutUnit s src cw exc t)
include h

theorem OutUnit.setExc (x : FpExc) : OutUnit s src cw (exc ||| x.mask) (t.setExc x) := by
  refine ⟨?_, h.pending, h.cmd, h.stag⟩
  rw [← excBits_withExc]
  show { t.fp with fpsr := excBits x t.fp.fpsr } = _
  rw [h.fp]

theorem OutUnit.withUnit (m : State) : OutUnit s src cw exc (m.withUnit t) := ⟨h.fp, h.pending, h.cmd, h.stag⟩

/-- FPSR with what has been accrued. -/
theorem OutUnit.movedOut {l : Located} {m : State} (ht : t = (applyStep l.step m).withUnit t) (fpu : Fpu) (n : Nat) :
    MovedOut s m { t.accrue with fpu := fpu, freeCount := n } l exc := by
  have hfpsr : t.fp.fpsr = withExc s.fp.fpsr exc := congrArg FpRegs.fpsr h.fp
  refine ⟨?_, (congrArg FpRegs.fp h.fp :), (congrArg FpRegs.fpcr h.fp :), (congrArg FpRegs.fpiar h.fp :), ?_, ?_, ?_⟩
  · conv_lhs => rw [ht]
    rfl
  · show (accrueBits t.fp.fpsr).extractLsb' 16 16 = _
    rw [hfpsr, withExc_codes]
  · show excByte (accrueBits t.fp.fpsr) = exc
    rw [hfpsr, excByte_accrueBits, excByte_withExc]
  · show Accrued _ (accrueBits t.fp.fpsr)
    rw [hfpsr]
    exact accrued_of_sameKept (sameKept_withExc _ _)

end unit

/-! ### The instruction -/

/-- The state in which the value of a move out is looked at. -/
def State.outBegun (s : State) (cw : Word) (src : RegNo) : State :=
  let t := s.fpAwake.fpBegun s.pc
  { t with fpu := { t.fpu with cmdreg1b := cw, etemp := s.getFp src, stag := tagOf (s.getFp src), fpiarcu := s.pc } }

section begun
variable (s : State) (cw : Word) (src : RegNo)

theorem State.outBegun_withUnit : s.outBegun cw src = s.withUnit (s.outBegun cw src) := by
  unfold State.outBegun
  rw [s.fpAwake_withUnit]
  rfl

theorem State.outBegun_etemp : (s.outBegun cw src).fpu.etemp = s.getFp src := rfl

theorem outUnit_outBegun (hp : s.fpu.pending = none) : OutUnit s src cw 0 (s.outBegun cw src) := by
  refine ⟨?_, ?_, rfl, rfl⟩
  · rw [withExc_zero]
    show ({ s.fpAwake.fp with fpiar := s.pc, fpsr := s.fpAwake.fp.fpsr &&& 0xFFFF00FF } : FpRegs) = _
    rw [s.fpAwake_fp]
  · exact s.fpAwake_pending.trans hp

end begun

/-- How a move out at `s` comes to `t` and `e`: `m` is the state with what it has stored, `exc` the exceptions met. -/
structure OutDone (s : State) (src : RegNo) (cw : Word) (m : State) (exc : Byte) (e : OutEnd) (t : State) : Prop where
  unit : OutUnit s src cw exc t
  rest : t = m.withUnit t
  pc : m.pc = s.pc

section moveOut
variable {s : State} {fmt : FpOutFmt} {src : RegNo} {k : BitVec 7} {ea : Ea} {l : Located}

theorem runInstr_congr {words : Nat} {body body' : Long → M Flow} {s : State}
    (h : body (s.pc + BitVec.ofNat 32 (2 * words)) s = body' (s.pc + BitVec.ofNat 32 (2 * words)) s) :
    runInstr words body s = runInstr words body' s := by
  unfold runInstr
  dsimp only
  rw [h]

/-- The address that a place hands to a post-instruction exception. -/
def placeMem (p : Place) : Option Long :=
  match p with
  | .mem a => some a
  | _ => none

/-- What follows the value of a move out. -/
def outFinish (next : Long) (p : Place) (e : OutEnd) : M Flow :=
  match e.vector with
  | none => pure .seq
  | some v => raisePost next v e (placeMem p)

/-- A move out up to the end that its value gives it. -/
theorem exec_fmoveOut (hplain : s.plain) (hp : s.fpu.pending = none)
    (hl : locate ea (outFmtBytes fmt) (addrPlus s.pc 4) s = .ok l s) {t : State} {e : OutEnd}
    (hbody : outBody fmt l.place (s.getFp src) (s.outBegun (moveOutWord fmt src k) src) = .ok e t) :
    exec (.fmoveOut fmt src k ea) s =
      runInstr (eaLength 1 ea) (fun next _ => outFinish next l.place e (applyStep l.step t).accrue) s := by
  have hloc : locate ea (outFmtBytes fmt) (addrPlus s.pc 4) (s.fpAwake.fpBegun s.pc) = .ok l (s.fpAwake.fpBegun s.pc) :=
    locate_congr (t := s.fpAwake.fpBegun s.pc) hplain (State.fpAwake_plain hplain) s.fpAwake_regs s.fpAwake_sr s.fpAwake_mem hl
  have hext : addrPlus s.pc (2 + 2 * 1) = addrPlus s.pc 4 := rfl
  have hpc : (s.fpAwake.fpBegun s.pc).pc = s.pc := s.fpAwake_pc
  have hx : State.getFp src (s.fpAwake.fpBegun s.pc) = s.getFp src := by
    show s.fpAwake.fp.fp.get src = s.fp.fp.get src
    rw [s.fpAwake_fp]
  have hbody' := hbody
  unfold State.outBegun at hbody'
  dsimp only at hbody'
  rw [hpc] at hbody'
  unfold exec execFmoveOut
  refine runInstr_congr ?_
  simp only [bind_eq, fpCommon_of_none hp, fetch_eq, State.fpAwake_pc, fpBegin_eq, extAddr, hpc, hext, hloc, hx, update_eq, hbody',
    commit_eq]
  rfl

/-- A move out that takes no exception. -/
theorem moveOut_ends (hplain : s.plain) (hp : s.fpu.pending = none)
    (hl : locate ea (outFmtBytes fmt) (addrPlus s.pc 4) s = .ok l s) {m t : State} {exc : Byte} {e : OutEnd}
    (hbody : outBody fmt l.place (s.getFp src) (s.outBegun (moveOutWord fmt src k) src) = .ok e t)
    (hdone : OutDone s src (moveOutWord fmt src k) m exc e t) (he : e.vector = none) (hfree : t.freeCount = m.freeCount) :
    MoveOutEnds (.fmoveOut fmt src k ea) (eaLength 1 ea) s l exc m := by
  have hstep : applyStep l.step t = (applyStep l.step m).withUnit t := by
    rw [hdone.rest]
    exact applyStep_withUnit _ _ _
  have hunit := (hdone.unit.withUnit (applyStep l.step m))
  rw [← hstep] at hunit
  refine ⟨(applyStep l.step t).accrue, ?_, hunit.movedOut ?_ _ _, hunit.pending, ?_⟩
  · rw [exec_fmoveOut hplain hp hl hbody]
    refine runInstr_of_seq ?_
    unfold outFinish
    rw [he]
    rfl
  · rw [hstep]
    rfl
  · rw [hstep]
    exact hfree

/-- The post-instruction exception of a move out (43_fp_exceptions.md R302). -/
def moveOutExc (next address : Long) (vector : Byte) : Exc :=
  { vector := vector, cls := .post, stackedPc := next, format := .three address }

/-- The fields of the state frame that a move out defines, over free ones (42_fp_instructions.md R292). -/
def OutEnd.fill (e : OutEnd) (old u : Fpu) : Fpu :=
  { u with cmdreg1b := old.cmdreg1b, etemp := old.etemp, stag := old.stag,
           fptemp := if e.fptemp then old.fptemp else u.fptemp, wbtemp := if e.wbtemp then old.wbtemp else u.wbtemp }

theorem raisePost_eq (next : Long) (vector : Byte) (e : OutEnd) (a : Option Long) (t : State) :
    raisePost next vector e a t = .error (.exc (moveOutExc next (a.getD (Config.freeLong (t.freeCount + 8))) vector))
      { t with fpu := postedFpu t t.pc vector .e1 true (e.fill t.fpu), freeCount := t.freeCount + 9 } := rfl

/-- A move out that takes the post-instruction exception of a vector. -/
theorem moveOut_traps (hplain : s.plain) (hp : s.fpu.pending = none)
    (hl : locate ea (outFmtBytes fmt) (addrPlus s.pc 4) s = .ok l s) {m t : State} {exc vector : Byte} {e : OutEnd}
    (hbody : outBody fmt l.place (s.getFp src) (s.outBegun (moveOutWord fmt src k) src) = .ok e t)
    (hdone : OutDone s src (moveOutWord fmt src k) m exc e t) (he : e.vector = some vector) {fields : Fpu → Prop}
    (hfields : ∀ u : Fpu, u.etemp = t.fpu.etemp → (e.fptemp = true → u.fptemp = t.fpu.fptemp) →
      (e.wbtemp = true → u.wbtemp = t.fpu.wbtemp) → fields u) :
    MoveOutTraps (.fmoveOut fmt src k ea) (eaLength 1 ea) s l src (moveOutWord fmt src k) vector exc fields m := by
  have hstep : applyStep l.step t = (applyStep l.step m).withUnit t := by
    rw [hdone.rest]
    exact applyStep_withUnit _ _ _
  have hunit := (hdone.unit.withUnit (applyStep l.step m))
  rw [← hstep] at hunit
  have hpc : (applyStep l.step t).pc = s.pc := by
    obtain ⟨regs, hregs, -⟩ := applyStep_eq l.step t
    rw [hregs, hdone.rest]
    exact hdone.pc
  refine ⟨{ (applyStep l.step t).accrue with
      fpu := postedFpu (applyStep l.step t).accrue (applyStep l.step t).pc vector .e1 true (e.fill (applyStep l.step t).fpu),
      freeCount := (applyStep l.step t).freeCount + 9 },
    (placeMem l.place).getD (Config.freeLong ((applyStep l.step t).freeCount + 8)), fun a ha => by rw [ha]; rfl, ?_,
    hunit.movedOut ?_ _ _, rfl, hunit.stag, hunit.cmd, rfl, rfl, rfl, hpc, hfields _ ?_ ?_ ?_⟩
  · rw [exec_fmoveOut hplain hp hl hbody]
    refine runInstr_of_exc ?_
    unfold outFinish
    rw [he]
    exact raisePost_eq _ _ _ _ _
  · rw [hstep]
    rfl
  · rw [hstep]
    rfl
  · intro hf
    show (if e.fptemp = true then (applyStep l.step t).fpu.fptemp else _) = _
    rw [if_pos hf, hstep]
    rfl
  · intro hf
    show (if e.wbtemp = true then (applyStep l.step t).fpu.wbtemp else _) = _
    rw [if_pos hf, hstep]
    rfl

end moveOut

/-- Settles O54: nothing is stored, and the exception is 55 (`moveOut_traps`). -/
theorem fmoveOutUnsupported : Obligations.FmoveOutUnsupported := by
  unfold Obligations.FmoveOutUnsupported
  intro s fmt src k ea l hplain hp hkind hl
  have hbody : outBody fmt l.place (s.getFp src) (s.outBegun (moveOutWord fmt src k) src) =
      .ok (outPost 55) (s.outBegun (moveOutWord fmt src k) src) := by
    unfold outBody
    rcases hkind with htag | rfl | rfl
    · rw [if_pos htag, pure_eq]
    · exact ite_self _ ▸ rfl
    · exact ite_self _ ▸ rfl
  have hdone : OutDone s src (moveOutWord fmt src k) s 0 (outPost 55) (s.outBegun (moveOutWord fmt src k) src) :=
    ⟨outUnit_outBegun s _ src hp, s.outBegun_withUnit _ src, rfl⟩
  exact moveOut_traps hplain hp hl hbody hdone rfl fun u hu _ _ => hu.trans (s.outBegun_etemp _ src)

end Sys2Proof.Machine
end

