-- ==== Sys2Proof/Proofs/FpRound.lean ====
section
/-!
SUPPORT. Rounding to a precision (43_fp_exceptions.md R324, R325, R350), as a statement about numbers: what guard, round and sticky
bits tell of an exact result, and the neighbours between which it lies.
-/
namespace Sys2Proof.Machine

/-! ### Numbers of a precision -/

/-- The numbers below an exact result, and those above it. -/
def belowReal (v : ℝ) (q : ℚ) : Prop := (q : ℝ) ≤ v
def aboveReal (v : ℝ) (q : ℚ) : Prop := v ≤ (q : ℝ)

theorem hasPrecision_neg {p : Nat} {q : ℚ} (h : hasPrecision p q) : hasPrecision p (-q) := by
  obtain ⟨m, k, hm, rfl⟩ := h
  exact ⟨-m, k, by rwa [abs_neg], by push_cast; ring⟩

/-- A whole number of units of a power of 2, at most that many bits long. -/
theorem hasPrecision_units {p n : Nat} (hp : 0 < p) (hn : n ≤ 2 ^ p) (k : Int) : hasPrecision p (n * (2 : ℚ) ^ k) := by
  rcases hn.lt_or_eq with hlt | rfl
  · exact ⟨n, k, by rw [Nat.abs_cast]; exact_mod_cast hlt, by push_cast; rfl⟩
  · refine ⟨1, p + k, ?_, ?_⟩
    · rw [abs_one]
      exact one_lt_pow₀ (by norm_num) (by omega)
    · rw [zpow_add₀ (by norm_num)]
      push_cast
      rw [one_mul, zpow_natCast]

/-- Two numbers of a precision with none between them. -/
structure Neighbours (p : Nat) (lo hi : ℚ) : Prop where
  lt : lo < hi
  lower : hasPrecision p lo
  upper : hasPrecision p hi
  none : ∀ q, hasPrecision p q → q ≤ lo ∨ hi ≤ q

theorem Neighbours.neg {p : Nat} {lo hi : ℚ} (h : Neighbours p lo hi) : Neighbours p (-hi) (-lo) where
  lt := neg_lt_neg h.lt
  lower := hasPrecision_neg h.upper
  upper := hasPrecision_neg h.lower
  none q hq := by
    rcases h.none (-q) (hasPrecision_neg hq) with hle | hle
    · exact .inr (by linarith)
    · exact .inl (by linarith)

/-- Whole numbers of units next to each other, of exactly as many bits as the precision. -/
theorem neighbours_units {p n : Nat} (hp : 0 < p) (hlow : 2 ^ (p - 1) ≤ n) (hn : n < 2 ^ p) (k : Int) :
    Neighbours p (n * (2 : ℚ) ^ k) ((n + 1 : Nat) * (2 : ℚ) ^ k) := by
  have hunit : (0 : ℚ) < 2 ^ k := by positivity
  refine ⟨?_, hasPrecision_units hp hn.le k, hasPrecision_units hp hn k, fun q hq => ?_⟩
  · push_cast
    linarith
  · obtain ⟨m, j, hm, rfl⟩ := hq
    rcases le_or_gt k j with hkj | hjk
    · obtain ⟨d, rfl⟩ := Int.le.dest hkj
      rw [zpow_add₀ (by norm_num), zpow_natCast]
      rcases le_or_gt (m * 2 ^ d) (n : Int) with hle | hlt
      · refine .inl ?_
        have hcast : ((m : ℚ) * 2 ^ d) ≤ n := by exact_mod_cast hle
        calc (m : ℚ) * (2 ^ k * 2 ^ d) = m * 2 ^ d * 2 ^ k := by ring
          _ ≤ n * 2 ^ k := by gcongr
      · refine .inr ?_
        have hcast : ((n + 1 : Nat) : ℚ) ≤ (m : ℚ) * 2 ^ d := by exact_mod_cast hlt
        calc ((n + 1 : Nat) : ℚ) * 2 ^ k ≤ m * 2 ^ d * 2 ^ k := by gcongr
          _ = m * (2 ^ k * 2 ^ d) := by ring
    · refine .inl ?_
      have hm' : (m : ℚ) ≤ 2 ^ p := by exact_mod_cast (le_abs_self m).trans hm.le
      have hpow : (2 : ℚ) ^ j ≤ 2 ^ (k - 1) := zpow_le_zpow_right₀ (by norm_num) (by omega)
      have hlow' : (2 : ℚ) ^ (p - 1) ≤ n := by exact_mod_cast hlow
      calc (m : ℚ) * 2 ^ j ≤ 2 ^ p * 2 ^ (k - 1) := by gcongr
        _ = 2 ^ (p - 1) * 2 ^ k := by
          obtain ⟨p, rfl⟩ := Nat.exists_eq_add_of_lt hp
          rw [zpow_sub₀ (by norm_num)]
          simp only [Nat.zero_add, Nat.add_sub_cancel]
          ring
        _ ≤ n * 2 ^ k := by gcongr

/-! ### What rounding makes of a result -/

/-- The mode that rounds the negative of a result to the negative. -/
def RoundMode.mirror : RoundMode → RoundMode
  | .rm => .rp
  | .rp => .rm
  | m => m

theorem below_neg {v : ℝ} {q : ℚ} : belowReal (-v) q ↔ aboveReal v (-q) := by
  unfold belowReal aboveReal
  push_cast
  exact le_neg

theorem above_neg {v : ℝ} {q : ℚ} : aboveReal (-v) q ↔ belowReal v (-q) := by
  unfold belowReal aboveReal
  push_cast
  exact neg_le

theorem greatest_neg {p : Nat} {v : ℝ} {r : ℚ} (h : aboveReal v r ∧ ∀ q, hasPrecision p q → aboveReal v q → r ≤ q) :
    belowReal (-v) (-r) ∧ ∀ q, hasPrecision p q → belowReal (-v) q → q ≤ -r :=
  ⟨below_neg.mpr (by rw [neg_neg]; exact h.1), fun q hq hb => le_neg.mpr (h.2 (-q) (hasPrecision_neg hq) (below_neg.mp hb))⟩

theorem least_neg {p : Nat} {v : ℝ} {r : ℚ} (h : belowReal v r ∧ ∀ q, hasPrecision p q → belowReal v q → q ≤ r) :
    aboveReal (-v) (-r) ∧ ∀ q, hasPrecision p q → aboveReal (-v) q → -r ≤ q :=
  ⟨above_neg.mpr (by rw [neg_neg]; exact h.1), fun q hq hb => neg_le.mpr (h.2 (-q) (hasPrecision_neg hq) (above_neg.mp hb))⟩

theorem rounds_neg {mode : RoundMode} {p : Nat} {v : ℝ} {r : ℚ} (h : Rounds mode p (belowReal v) (aboveReal v) r) :
    Rounds mode.mirror p (belowReal (-v)) (aboveReal (-v)) (-r) := by
  obtain ⟨hprec, hmode⟩ := h
  refine ⟨hasPrecision_neg hprec, ?_⟩
  cases mode with
  | rm => exact least_neg hmode
  | rp => exact greatest_neg hmode
  | rz =>
    refine ⟨fun h0 => greatest_neg (hmode.2 ?_), fun h0 => least_neg (hmode.1 ?_)⟩
    · simpa using below_neg.mp h0
    · simpa using above_neg.mp h0
  | rn =>
    intro q hq
    obtain ⟨hup, hdown⟩ := hmode (-q) (hasPrecision_neg hq)
    have hmid : -((-r + q) / 2) = (r + -q) / 2 := by ring
    refine ⟨fun hlt => ?_, fun hlt => ?_⟩
    · obtain ⟨hbelow, htie⟩ := hdown (by linarith)
      rw [above_neg, below_neg, hmid]
      exact ⟨hbelow, fun h => hasPrecision_neg (htie h)⟩
    · obtain ⟨habove, htie⟩ := hup (by linarith)
      rw [above_neg, below_neg, hmid]
      exact ⟨habove, fun h => hasPrecision_neg (htie h)⟩

/-- An exact result stays. -/
theorem rounds_exact (mode : RoundMode) {p : Nat} {r : ℚ} (hr : hasPrecision p r) : Rounds mode p (belowReal r) (aboveReal r) r := by
  have hgreatest : belowReal r r ∧ ∀ q, hasPrecision p q → belowReal r q → q ≤ r :=
    ⟨le_refl (r : ℝ), fun q _ h => Rat.cast_le.mp h⟩
  have hleast : aboveReal r r ∧ ∀ q, hasPrecision p q → aboveReal r q → r ≤ q :=
    ⟨le_refl (r : ℝ), fun q _ h => Rat.cast_le.mp h⟩
  refine ⟨hr, ?_⟩
  cases mode with
  | rm => exact hgreatest
  | rp => exact hleast
  | rz => exact ⟨fun _ => hgreatest, fun _ => hleast⟩
  | rn =>
    intro q _
    unfold belowReal aboveReal
    refine ⟨fun h => ⟨?_, fun h' => ?_⟩, fun h => ⟨?_, fun h' => ?_⟩⟩
    · exact_mod_cast (by linarith : r ≤ (r + q) / 2)
    · have h'' : (r + q) / 2 ≤ r := by exact_mod_cast h'
      linarith
    · exact_mod_cast (by linarith : (r + q) / 2 ≤ r)
    · have h'' : r ≤ (r + q) / 2 := by exact_mod_cast h'
      linarith

/-- A result between two neighbours goes to the lower one. -/
theorem rounds_lower {mode : RoundMode} {p : Nat} {lo hi : ℚ} (hn : Neighbours p lo hi) {v : ℝ} (hlo : (lo : ℝ) < v) (hhi : v < hi)
    (hup : mode ≠ .rp) (hz : mode = .rz → 0 < v)
    (hnear : mode = .rn → v ≤ ((lo + hi) / 2 : ℚ) ∧ (v = ((lo + hi) / 2 : ℚ) → hasPrecision (p - 1) lo)) :
    Rounds mode p (belowReal v) (aboveReal v) lo := by
  have hgreatest : belowReal v lo ∧ ∀ q, hasPrecision p q → belowReal v q → q ≤ lo := by
    refine ⟨hlo.le, fun q hq hb => (hn.none q hq).resolve_right fun hle => ?_⟩
    have hq' : q < hi := by exact_mod_cast hb.trans_lt hhi
    exact absurd hle (not_le.mpr hq')
  refine ⟨hn.lower, ?_⟩
  cases mode with
  | rm => exact hgreatest
  | rp => exact absurd rfl hup
  | rz =>
    refine ⟨fun _ => hgreatest, fun h0 => ?_⟩
    have h0' : v ≤ ((0 : ℚ) : ℝ) := h0
    rw [Rat.cast_zero] at h0'
    exact absurd (hz rfl) (not_lt.mpr h0')
  | rn =>
    obtain ⟨hmid, htie⟩ := hnear rfl
    intro q hq
    refine ⟨fun hlt => ?_, fun hlt => ?_⟩
    · have hle : hi ≤ q := (hn.none q hq).resolve_left (not_le.mpr hlt)
      have hle' : ((lo + hi) / 2 : ℚ) ≤ (((lo + q) / 2 : ℚ) : ℝ) := by exact_mod_cast (by linarith : (lo + hi) / 2 ≤ (lo + q) / 2)
      exact ⟨hmid.trans hle', fun h => htie (le_antisymm hmid (hle'.trans h))⟩
    · have hle : (((lo + q) / 2 : ℚ) : ℝ) < lo := by exact_mod_cast (by linarith : (lo + q) / 2 < lo)
      exact ⟨(hle.trans hlo).le, fun h => absurd (hlo.trans_le h) (not_lt.mpr hle.le)⟩

/-- A result between two neighbours goes to the upper one. -/
theorem rounds_upper {mode : RoundMode} {p : Nat} {lo hi : ℚ} (hn : Neighbours p lo hi) {v : ℝ} (hlo : (lo : ℝ) < v) (hhi : v < hi)
    (hdown : mode ≠ .rm) (hz : mode = .rz → v < 0)
    (hnear : mode = .rn → ((lo + hi) / 2 : ℚ) ≤ v ∧ (v = ((lo + hi) / 2 : ℚ) → hasPrecision (p - 1) hi)) :
    Rounds mode p (belowReal v) (aboveReal v) hi := by
  have hmid : (((-hi + -lo) / 2 : ℚ) : ℝ) = -(((lo + hi) / 2 : ℚ) : ℝ) := by push_cast; ring
  have h := rounds_lower (mode := mode.mirror) hn.neg (v := -v) (by push_cast; linarith) (by push_cast; linarith)
    (by cases mode <;> simp_all [RoundMode.mirror]) (fun h => by
      have := hz (by cases mode <;> simp_all [RoundMode.mirror])
      linarith) (fun h => by
      obtain ⟨hle, htie⟩ := hnear (by cases mode <;> simp_all [RoundMode.mirror])
      rw [hmid]
      exact ⟨neg_le_neg hle, fun he => hasPrecision_neg (htie (neg_injective he))⟩)
  have hback := rounds_neg h
  rw [neg_neg, neg_neg] at hback
  cases mode <;> exact hback

/-! ### Bits below a boundary -/

/-- A number by its whole part, and by whether there is anything more. -/
structure Floors (m : Nat) (rest : Bool) (x : ℝ) : Prop where
  lower : (m : ℝ) ≤ x
  upper : x < m + 1
  exact : rest = false ↔ x = m

theorem floors_nat (m : Nat) : Floors m false m := ⟨le_refl _, by linarith, by simp⟩

theorem floors_ratio (n : Nat) {d : Nat} (hd : 0 < d) : Floors (n / d) (n % d != 0) ((n : ℝ) / d) := by
  have hd' : (0 : ℝ) < d := by exact_mod_cast hd
  have hsplit : (n : ℝ) = d * (n / d : Nat) + (n % d : Nat) := by exact_mod_cast (Nat.div_add_mod n d).symm
  have hmod : ((n % d : Nat) : ℝ) < d := by exact_mod_cast Nat.mod_lt n hd
  have hmod0 : (0 : ℝ) ≤ (n % d : Nat) := Nat.cast_nonneg _
  refine ⟨?_, ?_, ?_⟩
  · rw [le_div_iff₀ hd', hsplit]
    nlinarith
  · rw [div_lt_iff₀ hd', hsplit]
    nlinarith
  · rw [bne_eq_false_iff_eq, div_eq_iff hd'.ne', hsplit, mul_comm, add_eq_left, Nat.cast_eq_zero]

/-- A boundary further up. -/
theorem Floors.shift {m : Nat} {rest : Bool} {x : ℝ} (h : Floors m rest x) (c : Nat) :
    Floors (m / 2 ^ c) (rest || m % 2 ^ c != 0) (x / 2 ^ c) := by
  have hpow : (0 : ℝ) < 2 ^ c := by positivity
  have hsplit : (m : ℝ) = 2 ^ c * (m / 2 ^ c : Nat) + (m % 2 ^ c : Nat) := by exact_mod_cast (Nat.div_add_mod m (2 ^ c)).symm
  have hmod : ((m % 2 ^ c : Nat) : ℝ) + 1 ≤ 2 ^ c := by exact_mod_cast Nat.mod_lt m (by positivity : 0 < 2 ^ c)
  have hmod0 : (0 : ℝ) ≤ (m % 2 ^ c : Nat) := Nat.cast_nonneg _
  have hlower := h.lower
  have hupper := h.upper
  refine ⟨?_, ?_, ?_⟩
  · rw [le_div_iff₀ hpow]
    nlinarith
  · rw [div_lt_iff₀ hpow]
    nlinarith
  · rw [Bool.or_eq_false_iff, h.exact, bne_eq_false_iff_eq, div_eq_iff hpow.ne']
    constructor
    · rintro ⟨hx, h0⟩
      rw [hx, hsplit, h0, Nat.cast_zero]
      ring
    · intro hx
      have h0 : ((m % 2 ^ c : Nat) : ℝ) = 0 := by nlinarith
      refine ⟨?_, by exact_mod_cast h0⟩
      rw [hx, hsplit, h0]
      ring

/-- What a guard bit tells. -/
theorem Floors.half {m : Nat} {rest : Bool} {x : ℝ} (h : Floors m rest x) :
    (m.testBit 0 = false → x / 2 < (m / 2 : Nat) + 1 / 2) ∧ (m.testBit 0 = true → ((m / 2 : Nat) : ℝ) + 1 / 2 ≤ x / 2) ∧
      (x / 2 = (m / 2 : Nat) + 1 / 2 ↔ m.testBit 0 = true ∧ rest = false) := by
  have hlower := h.lower
  have hupper := h.upper
  have hbit : m.testBit 0 = decide (m % 2 = 1) := Nat.testBit_zero m
  have hsplit : (m : ℝ) = 2 * (m / 2 : Nat) + (m % 2 : Nat) := by exact_mod_cast (Nat.div_add_mod m 2).symm
  rcases Nat.mod_two_eq_zero_or_one m with h0 | h1
  · have hm : m.testBit 0 = false := by rw [hbit, h0]; rfl
    rw [h0, Nat.cast_zero] at hsplit
    exact ⟨fun _ => by linarith, fun ht => absurd ht (by simp [hm]), fun ht => by linarith, fun ht => absurd ht.1 (by simp [hm])⟩
  · have hm : m.testBit 0 = true := by rw [hbit, h1]; rfl
    rw [h1, Nat.cast_one] at hsplit
    refine ⟨fun ht => absurd ht (by simp [hm]), fun _ => by linarith, fun ht => ⟨hm, h.exact.mpr (by linarith)⟩, fun ht => ?_⟩
    have hx := h.exact.mp ht.2
    linarith

/-! ### Whether the least significant bit is raised -/

theorem roundUp_mirror (mode : RoundMode) (sign lsb guard round sticky : Bool) :
    roundUp mode sign lsb guard round sticky = roundUp (if sign then mode.mirror else mode) false lsb guard false (round || sticky) := by
  cases mode <;> cases sign <;> cases guard <;> cases round <;> rfl

theorem hasPrecision_even {p n : Nat} (hp : 2 ≤ p) (hn : n ≤ 2 ^ p) (heven : n % 2 = 0) (k : Int) :
    hasPrecision (p - 1) (n * (2 : ℚ) ^ k) := by
  obtain ⟨j, rfl⟩ := Nat.dvd_of_mod_eq_zero heven
  have hj : j ≤ 2 ^ (p - 1) := by
    have hpow : 2 ^ p = 2 * 2 ^ (p - 1) := by rw [← pow_succ', Nat.sub_add_cancel (by omega)]
    omega
  have hunit : ((2 * j : Nat) : ℚ) * 2 ^ k = j * 2 ^ (k + 1) := by
    rw [zpow_add_one₀ (by norm_num)]
    push_cast
    ring
  rw [hunit]
  exact hasPrecision_units (by omega) hj _

/-- A magnitude of `x / 2` units, `m` its whole part in half units, is rounded by `roundUp`. -/
theorem rounds_roundUp {p m : Nat} (hp : 2 ≤ p) (hlow : 2 ^ (p - 1) ≤ m / 2) (hhigh : m / 2 < 2 ^ p) {rest : Bool} {x : ℝ}
    (h : Floors m rest x) (mode : RoundMode) (k : Int) :
    Rounds mode p (belowReal (x / 2 * 2 ^ k)) (aboveReal (x / 2 * 2 ^ k))
      ((m / 2 + (roundUp mode false (m / 2 % 2 == 1) (m.testBit 0) false rest).toNat : Nat) * (2 : ℚ) ^ k) := by
  have hn := neighbours_units (by omega : 0 < p) hlow hhigh k
  have hunit : (0 : ℝ) < 2 ^ k := by positivity
  have hexact := h.shift 1
  rw [pow_one, pow_one] at hexact
  obtain ⟨hlt, hge, htie⟩ := h.half
  have hbit : m.testBit 0 = decide (m % 2 = 1) := Nat.testBit_zero m
  have hmid : (((((m / 2 : Nat) : ℚ) * 2 ^ k + (m / 2 + 1 : Nat) * 2 ^ k) / 2 : ℚ) : ℝ) = ((m / 2 : Nat) + 1 / 2) * 2 ^ k := by
    push_cast
    ring
  have hpos : 0 < x / 2 := lt_of_lt_of_le (by exact_mod_cast lt_of_lt_of_le (by positivity) hlow) hexact.lower
  cases hany : rest || m.testBit 0 with
  | false =>
    obtain ⟨hrest, hguard⟩ := Bool.or_eq_false_iff.mp hany
    have hx : x / 2 = (m / 2 : Nat) := by
      refine hexact.exact.mp ?_
      rw [hrest, Bool.false_or, bne_eq_false_iff_eq]
      rw [hbit, decide_eq_false_iff_not] at hguard
      omega
    have hv : x / 2 * 2 ^ k = ((((m / 2 : Nat) : ℚ) * 2 ^ k : ℚ) : ℝ) := by rw [hx]; push_cast; rfl
    rw [hv, hrest, hguard]
    exact rounds_exact mode hn.lower
  | true =>
    have hlo : (((((m / 2 : Nat) : ℚ) * 2 ^ k : ℚ)) : ℝ) < x / 2 * 2 ^ k := by
      push_cast
      refine mul_lt_mul_of_pos_right (lt_of_le_of_ne hexact.lower fun he => ?_) hunit
      have hf := hexact.exact.mpr he.symm
      rw [Bool.or_eq_false_iff, bne_eq_false_iff_eq] at hf
      rw [hf.1, hbit, hf.2] at hany
      exact absurd hany (by simp)
    have hhi : x / 2 * 2 ^ k < (((((m / 2 + 1 : Nat) : ℚ) * 2 ^ k : ℚ)) : ℝ) := by
      push_cast
      exact mul_lt_mul_of_pos_right hexact.upper hunit
    cases hup : roundUp mode false (m / 2 % 2 == 1) (m.testBit 0) false rest with
    | false =>
      refine rounds_lower hn hlo hhi ?_ (fun _ => by positivity) fun hmode => ?_
      · rintro rfl
        revert hup hany
        cases m.testBit 0 <;> cases rest <;> simp [roundUp]
      · subst hmode
        rw [hmid]
        cases hguard : m.testBit 0 with
        | false =>
          have hlt' := mul_lt_mul_of_pos_right (hlt hguard) hunit
          exact ⟨hlt'.le, fun he => absurd he hlt'.ne⟩
        | true =>
          have hbits : rest = false ∧ m / 2 % 2 = 0 := by
            rw [hguard] at hup
            revert hup
            cases rest <;> simp [roundUp]
          refine ⟨?_, fun _ => hasPrecision_even hp hhigh.le hbits.2 k⟩
          rw [htie.mpr ⟨hguard, hbits.1⟩]
    | true =>
      refine rounds_upper hn hlo hhi ?_ (fun hmode => ?_) fun hmode => ?_
      · rintro rfl
        revert hup
        simp [roundUp]
      · subst hmode
        revert hup
        simp [roundUp]
      · subst hmode
        rw [hmid]
        have hbits : m.testBit 0 = true ∧ (rest = true ∨ m / 2 % 2 = 1) := by
          revert hup
          cases m.testBit 0 <;> cases rest <;> simp [roundUp]
        refine ⟨mul_le_mul_of_nonneg_right (hge hbits.1) hunit.le, fun he => ?_⟩
        have hx := htie.mp (mul_right_cancel₀ hunit.ne' he)
        have hodd := hbits.2.resolve_left (by simp [hx.2])
        exact hasPrecision_even hp hhigh (by omega) k

/-! ### Magnitudes with guard, round and sticky bits -/

/-- A number with a sign. -/
def signedReal (sign : Bool) (w : ℝ) : ℝ := (if sign then -1 else 1) * w

/-- The power of 2 that the mantissa of an intermediate magnitude counts. -/
def Inter.unit (i : Inter) : Int := i.exp - 0x3FFF - 65

/-- An intermediate magnitude that stands for an exact one. -/
structure Represents (i : Inter) (w : ℝ) : Prop where
  low : 2 ^ 65 ≤ i.man
  high : i.man < 2 ^ 66
  floors : Floors i.man i.sticky (w / 2 ^ i.unit)

/-- The number that a rounded magnitude stands for. -/
def Rounded.value (sign : Bool) (r : Rounded) : ℚ :=
  (if sign then -1 else 1) * r.man.toNat * (2 : ℚ) ^ (r.exp - 0x3FFF - 63)

theorem mod_two_pow_succ_bne (m n : Nat) : (m % 2 ^ (n + 1) != 0) = (m.testBit n || m % 2 ^ n != 0) := by
  rw [Nat.mod_pow_succ, Nat.testBit_eq_decide_div_mod_eq]
  rcases Nat.mod_two_eq_zero_or_one (m / 2 ^ n) with h | h
  · rw [h]
    simp
  · rw [h]
    simp

theorem grsAt_rest {p : Nat} (hp : p ≤ 64) (i : Inter) :
    ((grsAt p i).2.1 || (grsAt p i).2.2) = (i.sticky || i.man % 2 ^ (66 - p - 1) != 0) := by
  obtain ⟨c, hc⟩ : ∃ c, 66 - p = c + 2 := ⟨64 - p, by omega⟩
  simp only [grsAt, hc, Nat.add_sub_cancel, show c + 2 - 1 = c + 1 from rfl, mod_two_pow_succ_bne]
  cases i.sticky <;> simp

/-- The mantissa of a rounded magnitude, in units of the precision. -/
def roundedUnits (p : Nat) (mode : RoundMode) (sign : Bool) (i : Inter) : Nat :=
  i.man / 2 ^ (66 - p) + (roundUp mode sign (i.man / 2 ^ (66 - p) % 2 == 1) (grsAt p i).1 (grsAt p i).2.1 (grsAt p i).2.2).toNat

/-- Whether guard, round or sticky is set. -/
def roundedInexact (p : Nat) (i : Inter) : Bool := (grsAt p i).1 || (grsAt p i).2.1 || (grsAt p i).2.2

theorem roundAt_def (p : Nat) (mode : RoundMode) (sign : Bool) (i : Inter) : roundAt p mode sign i =
    if roundedUnits p mode sign i = 2 ^ p then
      { exp := i.exp + 1, man := BitVec.ofNat 64 (2 ^ 63), inexact := roundedInexact p i }
    else { exp := i.exp, man := BitVec.ofNat 64 (roundedUnits p mode sign i * 2 ^ (64 - p)), inexact := roundedInexact p i } := by
  unfold roundAt roundedUnits
  dsimp only
  cases roundUp mode sign (i.man / 2 ^ (66 - p) % 2 == 1) (grsAt p i).1 (grsAt p i).2.1 (grsAt p i).2.2 <;> rfl

theorem roundAt_inexact_eq (p : Nat) (mode : RoundMode) (sign : Bool) (i : Inter) :
    (roundAt p mode sign i).inexact = roundedInexact p i := by
  rw [roundAt_def]
  split <;> rfl

theorem roundedInexact_eq {p : Nat} (hp : p ≤ 64) (i : Inter) :
    roundedInexact p i = (i.sticky || i.man % 2 ^ (66 - p) != 0) := by
  have hcut : 66 - p = 66 - p - 1 + 1 := by omega
  rw [roundedInexact, Bool.or_assoc, grsAt_rest hp, hcut, mod_two_pow_succ_bne, ← hcut, Bool.or_left_comm]
  rfl

/-- The magnitude in units of the precision. -/
theorem units_of_precision {p : Nat} (hp : p ≤ 64) (i : Inter) (w : ℝ) : w / 2 ^ i.unit / 2 ^ (66 - p) * 2 ^ (i.unit + (66 - p)) = w := by
  have hexp : (2 : ℝ) ^ (i.unit + (66 - p)) = 2 ^ i.unit * 2 ^ (66 - p) := by
    rw [zpow_add₀ (by norm_num), ← zpow_natCast]
    congr 2
    omega
  rw [hexp]
  field_simp

section roundAt
variable {p : Nat} (hp : 2 ≤ p) (hp' : p ≤ 64) {i : Inter} {w : ℝ} (h : Represents i w) (mode : RoundMode) (sign : Bool)
include hp hp' h

theorem Represents.bits : 2 ^ (p - 1) ≤ i.man / 2 ^ (66 - p) ∧ i.man / 2 ^ (66 - p) < 2 ^ p := by
  have hlow : 2 ^ (p - 1) * 2 ^ (66 - p) = 2 ^ 65 := by rw [← pow_add]; congr 1; omega
  have hhigh : 2 ^ p * 2 ^ (66 - p) = 2 ^ 66 := by rw [← pow_add]; congr 1; omega
  refine ⟨(Nat.le_div_iff_mul_le (by positivity)).mpr (hlow ▸ h.low), (Nat.div_lt_iff_lt_mul (by positivity)).mpr (hhigh ▸ h.high)⟩

/-- A rounded magnitude: its mantissa normalized, its exponent that of the exact one or the next. -/
theorem roundAt_eq : ∃ n : Nat, 2 ^ (p - 1) ≤ n ∧ n < 2 ^ p ∧ (roundAt p mode sign i).man.toNat = n * 2 ^ (64 - p) ∧
    ((roundedUnits p mode sign i : Nat) : ℚ) = n * 2 ^ ((roundAt p mode sign i).exp - i.exp) := by
  obtain ⟨hlow, hhigh⟩ := h.bits hp hp'
  have hpow : 2 ^ p * 2 ^ (64 - p) = 2 ^ 64 := by rw [← pow_add]; congr 1; omega
  have hunits : roundedUnits p mode sign i ≤ 2 ^ p := by
    have := Bool.toNat_le (roundUp mode sign (i.man / 2 ^ (66 - p) % 2 == 1) (grsAt p i).1 (grsAt p i).2.1 (grsAt p i).2.2)
    rw [roundedUnits]
    omega
  rw [roundAt_def]
  split
  case isTrue he =>
    refine ⟨2 ^ (p - 1), le_refl _, Nat.pow_lt_pow_right (by norm_num) (by omega), ?_, ?_⟩
    · show (BitVec.ofNat 64 (2 ^ 63)).toNat = _
      rw [← pow_add, show p - 1 + (64 - p) = 63 by omega]
      rfl
    · rw [he, show i.exp + 1 - i.exp = 1 by omega, zpow_one]
      push_cast
      rw [← pow_succ, Nat.sub_add_cancel (by omega)]
  case isFalse hne =>
    have hlt : roundedUnits p mode sign i < 2 ^ p := lt_of_le_of_ne hunits hne
    refine ⟨roundedUnits p mode sign i, hlow.trans (Nat.le_add_right _ _), hlt, ?_, ?_⟩
    · refine (BitVec.toNat_ofNat _ _).trans (Nat.mod_eq_of_lt ?_)
      rw [← hpow]
      exact Nat.mul_lt_mul_of_pos_right hlt (by positivity)
    · rw [sub_self, zpow_zero, mul_one]

theorem roundAt_value : (roundAt p mode sign i).value sign =
    (if sign then -1 else 1) * ((roundedUnits p mode sign i : Nat) * (2 : ℚ) ^ (i.unit + (66 - p))) := by
  obtain ⟨n, -, -, hman, hunits⟩ := roundAt_eq hp hp' h mode sign
  rw [Rounded.value, hman, hunits, mul_assoc, mul_assoc]
  refine congrArg _ ?_
  push_cast
  rw [mul_assoc, ← zpow_natCast, ← zpow_add₀ (by norm_num), ← zpow_add₀ (by norm_num), Inter.unit]
  congr 2
  omega

theorem roundAt_rounds : Rounds mode p (belowReal (signedReal sign w)) (aboveReal (signedReal sign w))
    ((roundAt p mode sign i).value sign) := by
  obtain ⟨hlow, hhigh⟩ := h.bits hp hp'
  have hdiv : i.man / 2 ^ (66 - p - 1) / 2 = i.man / 2 ^ (66 - p) := by
    rw [Nat.div_div_eq_div_mul, ← pow_succ, show 66 - p - 1 + 1 = 66 - p by omega]
  have hguard : (i.man / 2 ^ (66 - p - 1)).testBit 0 = (grsAt p i).1 := by
    rw [Nat.testBit_div_two_pow, Nat.zero_add]
    rfl
  have hw : w / 2 ^ i.unit / 2 ^ (66 - p - 1) / 2 * 2 ^ (i.unit + (66 - p)) = w := by
    have hexp : (2 : ℝ) ^ (i.unit + (66 - p)) = 2 ^ i.unit * (2 ^ (66 - p - 1) * 2) := by
      rw [zpow_add₀ (by norm_num), ← pow_succ, show 66 - p - 1 + 1 = 66 - p by omega, ← zpow_natCast]
      congr 2
      omega
    rw [hexp]
    field_simp
  have hround := rounds_roundUp hp (by rwa [hdiv]) (by rwa [hdiv]) (h.floors.shift (66 - p - 1)) (if sign then mode.mirror else mode)
    (i.unit + (66 - p))
  rw [hw, hdiv, hguard, ← grsAt_rest hp', ← roundUp_mirror, ← roundedUnits] at hround
  rw [roundAt_value hp hp' h, signedReal]
  cases sign with
  | false => simpa using hround
  | true =>
    have hneg := rounds_neg hround
    rw [if_pos rfl, neg_one_mul, if_pos rfl, neg_one_mul]
    cases mode <;> exact hneg

/-- An inexact result is one that rounding changes. -/
theorem roundAt_inexact : (roundAt p mode sign i).inexact = true ↔ signedReal sign w ≠ ((roundAt p mode sign i).value sign : ℚ) := by
  have hfloors := h.floors.shift (66 - p)
  have hw := units_of_precision hp' i w
  have hunit : (2 : ℝ) ^ (i.unit + (66 - p)) ≠ 0 := by positivity
  have hsign : (if sign then -1 else 1 : ℝ) ≠ 0 := by cases sign <;> norm_num
  have hvalue : (((roundAt p mode sign i).value sign : ℚ) : ℝ) =
      (if sign then -1 else 1) * ((roundedUnits p mode sign i : Nat) * 2 ^ (i.unit + (66 - p))) := by
    rw [roundAt_value hp hp' h]
    cases sign <;> simp
  rw [roundAt_inexact_eq, hvalue, signedReal]
  nth_rewrite 1 [← hw]
  rw [Ne, mul_right_inj' hsign, mul_left_inj' hunit]
  rw [← roundedInexact_eq hp'] at hfloors
  cases hin : roundedInexact p i with
  | false =>
    have hup : roundedUnits p mode sign i = i.man / 2 ^ (66 - p) := by
      obtain ⟨hgr, hst⟩ := Bool.or_eq_false_iff.mp hin
      obtain ⟨hg, hr⟩ := Bool.or_eq_false_iff.mp hgr
      rw [roundedUnits, hg, hr, hst]
      rfl
    rw [hup]
    exact iff_of_false Bool.false_ne_true (not_not.mpr (hfloors.exact.mp hin))
  | true =>
    refine iff_of_true rfl fun he => ?_
    have hne : w / 2 ^ i.unit / 2 ^ (66 - p) ≠ (i.man / 2 ^ (66 - p) : Nat) := fun hx => by
      rw [hfloors.exact.mpr hx] at hin
      exact absurd hin Bool.false_ne_true
    have hupper := hfloors.upper
    rw [roundedUnits] at he
    cases hup : roundUp mode sign (i.man / 2 ^ (66 - p) % 2 == 1) (grsAt p i).1 (grsAt p i).2.1 (grsAt p i).2.2 with
    | false =>
      rw [hup] at he
      exact hne he
    | true =>
      rw [hup, Bool.toNat_true, Nat.cast_add, Nat.cast_one] at he
      exact absurd he hupper.ne

end roundAt

/-! ### The magnitudes of exact results -/

theorem two_pow_log2 {n : Nat} (hn : 0 < n) : (2 : ℝ) ^ n.log2 ≤ n ∧ (n : ℝ) < 2 ^ (n.log2 + 1) :=
  ⟨by exact_mod_cast Nat.log2_self_le hn.ne', by exact_mod_cast Nat.lt_log2_self⟩

/-- Two whole numbers scaled to a ratio of about 66 bits. -/
theorem scaledRatio (num den : Nat) (k : Int) :
    (((if 0 ≤ k then num * 2 ^ k.toNat else num : Nat) : ℝ) / ((if 0 ≤ k then den else den * 2 ^ (-k).toNat : Nat) : ℝ)) =
      (num : ℝ) / den * 2 ^ k := by
  split
  case isTrue hk =>
    obtain ⟨n, rfl⟩ := Int.eq_ofNat_of_zero_le hk
    rw [Int.toNat_natCast, zpow_natCast]
    push_cast
    ring
  case isFalse hk =>
    obtain ⟨n, hn⟩ := Int.eq_ofNat_of_zero_le (by omega : 0 ≤ -k)
    rw [hn, Int.toNat_natCast, show k = -(n : Int) by omega, zpow_neg, zpow_natCast]
    push_cast
    rw [div_mul_eq_div_div, div_eq_mul_inv]

theorem represents_ratio {num den : Nat} (hnum : 0 < num) (hden : 0 < den) (s : Int) :
    Represents (interOfRatio num den s) ((num : ℝ) / den * 2 ^ s) := by
  obtain ⟨hn1, hn2⟩ := two_pow_log2 hnum
  obtain ⟨hd1, hd2⟩ := two_pow_log2 hden
  have hden' : (0 : ℝ) < den := by exact_mod_cast hden
  have hnum' : (0 : ℝ) < num := by exact_mod_cast hnum
  obtain ⟨l, hl⟩ : ∃ l : Int, l = (Nat.log2 num : Int) - Nat.log2 den := ⟨_, rfl⟩
  obtain ⟨n, hn⟩ : ∃ n, n = if 0 ≤ 66 - l then num * 2 ^ (66 - l).toNat else num := ⟨_, rfl⟩
  obtain ⟨d, hd⟩ : ∃ d, d = if 0 ≤ 66 - l then den else den * 2 ^ (-(66 - l)).toNat := ⟨_, rfl⟩
  have hdpos : 0 < d := by
    rw [hd]
    split <;> positivity
  have hratio : (n : ℝ) / d = (num : ℝ) / den * 2 ^ (66 - l) := by rw [hn, hd, scaledRatio]
  have hfloors := floors_ratio n hdpos
  have hscale : (2 : ℝ) ^ num.log2 * 2 ^ (66 - l) = 2 ^ 66 * 2 ^ den.log2 := by
    simp only [← zpow_natCast, ← zpow_add₀ (by norm_num : (2 : ℝ) ≠ 0)]
    congr 1
    push_cast
    omega
  have hpos : (0 : ℝ) < 2 ^ (66 - l) := by positivity
  have hlow : (2 : ℝ) ^ 65 < (n : ℝ) / d := by
    rw [hratio, div_mul_eq_mul_div, lt_div_iff₀ hden']
    calc (2 : ℝ) ^ 65 * den < 2 ^ 65 * 2 ^ (den.log2 + 1) := by gcongr
      _ = 2 ^ num.log2 * 2 ^ (66 - l) := by rw [hscale]; ring
      _ ≤ num * 2 ^ (66 - l) := by gcongr
  have hhigh : (n : ℝ) / d < (2 : ℝ) ^ 67 := by
    rw [hratio, div_mul_eq_mul_div, div_lt_iff₀ hden']
    calc (num : ℝ) * 2 ^ (66 - l) < 2 ^ (num.log2 + 1) * 2 ^ (66 - l) := by gcongr
      _ = 2 ^ 67 * 2 ^ den.log2 := by rw [pow_succ, mul_right_comm, hscale]; ring
      _ ≤ 2 ^ 67 * den := by gcongr
  have hlowq : 2 ^ 65 ≤ n / d := by
    have : (2 : ℝ) ^ 65 < (n / d : Nat) + 1 := hlow.trans hfloors.upper
    have : 2 ^ 65 < n / d + 1 := by exact_mod_cast this
    omega
  have hhighq : n / d < 2 ^ 67 := by
    have : ((n / d : Nat) : ℝ) < 2 ^ 67 := hfloors.lower.trans_lt hhigh
    exact_mod_cast this
  have hunfold : interOfRatio num den s =
      if 2 ^ 66 ≤ n / d then { exp := l + s + fpBias, man := n / d / 2, sticky := n / d % 2 != 0 || n % d != 0 }
      else { exp := l - 1 + s + fpBias, man := n / d, sticky := n % d != 0 } := by
    subst hn hd hl
    rfl
  rw [hunfold]
  split
  case isTrue hbig =>
    refine ⟨by show 2 ^ 65 ≤ n / d / 2; omega, by show n / d / 2 < 2 ^ 66; omega, ?_⟩
    have hunit : (num : ℝ) / den * 2 ^ s / 2 ^ (l + s + fpBias - 0x3FFF - 65) = (n : ℝ) / d / 2 := by
      rw [hratio, show l + s + fpBias - 0x3FFF - 65 = l + s - 65 by rw [fpBias]; omega, div_eq_div_iff (by positivity) (by norm_num),
        mul_assoc, mul_assoc]
      refine congrArg _ ?_
      rw [← zpow_add_one₀ (by norm_num), ← zpow_add₀ (by norm_num)]
      congr 1
      omega
    have hshift := hfloors.shift 1
    rw [pow_one, pow_one, ← hunit, Bool.or_comm] at hshift
    exact hshift
  case isFalse hsmall =>
    refine ⟨hlowq, by show n / d < 2 ^ 66; omega, ?_⟩
    have hunit : (num : ℝ) / den * 2 ^ s / 2 ^ (l - 1 + s + fpBias - 0x3FFF - 65) = (n : ℝ) / d := by
      rw [hratio, show l - 1 + s + fpBias - 0x3FFF - 65 = l + s - 66 by rw [fpBias]; omega, div_eq_iff (by positivity), mul_assoc]
      refine congrArg _ ?_
      rw [← zpow_add₀ (by norm_num)]
      congr 1
      omega
    rw [← hunit] at hfloors
    exact hfloors

end Sys2Proof.Machine
end

