-- ==== Sys2Proof/Proofs/FpRange.lean ====
section
/-!
SUPPORT. The range of a precision (43_fp_exceptions.md R316, R319), and the square root as an exact result (42_fp_instructions.md
R271).
-/
namespace Sys2Proof.Machine

theorem Prec.bits_bounds (p : Prec) : 2 ≤ p.bits ∧ p.bits ≤ 64 := by cases p <;> decide

/-! ### The least and the greatest normalized numbers -/

theorem underflows_iff (p : Prec) (e : Int) : underflows p e = true ↔ e - 0x3FFF < (expRange p).1 := by
  cases p <;> simp only [underflows, expRange, decide_eq_true_eq] <;> omega

theorem overflows_iff (p : Prec) (e : Int) : overflows p e = true ↔ (expRange p).2 < e - 0x3FFF := by
  cases p <;> simp only [overflows, expRange, decide_eq_true_eq] <;> omega

/-- The binade of an exact result. -/
theorem Represents.binade {i : Inter} {w : ℝ} (h : Represents i w) : (2 : ℝ) ^ (i.exp - 0x3FFF) ≤ w ∧ w < 2 ^ (i.exp - 0x3FFF + 1) := by
  have hunit : (0 : ℝ) < 2 ^ i.unit := by positivity
  have hlow : (2 : ℝ) ^ 65 ≤ i.man := by exact_mod_cast h.low
  have hhigh : (i.man : ℝ) + 1 ≤ 2 ^ 66 := by exact_mod_cast h.high
  have hlower := (le_div_iff₀ hunit).mp h.floors.lower
  have hupper := (div_lt_iff₀ hunit).mp h.floors.upper
  constructor
  · calc (2 : ℝ) ^ (i.exp - 0x3FFF) = 2 ^ (65 : Int) * 2 ^ i.unit := by
          rw [← zpow_add₀ (by norm_num), Inter.unit]
          congr 1
          omega
      _ ≤ i.man * 2 ^ i.unit := by gcongr; exact_mod_cast hlow
      _ ≤ w := hlower
  · calc w < (i.man + 1) * 2 ^ i.unit := hupper
      _ ≤ 2 ^ (66 : Int) * 2 ^ i.unit := by gcongr; exact_mod_cast hhigh
      _ = (2 : ℝ) ^ (i.exp - 0x3FFF + 1) := by
          rw [← zpow_add₀ (by norm_num), Inter.unit]
          congr 1
          omega

theorem Represents.pos {i : Inter} {w : ℝ} (h : Represents i w) : 0 < w := lt_of_lt_of_le (by positivity) h.binade.1

theorem tooSmall_iff {i : Inter} {w : ℝ} (h : Represents i w) (sign : Bool) (p : Prec) :
    TooSmall p (belowReal (signedReal sign w)) (aboveReal (signedReal sign w)) ↔ underflows p i.exp = true := by
  obtain ⟨hlow, hhigh⟩ := h.binade
  have hpos := h.pos
  have hrange : TooSmall p (belowReal (signedReal sign w)) (aboveReal (signedReal sign w)) ↔ w < 2 ^ (expRange p).1 := by
    have hmin : (0 : ℝ) < 2 ^ (expRange p).1 := by positivity
    unfold TooSmall belowReal aboveReal normalRange signedReal
    push_cast
    rw [not_le, not_le]
    cases sign with
    | false =>
      rw [if_neg (by simp), one_mul]
      exact ⟨fun ⟨h, _⟩ => h, fun h => ⟨h, by linarith⟩⟩
    | true =>
      rw [if_pos rfl, neg_one_mul, neg_lt_neg_iff]
      exact ⟨fun ⟨_, h⟩ => h, fun h => ⟨by linarith, h⟩⟩
  rw [hrange, underflows_iff]
  constructor
  · intro hlt
    exact (zpow_lt_zpow_iff_right₀ (by norm_num)).mp (hlow.trans_lt hlt)
  · intro hlt
    exact hhigh.trans_le (zpow_le_zpow_right₀ (by norm_num) (by omega))

theorem roundAt_exp (p : Prec) (mode : RoundMode) (sign : Bool) (i : Inter) : i.exp ≤ (roundAt p.bits mode sign i).exp ∧ (roundAt p.bits mode sign i).exp ≤ i.exp + 1 := by
  rw [roundAt_def]
  split
  · exact ⟨by show i.exp ≤ i.exp + 1; omega, le_refl _⟩
  · exact ⟨le_refl _, by show i.exp ≤ i.exp + 1; omega⟩

section rounded
variable {i : Inter} {w : ℝ} (h : Represents i w) (p : Prec) (mode : RoundMode) (sign : Bool)
include h

/-- The magnitude of a rounded result. -/
theorem abs_roundAt_value : ∃ n : Nat, 2 ^ (p.bits - 1) ≤ n ∧ n < 2 ^ p.bits ∧
    |(roundAt p.bits mode sign i).value sign| = n * (2 : ℚ) ^ ((roundAt p.bits mode sign i).exp - 0x3FFF - (p.bits - 1)) := by
  obtain ⟨hp, hp'⟩ := p.bits_bounds
  obtain ⟨n, hlow, hhigh, hman, -⟩ := roundAt_eq hp hp' h mode sign
  refine ⟨n, hlow, hhigh, ?_⟩
  have hsign : |(if sign then -1 else 1 : ℚ)| = 1 := by cases sign <;> simp
  rw [Rounded.value, abs_mul, abs_mul, hsign, one_mul, hman, Nat.abs_cast, abs_of_pos (by positivity)]
  push_cast
  rw [mul_assoc, ← zpow_natCast, ← zpow_add₀ (by norm_num)]
  congr 2
  omega

theorem tooLarge_iff : TooLarge p ((roundAt p.bits mode sign i).value sign) ↔ overflows p (roundAt p.bits mode sign i).exp = true := by
  obtain ⟨hp, -⟩ := p.bits_bounds
  obtain ⟨n, hlow, hhigh, hvalue⟩ := abs_roundAt_value h p mode sign
  rw [TooLarge, hvalue, overflows_iff, normalRange]
  have hlow' : (2 : ℚ) ^ (p.bits - 1) ≤ n := by exact_mod_cast hlow
  have hhigh' : (n : ℚ) ≤ 2 ^ p.bits - 1 := by
    rw [le_sub_iff_add_le]
    exact_mod_cast hhigh
  constructor
  · intro hlt
    by_contra hle
    refine absurd hlt (not_lt.mpr ?_)
    have hpow : (2 : ℚ) ^ ((roundAt p.bits mode sign i).exp - 0x3FFF - (p.bits - 1)) ≤ 2 ^ ((expRange p).2 - (p.bits - 1)) :=
      zpow_le_zpow_right₀ (by norm_num) (by omega)
    have hn : (0 : ℚ) ≤ n := Nat.cast_nonneg n
    exact mul_le_mul hhigh' hpow (by positivity) (hn.trans hhigh')
  · intro hlt
    have hpow : (2 : ℚ) ^ ((expRange p).2 + 1 - (p.bits - 1)) ≤ 2 ^ ((roundAt p.bits mode sign i).exp - 0x3FFF - (p.bits - 1)) :=
      zpow_le_zpow_right₀ (by norm_num) (by omega)
    have hunit : (0 : ℚ) < 2 ^ ((expRange p).2 - ((p.bits : Int) - 1)) := by positivity
    calc ((2 : ℚ) ^ p.bits - 1) * 2 ^ ((expRange p).2 - ((p.bits : Int) - 1))
        < 2 ^ p.bits * 2 ^ ((expRange p).2 - ((p.bits : Int) - 1)) := by gcongr; linarith
      _ = 2 ^ (p.bits - 1) * 2 ^ ((expRange p).2 + 1 - ((p.bits : Int) - 1)) := by
          simp only [← zpow_natCast, ← zpow_add₀ (by norm_num : (2 : ℚ) ≠ 0)]
          congr 1
          omega
      _ ≤ n * 2 ^ ((roundAt p.bits mode sign i).exp - 0x3FFF - (p.bits - 1)) := by gcongr

theorem roundAt_man : (roundAt p.bits mode sign i).man.getLsbD 63 = true := by
  obtain ⟨hp, hp'⟩ := p.bits_bounds
  obtain ⟨n, hlow, -, hman, -⟩ := roundAt_eq hp hp' h mode sign
  have hge : 2 ^ 63 ≤ (roundAt p.bits mode sign i).man.toNat := by
    rw [hman, show 2 ^ 63 = 2 ^ (p.bits - 1) * 2 ^ (64 - p.bits) by rw [← pow_add]; congr 1; omega]
    exact Nat.mul_le_mul_right _ hlow
  rw [← BitVec.msb_eq_getLsbD_last, BitVec.msb_eq_decide, decide_eq_true_eq]
  exact hge

end rounded

/-! ### Values of the extended format -/

theorem exp15_toNat {e : Int} (h : 0 ≤ e) (h' : e < 0x8000) : ((exp15 e).toNat : Int) = e := by
  rw [exp15, BitVec.toNat_ofInt, Int.toNat_of_nonneg (Int.emod_nonneg _ (by norm_num))]
  exact Int.emod_eq_of_lt h h'

/-- A rounded magnitude as a value of the extended format. -/
def Rounded.real (sign : Bool) (r : Rounded) : FpReal := { sign := sign, exp := exp15 r.exp, man := r.man }

theorem fpValue_real (sign : Bool) {r : Rounded} (h : 0 ≤ r.exp) (h' : r.exp < 0x8000) : fpValue (r.real sign) = r.value sign := by
  rw [fpValue, Rounded.real, exp15_toNat h h', Rounded.value]

theorem isNormal_real (sign : Bool) {r : Rounded} (h : 0 ≤ r.exp) (h' : r.exp < 0x7FFF) (hman : r.man.getLsbD 63 = true) :
    isNormal (r.real sign) = true := by
  refine (isNormal_iff _).mpr ⟨fun he => ?_, hman⟩
  have hexp := exp15_toNat h (by omega)
  rw [show exp15 r.exp = 0x7FFF from he] at hexp
  have : r.exp = 0x7FFF := hexp.symm
  omega

/-! ### The square root -/

theorem Floors.unique {m m' : Nat} {rest rest' : Bool} {x : ℝ} (h : Floors m rest x) (h' : Floors m' rest' x) :
    m = m' ∧ rest = rest' := by
  have hm : m = m' := by
    have hlt : m < m' + 1 := by exact_mod_cast h.lower.trans_lt h'.upper
    have hlt' : m' < m + 1 := by exact_mod_cast h'.lower.trans_lt h.upper
    omega
  subst hm
  have hiff : rest = false ↔ rest' = false := h.exact.trans h'.exact.symm
  refine ⟨rfl, ?_⟩
  cases rest <;> cases rest' <;> simp_all

/-- A magnitude of which a whole part of at least 66 bits and the rest are known. -/
theorem represents_floors {r : Nat} (hr : 2 ^ 66 ≤ r) {rest : Bool} {x : ℝ} (hx : Floors r rest x) (s : Int) :
    Represents { interOfRatio r 1 s with sticky := (interOfRatio r 1 s).sticky || rest } (x * 2 ^ s) := by
  have h := represents_ratio (by omega : 0 < r) Nat.one_pos s
  generalize interOfRatio r 1 s = i at h
  have hr' : (2 : ℝ) ^ 66 ≤ r := by exact_mod_cast hr
  have hman : (i.man : ℝ) + 1 ≤ 2 ^ 66 := by exact_mod_cast h.high
  obtain ⟨c, hc⟩ : ∃ c : Nat, i.unit = s + c := by
    refine ⟨(i.unit - s).toNat, ?_⟩
    have hlt := h.floors.upper
    rw [Nat.cast_one, div_one, mul_div_assoc, ← zpow_sub₀ (by norm_num)] at hlt
    have hpos : (0 : ℝ) < 2 ^ (s - i.unit) := by positivity
    have hone : (2 : ℝ) ^ (s - i.unit) < 2 ^ (0 : Int) := by
      rw [zpow_zero]
      nlinarith
    have := (zpow_lt_zpow_iff_right₀ (by norm_num : (1 : ℝ) < 2)).mp hone
    omega
  have hscale (y : ℝ) : y * 2 ^ s / 2 ^ i.unit = y / 2 ^ c := by
    rw [hc, zpow_add₀ (by norm_num), zpow_natCast]
    field_simp
  have hfloors := h.floors
  rw [Nat.cast_one, div_one, hscale] at hfloors
  obtain ⟨hmeq, hseq⟩ := hfloors.unique ((floors_nat r).shift c)
  refine ⟨h.low, h.high, ?_⟩
  show Floors i.man (i.sticky || rest) (x * 2 ^ s / 2 ^ i.unit)
  rw [hscale, hmeq, hseq, Bool.false_or, Bool.or_comm]
  exact hx.shift c

/-- The root that `isqrtFrom` finds bit by bit. -/
theorem isqrtFrom_spec {x : Nat} : ∀ (n acc : Nat), acc * acc ≤ x → x < (acc + 2 ^ n) * (acc + 2 ^ n) →
    isqrtFrom x n acc * isqrtFrom x n acc ≤ x ∧ x < (isqrtFrom x n acc + 1) * (isqrtFrom x n acc + 1)
  | 0, _, hlow, hhigh => ⟨hlow, hhigh⟩
  | n + 1, acc, hlow, hhigh => by
    rw [isqrtFrom]
    split
    case isTrue hle =>
      refine isqrtFrom_spec n _ hle ?_
      rwa [add_assoc, ← two_mul, ← pow_succ']
    case isFalse hgt => exact isqrtFrom_spec n _ hlow (not_le.mp hgt)

theorem floors_sqrt {r v : Nat} (hlow : r * r ≤ v) (hhigh : v < (r + 1) * (r + 1)) : Floors r (r * r != v) (√(v : ℝ)) := by
  have hv : (0 : ℝ) ≤ v := Nat.cast_nonneg v
  have hr : (0 : ℝ) ≤ r := Nat.cast_nonneg r
  refine ⟨?_, ?_, ?_⟩
  · refine Real.le_sqrt_of_sq_le ?_
    rw [sq]
    exact_mod_cast hlow
  · rw [Real.sqrt_lt hv (by linarith), sq]
    exact_mod_cast hhigh
  · rw [bne_eq_false_iff_eq, Real.sqrt_eq_iff_mul_self_eq hv hr]
    exact ⟨fun h => by exact_mod_cast h.symm, fun h => by exact_mod_cast h.symm⟩

theorem unitExp_eq (x : FpReal) : unitExp x = (x.exp.toNat : Int) - 0x3FFF - 63 := rfl

theorem man_bounds {x : FpReal} (h : isNormal x = true) : 2 ^ 63 ≤ x.man.toNat ∧ x.man.toNat < 2 ^ 64 := by
  obtain ⟨-, hman⟩ := (isNormal_iff x).mp h
  rw [← BitVec.msb_eq_getLsbD_last, BitVec.msb_eq_decide, decide_eq_true_eq] at hman
  exact ⟨hman, x.man.isLt⟩

theorem represents_sqrt {x : FpReal} (hx : isNormal x = true) (hs : x.sign = false) : Represents (interSqrt x) (√(fpValue x : ℚ)) := by
  obtain ⟨hlow, hhigh⟩ := man_bounds hx
  obtain ⟨m, h, hm, hh, hvalue⟩ : ∃ (m : Nat) (h : Int), m = (if unitExp x % 2 != 0 then x.man.toNat * 2 else x.man.toNat) ∧
      h = (if unitExp x % 2 != 0 then unitExp x - 1 else unitExp x) / 2 ∧ ((fpValue x : ℚ) : ℝ) = m * 2 ^ (2 * h) := by
    refine ⟨_, _, rfl, rfl, ?_⟩
    rw [fpValue, if_neg (by simp [hs]), one_mul, ← unitExp_eq]
    rcases Int.emod_two_eq_zero_or_one (unitExp x) with h0 | h1
    · rw [h0, if_neg (by decide), if_neg (by decide), Int.mul_ediv_cancel' (Int.dvd_of_emod_eq_zero h0)]
      push_cast
      rfl
    · rw [h1, if_pos (by decide), if_pos (by decide), Int.mul_ediv_cancel' (Int.dvd_self_sub_of_emod_eq h1)]
      push_cast
      rw [zpow_sub₀ (by norm_num), zpow_one]
      ring
  have hmlow : 2 ^ 63 ≤ m := by rw [hm]; split <;> omega
  have hmhigh : m < 2 ^ 65 := by rw [hm]; split <;> omega
  obtain ⟨r, hr⟩ : ∃ r, r = isqrtFrom (m * 2 ^ 72) 70 0 := ⟨_, rfl⟩
  obtain ⟨hrlow, hrhigh⟩ := isqrtFrom_spec (x := m * 2 ^ 72) 70 0 (Nat.zero_le _) (by norm_num; omega)
  rw [← hr] at hrlow hrhigh
  have hbig : 2 ^ 66 ≤ r := by
    by_contra hlt
    have hle : r + 1 ≤ 2 ^ 66 := by omega
    have := Nat.mul_le_mul hle hle
    norm_num at this
    omega
  have hroot : √((fpValue x : ℚ) : ℝ) = √((m * 2 ^ 72 : Nat) : ℝ) * 2 ^ (h - 36) := by
    rw [hvalue, Real.sqrt_eq_iff_mul_self_eq (by positivity) (by positivity)]
    have hsq := Real.mul_self_sqrt (Nat.cast_nonneg (α := ℝ) (m * 2 ^ 72))
    rw [mul_mul_mul_comm, hsq, ← zpow_add₀ (by norm_num), show h - 36 + (h - 36) = 2 * h - 72 by omega, zpow_sub₀ (by norm_num)]
    push_cast
    field_simp
    norm_num
  have hinter : interSqrt x = { interOfRatio r 1 (h - 36) with
      sticky := (interOfRatio r 1 (h - 36)).sticky || r * r != m * 2 ^ 72 } := by
    subst hr hm hh
    rfl
  rw [hinter, hroot]
  exact represents_floors hbig (floors_sqrt hrlow hrhigh) _

end Sys2Proof.Machine
end

