-- ==== Sys2Proof/Proofs/FpArith.lean ====
section
/-!
SUPPORT. The delivery of an exact result (43_fp_exceptions.md R340) and the operations on numbers (42_fp_instructions.md
R265-R271).
-/
namespace Sys2Proof.Machine

/-! ### Finishing, case by case -/

/-- The state with EXC.INEX2 set if a result is inexact. -/
def State.withInexact (b : State) (inexact : Bool) : State := if inexact then b.setExc .inex2 else b

/-- The fields of the state frame of a result too small (43_fp_exceptions.md R319, R320). -/
def fillUnderflow (unit : FpUnit) (cw : Word) (sign : Bool) (i : Inter) (u : Fpu) : Fpu :=
  match unit with
  | .e1 => { withCommand .e1 cw u with
      fptemp := { sign := sign, exp := exp15 i.exp, man := BitVec.ofNat 64 (i.man / 4) }, stag := tagNormalized }
  | .e3 => { withCommand .e3 cw u with
      wbtemp := wbTempOf sign true i.exp (BitVec.ofNat 64 (i.man / 4)) (grsAt 64 i).1 (grsAt 64 i).2.1 (grsAt 64 i).2.2 }

/-- The fields of the state frame of a result too large (43_fp_exceptions.md R316, R317). -/
def fillOverflow (unit : FpUnit) (cw : Word) (sign : Bool) (r : Rounded) (u : Fpu) : Fpu :=
  match unit with
  | .e1 => { withCommand .e1 cw u with etemp := r.real sign, stag := tagNormalized }
  | .e3 => { withCommand .e3 cw u with wbtemp := wbTempOf sign false r.exp r.man false false false }

section finish
variable (ia : Long) (cw : Word) (unit : FpUnit) (sign : Bool) (i : Inter) (p : Prec) (dst : RegNo) (b : State)

theorem finish_of_underflow (h : underflows p i.exp = true) : finish ia cw unit sign i (some p) dst b =
    .ok () ((b.setExc .unfl).posted ia 51 unit (fillUnderflow unit cw sign i)).freedFpcc.accrue := by
  unfold finish
  dsimp only
  rw [bind_eq, fetch_eq]
  dsimp only
  rw [if_pos h]
  cases unit <;> rfl

/-- What is done with a rounded result. -/
def finishRounded (r : Rounded) : M Unit :=
  if overflows p r.exp then do
    update (State.setExc .ovfl)
    postExc ia FpExc.ovfl.vector unit false (fillOverflow unit cw sign r)
    freeFpcc
    update State.accrue
  else do
    fpStore dst (r.real sign)
    if r.inexact && trapEnabled b.fp.fpcr .inex2 then do
      postExc ia FpExc.inex2.vector unit false (withCommand unit cw)
      update State.accrue
    else update State.accrue

/-- The rounded result, as `finish` comes to it. -/
def finishRound : Rounded := roundAt p.bits (roundModeOf b.fp.fpcr) sign i

theorem finish_of_not_underflow (h : underflows p i.exp = false) : finish ia cw unit sign i (some p) dst b =
    finishRounded ia cw unit sign p dst b (finishRound sign i p b) (b.withInexact (finishRound sign i p b).inexact) := by
  unfold finish State.withInexact finishRounded finishRound
  dsimp only
  rw [bind_eq, fetch_eq]
  dsimp only
  rw [if_neg (by simp [h])]
  cases unit <;> cases (roundAt p.bits (roundModeOf b.fp.fpcr) sign i).inexact <;> rfl

theorem finishRounded_of_overflow (r : Rounded) (h : overflows p r.exp = true) (c : State) :
    finishRounded ia cw unit sign p dst b r c =
      .ok () ((c.setExc .ovfl).posted ia 53 unit (fillOverflow unit cw sign r)).freedFpcc.accrue := by
  rw [finishRounded, if_pos h]
  rfl

/-- The state with a result stored, and an inexact one posted if that is to be. -/
def State.delivered (r : Rounded) (c : State) : State :=
  let t := setFpccOf (r.real sign) (c.setFp dst (r.real sign))
  if r.inexact && trapEnabled b.fp.fpcr .inex2 then (t.posted ia 49 unit (withCommand unit cw)).accrue else t.accrue

theorem finishRounded_of_not_overflow (r : Rounded) (h : overflows p r.exp = false) (c : State) :
    finishRounded ia cw unit sign p dst b r c = .ok () (State.delivered ia cw unit sign dst b r c) := by
  rw [finishRounded, if_neg (by simp [h]), State.delivered]
  cases r.inexact && trapEnabled b.fp.fpcr .inex2 <;> rfl

end finish

/-! ### The exceptions that it leaves -/

theorem excByte_excBits (x : FpExc) (f : Long) : excByte (excBits x f) = excByte f ||| x.mask := by
  refine BitVec.eq_of_getLsbD_eq fun k hk => ?_
  have hmask : x.mask.getLsbD k = decide (8 + k = x.bit) := by
    cases x <;> interval_cases k <;> rfl
  rw [BitVec.getLsbD_or, excByte, excByte, BitVec.getLsbD_extractLsb', BitVec.getLsbD_extractLsb', excBits_getLsbD, hmask]
  simp [hk]

theorem excByte_withFpcc (f : Long) (n z i nan : Bool) : excByte (withFpcc f n z i nan) = excByte f := by
  refine BitVec.eq_of_getLsbD_eq fun k hk => ?_
  rw [excByte, excByte, BitVec.getLsbD_extractLsb', BitVec.getLsbD_extractLsb', withFpcc_getLsbD, if_neg (by omega),
    if_neg (by omega), if_neg (by omega), if_neg (by omega)]

theorem excByte_getLsbD (f : Long) {k : Nat} (hk : k < 8) : (excByte f).getLsbD k = f.getLsbD (8 + k) := by
  rw [excByte, BitVec.getLsbD_extractLsb', decide_eq_true hk, Bool.true_and]

theorem excByte_withInexact {b : State} (h : excByte b.fp.fpsr = 0) (inexact : Bool) :
    excByte (b.withInexact inexact).fp.fpsr = if inexact then 0x02 else 0 := by
  cases inexact with
  | false => exact h
  | true =>
    refine (excByte_excBits .inex2 b.fp.fpsr).trans ?_
    rw [h]
    rfl

theorem State.withInexact_eq (b : State) (inexact : Bool) : ∃ f, b.withInexact inexact = { b with fp := { b.fp with fpsr := f } } := by
  cases inexact <;> exact ⟨_, rfl⟩

theorem excByte_begun {s b : State} (h : FpBegun s b) : excByte b.fp.fpsr = 0 := by
  refine BitVec.eq_of_getLsbD_eq fun k hk => ?_
  rw [excByte_getLsbD _ hk, h.exc _ (by omega) (by omega)]
  exact BitVec.getLsbD_zero.symm

/-- An exception posted with the condition codes free. -/
theorem excByte_posted (x : FpExc) (ia : Long) (vector : Byte) (unit : FpUnit) (fill : Fpu → Fpu) (c : State) :
    excByte (((c.setExc x).posted ia vector unit fill).freedFpcc.accrue).fp.fpsr = excByte c.fp.fpsr ||| x.mask :=
  (excByte_accrueBits _).trans ((excByte_withFpcc _ _ _ _ _).trans (excByte_excBits x _))

/-! ### Results of operations -/

section result
variable {s b : State} (hb : FpBegun s b) {p : Prec} (unit : FpUnit) (sign : Bool) (ia : Long) (cw : Word) (dst : RegNo)
include hb

/-- What is delivered of a result in range. -/
theorem delivered_result {r : Rounded} (hexp : 0 ≤ r.exp) (hexp' : r.exp < 0x7FFF) (hman : r.man.getLsbD 63 = true) {t : State}
    (ht : t = State.delivered ia cw unit sign dst b r (b.withInexact r.inexact)) :
    fpValue (t.getFp dst) = r.value sign ∧ isNormal (t.getFp dst) = true ∧
      t.fp.fpsr.extractLsb' 24 4 = BitVec.ofBool (t.getFp dst).sign ++ 0#3 ∧ excByte t.fp.fpsr = (if r.inexact then 0x02 else 0) ∧
      t.fpu.pending = if r.inexact && s.fp.fpcr.getLsbD 9 then some { vector := 49, unit := unit, post := false } else none := by
  have hnormal := isNormal_real sign hexp hexp' hman
  have htrap : trapEnabled b.fp.fpcr .inex2 = s.fp.fpcr.getLsbD 9 := by rw [hb.fpcr]; rfl
  have hfp : t.fp = (setFpccOf (r.real sign) ((b.withInexact r.inexact).setFp dst (r.real sign))).accrue.fp := by
    rw [ht, State.delivered]
    cases r.inexact && trapEnabled b.fp.fpcr .inex2 <;> rfl
  have hreg : t.getFp dst = r.real sign := by
    rw [State.getFp, hfp]
    exact State.getFp_setFp dst _ _
  refine ⟨?_, ?_, ?_, ?_, ?_⟩
  · rw [hreg, fpValue_real sign hexp (by omega)]
  · rw [hreg, hnormal]
  · rw [hfp, hreg]
    refine (accrueBits_codes _).trans ((withFpcc_codes _ _ _ _ _).trans ?_)
    rw [isZero_of_isNormal hnormal, isInf_of_isNormal hnormal, (tagOf_of_number (.inl hnormal)).1]
    cases (r.real sign).sign <;> rfl
  · rw [hfp]
    refine (excByte_accrueBits _).trans ((excByte_withFpcc _ _ _ _ _).trans ?_)
    exact excByte_withInexact (excByte_begun hb) _
  · rw [ht, State.delivered, htrap]
    cases r.inexact && s.fp.fpcr.getLsbD 9 with
    | true => rfl
    | false =>
      obtain ⟨f, hf⟩ := b.withInexact_eq r.inexact
      rw [hf]
      exact hb.pending

theorem finish_result {i : Inter} {w : ℝ} (h : Represents i w) : ∃ t, finish ia cw unit sign i (some p) dst b = .ok () t ∧
    FpResult s t dst p unit (belowReal (signedReal sign w)) (aboveReal (signedReal sign w)) := by
  obtain ⟨hp, hp'⟩ := p.bits_bounds
  have hmode : roundModeOf b.fp.fpcr = roundModeOf s.fp.fpcr := by rw [hb.fpcr]
  have hsmall := tooSmall_iff h sign p
  cases hu : underflows p i.exp with
  | true =>
    refine ⟨_, finish_of_underflow ia cw unit sign i p dst b hu, fun _ => ⟨hb.getFp dst, rfl, ?_⟩,
      fun hn => absurd (hsmall.mpr hu) hn⟩
    rw [excByte_posted, excByte_begun hb]
    rfl
  | false =>
    have hround := roundAt_rounds hp hp' h (roundModeOf s.fp.fpcr) sign
    have hin := roundAt_inexact hp hp' h (roundModeOf s.fp.fpcr) sign
    have hlarge := tooLarge_iff h p (roundModeOf s.fp.fpcr) sign
    have hrange := roundAt_exp p (roundModeOf s.fp.fpcr) sign i
    have hman := roundAt_man h p (roundModeOf s.fp.fpcr) sign
    have hrounded : finishRound sign i p b = roundAt p.bits (roundModeOf s.fp.fpcr) sign i := by rw [finishRound, hmode]
    generalize roundAt p.bits (roundModeOf s.fp.fpcr) sign i = r at hround hin hlarge hrange hman hrounded
    have hne : signedReal sign w ≠ (r.value sign : ℚ) ↔
        ¬ (belowReal (signedReal sign w) (r.value sign) ∧ aboveReal (signedReal sign w) (r.value sign)) := by
      rw [belowReal, aboveReal, ← le_antisymm_iff]
      exact ⟨fun h he => h he.symm, fun h he => h he.symm⟩
    rw [hne] at hin
    have hnot : ¬ TooSmall p (belowReal (signedReal sign w)) (aboveReal (signedReal sign w)) := fun hs => by
      rw [hsmall.mp hs] at hu
      exact Bool.noConfusion hu
    have hfinish := finish_of_not_underflow ia cw unit sign i p dst b hu
    rw [hrounded] at hfinish
    rw [hfinish]
    cases ho : overflows p r.exp with
    | true =>
      have hexc := (excByte_posted .ovfl ia 53 unit (fillOverflow unit cw sign r) (b.withInexact r.inexact)).trans
        (congrArg (· ||| FpExc.ovfl.mask) (excByte_withInexact (excByte_begun hb) r.inexact))
      refine ⟨_, finishRounded_of_overflow ia cw unit sign p dst b r ho _, fun hs => absurd hs hnot, fun _ =>
        ⟨r.value sign, hround, ?_, fun _ => ⟨?_, rfl, ?_⟩, fun hn => absurd (hlarge.mpr ho) hn⟩⟩
      · rw [← hin, ← excByte_getLsbD _ (by decide : 1 < 8), hexc]
        cases r.inexact <;> decide
      · obtain ⟨f, hf⟩ := b.withInexact_eq r.inexact
        rw [hf]
        exact hb.getFp dst
      · rw [hexc]
        cases r.inexact <;> rfl
    | false =>
      have hexp : 0 ≤ r.exp ∧ r.exp < 0x7FFF := by
        have hlow : ¬ (i.exp - 0x3FFF < (expRange p).1) := by rw [← underflows_iff, hu]; exact Bool.false_ne_true
        have hhigh : ¬ ((expRange p).2 < r.exp - 0x3FFF) := by rw [← overflows_iff, ho]; exact Bool.false_ne_true
        cases p <;> simp only [expRange] at hlow hhigh <;> omega
      obtain ⟨hvalue, hnormal, hcodes, hexc, hpending⟩ := delivered_result hb unit sign ia cw dst hexp.1 hexp.2 hman rfl
      refine ⟨_, finishRounded_of_not_overflow ia cw unit sign p dst b r ho _, fun hs => absurd hs hnot, fun _ =>
        ⟨r.value sign, hround, ?_, fun hl => absurd (hlarge.mp hl) (by simp [ho]),
          fun _ => ⟨hvalue, hnormal, hcodes, ?_, fun hi h9 => ?_, fun hi => ?_⟩⟩⟩
      · rw [← hin, ← excByte_getLsbD _ (by decide : 1 < 8), hexc]
        cases r.inexact <;> decide
      · rw [hexc]
        cases r.inexact <;> rfl
      · rw [hpending, hin.mpr hi, h9]
        rfl
      · rw [hpending]
        rcases hi with hi | h9
        · rw [← hin, Bool.not_eq_true] at hi
          rw [hi]
          rfl
        · rw [h9, Bool.and_false]
          rfl

end result

/-! ### The operations on numbers -/

theorem belowReal_cast (v : ℚ) : belowReal (v : ℝ) = fun q => q ≤ v := funext fun _ => propext Rat.cast_le
theorem aboveReal_cast (v : ℚ) : aboveReal (v : ℝ) = fun q => v ≤ q := funext fun _ => propext Rat.cast_le

theorem man_pos {x : FpReal} (h : isNormal x = true) : 0 < x.man.toNat := lt_of_lt_of_le (by norm_num) (man_bounds h).1

section job
variable (j : FpJob) {s b : State} (hb : FpBegun s b) {p : Prec} (hp : roundPrec j.form s.fp.fpcr = some p)
include hb hp

theorem finishJob_result {i : Inter} {w : ℝ} (h : Represents i w) (unit : FpUnit) (sign : Bool) :
    ∃ t, finishJob j unit sign i b = .ok () t ∧
      FpResult s t j.dst p unit (belowReal (signedReal sign w)) (aboveReal (signedReal sign w)) := by
  rw [finishJob, bind_eq, fetch_eq]
  dsimp only
  rw [hb.fpcr, hp]
  exact finish_result hb unit sign j.ia j.cw j.dst h

/-- The same for a result that is a rational number. -/
theorem finishJob_ratio {num den : Nat} (hnum : 0 < num) (hden : 0 < den) {e : Int} (unit : FpUnit) (sign : Bool) {v : ℚ}
    (hv : v = (if sign then -1 else 1) * ((num : ℚ) / den * 2 ^ e)) :
    ∃ t, finishJob j unit sign (interOfRatio num den e) b = .ok () t ∧ FpResult s t j.dst p unit (· ≤ v) (v ≤ ·) := by
  have h := finishJob_result j hb hp (represents_ratio hnum hden e) unit sign
  have hreal : signedReal sign ((num : ℝ) / den * 2 ^ e) = (v : ℚ) := by
    rw [hv, signedReal]
    cases sign <;> simp
  rwa [hreal, belowReal_cast, aboveReal_cast] at h

theorem doMove_result (hx : isNormal j.src.val = true) (sign : Bool) :
    ∃ t, doMove j sign b = .ok () t ∧
      FpResult s t j.dst p .e1 (· ≤ fpValue { j.src.val with sign := sign }) (fpValue { j.src.val with sign := sign } ≤ ·) := by
  have hn : isNormal { j.src.val with sign := sign } = true := hx
  unfold doMove
  dsimp only
  rw [if_neg (by simp [isZero_of_isNormal hn, isInf_of_isNormal hn])]
  refine finishJob_ratio j hb hp (man_pos hx) Nat.one_pos .e1 sign ?_
  rw [fpValue_eq, Nat.cast_one, div_one, mul_assoc]

theorem doMul_result (hd : isNormal j.dval = true) (hx : isNormal j.src.val = true) :
    ∃ t, doMul j b = .ok () t ∧
      FpResult s t j.dst p .e3 (· ≤ fpValue j.dval * fpValue j.src.val) (fpValue j.dval * fpValue j.src.val ≤ ·) := by
  unfold doMul
  simp only [isZero_of_isNormal hd, isInf_of_isNormal hd, isZero_of_isNormal hx, isInf_of_isNormal hx, Bool.and_false, Bool.or_false,
    Bool.false_eq_true, if_false]
  refine finishJob_ratio j hb hp (Nat.mul_pos (man_pos hd) (man_pos hx)) Nat.one_pos .e3 _ ?_
  rw [fpValue_eq, fpValue_eq, zpow_add₀ (by norm_num)]
  cases j.dval.sign <;> cases j.src.val.sign <;> push_cast <;> simp <;> ring

theorem doDiv_result (hd : isNormal j.dval = true) (hx : isNormal j.src.val = true) :
    ∃ t, doDiv j b = .ok () t ∧
      FpResult s t j.dst p .e3 (· ≤ fpValue j.dval / fpValue j.src.val) (fpValue j.dval / fpValue j.src.val ≤ ·) := by
  unfold doDiv
  simp only [isZero_of_isNormal hd, isInf_of_isNormal hd, isZero_of_isNormal hx, isInf_of_isNormal hx, Bool.and_false, Bool.or_false,
    Bool.false_eq_true, if_false]
  refine finishJob_ratio j hb hp (man_pos hd) (man_pos hx) .e3 _ ?_
  have hman : (j.src.val.man.toNat : ℚ) ≠ 0 := by exact_mod_cast (man_pos hx).ne'
  rw [fpValue_eq, fpValue_eq, zpow_sub₀ (by norm_num)]
  cases j.dval.sign <;> cases j.src.val.sign <;> simp <;> field_simp

theorem doAdd_result {y : FpReal} (hd : isInf j.dval = false) (hy : isInf y = false) (hne : fpValue j.dval + fpValue y ≠ 0) :
    ∃ t, doAdd j y b = .ok () t ∧
      FpResult s t j.dst p .e3 (· ≤ fpValue j.dval + fpValue y) (fpValue j.dval + fpValue y ≤ ·) := by
  have hsum : (exactSum j.dval y).1 ≠ 0 := fun h => hne ((exactSum_eq_zero _ _).mp h)
  unfold doAdd
  simp only [hd, hy, Bool.and_self, Bool.false_eq_true, if_false, hsum]
  refine finishJob_ratio j hb hp (Int.natAbs_pos.mpr hsum) Nat.one_pos .e3 _ ?_
  rw [← exactSum_value, Nat.cast_one, div_one, ← mul_assoc, Nat.cast_natAbs]
  refine congrArg (· * (2 : ℚ) ^ (exactSum j.dval y).2) ?_
  rcases lt_or_ge (exactSum j.dval y).1 0 with h | h
  · rw [decide_eq_true h, if_pos rfl, abs_of_neg h]
    push_cast
    ring
  · rw [decide_eq_false (not_lt.mpr h), if_neg (by simp), abs_of_nonneg h, one_mul]

theorem doSqrt_result (hx : isNormal j.src.val = true) (hs : j.src.val.sign = false) :
    ∃ t, doSqrt j b = .ok () t ∧ FpResult s t j.dst p .e3 (fun q => q ≤ 0 ∨ q * q ≤ fpValue j.src.val)
      (fun q => 0 ≤ q ∧ fpValue j.src.val ≤ q * q) := by
  have h := finishJob_result j hb hp (represents_sqrt hx hs) .e3 false
  have hreal : signedReal false (√((fpValue j.src.val : ℚ) : ℝ)) = √((fpValue j.src.val : ℚ) : ℝ) := one_mul _
  have hpos : (0 : ℝ) ≤ (fpValue j.src.val : ℚ) := by
    rw [fpValue_eq, hs, if_neg (by simp)]
    exact_mod_cast (by positivity : (0 : ℚ) ≤ 1 * (j.src.val.man.toNat : ℚ) * 2 ^ unitExp j.src.val)
  have hbelow : belowReal (√((fpValue j.src.val : ℚ) : ℝ)) = fun q => q ≤ 0 ∨ q * q ≤ fpValue j.src.val := by
    refine funext fun q => propext ?_
    rw [belowReal]
    rcases le_or_gt q 0 with hq | hq
    · have hq' : (q : ℝ) ≤ 0 := by exact_mod_cast hq
      exact iff_of_true (hq'.trans (Real.sqrt_nonneg _)) (.inl hq)
    · have hq' : (0 : ℝ) < q := by exact_mod_cast hq
      rw [Real.le_sqrt' hq', or_iff_right (not_le.mpr hq), sq]
      exact_mod_cast Iff.rfl
  have habove : aboveReal (√((fpValue j.src.val : ℚ) : ℝ)) = fun q => 0 ≤ q ∧ fpValue j.src.val ≤ q * q := by
    refine funext fun q => propext ?_
    rw [aboveReal, Real.sqrt_le_iff, sq]
    exact_mod_cast Iff.rfl
  rw [hreal, hbelow, habove] at h
  unfold doSqrt
  simp only [isZero_of_isNormal hx, isInf_of_isNormal hx, hs, Bool.false_eq_true, if_false]
  exact h

end job

theorem isNormal_of_ne_zero {x : FpReal} (h : isNormal x = true ∨ isZero x = true) (hne : fpValue x ≠ 0) : isNormal x = true :=
  h.resolve_right fun hz => hne (fpValue_of_isZero hz)

theorem fpValue_neg_sign (x : FpReal) : fpValue { x with sign := !x.sign } = -fpValue x := by
  rw [fpValue, fpValue]
  cases x.sign <;> simp

theorem fpValue_abs (x : FpReal) : fpValue { x with sign := false } = |fpValue x| := by
  rw [fpValue, fpValue, abs_mul, abs_mul, Nat.abs_cast, abs_of_pos (by positivity : (0 : ℚ) < 2 ^ ((x.exp.toNat : Int) - 0x3FFF - 63))]
  cases x.sign <;> simp

section arithmetic
variable {i : Instr} {op : FpOp} {form : Option Prec} {cmd : BitVec 7} {src : FpSrc} {dst : RegNo} {s s1 : State} {x : FpReal}
  {a : Option Long} (hi : fpArithmetic i = some (op, form, cmd, src, dst)) (hp : s.fpu.pending = none)
  (hsrc : fpSource src s.fpAwake = .ok (operandOf x, a) s1) (hx : isNormal x = true ∨ isZero x = true)
  (hd : op.dyadic = true → isNormal (s.getFp dst) = true ∨ isZero (s.getFp dst) = true)
include hi hp hsrc hx hd

/-- An instruction on numbers ends as its operation does. -/
theorem exec_of_operate {P : State → Prop}
    (h : ∃ t, operate (arithJob op form cmd src dst s (operandOf x)) (s1.fpBegun s.pc) = .ok () t ∧ P t) :
    ∃ t, exec i s = .next (s.goOn (fpLength src) .seq t) ∧ P t := by
  obtain ⟨t, ht, hP⟩ := h
  obtain ⟨hxn, hxt⟩ := tagOf_of_number (hx.imp_right .inl)
  have hdn (h : op.dyadic = true) := tagOf_of_number ((hd h).imp_right .inl)
  have hrest : (arithJob op form cmd src dst s (operandOf x)).rest = operate (arithJob op form cmd src dst s (operandOf x)) :=
    rest_of_numbers (arithJob_supported hxt fun h => (hdn h).2) hxn fun h => (hdn h).1
  exact ⟨t, exec_arithmetic_ok hi hp hsrc ((congrFun hrest _).trans ht), hP⟩

end arithmetic

theorem isInf_of_number {x : FpReal} (h : isNormal x = true ∨ isZero x = true) : isInf x = false :=
  h.elim isInf_of_isNormal isInf_of_isZero

/-- Settles O45: operation by operation, the exact result finished (`finish_result`). -/
theorem fpCorrectlyRounded : Obligations.FpCorrectlyRounded := by
  unfold Obligations.FpCorrectlyRounded
  intro i op form cmd src dst s s1 x a p hi hop hp hprec hsrc hx hd hdiv v hv
  have hb := fpBegun_of_source hp hsrc
  refine exec_of_operate hi hp hsrc hx hd ?_
  let j := arithJob op form cmd src dst s (operandOf x)
  cases op with
  | move => exact doMove_result j hb hprec (isNormal_of_ne_zero hx hv) x.sign
  | abs =>
    have h := doMove_result j hb hprec (isNormal_of_ne_zero hx fun h0 => hv (abs_eq_zero.mpr h0)) false
    rwa [fpValue_abs] at h
  | neg =>
    have h := doMove_result j hb hprec (isNormal_of_ne_zero hx fun h0 => hv (neg_eq_zero.mpr h0)) (!x.sign)
    rwa [show fpValue { j.src.val with sign := !x.sign } = -fpValue x from fpValue_neg_sign x] at h
  | add => exact doAdd_result j hb hprec (isInf_of_number (hd rfl)) (isInf_of_number hx) hv
  | sub =>
    have hvalue : fpValue (s.getFp dst) + fpValue { x with sign := !x.sign } = v := by
      rw [fpValue_neg_sign, ← sub_eq_add_neg]
      rfl
    have h := doAdd_result j hb hprec (y := { x with sign := !x.sign }) (isInf_of_number (hd rfl)) (isInf_of_number (x := x) hx)
      (hvalue.trans_ne hv)
    rwa [show fpValue j.dval + fpValue { x with sign := !x.sign } = v from hvalue] at h
  | mul =>
    obtain ⟨h1, h2⟩ := mul_ne_zero_iff.mp hv
    exact doMul_result j hb hprec (isNormal_of_ne_zero (hd rfl) h1) (isNormal_of_ne_zero hx h2)
  | div =>
    obtain ⟨h1, -⟩ := div_ne_zero_iff.mp hv
    exact doDiv_result j hb hprec (isNormal_of_ne_zero (hd rfl) h1) (hdiv rfl)
  | sqrt | cmp | tst => simp at hop

/-- Settles O46: the integer square root of the mantissa carries the bits that decide the rounding (`represents_sqrt`). -/
theorem fpSquareRoot : Obligations.FpSquareRoot := by
  unfold Obligations.FpSquareRoot
  intro i form cmd src dst s s1 x a p hi hp hprec hsrc hx hs
  refine exec_of_operate hi hp hsrc (.inl hx) (fun h => absurd h (by decide)) ?_
  exact doSqrt_result (arithJob .sqrt form cmd src dst s (operandOf x)) (fpBegun_of_source hp hsrc) hprec hx hs

end Sys2Proof.Machine
end

