-- ==== Sys2Proof/Proofs/FpOutStore.lean ====
section
/-!
SUPPORT. What FMOVE out of a floating-point register stores, and where (43_fp_exceptions.md R304 `Store`).
-/
namespace Sys2Proof.Machine

/-! ### Destinations -/

/-- The bytes of a result in memory. -/
def outBytes (fmt : FpOutFmt) (ls : List Long) : List Byte :=
  match ls with
  | [v] => operandBytes (outSize fmt) v
  | ls => ls.flatMap longBytes

/-- `m` is `s` with a result stored at a place in memory or in a data register. -/
def Lands (fmt : FpOutFmt) (ls : List Long) (s : State) (p : Place) (m : State) : Prop :=
  (∃ a, p = .mem a ∧ Stored s m a (outBytes fmt ls)) ∨ (∃ r, p = .d r ∧ m = s.setDLow (outSize fmt) r (ls.headD 0))

/-- A place in memory or in a data register. -/
def Place.isDest (p : Place) : Prop := (∃ a, p = .mem a) ∨ ∃ r, p = .d r

theorem Lands.pc {fmt : FpOutFmt} {ls : List Long} {s m : State} {p : Place} (h : Lands fmt ls s p m) :
    m.pc = s.pc ∧ m.freeCount = s.freeCount := by
  rcases h with ⟨a, -, hrest, -⟩ | ⟨r, -, rfl⟩
  · rw [hrest]
    exact ⟨rfl, rfl⟩
  · exact ⟨rfl, rfl⟩

/-- A result is stored from a state that differs in the unit alone. -/
theorem storeOut_lands {s u : State} (h : s.plain) (hw : s.memOk) (hu : u = s.withUnit u) (fmt : FpOutFmt) {p : Place}
    (hp : p.isDest) {ls : List Long} (hls : 1 ≤ ls.length ∧ ls.length ≤ 3) :
    ∃ m, Lands fmt ls s p m ∧ storeOut fmt p ls u = .ok () (m.withUnit u) := by
  have hplain : u.plain := by rw [hu]; exact State.withUnit_plain h u
  have hmem : u.memOk := by rw [hu]; exact State.withUnit_memOk hw u
  rcases hp with ⟨a, rfl⟩ | ⟨r, rfl⟩
  · obtain ⟨t, ht, hstored⟩ : ∃ t, storeOut fmt (.mem a) ls u = .ok () t ∧ Stored u t a (outBytes fmt ls) := by
      match ls, hls with
      | [v], _ => exact writeData_plain hplain hmem a (outSize fmt) v
      | v :: w :: vs, hls => exact writeLongs_plain hplain hmem a (by omega)
    rw [hu] at hstored
    obtain ⟨hland, heq⟩ := hstored.withUnit
    exact ⟨_, .inl ⟨a, rfl, hland⟩, by rw [ht, ← heq]⟩
  · match ls, hls with
    | v :: vs, _ =>
      refine ⟨_, .inr ⟨r, rfl, rfl⟩, ?_⟩
      show EStateM.Result.ok () (u.setDLow (outSize fmt) r v) = _
      rw [hu]
      rfl

/-! ### The unit while results are stored -/

/-- The unit of a move out at `s`, before anything is stored. -/
structure OutReady (s : State) (src : RegNo) (cw : Word) (exc : Byte) (t : State) : Prop where
  unit : OutUnit s src cw exc t
  rest : t = s.withUnit t

theorem outReady_outBegun (s : State) (cw : Word) (src : RegNo) (hp : s.fpu.pending = none) :
    OutReady s src cw 0 (s.outBegun cw src) := ⟨outUnit_outBegun s cw src hp, s.outBegun_withUnit cw src⟩

theorem OutReady.setExc {s t : State} {src : RegNo} {cw : Word} {exc : Byte} (h : OutReady s src cw exc t) (x : FpExc) :
    OutReady s src cw (exc ||| x.mask) (t.setExc x) := by
  refine ⟨h.unit.setExc x, ?_⟩
  conv_lhs => rw [h.rest]
  rfl

theorem OutReady.withInexact {s t : State} {src : RegNo} {cw : Word} (h : OutReady s src cw 0 t) (inexact : Bool) :
    OutReady s src cw (if inexact then 0x02 else 0) (t.withInexact inexact) := by
  cases inexact with
  | false => exact h
  | true => exact h.setExc .inex2

/-- A change of the fields of the unit that a move out may change. -/
theorem OutReady.withTemps {s t : State} {src : RegNo} {cw : Word} {exc : Byte} (h : OutReady s src cw exc t) (etemp fptemp : FpReal)
    (wbtemp : WbTemp) :
    OutReady s src cw exc { t with fpu := { t.fpu with etemp := etemp, fptemp := fptemp, wbtemp := wbtemp } } := by
  refine ⟨⟨h.unit.fp, h.unit.pending, h.unit.cmd, h.unit.stag⟩, ?_⟩
  conv_lhs => rw [h.rest]
  rfl

/-! ### Values that are moved out -/

/-- How a move out ends: the exceptions met, the long words stored, the fields of the unit. -/
def OutYields (fmt : FpOutFmt) (s : State) (src : RegNo) (cw : Word) (p : Place) (exc : Byte) (e : OutEnd) (ls : List Long)
    (fields : Fpu → Prop) (r : EStateM.Result Abort State OutEnd) : Prop :=
  ∃ m t, Lands fmt ls s p m ∧ r = .ok e t ∧ OutDone s src cw m exc e t ∧ fields t.fpu ∧
    (e.vector = none → t.freeCount = m.freeCount)

theorem yields_of_lands {fmt : FpOutFmt} {s u m : State} {src : RegNo} {cw : Word} {p : Place} {exc : Byte} {e : OutEnd}
    {ls : List Long} {fields : Fpu → Prop} {r : EStateM.Result Abort State OutEnd} (hu : OutReady s src cw exc u)
    (hl : Lands fmt ls s p m) (hr : r = .ok e (m.withUnit u)) (hf : fields u.fpu)
    (hfree : e.vector = none → u.freeCount = s.freeCount) : OutYields fmt s src cw p exc e ls fields r := by
  obtain ⟨hpc, hcount⟩ := hl.pc
  exact ⟨m, m.withUnit u, hl, hr, ⟨hu.unit.withUnit m, rfl, hpc⟩, hf, fun he => (hfree he).trans hcount.symm⟩

/-- The long words of an undefined result. -/
def freeLongs (fmt : FpOutFmt) (n : Nat) : List Long :=
  match fmt with
  | .d => [Config.freeLong n, Config.freeLong (n + 1)]
  | _ => [Config.freeLong n]

theorem freeOut_eq (fmt : FpOutFmt) (s : State) :
    freeOut fmt s = .ok (freeLongs fmt s.freeCount) { s with freeCount := s.freeCount + 2 } := by
  cases fmt <;> rfl

theorem freeLongs_length (fmt : FpOutFmt) (n : Nat) : (freeLongs fmt n).length = if fmt = .d then 2 else 1 := by
  cases fmt <;> rfl

theorem OutReady.drawn {s u : State} {src : RegNo} {cw : Word} {exc : Byte} (hu : OutReady s src cw exc u) :
    OutReady s src cw exc { u with freeCount := u.freeCount + 2 } := by
  refine ⟨⟨hu.unit.fp, hu.unit.pending, hu.unit.cmd, hu.unit.stag⟩, ?_⟩
  conv_lhs => rw [hu.rest]
  rfl

section yields
variable {s u : State} (h : s.plain) (hw : s.memOk) {fmt : FpOutFmt} {p : Place} (hp : p.isDest) {src : RegNo} {cw : Word} {exc : Byte}
  {e : OutEnd} {fields : Fpu → Prop}
include h hw hp

/-- A result stored. -/
theorem yields_storeOut (hu : OutReady s src cw exc u) {ls : List Long} (hls : 1 ≤ ls.length ∧ ls.length ≤ 3)
    (hfree : u.freeCount = s.freeCount) (hf : fields u.fpu) :
    OutYields fmt s src cw p exc e ls fields ((storeOut fmt p ls >>= fun _ => pure e) u) := by
  obtain ⟨m, hl, hst⟩ := storeOut_lands h hw hu.rest fmt hp hls
  refine yields_of_lands hu hl ?_ hf fun _ => hfree
  rw [bind_eq, hst]
  rfl

/-- A store of an undefined result from a state in which the unit may change. -/
theorem storeFree_lands (hu : OutReady s src cw exc u) :
    ∃ m, Lands fmt (freeLongs fmt u.freeCount) s p m ∧
      storeFree fmt p u = .ok () (m.withUnit { u with freeCount := u.freeCount + 2 }) := by
  have hls : 1 ≤ (freeLongs fmt u.freeCount).length ∧ (freeLongs fmt u.freeCount).length ≤ 3 := by
    rw [freeLongs_length]
    split <;> omega
  have hrest : { u with freeCount := u.freeCount + 2 } = s.withUnit { u with freeCount := u.freeCount + 2 } := by
    conv_lhs => rw [hu.rest]
    rfl
  obtain ⟨m, hl, hst⟩ := storeOut_lands h hw hrest fmt hp hls
  exact ⟨m, hl, by rw [storeFree, bind_eq, freeOut_eq]; exact hst⟩

/-- An undefined result stored. -/
theorem yields_storeFree (hu : OutReady s src cw exc u) (he : e.vector ≠ none) (hf : fields u.fpu) :
    OutYields fmt s src cw p exc e (freeLongs fmt u.freeCount) fields ((storeFree fmt p >>= fun _ => pure e) u) := by
  obtain ⟨m, hl, hst⟩ := storeFree_lands (fmt := fmt) h hw hp hu
  refine yields_of_lands (hu.drawn) hl ?_ hf fun hn => absurd hn he
  rw [bind_eq, hst]
  rfl

end yields

/-! ### Real formats -/

theorem truncLongs_length (fmt : FpOutFmt) (x : FpReal) : 1 ≤ (truncLongs fmt x).length ∧ (truncLongs fmt x).length ≤ 3 := by
  cases fmt <;> simp [truncLongs, quadLongs, extLongs]

theorem packLongs_length (fmt : FpOutFmt) (sign : Bool) (e : Int) (m : BitVec 64) :
    1 ≤ (packLongs fmt sign e m).length ∧ (packLongs fmt sign e m).length ≤ 3 := by
  cases fmt <;> simp [packLongs, quadLongs, extLongs]

theorem State.outBegun_fpcr (s : State) (cw : Word) (src : RegNo) : (s.outBegun cw src).fp.fpcr = s.fp.fpcr :=
  (congrArg FpRegs.fpcr s.fpAwake_fp :)

theorem State.outBegun_freeCount (s : State) (cw : Word) (src : RegNo) : (s.outBegun cw src).freeCount = s.freeCount :=
  s.fpAwake_freeCount

theorem isSpecial_of_isNormal {x : FpReal} (hx : isNormal x = true) :
    isSnan x = false ∧ (isNan x || isInf x || isZero x) = false := by
  have hn := (tagOf_of_number (.inl hx)).1
  rw [isSnan_of_not_nan hn, hn, isInf_of_isNormal hx, isZero_of_isNormal hx]
  exact ⟨rfl, rfl⟩

/-- The rounding of a value that is moved out. -/
def outRound (s : State) (fmt : FpOutFmt) (x : FpReal) : Rounded :=
  roundAt (outPrec fmt).bits (roundModeOf s.fp.fpcr) x.sign (interOf x)

/-- What is done with the rounded value. -/
def outRounded (fmt : FpOutFmt) (p : Place) (s : State) (x : FpReal) (r : Rounded) : M OutEnd :=
  if overflows (outPrec fmt) r.exp then do
    update (State.setExc .ovfl)
    update fun t => { t with fpu := { t.fpu with etemp := r.real x.sign } }
    storeFree fmt p
    pure (outPost 53)
  else do
    storeOut fmt p (packLongs fmt x.sign r.exp r.man)
    pure (outInexact s.fp.fpcr r.inexact)

theorem outReal_of_number {fmt : FpOutFmt} {x : FpReal} (hx : isNormal x = true) (s : State) (cw : Word) (src : RegNo) (p : Place)
    (hf : outPrec fmt ≠ .x) (hun : underflows (outPrec fmt) x.exp.toNat = false) :
    outReal fmt p x (s.outBegun cw src) =
      outRounded fmt p s x (outRound s fmt x) ((s.outBegun cw src).withInexact (outRound s fmt x).inexact) := by
  obtain ⟨hs, hany⟩ := isSpecial_of_isNormal hx
  unfold outReal outRounded outRound State.withInexact
  rw [bind_eq, fetch_eq]
  dsimp only
  rw [if_neg (by simp [hs]), if_neg (by simp [hany]), if_neg hf, if_neg (by simp [hun]), s.outBegun_fpcr]
  cases (roundAt (outPrec fmt).bits (roundModeOf s.fp.fpcr) x.sign (interOf x)).inexact <;> rfl

section real
variable {s : State} (h : s.plain) (hw : s.memOk) (hpend : s.fpu.pending = none) {fmt : FpOutFmt} {p : Place} (hp : p.isDest)
  {src : RegNo} {cw : Word} {x : FpReal}
include h hw hpend hp

theorem outReal_of_snan (hs : isSnan x = true) : OutYields fmt s src cw p 0x40
    (if trapEnabled s.fp.fpcr .snan then outPost 54 else outPlain) (truncLongs fmt (quieten x)) (fun u => u.etemp = quieten x)
    (outReal fmt p x (s.outBegun cw src)) := by
  have hu : OutReady s src cw 0x40 ((s.outBegun cw src).setExc .snan) := (outReady_outBegun s cw src hpend).setExc .snan
  obtain ⟨m, hl, hst⟩ := storeOut_lands h hw hu.rest fmt hp (truncLongs_length fmt (quieten x))
  refine yields_of_lands (hu.withTemps (quieten x) ((s.outBegun cw src).setExc .snan).fpu.fptemp
    ((s.outBegun cw src).setExc .snan).fpu.wbtemp) hl ?_ rfl fun _ => s.outBegun_freeCount cw src
  rw [← s.outBegun_fpcr cw src]
  unfold outReal
  rw [bind_eq, fetch_eq]
  dsimp only
  rw [if_pos hs]
  simp only [bind_eq, update_eq, hst, pure_eq]
  rfl

theorem outReal_of_special (hs : isSnan x = false) (hx : isNan x = true ∨ isInf x = true ∨ isZero x = true) :
    OutYields fmt s src cw p 0 outPlain (truncLongs fmt x) (fun _ => True) (outReal fmt p x (s.outBegun cw src)) := by
  have hany : (isNan x || isInf x || isZero x) = true := by
    rcases hx with hx | hx | hx <;> simp [hx]
  unfold outReal
  rw [bind_eq, fetch_eq]
  dsimp only
  rw [if_neg (by simp [hs]), if_pos hany]
  exact yields_storeOut h hw hp (outReady_outBegun s cw src hpend) (truncLongs_length fmt x) (s.outBegun_freeCount cw src) trivial

section number
variable (hx : isNormal x = true)
include hx

theorem outReal_of_extended (hf : outPrec fmt = .x) : OutYields fmt s src cw p 0 outPlain (extLongs x) (fun _ => True)
    (outReal fmt p x (s.outBegun cw src)) := by
  obtain ⟨hs, hany⟩ := isSpecial_of_isNormal hx
  unfold outReal
  rw [bind_eq, fetch_eq]
  dsimp only
  rw [if_neg (by simp [hs]), if_neg (by simp [hany]), if_pos hf]
  exact yields_storeOut h hw hp (outReady_outBegun s cw src hpend) (by simp [extLongs]) (s.outBegun_freeCount cw src) trivial

theorem outReal_of_underflow (hf : outPrec fmt ≠ .x) (hun : underflows (outPrec fmt) x.exp.toNat = true) (hsrc : s.getFp src = x) :
    OutYields fmt s src cw p 0x08 { vector := some 51, fptemp := true, wbtemp := false } (freeLongs fmt s.freeCount)
      (fun u => u.fptemp = x ∧ u.etemp = x) (outReal fmt p x (s.outBegun cw src)) := by
  obtain ⟨hs, hany⟩ := isSpecial_of_isNormal hx
  have hu : OutReady s src cw 0x08 ((s.outBegun cw src).setExc .unfl) := (outReady_outBegun s cw src hpend).setExc .unfl
  rw [← s.outBegun_freeCount cw src]
  unfold outReal
  rw [bind_eq, fetch_eq]
  dsimp only
  rw [if_neg (by simp [hs]), if_neg (by simp [hany]), if_neg hf, if_pos hun]
  exact yields_storeFree h hw hp (hu.withTemps _ x _) (Option.some_ne_none _) ⟨rfl, hsrc⟩

theorem outReal_of_overflow (hf : outPrec fmt ≠ .x) (hun : underflows (outPrec fmt) x.exp.toNat = false)
    (ho : overflows (outPrec fmt) (outRound s fmt x).exp = true) :
    OutYields fmt s src cw p (if (outRound s fmt x).inexact then 0x12 else 0x10) (outPost 53) (freeLongs fmt s.freeCount)
      (fun u => u.etemp = (outRound s fmt x).real x.sign) (outReal fmt p x (s.outBegun cw src)) := by
  have hu : OutReady s src cw (if (outRound s fmt x).inexact then 0x12 else 0x10)
      (((s.outBegun cw src).withInexact (outRound s fmt x).inexact).setExc .ovfl) := by
    have hset := ((outReady_outBegun s cw src hpend).withInexact (outRound s fmt x).inexact).setExc .ovfl
    cases hin : (outRound s fmt x).inexact <;> rw [hin] at hset <;> exact hset
  have hcount : ((s.outBegun cw src).withInexact (outRound s fmt x).inexact).freeCount = s.freeCount := by
    obtain ⟨f, hf'⟩ := (s.outBegun cw src).withInexact_eq (outRound s fmt x).inexact
    rw [hf']
    exact s.outBegun_freeCount cw src
  rw [← hcount, outReal_of_number hx s cw src p hf hun, outRounded, if_pos ho]
  exact yields_storeFree h hw hp (hu.withTemps ((outRound s fmt x).real x.sign)
    (((s.outBegun cw src).withInexact (outRound s fmt x).inexact).setExc .ovfl).fpu.fptemp
    (((s.outBegun cw src).withInexact (outRound s fmt x).inexact).setExc .ovfl).fpu.wbtemp) (Option.some_ne_none _) rfl

theorem outReal_of_range (hf : outPrec fmt ≠ .x) (hun : underflows (outPrec fmt) x.exp.toNat = false)
    (ho : overflows (outPrec fmt) (outRound s fmt x).exp = false) (hsrc : s.getFp src = x) :
    OutYields fmt s src cw p (if (outRound s fmt x).inexact then 0x02 else 0) (outInexact s.fp.fpcr (outRound s fmt x).inexact)
      (packLongs fmt x.sign (outRound s fmt x).exp (outRound s fmt x).man) (fun u => u.etemp = x)
      (outReal fmt p x (s.outBegun cw src)) := by
  have hround : outRounded fmt p s x (outRound s fmt x) = storeOut fmt p (packLongs fmt x.sign (outRound s fmt x).exp
      (outRound s fmt x).man) >>= fun _ => pure (outInexact s.fp.fpcr (outRound s fmt x).inexact) := if_neg (by simp [ho])
  obtain ⟨f, hfree⟩ := (s.outBegun cw src).withInexact_eq (outRound s fmt x).inexact
  rw [outReal_of_number hx s cw src p hf hun, hround]
  refine yields_storeOut h hw hp ((outReady_outBegun s cw src hpend).withInexact _) (packLongs_length fmt _ _ _) ?_ ?_
  · rw [hfree]
    exact s.outBegun_freeCount cw src
  · rw [hfree]
    exact hsrc

end number

end real

end Sys2Proof.Machine
end

