-- ==== Sys2Proof/Proofs/FpOutReal.lean ====
section
/-!
SUPPORT. FMOVE out in a real format (42_fp_instructions.md R262, R277; 43_fp_exceptions.md R304, R313, R318, R321, R326).
-/
namespace Sys2Proof.Machine

/-! ### Images that read back -/

section fields
variable {a b c : Nat} (x : BitVec a) (y : BitVec b) (z : BitVec c)

theorem extractLsb'_append_last : (x ++ y ++ z).extractLsb' 0 c = z := by
  refine BitVec.eq_of_getLsbD_eq fun k hk => ?_
  rw [BitVec.getLsbD_extractLsb', Nat.zero_add, BitVec.getLsbD_append, decide_eq_true hk, if_pos hk, Bool.true_and]

theorem extractLsb'_append_mid : (x ++ y ++ z).extractLsb' c b = y := by
  refine BitVec.eq_of_getLsbD_eq fun k hk => ?_
  rw [BitVec.getLsbD_extractLsb', BitVec.getLsbD_append, BitVec.getLsbD_append, if_neg (by omega), Nat.add_sub_cancel_left,
    decide_eq_true hk, if_pos hk, Bool.true_and]

end fields

theorem getLsbD_ofBool_append {b c : Nat} (s : Bool) (y : BitVec b) (z : BitVec c) :
    (BitVec.ofBool s ++ y ++ z).getLsbD (b + c) = s := by
  rw [BitVec.getLsbD_append, if_neg (by omega), BitVec.getLsbD_append, if_neg (by omega), Nat.add_sub_cancel, Nat.sub_self]
  cases s <;> rfl

/-- A mantissa with its top bit set and its last `c` bits clear. -/
theorem man_of_fraction {m : BitVec 64} (htop : m.getLsbD 63 = true) {c n : Nat} (hlow : m.toNat = n * 2 ^ c) {f : Nat}
    (hcf : 1 + f + c = 64) : (1#1 ++ m.extractLsb' c f ++ 0#c).toNat = m.toNat := by
  have hbits : ∀ k, (1#1 ++ m.extractLsb' c f ++ 0#c).getLsbD k = m.getLsbD k := fun k => by
    rw [BitVec.getLsbD_append, BitVec.getLsbD_append]
    split
    case isTrue hk =>
      rw [BitVec.getLsbD, BitVec.getLsbD, hlow, Nat.testBit_mul_two_pow, decide_eq_false (by omega), Bool.false_and]
      exact Nat.zero_testBit k
    case isFalse hk =>
      split
      case isTrue hk' => rw [BitVec.getLsbD_extractLsb', decide_eq_true hk', Bool.true_and, Nat.add_sub_cancel' (by omega)]
      case isFalse hk' =>
        rcases Nat.lt_or_ge 63 k with h | h
        · rw [BitVec.getLsbD_of_ge m k (by omega), BitVec.getLsbD_of_ge _ _ (by omega)]
        · rw [show k = 63 by omega, htop, show 63 - c - f = 0 by omega]
          rfl
  exact Nat.eq_of_testBit_eq hbits

/-- An exponent field, with the bias of a format. -/
theorem exp15_of_field {w k : Nat} (hw : w ≤ 15) (hk : k < 2 ^ w) (bias : Nat) (hb : bias + k < 2 ^ 15) :
    (BitVec.ofNat w k).setWidth 15 + BitVec.ofNat 15 bias = exp15 (k + bias : Nat) := by
  have hk' : k < 2 ^ 15 := hk.trans_le (Nat.pow_le_pow_right (by norm_num) hw)
  refine BitVec.eq_of_toNat_eq ?_
  rw [exp15, BitVec.ofInt_natCast, BitVec.toNat_add, BitVec.toNat_setWidth, BitVec.toNat_ofNat, BitVec.toNat_ofNat, BitVec.toNat_ofNat,
    Nat.mod_eq_of_lt hk, Nat.mod_eq_of_lt hk', Nat.mod_eq_of_lt (by omega : bias < 2 ^ 15)]

theorem quad_of_longs (v : BitVec 64) : (v.extractLsb' 32 32 ++ v.extractLsb' 0 32 : BitVec 64) = v := by
  refine BitVec.eq_of_getLsbD_eq fun k hk => ?_
  rw [BitVec.getLsbD_append]
  split
  case isTrue hlt => rw [BitVec.getLsbD_extractLsb', decide_eq_true hlt, Bool.true_and, Nat.zero_add]
  case isFalse hge =>
    rw [BitVec.getLsbD_extractLsb', decide_eq_true (by omega : k - 32 < 32), Bool.true_and, Nat.add_sub_cancel' (by omega)]

theorem fpOfSingle_pack {r : Rounded} {sign : Bool} {n : Nat} (htop : r.man.getLsbD 63 = true) (hlow : r.man.toNat = n * 2 ^ 40)
    (he : 0x3F80 < r.exp) (he' : r.exp < 0x407F) (u : State) :
    fpOfSingle (packSingle sign r.exp r.man) u = .ok (operandOf (r.real sign)) u := by
  obtain ⟨k, hk⟩ : ∃ k : Nat, r.exp = ((k + 0x3F80 : Nat) : Int) := ⟨(r.exp - 0x3F80).toNat, by omega⟩
  have hfield : BitVec.ofInt 8 (r.exp - 0x3F80) = BitVec.ofNat 8 k := by
    rw [hk, show ((k + 0x3F80 : Nat) : Int) - 0x3F80 = (k : Int) by omega, BitVec.ofInt_natCast]
  have hsign : (packSingle sign r.exp r.man).getLsbD 31 = sign :=
    getLsbD_ofBool_append sign _ _
  have hexp : (packSingle sign r.exp r.man).extractLsb' 23 8 = BitVec.ofNat 8 k := hfield ▸ extractLsb'_append_mid _ _ _
  have hfrac : (packSingle sign r.exp r.man).extractLsb' 0 23 = r.man.extractLsb' 40 23 := extractLsb'_append_last _ _ _
  have hman : (1#1 ++ r.man.extractLsb' 40 23 ++ 0#40 : BitVec 64) = r.man :=
    BitVec.eq_of_toNat_eq (man_of_fraction htop hlow rfl)
  have hk8 : (BitVec.ofNat 8 k).toNat = k := (BitVec.toNat_ofNat _ _).trans (Nat.mod_eq_of_lt (by omega))
  have hbiased : (BitVec.ofNat 8 k).setWidth 15 + 0x3F80 = exp15 r.exp := by
    rw [hk]
    exact exp15_of_field (by norm_num) (by omega) 0x3F80 (by omega)
  unfold fpOfSingle
  rw [hsign, hexp, hfrac, if_neg, if_pos, hman, hbiased]
  · rfl
  · intro h0
    rw [h0] at hk8
    simp at hk8
    omega
  · intro h0
    rw [h0] at hk8
    simp at hk8
    omega

theorem fpOfDouble_pack {r : Rounded} {sign : Bool} {n : Nat} (htop : r.man.getLsbD 63 = true) (hlow : r.man.toNat = n * 2 ^ 11)
    (he : 0x3C00 < r.exp) (he' : r.exp < 0x43FF) (u : State) :
    fpOfDouble ((packDouble sign r.exp r.man).extractLsb' 32 32) ((packDouble sign r.exp r.man).extractLsb' 0 32) u =
      .ok (operandOf (r.real sign)) u := by
  obtain ⟨k, hk⟩ : ∃ k : Nat, r.exp = ((k + 0x3C00 : Nat) : Int) := ⟨(r.exp - 0x3C00).toNat, by omega⟩
  have hfield : BitVec.ofInt 11 (r.exp - 0x3C00) = BitVec.ofNat 11 k := by
    rw [hk, show ((k + 0x3C00 : Nat) : Int) - 0x3C00 = (k : Int) by omega, BitVec.ofInt_natCast]
  have hsign : (packDouble sign r.exp r.man).getLsbD 63 = sign :=
    getLsbD_ofBool_append sign _ _
  have hexp : (packDouble sign r.exp r.man).extractLsb' 52 11 = BitVec.ofNat 11 k := hfield ▸ extractLsb'_append_mid _ _ _
  have hfrac : (packDouble sign r.exp r.man).extractLsb' 0 52 = r.man.extractLsb' 11 52 := extractLsb'_append_last _ _ _
  have hman : (1#1 ++ r.man.extractLsb' 11 52 ++ 0#11 : BitVec 64) = r.man :=
    BitVec.eq_of_toNat_eq (man_of_fraction htop hlow rfl)
  have hk11 : (BitVec.ofNat 11 k).toNat = k := (BitVec.toNat_ofNat _ _).trans (Nat.mod_eq_of_lt (by omega))
  have hjoin : ((packDouble sign r.exp r.man).extractLsb' 32 32 ++ (packDouble sign r.exp r.man).extractLsb' 0 32 : BitVec 64) =
      packDouble sign r.exp r.man := quad_of_longs _
  have hbiased : (BitVec.ofNat 11 k).setWidth 15 + 0x3C00 = exp15 r.exp := by
    rw [hk]
    exact exp15_of_field (by norm_num) (by omega) 0x3C00 (by omega)
  unfold fpOfDouble
  rw [hjoin, hsign, hexp, hfrac, if_neg, if_pos, hman, hbiased]
  · rfl
  · intro h0
    rw [h0] at hk11
    simp at hk11
    omega
  · intro h0
    rw [h0] at hk11
    simp at hk11
    omega

/-! ### From what a move out stores to how it ends -/

section moveOut
variable {s : State} {fmt : FpOutFmt} {src : RegNo} {k : BitVec 7} {ea : Ea} {l : Located} (hplain : s.plain)
  (hp : s.fpu.pending = none) (hl : locate ea (outFmtBytes fmt) (addrPlus s.pc 4) s = .ok l s) {exc : Byte} {e : OutEnd}
  {ls : List Long} {fields : Fpu → Prop}
  (hy : OutYields fmt s src (moveOutWord fmt src k) l.place exc e ls fields
    (outBody fmt l.place (s.getFp src) (s.outBegun (moveOutWord fmt src k) src)))
include hplain hp hl hy

theorem ends_of_yields (he : e.vector = none) :
    ∃ m, Lands fmt ls s l.place m ∧ MoveOutEnds (.fmoveOut fmt src k ea) (eaLength 1 ea) s l exc m := by
  obtain ⟨m, t, hland, hbody, hdone, -, hfree⟩ := hy
  exact ⟨m, hland, moveOut_ends hplain hp hl hbody hdone he (hfree he)⟩

theorem traps_of_yields {vector : Byte} (he : e.vector = some vector) {fields' : Fpu → Prop}
    (hf : ∀ w u : Fpu, fields w → u.etemp = w.etemp → (e.fptemp = true → u.fptemp = w.fptemp) →
      (e.wbtemp = true → u.wbtemp = w.wbtemp) → fields' u) :
    ∃ m, Lands fmt ls s l.place m ∧
      MoveOutTraps (.fmoveOut fmt src k ea) (eaLength 1 ea) s l src (moveOutWord fmt src k) vector exc fields' m := by
  obtain ⟨m, t, hland, hbody, hdone, hfields, -⟩ := hy
  exact ⟨m, hland, moveOut_traps hplain hp hl hbody hdone he fun u => hf t.fpu u hfields⟩

end moveOut

/-- Long words written to memory, or a single one to a data register. -/
def OutWritten (s : State) (l : Located) (ws : List Long) (after : State → Prop) : Prop :=
  (∀ a, l.place = .mem a → ∃ m, Stored s m a (ws.flatMap longBytes) ∧ after m) ∧
  (∀ r w, l.place = .d r → ws = [w] → after (s.setD r w))

theorem written_of_lands {fmt : FpOutFmt} (hsize : outSize fmt = .long) {s : State} {l : Located} {ls : List Long}
    {after : State → Prop} (h : l.place.isDest → ∃ m, Lands fmt ls s l.place m ∧ after m) : OutWritten s l ls after := by
  have hbytes : outBytes fmt ls = ls.flatMap longBytes := by
    unfold outBytes
    split
    · rw [hsize, List.flatMap_singleton]
      rfl
    · rfl
  refine ⟨fun a ha => ?_, fun r w hr hw => ?_⟩
  · obtain ⟨m, ⟨a', ha', hst⟩ | ⟨r, hr, -⟩, hm⟩ := h (.inl ⟨a, ha⟩)
    · rw [ha] at ha'
      cases ha'
      exact ⟨m, hbytes ▸ hst, hm⟩
    · rw [ha] at hr
      cases hr
  · obtain ⟨m, ⟨a, ha, -⟩ | ⟨r', hr', rfl⟩, hm⟩ := h (.inr ⟨r, hr⟩)
    · rw [hr] at ha
      cases ha
    · rw [hr] at hr'
      cases hr'
      rw [hsize, hw] at hm
      exact hm

/-! ### Exact values -/

theorem interOf_represents {x : FpReal} (hx : isNormal x = true) :
    ∃ w, Represents (interOf x) w ∧ signedReal x.sign w = (fpValue x : ℚ) ∧ (interOf x).exp = x.exp.toNat := by
  obtain ⟨hlow, hhigh⟩ := man_bounds hx
  have h := represents_ratio (man_pos hx) Nat.one_pos (unitExp x)
  rw [Nat.cast_one, div_one] at h
  refine ⟨_, h, ?_, ?_⟩
  · rw [signedReal, fpValue_eq]
    cases x.sign <;> simp
  · obtain ⟨h1, h2⟩ := h.binade
    have hpow : (0 : ℝ) < 2 ^ unitExp x := by positivity
    have hlow' : (2 : ℝ) ^ (63 : Int) ≤ x.man.toNat := by exact_mod_cast hlow
    have hhigh' : (x.man.toNat : ℝ) < 2 ^ (64 : Int) := by exact_mod_cast hhigh
    have hup : (x.man.toNat : ℝ) * 2 ^ unitExp x < 2 ^ (64 + unitExp x) := by
      rw [zpow_add₀ (by norm_num)]
      exact mul_lt_mul_of_pos_right hhigh' hpow
    have hdown : (2 : ℝ) ^ (63 + unitExp x) ≤ (x.man.toNat : ℝ) * 2 ^ unitExp x := by
      rw [zpow_add₀ (by norm_num)]
      exact mul_le_mul_of_nonneg_right hlow' hpow.le
    have hlt := (zpow_lt_zpow_iff_right₀ (by norm_num : (1 : ℝ) < 2)).mp (h1.trans_lt hup)
    have hgt := (zpow_lt_zpow_iff_right₀ (by norm_num : (1 : ℝ) < 2)).mp (hdown.trans_lt h2)
    rw [unitExp_eq] at hlt hgt
    change (interOf x).exp - 0x3FFF < _ at hlt
    change _ < (interOf x).exp - 0x3FFF + 1 at hgt
    omega

/-! ### The real formats -/

theorem outBody_of_real {fmt : FpOutFmt} (hfmt : fmt ∈ [FpOutFmt.s, .d, .x]) {x : FpReal} (hx : tagOf x ≠ tagUnnormal) (p : Place) :
    outBody fmt p x = outReal fmt p x := by
  unfold outBody
  rw [if_neg hx]
  simp only [List.mem_cons, List.not_mem_nil, or_false] at hfmt
  rcases hfmt with rfl | rfl | rfl <;> rfl

theorem outSize_of_real {fmt : FpOutFmt} (hfmt : fmt ∈ [FpOutFmt.s, .d, .x]) : outSize fmt = .long := by
  simp only [List.mem_cons, List.not_mem_nil, or_false] at hfmt
  rcases hfmt with rfl | rfl | rfl <;> rfl

theorem tag_of_special {x : FpReal} (h : isNan x = true ∨ isInf x = true ∨ isZero x = true) : tagOf x ≠ tagUnnormal := by
  rcases h with h | h | h
  · rw [isNan, beq_iff_eq] at h; rw [h]; decide
  · rw [isInf, beq_iff_eq] at h; rw [h]; decide
  · rw [isZero, beq_iff_eq] at h; rw [h]; decide

theorem isNan_of_isSnan {x : FpReal} (h : isSnan x = true) : isNan x = true := (Bool.and_eq_true_iff.mp h).1

section real
variable {s : State} (hplain : s.plain) (hp : s.fpu.pending = none) {fmt : FpOutFmt} (hfmt : fmt ∈ [FpOutFmt.s, .d, .x])
  {src : RegNo} {x : FpReal} (hx : s.getFp src = x) (k : BitVec 7) {ea : Ea} {l : Located}
  (hl : locate ea (outFmtBytes fmt) (addrPlus s.pc 4) s = .ok l s)
include hplain hp hfmt hx hl

theorem written_ends (htag : tagOf x ≠ tagUnnormal) {exc : Byte} {e : OutEnd} {ls : List Long} {fields : Fpu → Prop}
    (he : e.vector = none)
    (hy : l.place.isDest → OutYields fmt s src (moveOutWord fmt src k) l.place exc e ls fields
      (outReal fmt l.place x (s.outBegun (moveOutWord fmt src k) src))) :
    OutWritten s l ls (MoveOutEnds (.fmoveOut fmt src k ea) (eaLength 1 ea) s l exc) := by
  refine written_of_lands (outSize_of_real hfmt) fun hd => ends_of_yields (fields := fields) hplain hp hl ?_ he
  rw [hx, outBody_of_real hfmt htag]
  exact hy hd

theorem written_traps (htag : tagOf x ≠ tagUnnormal) {exc vector : Byte} {e : OutEnd} {ls : List Long} {fields fields' : Fpu → Prop}
    (he : e.vector = some vector)
    (hf : ∀ w u : Fpu, fields w → u.etemp = w.etemp → (e.fptemp = true → u.fptemp = w.fptemp) →
      (e.wbtemp = true → u.wbtemp = w.wbtemp) → fields' u)
    (hy : l.place.isDest → OutYields fmt s src (moveOutWord fmt src k) l.place exc e ls fields
      (outReal fmt l.place x (s.outBegun (moveOutWord fmt src k) src))) :
    OutWritten s l ls
      (MoveOutTraps (.fmoveOut fmt src k ea) (eaLength 1 ea) s l src (moveOutWord fmt src k) vector exc fields') := by
  refine written_of_lands (outSize_of_real hfmt) fun hd => traps_of_yields (fields := fields) hplain hp hl ?_ he hf
  rw [hx, outBody_of_real hfmt htag]
  exact hy hd

variable (hw : s.memOk)
include hw

/-- NANs, infinities and zeros. -/
theorem outReal_specials :
    (isSnan x = true → s.fp.fpcr.getLsbD 14 = false → OutWritten s l (truncLongs fmt (quieten x))
      (MoveOutEnds (.fmoveOut fmt src k ea) (eaLength 1 ea) s l 0x40)) ∧
    (isSnan x = true → s.fp.fpcr.getLsbD 14 = true → OutWritten s l (truncLongs fmt (quieten x))
      (MoveOutTraps (.fmoveOut fmt src k ea) (eaLength 1 ea) s l src (moveOutWord fmt src k) 54 0x40
        fun u => u.etemp = quieten x)) ∧
    (isSnan x = false → isNan x = true ∨ isInf x = true ∨ isZero x = true → OutWritten s l (truncLongs fmt x)
      (MoveOutEnds (.fmoveOut fmt src k ea) (eaLength 1 ea) s l 0)) := by
  have htrap : trapEnabled s.fp.fpcr .snan = s.fp.fpcr.getLsbD 14 := rfl
  refine ⟨fun hs hoff => ?_, fun hs hon => ?_, fun hs hany => ?_⟩
  · refine written_ends hplain hp hfmt hx k hl (tag_of_special (.inl (isNan_of_isSnan hs))) ?_ fun hd =>
      outReal_of_snan hplain hw hp hd hs
    rw [htrap, hoff]
    rfl
  · refine written_traps hplain hp hfmt hx k hl (tag_of_special (.inl (isNan_of_isSnan hs))) (vector := 54) ?_ ?_ fun hd =>
      outReal_of_snan hplain hw hp hd hs
    · rw [htrap, hon]
      rfl
    · exact fun w u hw hu _ _ => hu.trans hw
  · exact written_ends hplain hp hfmt hx k hl (tag_of_special hany) rfl fun hd => outReal_of_special hplain hw hp hd hs hany

/-- A number in the extended format. -/
theorem outReal_extended (hn : isNormal x = true) (hf : outPrec fmt = .x) :
    OutWritten s l (extLongs x) (MoveOutEnds (.fmoveOut fmt src k ea) (eaLength 1 ea) s l 0) :=
  written_ends hplain hp hfmt hx k hl (tagOf_of_number (.inl hn)).2 rfl fun hd => outReal_of_extended hplain hw hp hd hn hf

/-- A number in the single or double format. -/
theorem outReal_numbers (hn : isNormal x = true) (hf : outPrec fmt ≠ .x) {n : Nat} (hlen : (if fmt = .d then 2 else 1) = n)
    {reads : List Long → FpReal → Prop}
    (hreads : ∀ (r : Rounded) (m : Nat), r.man.getLsbD 63 = true → r.man.toNat = m * 2 ^ (64 - (outPrec fmt).bits) →
      underflows (outPrec fmt) r.exp = false → overflows (outPrec fmt) r.exp = false →
      reads (packLongs fmt x.sign r.exp r.man) (r.real x.sign)) :
    let below (q : ℚ) : Prop := q ≤ fpValue x
    let above (q : ℚ) : Prop := fpValue x ≤ q
    let ends (exc : Byte) : State → Prop := MoveOutEnds (.fmoveOut fmt src k ea) (eaLength 1 ea) s l exc
    let traps (vector exc : Byte) (fields : Fpu → Prop) : State → Prop :=
      MoveOutTraps (.fmoveOut fmt src k ea) (eaLength 1 ea) s l src (moveOutWord fmt src k) vector exc fields
    (TooSmall (outPrec fmt) below above →
      ∃ ws, ws.length = n ∧ OutWritten s l ws (traps 51 0x08 fun u => u.fptemp = x ∧ u.etemp = x)) ∧
    (¬ TooSmall (outPrec fmt) below above → ∃ r, Rounds (roundModeOf s.fp.fpcr) (outPrec fmt).bits below above r ∧
      (TooLarge (outPrec fmt) r → ∃ ws, ws.length = n ∧
        OutWritten s l ws (traps 53 (if r = fpValue x then 0x10 else 0x12) fun u => fpValue u.etemp = r)) ∧
      (¬ TooLarge (outPrec fmt) r → ∃ ws y, reads ws y ∧ isNormal y = true ∧ fpValue y = r ∧
        (r = fpValue x → OutWritten s l ws (ends 0)) ∧
        (r ≠ fpValue x → s.fp.fpcr.getLsbD 9 = false → OutWritten s l ws (ends 0x02)) ∧
        (r ≠ fpValue x → s.fp.fpcr.getLsbD 9 = true → OutWritten s l ws (traps 49 0x02 fun u => u.etemp = x)))) := by
  intro below above ends traps
  obtain ⟨w, hrep, hvalue, hexp⟩ := interOf_represents hn
  have htag := (tagOf_of_number (.inl hn)).2
  have hfree : (freeLongs fmt s.freeCount).length = n := (freeLongs_length fmt _).trans hlen
  have hsmall := tooSmall_iff hrep x.sign (outPrec fmt)
  rw [hvalue, belowReal_cast, aboveReal_cast, hexp] at hsmall
  obtain ⟨hp2, hp64⟩ := (outPrec fmt).bits_bounds
  have hround := roundAt_rounds hp2 hp64 hrep (roundModeOf s.fp.fpcr) x.sign
  have hin := roundAt_inexact hp2 hp64 hrep (roundModeOf s.fp.fpcr) x.sign
  have hlarge := tooLarge_iff hrep (outPrec fmt) (roundModeOf s.fp.fpcr) x.sign
  have hrange := roundAt_exp (outPrec fmt) (roundModeOf s.fp.fpcr) x.sign (interOf x)
  have hman := roundAt_man hrep (outPrec fmt) (roundModeOf s.fp.fpcr) x.sign
  obtain ⟨units, -, -, hunits, -⟩ := roundAt_eq hp2 hp64 hrep (roundModeOf s.fp.fpcr) x.sign
  rw [hvalue, belowReal_cast, aboveReal_cast] at hround
  rw [hvalue, Ne, Rat.cast_inj] at hin
  have hover (ho : overflows (outPrec fmt) (outRound s fmt x).exp = true) (hun : underflows (outPrec fmt) x.exp.toNat = false)
      (hd : l.place.isDest) := outReal_of_overflow (src := src) (cw := moveOutWord fmt src k) hplain hw hp hd hn hf hun ho
  have hok (ho : overflows (outPrec fmt) (outRound s fmt x).exp = false) (hun : underflows (outPrec fmt) x.exp.toNat = false)
      (hd : l.place.isDest) := outReal_of_range (src := src) (cw := moveOutWord fmt src k) hplain hw hp hd hn hf hun ho hx
  rw [outRound] at hover hok
  generalize roundAt (outPrec fmt).bits (roundModeOf s.fp.fpcr) x.sign (interOf x) = r at *
  obtain ⟨hexp', -⟩ := (isNormal_iff x).mp hn
  have hx15 : x.exp.toNat < 0x7FFF := by
    have hlt := x.exp.isLt
    have hne : x.exp.toNat ≠ 0x7FFF := fun he => hexp' (BitVec.eq_of_toNat_eq he)
    omega
  rw [hexp] at hrange
  refine ⟨fun hs => ⟨_, hfree, ?_⟩, fun hs => ⟨r.value x.sign, hround, fun hr => ⟨_, hfree, ?_⟩, fun hr => ?_⟩⟩
  · exact written_traps hplain hp hfmt hx k hl htag rfl (fun w u hw hu hu' _ => ⟨(hu' rfl).trans hw.1, hu.trans hw.2⟩)
      fun hd => outReal_of_underflow hplain hw hp hd hn hf (hsmall.mp hs) hx
  · have hun := Bool.eq_false_iff.mpr fun h => hs (hsmall.mpr h)
    have hexc : (if r.value x.sign = fpValue x then 0x10 else 0x12 : Byte) = if r.inexact then 0x12 else 0x10 := by
      by_cases he : fpValue x = r.value x.sign
      · rw [if_pos he.symm, if_neg (by rw [hin]; exact not_not.mpr he)]
      · rw [if_neg (Ne.symm he), if_pos (hin.mpr he)]
    rw [hexc]
    refine written_traps hplain hp hfmt hx k hl htag rfl (fun w u hw hu _ _ => ?_) (hover (hlarge.mp hr) hun)
    rw [hu, hw, fpValue_real _ (by omega) (by omega)]
  · have hun := Bool.eq_false_iff.mpr fun h => hs (hsmall.mpr h)
    have ho := Bool.eq_false_iff.mpr fun h => hr (hlarge.mpr h)
    have hun' : underflows (outPrec fmt) r.exp = false := by
      rw [← Bool.not_eq_true, underflows_iff] at hun ⊢
      omega
    have hyields := hok ho hun
    refine ⟨packLongs fmt x.sign r.exp r.man, r.real x.sign, hreads r units hman hunits hun' ho,
      isNormal_real _ (by omega) ?_ hman, fpValue_real _ (by omega) (by omega), fun he => ?_, fun hne h9 => ?_, fun hne h9 => ?_⟩
    · have hmax : (expRange (outPrec fmt)).2 ≤ 16383 := by cases outPrec fmt <;> decide
      rw [Bool.eq_false_iff, Ne, overflows_iff] at ho
      omega
    · have hi : r.inexact = false := by rw [← Bool.not_eq_true, hin, not_not, he]
      simp only [hi] at hyields
      exact written_ends hplain hp hfmt hx k hl htag rfl hyields
    · have hi : r.inexact = true := hin.mpr (Ne.symm hne)
      simp only [hi, outInexact, trapEnabled, FpExc.bit, h9] at hyields
      exact written_ends hplain hp hfmt hx k hl htag rfl hyields
    · have hi : r.inexact = true := hin.mpr (Ne.symm hne)
      simp only [hi, outInexact, trapEnabled, FpExc.bit, h9] at hyields
      exact written_traps hplain hp hfmt hx k hl htag rfl (fun w u hw hu _ _ => hu.trans hw) hyields

end real

/-- Settles O53: specials, numbers and extended values as `outReal` stores them, and the images of numbers read back. -/
theorem fmoveOutReal : Obligations.FmoveOutReal := by
  unfold Obligations.FmoveOutReal
  intro s src k ea l hplain hw hp x v i ends traps written specials numbers single double
  refine ⟨fun hl => ⟨?_, fun hn => ?_⟩, fun hl => ⟨?_, fun hn => ?_⟩, fun hl => ⟨?_, fun hn => ?_⟩⟩
  · exact outReal_specials (fmt := .x) hplain hp (by decide) rfl k hl hw
  · exact outReal_extended (fmt := .x) hplain hp (by decide) rfl k hl hw hn rfl
  · exact outReal_specials (fmt := .s) hplain hp (by decide) rfl k hl hw
  · refine outReal_numbers (fmt := .s) hplain hp (by decide) rfl k hl hw hn (by decide) rfl fun r m htop hlow hun ho => ?_
    rw [Bool.eq_false_iff, Ne, underflows_iff] at hun
    rw [Bool.eq_false_iff, Ne, overflows_iff] at ho
    simp only [outPrec, expRange] at hun ho
    exact ⟨_, rfl, fpOfSingle_pack htop hlow (by omega) (by omega)⟩
  · exact outReal_specials (fmt := .d) hplain hp (by decide) rfl k hl hw
  · refine outReal_numbers (fmt := .d) hplain hp (by decide) rfl k hl hw hn (by decide) rfl fun r m htop hlow hun ho => ?_
    rw [Bool.eq_false_iff, Ne, underflows_iff] at hun
    rw [Bool.eq_false_iff, Ne, overflows_iff] at ho
    simp only [outPrec, expRange] at hun ho
    exact ⟨_, _, rfl, fpOfDouble_pack htop hlow (by omega) (by omega)⟩

end Sys2Proof.Machine
end

