-- ==== Sys2Proof/Proofs/FpOutInteger.lean ====
section
/-!
SUPPORT. FMOVE out in an integer format (42_fp_instructions.md R277; 43_fp_exceptions.md R304, R313-R315, R326).
-/
namespace Sys2Proof.Machine

/-! ### Rounding to an integer -/

/-- `n` is the integer that a rounding mode makes of a number. -/
def IntRounds (mode : RoundMode) (v : ℚ) (n : Int) : Prop :=
  match mode with
  | .rm => n = ⌊v⌋
  | .rp => n = ⌈v⌉
  | .rz => n = if 0 ≤ v then ⌊v⌋ else ⌈v⌉
  | .rn => |v - n| < 1 / 2 ∨ (|v - n| = 1 / 2 ∧ n % 2 = 0)

theorem IntRounds.unique {mode : RoundMode} {v : ℚ} {n m : Int} (h : IntRounds mode v n) (h' : IntRounds mode v m) : n = m := by
  cases mode with
  | rm | rp | rz => exact h.trans h'.symm
  | rn =>
    have hn : |v - n| ≤ 1 / 2 := h.elim le_of_lt fun h => h.1.le
    have hm : |v - m| ≤ 1 / 2 := h'.elim le_of_lt fun h => h.1.le
    obtain ⟨hn1, hn2⟩ := abs_le.mp hn
    obtain ⟨hm1, hm2⟩ := abs_le.mp hm
    by_contra hne
    have hodd (a b : Int) (ha : IntRounds .rn v a) (hb : IntRounds .rn v b) (hlt : a < b) (ha1 : v - a ≤ 1 / 2) (hb1 : -(1 / 2) ≤ v - b) :
        False := by
      have hcast : (a : ℚ) + 1 ≤ b := by exact_mod_cast hlt
      have hva : v - a = 1 / 2 := by linarith
      have hvb : v - b = -(1 / 2) := by linarith
      have hab : b = a + 1 := by
        have : (b : ℚ) = a + 1 := by linarith
        exact_mod_cast this
      have ha2 : a % 2 = 0 := (ha.resolve_left (by rw [hva]; norm_num)).2
      have hb2 : b % 2 = 0 := (hb.resolve_left (by rw [hvb]; norm_num)).2
      omega
    rcases lt_or_gt_of_ne hne with hlt | hlt
    · exact hodd n m h h' hlt hn2 hm1
    · exact hodd m n h' h hlt hm2 hn1

theorem intRounds_exact (mode : RoundMode) (n : Int) : IntRounds mode n n := by
  cases mode with
  | rm => exact (Int.floor_intCast n).symm
  | rp => exact (Int.ceil_intCast n).symm
  | rz =>
    show n = if 0 ≤ (n : ℚ) then ⌊(n : ℚ)⌋ else ⌈(n : ℚ)⌉
    rw [Int.floor_intCast, Int.ceil_intCast, ite_self]
  | rn =>
    left
    rw [sub_self, abs_zero]
    norm_num

theorem intRounds_neg {mode : RoundMode} {v : ℚ} (hv : 0 < v) {n : Int} (h : IntRounds mode v n) : IntRounds mode.mirror (-v) (-n) := by
  cases mode with
  | rm => exact (congrArg Neg.neg h).trans Int.ceil_neg.symm
  | rp => exact (congrArg Neg.neg h).trans Int.floor_neg.symm
  | rz =>
    show -n = if 0 ≤ -v then ⌊-v⌋ else ⌈-v⌉
    rw [if_neg (by linarith), Int.ceil_neg, neg_inj]
    exact h.trans (if_pos hv.le)
  | rn =>
    have habs : |-v - ((-n : Int) : ℚ)| = |v - n| := by
      rw [← abs_neg]
      congr 1
      push_cast
      ring
    show |-v - ((-n : Int) : ℚ)| < 1 / 2 ∨ (|-v - ((-n : Int) : ℚ)| = 1 / 2 ∧ -n % 2 = 0)
    rw [habs]
    exact h.imp_right (And.imp_right fun h0 => by omega)

/-- A magnitude of `x / 2`, `m` the whole part of `x`, is rounded by `roundUp`. -/
theorem intRounds_roundUp {m : Nat} {rest : Bool} {v : ℚ} (h : Floors m rest ((2 * v : ℚ) : ℝ)) (mode : RoundMode) :
    IntRounds mode v (m / 2 + (roundUp mode false (m / 2 % 2 == 1) (m.testBit 0) false rest).toNat : Nat) := by
  have hexact := h.shift 1
  rw [pow_one, pow_one] at hexact
  obtain ⟨hlt, hge, htie⟩ := h.half
  have hhalf : ((2 * v : ℚ) : ℝ) / 2 = (v : ℝ) := by
    push_cast
    ring
  rw [hhalf] at hexact hlt hge htie
  have hlow : ((m / 2 : Nat) : ℚ) ≤ v := by exact_mod_cast hexact.lower
  have hhigh : v < (m / 2 : Nat) + 1 := by exact_mod_cast hexact.upper
  have hlt' : m.testBit 0 = false → v < (m / 2 : Nat) + 1 / 2 := fun hb => by
    have := hlt hb
    rw [show ((m / 2 : Nat) : ℝ) + 1 / 2 = (((m / 2 : Nat) + 1 / 2 : ℚ) : ℝ) by push_cast; rfl] at this
    exact_mod_cast this
  have hge' : m.testBit 0 = true → ((m / 2 : Nat) : ℚ) + 1 / 2 ≤ v := fun hb => by
    have := hge hb
    rw [show ((m / 2 : Nat) : ℝ) + 1 / 2 = (((m / 2 : Nat) + 1 / 2 : ℚ) : ℝ) by push_cast; rfl] at this
    exact_mod_cast this
  have htie' : v = (m / 2 : Nat) + 1 / 2 ↔ m.testBit 0 = true ∧ rest = false := by
    rw [← htie, show ((m / 2 : Nat) : ℝ) + 1 / 2 = (((m / 2 : Nat) + 1 / 2 : ℚ) : ℝ) by push_cast; rfl, Rat.cast_inj]
  have hfloor : ⌊v⌋ = (m / 2 : Nat) := by
    rw [Int.floor_eq_iff]
    exact ⟨by exact_mod_cast hlow, by exact_mod_cast hhigh⟩
  have hbit : m.testBit 0 = decide (m % 2 = 1) := Nat.testBit_zero m
  cases hany : rest || m.testBit 0 with
  | false =>
    obtain ⟨hrest, hguard⟩ := Bool.or_eq_false_iff.mp hany
    have hx : v = ((m / 2 : Nat) : Int) := by
      have hv := hexact.exact.mp (by
        rw [hrest, Bool.false_or, bne_eq_false_iff_eq]
        rw [hbit, decide_eq_false_iff_not] at hguard
        omega)
      exact_mod_cast hv
    rw [hrest, hguard, hx]
    exact intRounds_exact mode _
  | true =>
    have hne : v ≠ (m / 2 : Nat) := fun he => by
      have hf := hexact.exact.mpr (by rw [he]; norm_cast)
      rw [Bool.or_eq_false_iff, bne_eq_false_iff_eq] at hf
      rw [hf.1, hbit, hf.2] at hany
      exact absurd hany (by simp)
    have hlow' : ((m / 2 : Nat) : ℚ) < v := lt_of_le_of_ne hlow (Ne.symm hne)
    have hceil : ⌈v⌉ = (m / 2 + 1 : Nat) := by
      rw [Int.ceil_eq_iff, Int.cast_natCast, Nat.cast_add, Nat.cast_one]
      exact ⟨by linarith, hhigh.le⟩
    cases mode with
    | rm =>
      have hup : roundUp .rm false (m / 2 % 2 == 1) (m.testBit 0) false rest = false := by simp [roundUp]
      rw [hup]
      exact hfloor.symm
    | rp =>
      have hup : roundUp .rp false (m / 2 % 2 == 1) (m.testBit 0) false rest = true := by
        revert hany
        cases m.testBit 0 <;> cases rest <;> simp [roundUp]
      rw [hup]
      exact hceil.symm
    | rz =>
      have hup : roundUp .rz false (m / 2 % 2 == 1) (m.testBit 0) false rest = false := by simp [roundUp]
      rw [hup]
      show _ = if 0 ≤ v then ⌊v⌋ else ⌈v⌉
      rw [if_pos ((Nat.cast_nonneg _).trans hlow), hfloor]
      rfl
    | rn =>
      cases hup : roundUp .rn false (m / 2 % 2 == 1) (m.testBit 0) false rest with
      | false =>
        show |v - ((m / 2 : Nat) : ℚ)| < 1 / 2 ∨ (|v - ((m / 2 : Nat) : ℚ)| = 1 / 2 ∧ ((m / 2 : Nat) : Int) % 2 = 0)
        rw [abs_of_pos (by linarith)]
        cases hguard : m.testBit 0 with
        | false => exact .inl (by linarith [hlt' hguard])
        | true =>
          have hbits : rest = false ∧ m / 2 % 2 = 0 := by
            rw [hguard] at hup
            revert hup
            cases rest <;> simp [roundUp]
          exact .inr ⟨by linarith [htie'.mpr ⟨hguard, hbits.1⟩], by omega⟩
      | true =>
        have hbits : m.testBit 0 = true ∧ (rest = true ∨ m / 2 % 2 = 1) := by
          revert hup
          cases m.testBit 0 <;> cases rest <;> simp [roundUp]
        have hge'' := hge' hbits.1
        show |v - ((m / 2 + 1 : Nat) : ℚ)| < 1 / 2 ∨ (|v - ((m / 2 + 1 : Nat) : ℚ)| = 1 / 2 ∧ ((m / 2 + 1 : Nat) : Int) % 2 = 0)
        push_cast
        rw [abs_of_neg (by linarith)]
        rcases hge''.lt_or_eq with hgt | heq
        · exact .inl (by linarith)
        · have hodd := hbits.2.resolve_left (by simp [(htie'.mp heq.symm).2])
          exact .inr ⟨by linarith, by omega⟩

/-- The whole part that a magnitude below 1 unit is rounded to, `k` bits down. -/
def roundedWhole (mode : RoundMode) (sign : Bool) (m k : Nat) : Nat :=
  m / 2 ^ k + (roundUp mode sign (m / 2 ^ k % 2 == 1) (m.testBit (k - 1)) false (m % 2 ^ (k - 1) != 0)).toNat

theorem roundedWhole_rounds {k : Nat} (hk : 0 < k) (mode : RoundMode) (sign : Bool) (m : Nat) :
    IntRounds (if sign then mode.mirror else mode) ((m : ℚ) / 2 ^ k) (roundedWhole mode sign m k) := by
  have hfloors := (floors_nat m).shift (k - 1)
  have hdouble : (m : ℝ) / 2 ^ (k - 1) = ((2 * ((m : ℚ) / 2 ^ k) : ℚ) : ℝ) := by
    obtain ⟨j, rfl⟩ := Nat.exists_eq_add_of_lt hk
    push_cast
    simp only [Nat.zero_add]
    rw [pow_succ]
    field_simp
  have hdiv : m / 2 ^ (k - 1) / 2 = m / 2 ^ k := by
    rw [Nat.div_div_eq_div_mul, ← pow_succ, Nat.sub_add_cancel hk]
  have hguard : (m / 2 ^ (k - 1)).testBit 0 = m.testBit (k - 1) := by rw [Nat.testBit_div_two_pow, Nat.zero_add]
  rw [hdouble, Bool.false_or] at hfloors
  have hround := intRounds_roundUp hfloors (if sign then mode.mirror else mode)
  rw [hdiv, hguard] at hround
  rw [roundedWhole, roundUp_mirror, Bool.false_or]
  exact hround

theorem roundedWhole_inexact {k : Nat} (hk : 0 < k) (mode : RoundMode) (sign : Bool) (m : Nat) :
    (m.testBit (k - 1) || m % 2 ^ (k - 1) != 0) = true ↔ (m : ℚ) / 2 ^ k ≠ roundedWhole mode sign m k := by
  have hrest : (m.testBit (k - 1) || m % 2 ^ (k - 1) != 0) = (m % 2 ^ k != 0) := by
    rw [← mod_two_pow_succ_bne, Nat.sub_add_cancel hk]
  have hfloors := (floors_nat m).shift k
  have hcast (n : Nat) : (m : ℝ) / 2 ^ k = n ↔ (m : ℚ) / 2 ^ k = n := by
    rw [← Rat.cast_inj (α := ℝ)]
    push_cast
    rfl
  rw [Bool.false_or] at hfloors
  constructor
  · intro hany he
    have hreal : (m : ℝ) / 2 ^ k = roundedWhole mode sign m k := (hcast _).mpr he
    have hwhole := floors_nat (roundedWhole mode sign m k)
    rw [← hreal] at hwhole
    rw [hrest, (hfloors.unique hwhole).2] at hany
    exact Bool.false_ne_true hany
  · intro hne
    by_contra hany
    obtain ⟨hg, hr⟩ := Bool.or_eq_false_iff.mp (Bool.eq_false_iff.mpr hany)
    have hup : roundedWhole mode sign m k = m / 2 ^ k := by
      rw [roundedWhole, hg, hr]
      rfl
    rw [hrest, Bool.not_eq_true] at hany
    refine hne ?_
    rw [hup]
    exact (hcast _).mp (hfloors.exact.mp hany)

theorem roundToInteger_spec {x : FpReal} (hx : isNormal x = true) (mode : RoundMode) :
    IntRounds mode (fpValue x) (roundToInteger mode x).1 ∧
      ((roundToInteger mode x).2 = true ↔ ((roundToInteger mode x).1 : ℚ) ≠ fpValue x) := by
  have hm := man_pos hx
  rw [fpValue_eq]
  rcases le_or_gt 0 (unitExp x) with he | he
  · obtain ⟨e, he'⟩ := Int.eq_ofNat_of_zero_le he
    have hround : roundToInteger mode x = ((if x.sign then -((x.man.toNat * 2 ^ e : Nat) : Int) else (x.man.toNat * 2 ^ e : Nat)), false) := by
      unfold roundToInteger
      simp only [he', Int.natCast_nonneg, if_true, Int.toNat_natCast]
    have hvalue : (if x.sign then -1 else 1) * (x.man.toNat : ℚ) * 2 ^ unitExp x =
        ((if x.sign then -((x.man.toNat * 2 ^ e : Nat) : Int) else (x.man.toNat * 2 ^ e : Nat) : Int) : ℚ) := by
      rw [he', zpow_natCast]
      cases x.sign <;> push_cast <;> simp
    rw [hround, hvalue]
    exact ⟨intRounds_exact mode _, iff_of_false Bool.false_ne_true fun h => h rfl⟩
  · obtain ⟨k, hk, hk'⟩ : ∃ k : Nat, 0 < k ∧ unitExp x = -(k : Int) := ⟨(-unitExp x).toNat, by omega, by omega⟩
    have hround : roundToInteger mode x =
        ((if x.sign then -(roundedWhole mode x.sign x.man.toNat k : Int) else (roundedWhole mode x.sign x.man.toNat k : Int)),
          x.man.toNat.testBit (k - 1) || x.man.toNat % 2 ^ (k - 1) != 0) := by
      unfold roundToInteger roundedWhole
      simp only [hk', neg_neg, Int.toNat_natCast, if_neg (by omega : ¬ (0 : Int) ≤ -(k : Int))]
      cases roundUp mode x.sign (x.man.toNat / 2 ^ k % 2 == 1) (x.man.toNat.testBit (k - 1)) false
        (x.man.toNat % 2 ^ (k - 1) != 0) <;> rfl
    have hpos : (0 : ℚ) < (x.man.toNat : ℚ) / 2 ^ k := by
      have : (0 : ℚ) < x.man.toNat := by exact_mod_cast hm
      positivity
    have hrounds := roundedWhole_rounds hk mode x.sign x.man.toNat
    have hinexact := roundedWhole_inexact hk mode x.sign x.man.toNat
    have hvalue : (x.man.toNat : ℚ) * 2 ^ unitExp x = (x.man.toNat : ℚ) / 2 ^ k := by
      rw [hk', zpow_neg, zpow_natCast, div_eq_mul_inv]
    rw [hround, mul_assoc, hvalue, hinexact]
    cases hs : x.sign with
    | false =>
      rw [hs] at hrounds
      rw [if_neg (by simp), if_neg (by simp), one_mul]
      exact ⟨hrounds, by rw [ne_comm, Int.cast_natCast]⟩
    | true =>
      rw [hs] at hrounds
      have hneg := intRounds_neg hpos hrounds
      rw [if_pos rfl, if_pos rfl, neg_one_mul]
      refine ⟨by cases mode <;> exact hneg, ?_⟩
      rw [Int.cast_neg, Int.cast_natCast, Ne, Ne, neg_inj, eq_comm]

/-! ### What is stored -/

theorem OutReady.operr {s t : State} {src : RegNo} {cw : Word} {inexact : Bool}
    (h : OutReady s src cw (if inexact then 0x02 else 0) t) : OutReady s src cw (if inexact then 0x22 else 0x20) (t.setExc .operr) := by
  have hset := h.setExc .operr
  cases inexact <;> exact hset

section integer
variable {s : State} (h : s.plain) (hw : s.memOk) (hpend : s.fpu.pending = none) {fmt : FpOutFmt} {p : Place} (hp : p.isDest)
  {src : RegNo} {cw : Word} {x : FpReal}
include h hw hpend hp

theorem outInteger_of_snan (hs : isSnan x = true) : OutYields fmt s src cw p 0x40 (outPost 54) (freeLongs fmt s.freeCount)
    (fun u => u.etemp = quieten x) (outInteger fmt p x (s.outBegun cw src)) := by
  have hu : OutReady s src cw 0x40 ((s.outBegun cw src).setExc .snan) := (outReady_outBegun s cw src hpend).setExc .snan
  obtain ⟨m, hl, hst⟩ := storeFree_lands (fmt := fmt) h hw hp hu
  rw [show ((s.outBegun cw src).setExc .snan).freeCount = s.freeCount from s.outBegun_freeCount cw src] at hl
  refine yields_of_lands (hu.drawn.withTemps (quieten x) ((s.outBegun cw src).setExc .snan).fpu.fptemp
    ((s.outBegun cw src).setExc .snan).fpu.wbtemp) hl ?_ rfl nofun
  unfold outInteger
  rw [bind_eq, fetch_eq]
  dsimp only
  rw [if_pos hs]
  simp only [bind_eq, update_eq, hst, pure_eq]
  rfl

theorem outInteger_of_special (hs : isSnan x = false) (hx : (isNan x || isInf x) = true) (hsrc : s.getFp src = x) :
    OutYields fmt s src cw p 0x20 (outPost 52) (freeLongs fmt s.freeCount) (fun u => u.etemp = x)
      (outInteger fmt p x (s.outBegun cw src)) := by
  have hu : OutReady s src cw 0x20 ((s.outBegun cw src).setExc .operr) := (outReady_outBegun s cw src hpend).setExc .operr
  rw [← s.outBegun_freeCount cw src]
  unfold outInteger
  rw [bind_eq, fetch_eq]
  dsimp only
  rw [if_neg (by simp [hs]), if_pos hx]
  exact yields_storeFree h hw hp hu (Option.some_ne_none _) hsrc

theorem outInteger_of_zero (hx : isZero x = true) : OutYields fmt s src cw p 0 outPlain [0] (fun _ => True)
    (outInteger fmt p x (s.outBegun cw src)) := by
  have hn := (tagOf_of_number (.inr (.inl hx))).1
  unfold outInteger
  rw [bind_eq, fetch_eq]
  dsimp only
  rw [if_neg (by simp [isSnan_of_not_nan hn]), if_neg (by simp [hn, isInf_of_isZero hx]), if_pos hx]
  exact yields_storeOut h hw hp (outReady_outBegun s cw src hpend) (by simp) (s.outBegun_freeCount cw src) trivial

end integer

/-- What is done with a value rounded to an integer. -/
def outRoundedInteger (fmt : FpOutFmt) (p : Place) (s : State) (r : Int × Bool) : M OutEnd := do
  update fun t => { t with fpu := { t.fpu with wbtemp := Config.packInteger r.1 } }
  if (2 : Int) ^ (outIntBits fmt - 1) - 1 < r.1 ∨ r.1 ≤ -(2 : Int) ^ (outIntBits fmt - 1) then do
    update (State.setExc .operr)
    storeFree fmt p
    pure { vector := some 52, fptemp := false, wbtemp := true }
  else do
    storeOut fmt p [BitVec.ofInt 32 r.1]
    pure (outInexact s.fp.fpcr r.2)

theorem outInteger_of_number {x : FpReal} (hx : isNormal x = true) (fmt : FpOutFmt) (s : State) (cw : Word) (src : RegNo) (p : Place) :
    outInteger fmt p x (s.outBegun cw src) = outRoundedInteger fmt p s (roundToInteger (roundModeOf s.fp.fpcr) x)
      ((s.outBegun cw src).withInexact (roundToInteger (roundModeOf s.fp.fpcr) x).2) := by
  obtain ⟨hs, hany⟩ := isSpecial_of_isNormal hx
  obtain ⟨hany, hz⟩ := Bool.or_eq_false_iff.mp hany
  unfold outInteger outRoundedInteger State.withInexact
  rw [bind_eq, fetch_eq]
  dsimp only
  rw [if_neg (by simp [hs]), if_neg (by simp [hany]), if_neg (by simp [hz]), s.outBegun_fpcr]
  cases (roundToInteger (roundModeOf s.fp.fpcr) x).2 <;> rfl

section number
variable {s : State} (h : s.plain) (hw : s.memOk) (hpend : s.fpu.pending = none) {fmt : FpOutFmt} {p : Place} (hp : p.isDest)
  {src : RegNo} {cw : Word} {x : FpReal} (hx : isNormal x = true) (hsrc : s.getFp src = x) {r : Int × Bool}
  (hr : roundToInteger (roundModeOf s.fp.fpcr) x = r)
include h hw hpend hp hx hsrc hr

theorem outInteger_of_range (hfits : -(2 : Int) ^ (outIntBits fmt - 1) < r.1 ∧ r.1 < 2 ^ (outIntBits fmt - 1)) :
    OutYields fmt s src cw p (if r.2 then 0x02 else 0) (outInexact s.fp.fpcr r.2) [BitVec.ofInt 32 r.1] (fun u => u.etemp = x)
      (outInteger fmt p x (s.outBegun cw src)) := by
  obtain ⟨f, hfree⟩ := (s.outBegun cw src).withInexact_eq r.2
  have hready := ((outReady_outBegun s cw src hpend).withInexact r.2).withTemps ((s.outBegun cw src).withInexact r.2).fpu.etemp
    ((s.outBegun cw src).withInexact r.2).fpu.fptemp (Config.packInteger r.1)
  rw [outInteger_of_number hx, hr, outRoundedInteger, bind_eq, update_eq]
  dsimp only
  have hnot : ¬ ((2 : Int) ^ (outIntBits fmt - 1) - 1 < r.1 ∨ r.1 ≤ -(2 : Int) ^ (outIntBits fmt - 1)) := by omega
  rw [if_neg hnot]
  refine yields_storeOut h hw hp hready (by simp) ?_ ?_
  · rw [hfree]
    exact s.outBegun_freeCount cw src
  · rw [hfree]
    exact hsrc

theorem outInteger_of_overflow (hfits : ¬ (-(2 : Int) ^ (outIntBits fmt - 1) < r.1 ∧ r.1 < 2 ^ (outIntBits fmt - 1))) :
    OutYields fmt s src cw p (if r.2 then 0x22 else 0x20) { vector := some 52, fptemp := false, wbtemp := true }
      (freeLongs fmt s.freeCount) (fun u => u.etemp = x ∧ u.wbtemp = Config.packInteger r.1)
      (outInteger fmt p x (s.outBegun cw src)) := by
  obtain ⟨f, hfree⟩ := (s.outBegun cw src).withInexact_eq r.2
  have hready := (((outReady_outBegun s cw src hpend).withInexact r.2).withTemps ((s.outBegun cw src).withInexact r.2).fpu.etemp
    ((s.outBegun cw src).withInexact r.2).fpu.fptemp (Config.packInteger r.1)).operr
  have hcount : ((s.outBegun cw src).withInexact r.2).freeCount = s.freeCount := by
    rw [hfree]
    exact s.outBegun_freeCount cw src
  rw [← hcount, outInteger_of_number hx, hr, outRoundedInteger, bind_eq, update_eq]
  dsimp only
  have hout : (2 : Int) ^ (outIntBits fmt - 1) - 1 < r.1 ∨ r.1 ≤ -(2 : Int) ^ (outIntBits fmt - 1) := by omega
  rw [if_pos hout]
  refine yields_storeFree h hw hp hready (Option.some_ne_none _) ⟨?_, rfl⟩
  rw [hfree]
  exact hsrc

end number

/-! ### The instruction -/

theorem writtenAt_of_lands {fmt : FpOutFmt} {sz : Size} (hsize : outSize fmt = sz) {s : State} {l : Located} {w : Long}
    {after : State → Prop} (h : l.place.isDest → ∃ m, Lands fmt [w] s l.place m ∧ after m) : WrittenAt s l sz w after := by
  refine ⟨fun a ha => ?_, fun r hr => ?_⟩
  · obtain ⟨m, ⟨a', ha', hst⟩ | ⟨r, hr, -⟩, hm⟩ := h (.inl ⟨a, ha⟩)
    · rw [ha] at ha'
      cases ha'
      exact ⟨m, hsize ▸ hst, hm⟩
    · rw [ha] at hr
      cases hr
  · obtain ⟨m, ⟨a, ha, -⟩ | ⟨r', hr', rfl⟩, hm⟩ := h (.inr ⟨r, hr⟩)
    · rw [hr] at ha
      cases ha
    · rw [hr] at hr'
      cases hr'
      rw [hsize] at hm
      exact hm

/-- An integer format with its operand size. -/
structure IntFormat (fmt : FpOutFmt) (sz : Size) : Prop where
  size : outSize fmt = sz
  bytes : outFmtBytes fmt = sz.bytes
  bits : outIntBits fmt = sz.bits
  free : ∀ n, freeLongs fmt n = [Config.freeLong n]
  body : ∀ p x, tagOf x ≠ tagUnnormal → outBody fmt p x = outInteger fmt p x

theorem intFormat_of_mem {fmt : FpOutFmt} {sz : Size} (h : (fmt, sz) ∈ [(FpOutFmt.b, Size.byte), (.w, .word), (.l, .long)]) :
    IntFormat fmt sz := by
  simp only [List.mem_cons, Prod.mk.injEq, List.not_mem_nil, or_false] at h
  rcases h with ⟨rfl, rfl⟩ | ⟨rfl, rfl⟩ | ⟨rfl, rfl⟩ <;>
    exact ⟨rfl, rfl, rfl, fun _ => rfl, fun _ _ h => if_neg h⟩

section instruction
variable {s : State} (hplain : s.plain) (hp : s.fpu.pending = none) {fmt : FpOutFmt} {sz : Size} (hfmt : IntFormat fmt sz)
  {src : RegNo} {x : FpReal} (hx : s.getFp src = x) (htag : tagOf x ≠ tagUnnormal) (k : BitVec 7) {ea : Ea} {l : Located}
  (hl : locate ea sz.bytes (addrPlus s.pc 4) s = .ok l s) {exc : Byte} {e : OutEnd} {w : Long} {fields : Fpu → Prop}
  (hy : l.place.isDest → OutYields fmt s src (moveOutWord fmt src k) l.place exc e [w] fields
    (outInteger fmt l.place x (s.outBegun (moveOutWord fmt src k) src)))
include hplain hp hfmt hx htag hl hy

theorem writtenAt_ends (he : e.vector = none) :
    WrittenAt s l sz w (MoveOutEnds (.fmoveOut fmt src k ea) (eaLength 1 ea) s l exc) := by
  refine writtenAt_of_lands hfmt.size fun hd => ends_of_yields (fields := fields) hplain hp (hfmt.bytes ▸ hl) ?_ he
  rw [hx, hfmt.body _ _ htag]
  exact hy hd

theorem writtenAt_traps {vector : Byte} {fields' : Fpu → Prop} (he : e.vector = some vector)
    (hf : ∀ w u : Fpu, fields w → u.etemp = w.etemp → (e.fptemp = true → u.fptemp = w.fptemp) →
      (e.wbtemp = true → u.wbtemp = w.wbtemp) → fields' u) :
    WrittenAt s l sz w
      (MoveOutTraps (.fmoveOut fmt src k ea) (eaLength 1 ea) s l src (moveOutWord fmt src k) vector exc fields') := by
  refine writtenAt_of_lands hfmt.size fun hd => traps_of_yields (fields := fields) hplain hp (hfmt.bytes ▸ hl) ?_ he hf
  rw [hx, hfmt.body _ _ htag]
  exact hy hd

end instruction

/-- Settles O52: the value rounded to an integer (`roundToInteger_spec`) is the one that the mode tells (`IntRounds.unique`). -/
theorem fmoveOutInteger : Obligations.FmoveOutInteger := by
  unfold Obligations.FmoveOutInteger
  intro s fmt sz src k ea l hplain hw hp hmem hl x v i words traps
  have hfmt := intFormat_of_mem hmem
  refine ⟨fun hs => ⟨Config.freeLong s.freeCount, ?_⟩, fun hn hs => ⟨Config.freeLong s.freeCount, ?_⟩,
    fun hi => ⟨Config.freeLong s.freeCount, ?_⟩, fun hnum n hn => ?_⟩
  · exact writtenAt_traps hplain hp hfmt rfl (tag_of_special (.inl (isNan_of_isSnan hs))) k hl
      (fun hd => hfmt.free s.freeCount ▸ outInteger_of_snan hplain hw hp hd hs) rfl fun w u hw hu _ _ => hu.trans hw
  · exact writtenAt_traps hplain hp hfmt rfl (tag_of_special (.inl hn)) k hl
      (fun hd => hfmt.free s.freeCount ▸ outInteger_of_special hplain hw hp hd hs (by rw [hn, Bool.true_or]) rfl) rfl
      fun w u hw hu _ _ => hu.trans hw
  · have hnn := (tagOf_of_number (.inr (.inr hi))).1
    exact writtenAt_traps hplain hp hfmt rfl (tag_of_special (.inr (.inl hi))) k hl
      (fun hd => hfmt.free s.freeCount ▸ outInteger_of_special hplain hw hp hd (isSnan_of_not_nan hnn) (by rw [hi, Bool.or_true]) rfl)
      rfl fun w u hw hu _ _ => hu.trans hw
  have hround : IntRounds (roundModeOf s.fp.fpcr) v n := hn
  have htag := (tagOf_of_number (hnum.imp_right .inl)).2
  rcases hnum with hnorm | hz
  · obtain ⟨hspec, hin⟩ := roundToInteger_spec hnorm (roundModeOf s.fp.fpcr)
    have hvalue := hspec.unique hround
    have hrange := fun hd hf => outInteger_of_range (src := src) (cw := moveOutWord fmt src k) (fmt := fmt) hplain hw hp
      (p := l.place) hd hnorm rfl rfl hf
    have hover := fun hd hf => outInteger_of_overflow (src := src) (cw := moveOutWord fmt src k) (fmt := fmt) hplain hw hp
      (p := l.place) hd hnorm rfl rfl hf
    rw [hvalue] at hin
    simp only [hvalue, hfmt.bits, hfmt.free] at hrange hover
    generalize (roundToInteger (roundModeOf s.fp.fpcr) (s.getFp src)).2 = inexact at hin hrange hover
    refine ⟨fun hf he => ?_, fun hf he h9 => ?_, fun hf he h9 => ?_, fun hf => ⟨Config.freeLong s.freeCount, ?_⟩⟩
    · have hi : inexact = false := by
        rw [← Bool.not_eq_true, hin]
        exact not_not.mpr he
      rw [hi] at hrange
      exact writtenAt_ends hplain hp hfmt rfl htag k hl (fun hd => hrange hd hf) rfl
    · rw [hin.mpr he] at hrange
      refine writtenAt_ends hplain hp hfmt rfl htag k hl (fun hd => hrange hd hf) ?_
      simp only [outInexact, trapEnabled, FpExc.bit, h9]
      rfl
    · rw [hin.mpr he] at hrange
      refine writtenAt_traps hplain hp hfmt rfl htag k hl (fun hd => hrange hd hf) ?_ fun w u hw hu _ _ => hu.trans hw
      simp only [outInexact, trapEnabled, FpExc.bit, h9]
      rfl
    · have hexc : (if (n : ℚ) = v then 0x20 else 0x22 : Byte) = if inexact then 0x22 else 0x20 := by
        by_cases he : (n : ℚ) = v
        · rw [if_pos he, if_neg (by rw [hin]; exact not_not.mpr he)]
        · rw [if_neg he, if_pos (hin.mpr he)]
      rw [hexc]
      exact writtenAt_traps hplain hp hfmt rfl htag k hl (fun hd => hover hd hf) rfl
        fun w u hw hu _ hu' => ⟨hu.trans hw.1, (hu' rfl).trans hw.2⟩
  · have hv : v = ((0 : Int) : ℚ) := by rw [Int.cast_zero]; exact fpValue_of_isZero hz
    have hzero : n = 0 := hround.unique (hv ▸ intRounds_exact (roundModeOf s.fp.fpcr) 0)
    subst hzero
    refine ⟨fun _ _ => ?_, fun _ he => absurd hv.symm he, fun _ he => absurd hv.symm he, fun hf => absurd ?_ hf⟩
    · exact writtenAt_ends hplain hp hfmt rfl htag k hl (fun hd => outInteger_of_zero hplain hw hp hd hz) rfl
    · have hpow : (0 : Int) < 2 ^ (sz.bits - 1) := by positivity
      exact ⟨by omega, hpow⟩

end Sys2Proof.Machine
end

