-- ==== Sys2Proof/Proofs/FpFrames.lean ====
section
/-!
SUPPORT. The state frames of the floating-point unit (42_fp_instructions.md R280-R291): the bits of a frame are those of the fields
that lie there, and the fields read from it are those of the unit.
-/
namespace Sys2Proof.Machine

open Config (FpuField)

/-! ### Numbers from bits -/

theorem numOfBits_testBit (f : Nat → Bool) (n j : Nat) : (numOfBits f n).testBit j = if j < n then f (n - 1 - j) else false := by
  induction n generalizing j with
  | zero => rw [numOfBits, if_neg (by omega), Nat.zero_testBit]
  | succ n ih =>
    have hb := Bool.toNat_lt (f n)
    rw [numOfBits]
    cases j with
    | zero =>
      rw [Nat.testBit_zero, Nat.mul_add_mod, if_pos (by omega), Nat.sub_zero, Nat.add_sub_cancel]
      cases f n <;> rfl
    | succ j =>
      rw [Nat.testBit_succ, Nat.mul_add_div (by norm_num), Nat.div_eq_of_lt hb, Nat.add_zero, ih]
      by_cases hj : j < n
      · rw [if_pos hj, if_pos (by omega), show n + 1 - 1 - (j + 1) = n - 1 - j by omega]
      · rw [if_neg hj, if_neg (by omega)]

theorem numOfBits_congr {f g : Nat → Bool} {n : Nat} (h : ∀ j < n, f j = g j) : numOfBits f n = numOfBits g n := by
  refine Nat.eq_of_testBit_eq fun j => ?_
  rw [numOfBits_testBit, numOfBits_testBit]
  split
  · exact h _ (by omega)
  · rfl

theorem numOfBits_of_value {v n : Nat} (h : v < 2 ^ n) : numOfBits (fun j => v.testBit (n - 1 - j)) n = v := by
  refine Nat.eq_of_testBit_eq fun j => ?_
  rw [numOfBits_testBit]
  split
  case isTrue hj => rw [show n - 1 - (n - 1 - j) = j by omega]
  case isFalse hj => exact (Nat.testBit_lt_two_pow (h.trans_le (Nat.pow_le_pow_right (by norm_num) (by omega)))).symm

/-! ### The bits of a frame -/

section layout
variable {fields : List FpuField} {size : Nat} {pos : FpuField → Nat} (h : Config.layoutOk fields size pos = true)
include h

theorem layout_fits {f : FpuField} (hf : f ∈ fields) : pos f + f.width ≤ 8 * size :=
  of_decide_eq_true (List.all_eq_true.mp (Bool.and_eq_true_iff.mp h).1 f hf)

theorem layout_apart {f g : FpuField} (hf : f ∈ fields) (hg : g ∈ fields) (hne : f ≠ g) :
    pos f + f.width ≤ pos g ∨ pos g + g.width ≤ pos f := by
  have hsymm : Std.Symm fun f g : FpuField => pos f + f.width ≤ pos g ∨ pos g + g.width ≤ pos f := ⟨fun _ _ => Or.symm⟩
  exact (of_decide_eq_true (Bool.and_eq_true_iff.mp h).2 : fields.Pairwise _).forall hf hg hne

theorem frameBit_of_field (u : Fpu) {f : FpuField} (hf : f ∈ fields) {j : Nat} (hj : j < f.width) :
    frameBit fields pos u (pos f + j) = some ((fpuFieldValue f u).testBit (f.width - 1 - j)) := by
  have hfind : fields.find? (fun g => pos g ≤ pos f + j && pos f + j < pos g + g.width) = some f := by
    obtain ⟨g, hg⟩ : ∃ g, fields.find? (fun g => pos g ≤ pos f + j && pos f + j < pos g + g.width) = some g := by
      rw [← Option.isSome_iff_exists, List.find?_isSome]
      exact ⟨f, hf, by simp [hj]⟩
    have hmem := List.mem_of_find?_eq_some hg
    have hat := List.find?_some hg
    simp only [Bool.and_eq_true, decide_eq_true_eq] at hat
    rw [hg]
    by_contra hne
    rcases layout_apart h hf hmem (fun he => hne (by rw [he])) with hlt | hlt <;> omega
  rw [frameBit, hfind]
  dsimp only
  rw [Nat.add_sub_cancel_left]

end layout

theorem frameByte_bit (fields : List FpuField) (pos : FpuField → Nat) (u : Fpu) (free k : Nat) {j : Nat} (hj : j < 8) :
    (frameByte fields pos u free k).getLsbD (7 - j) =
      (frameBit fields pos u (8 * k + j)).getD ((Config.freeFrameByte free k).getLsbD (7 - j)) := by
  rw [frameByte, BitVec.getLsbD_ofNat, numOfBits_testBit, decide_eq_true (by omega : 7 - j < 8), Bool.true_and, if_pos (by omega),
    show 8 - 1 - (7 - j) = j by omega]

/-- Bit `i` of four bytes that make a long word. -/
theorem fourBytes_bit (b : Nat → Byte) {i : Nat} (hi : i < 32) :
    (b 0 ++ b 1 ++ b 2 ++ b 3 : Long).getLsbD (31 - i) = (b (i / 8)).getLsbD (7 - i % 8) := by
  simp only [BitVec.getLsbD_append]
  interval_cases i <;> rfl

theorem frameBody_bit (k : FrameKind) (u : Fpu) (free : Nat) {n i : Nat} (hi : i < 32 * n) :
    longsBit ((List.range n).map (frameLong k u free)) i =
      (frameBit (frameFieldsOf k) (layoutOf k) u i).getD ((Config.freeFrameByte free (i / 8)).getLsbD (7 - i % 8)) := by
  have hlt : i / 32 < n := by omega
  have hget : ((List.range n).map (frameLong k u free))[i / 32]? = some (frameLong k u free (i / 32)) := by
    rw [List.getElem?_map, List.getElem?_range hlt]
    rfl
  rw [longsBit, hget, Option.getD_some, frameLong]
  rw [fourBytes_bit (fun m => frameByte (frameFieldsOf k) (layoutOf k) u free (4 * (i / 32) + m)) (Nat.mod_lt i (by norm_num))]
  rw [show i % 32 % 8 = i % 8 by omega, show 4 * (i / 32) + i % 32 / 8 = i / 8 by omega, frameByte_bit _ _ _ _ _ (by omega),
    show 8 * (i / 8) + i % 8 = i by omega]

/-! ### The fields of a frame -/

theorem fpuFieldValue_lt (f : FpuField) (u : Fpu) : fpuFieldValue f u < 2 ^ f.width := by
  cases f <;> first | exact BitVec.isLt _ | exact Bool.toNat_lt _

/-- The fields of the busy frame in a row keep apart. -/
theorem packFrom_busy_ok : Config.layoutOk Config.busyFields Config.busySize (Config.packFrom 0 Config.busyFields) = true := by
  decide +kernel

theorem busyLayout_allowed : Config.layoutOk Config.busyFields Config.busySize Config.busyLayout = true := by
  by_cases h : Config.layoutOk Config.busyFields Config.busySize Config.busyLayoutRaw = true
  · rwa [show Config.busyLayout = Config.busyLayoutRaw from funext fun f => if_pos h]
  · rw [show Config.busyLayout = Config.packFrom 0 Config.busyFields from funext fun f => if_neg h, packFrom_busy_ok]

theorem unimpLayout_allowed : Config.layoutOk Config.unimpFields Config.unimpSize Config.unimpLayout = true := by
  by_cases h : Config.layoutOk Config.unimpFields Config.unimpSize Config.unimpLayoutRaw = true
  · rwa [show Config.unimpLayout = Config.unimpLayoutRaw from funext fun f => if_pos h]
  · rw [show Config.unimpLayout = Config.packFrom 0 Config.unimpFields from funext fun f => if_neg h]
    decide

theorem layoutOf_ok (k : FrameKind) : Config.layoutOk (frameFieldsOf k) (bodySize k) (layoutOf k) = true := by
  cases k with
  | busy => exact busyLayout_allowed
  | unimp => exact unimpLayout_allowed
  | null | idle => rfl

theorem bodySize_dvd (k : FrameKind) : 4 * (bodySize k / 4) = bodySize k := by
  cases k with
  | busy | unimp => rfl
  | null =>
    rw [bodySize, Config.nullFrameBytes]
    omega
  | idle =>
    rw [bodySize, Config.idleSize]
    split <;> omega

/-- A field read from the body that was built of a unit is the unit's. -/
theorem fieldOfBody_frame (k : FrameKind) (u : Fpu) (free : Nat) {f : FpuField} (hf : f ∈ frameFieldsOf k) :
    fieldOfBody (layoutOf k) ((List.range (bodySize k / 4)).map (frameLong k u free)) f = fpuFieldValue f u := by
  have hfits := layout_fits (layoutOf_ok k) hf
  have hsize := bodySize_dvd k
  rw [fieldOfBody, ← numOfBits_of_value (fpuFieldValue_lt f u)]
  refine numOfBits_congr fun j hj => ?_
  rw [frameBody_bit k u free (by omega), frameBit_of_field (layoutOf_ok k) u hf hj, Option.getD_some]

/-! ### Loading the fields -/

/-- The fields of a unit taken over from another. -/
def copyFields (u : Fpu) (fs : List FpuField) (v : Fpu) : Fpu := fs.foldl (fun v f => setFpuField f (fpuFieldValue f u) v) v

theorem loadFields_eq {pos : FpuField → Nat} {ls : List Long} {u : Fpu} {fs : List FpuField}
    (h : ∀ f ∈ fs, fieldOfBody pos ls f = fpuFieldValue f u) (v : Fpu) : loadFields pos ls fs v = copyFields u fs v := by
  induction fs generalizing v with
  | nil => rfl
  | cons f fs ih =>
    rw [loadFields, h f List.mem_cons_self, ih fun g hg => h g (List.mem_cons_of_mem f hg)]
    rfl

theorem bool_of_toNat (b : Bool) : (b.toNat % 2 == 1) = b := by cases b <;> rfl

theorem copyFields_unimp (u v : Fpu) : copyFields u Config.unimpFields v =
    { v with cmdreg1b := u.cmdreg1b, etemp := u.etemp, fptemp := u.fptemp, stag := u.stag, dtag := u.dtag, e1 := u.e1,
             fpiarcu := u.fpiarcu } := by
  simp only [copyFields, Config.unimpFields, List.foldl_cons, List.foldl_nil, setFpuField, fpuFieldValue, BitVec.ofNat_toNat,
    BitVec.setWidth_eq, bool_of_toNat]

theorem copyFields_append (u : Fpu) (fs gs : List FpuField) (v : Fpu) :
    copyFields u (fs ++ gs) v = copyFields u gs (copyFields u fs v) := List.foldl_append

/-- The exponent of WBTEMP, put together from its two fields. -/
theorem wbte_of_fields (m : BitVec 16) (n : BitVec 16) :
    ((BitVec.ofBool (m.getLsbD 15) ++ n.extractLsb' 0 15 : BitVec 16).extractLsb' 15 1 ++ m.extractLsb' 0 15 : BitVec 16) = m := by
  refine BitVec.eq_of_getLsbD_eq fun i hi => ?_
  simp only [BitVec.getLsbD_append, BitVec.getLsbD_extractLsb']
  rcases Nat.lt_or_ge i 15 with h | h
  · simp [h]
  · obtain rfl : i = 15 := by omega
    simp

/-- The mantissa of WBTEMP, put together from its four fields. -/
theorem wbtm_of_fields (m n : BitVec 67) :
    let m1 : BitVec 67 := BitVec.ofBool (m.getLsbD 66) ++ n.extractLsb' 0 66
    let m2 : BitVec 67 := m1.extractLsb' 66 1 ++ m.extractLsb' 2 64 ++ m1.extractLsb' 0 2
    let m3 : BitVec 67 := m2.extractLsb' 2 65 ++ BitVec.ofBool (m.getLsbD 1) ++ m2.extractLsb' 0 1
    (m3.extractLsb' 1 66 ++ BitVec.ofBool (m.getLsbD 0) : BitVec 67) = m := by
  intro m1 m2 m3
  refine BitVec.eq_of_getLsbD_eq fun i hi => ?_
  simp only [m3, m2, m1, BitVec.getLsbD_append, BitVec.getLsbD_extractLsb']
  rcases (by omega : i = 0 ∨ i = 1 ∨ (2 ≤ i ∧ i < 66) ∨ i = 66) with rfl | rfl | ⟨h2, h66⟩ | rfl
  · simp
  · simp
  · obtain ⟨j, rfl⟩ := Nat.exists_eq_add_of_le' h2
    simp [show j < 64 by omega, show j < 65 by omega, show j + 1 < 66 by omega, Nat.add_comm 2 j]
  · simp

theorem copyFields_busy (u v : Fpu) : copyFields u Config.busyFields v = { u with mode := v.mode, pending := v.pending } := by
  rw [Config.busyFields, copyFields_append, copyFields_unimp]
  simp only [copyFields, List.foldl_cons, List.foldl_nil, setFpuField, fpuFieldValue, BitVec.ofNat_toNat,
    BitVec.setWidth_eq, bool_of_toNat, wbte_of_fields, wbtm_of_fields]

/-- Settles O60: each field read from the body is the unit's (`fieldOfBody_frame`), and together they are the unit
(`copyFields_busy`, `copyFields_unimp`). -/
theorem stateFrameReloads : Obligations.StateFrameReloads := by
  unfold Obligations.StateFrameReloads
  intro u v free
  exact ⟨(loadFields_eq (fun _ hf => fieldOfBody_frame .busy u free hf) v).trans (copyFields_busy u v),
    (loadFields_eq (fun _ hf => fieldOfBody_frame .unimp u free hf) v).trans (copyFields_unimp u v)⟩

end Sys2Proof.Machine
end

