-- ==== Sys2Proof/Proofs/FpSave.lean ====
section
/-!
SUPPORT. FSAVE (42_fp_instructions.md R280).
-/
namespace Sys2Proof.Machine

theorem bodySize_le (k : FrameKind) : bodySize k ≤ 252 := by
  cases k with
  | busy | unimp => decide
  | null =>
    rw [bodySize, Config.nullFrameBytes]
    omega
  | idle =>
    rw [bodySize, Config.idleSize]
    split <;> omega

theorem buildFrame_length (k : FrameKind) (u : Fpu) (free : Nat) : 4 * (buildFrame k u free).length = 4 + bodySize k := by
  have := bodySize_dvd k
  rw [buildFrame, List.length_cons, List.length_map, List.length_range]
  omega

/-- The state with two free values drawn. -/
def State.drawnTwo (s : State) : State := { s with freeCount := s.freeCount + 2 }

/-- Settles O58: the frame is built of the unit, and its fields read back from it (`fieldOfBody_frame`). -/
theorem fsaveWritesFrame : Obligations.FsaveWritesFrame := by
  unfold Obligations.FsaveWritesFrame
  intro s ea l a hplain hw hs k hl ha
  have hkind : frameKindOf s.fpu = k := rfl
  clear_value k
  let u : Fpu := { s.fpu with cuSavepc := Config.freeWord (s.freeCount + 1) }
  have hdrawn : s.drawnTwo.plain := hplain
  have hloc : locate ea (4 + bodySize k) (addrPlus s.pc 2) s.drawnTwo = .ok l s.drawnTwo :=
    locate_congr (t := s.drawnTwo) hplain hdrawn rfl rfl rfl hl
  have hlen : 4 * (buildFrame k u s.freeCount).length ≤ 2 ^ 32 := by
    have := bodySize_le k
    rw [buildFrame_length]
    omega
  obtain ⟨t, ht, hstored⟩ := writeLongs_plain hdrawn (show s.drawnTwo.memOk from hw) a hlen
  have hdrawnUnit : s.drawnTwo = s.withUnit s.drawnTwo := rfl
  rw [hdrawnUnit] at hstored
  obtain ⟨hst, heq⟩ := hstored.withUnit
  have hext : addrPlus s.drawnTwo.pc (2 + 2 * 0) = addrPlus s.pc 2 := rfl
  refine ⟨t.withUnit s, Config.freeWord (s.freeCount + 1), Config.freeWord s.freeCount, (buildFrame k u s.freeCount).tail,
    s.freeCount + 2, hst, ?_, fun f hf => fieldOfBody_frame k u s.freeCount hf, ?_⟩
  · rw [buildFrame, List.tail_cons, List.length_map, List.length_range, bodySize_dvd]
  · unfold exec
    refine (runInstr_supervisor _ _ hs).trans (runInstr_of_seq ?_)
    have hdraw2 : ({ s with freeCount := s.freeCount + 1 + 1 } : State) = s.drawnTwo := rfl
    simp only [bind_eq, fetch_eq, draw_eq, hdraw2, hkind, id, extAddr, hext, hloc, ha, placeAddr, commit_eq, update_eq, pure_eq]
    have hwrite := ht
    simp only [u] at hwrite
    rw [hwrite]
    dsimp only
    have hstep : applyStep l.step t = (applyStep l.step (t.withUnit s)).withUnit s.drawnTwo := by
      conv_lhs => rw [heq]
      exact applyStep_withUnit _ _ _
    obtain ⟨regs, hregs, -⟩ := applyStep_eq l.step (t.withUnit s)
    rw [hstep, hregs]
    rfl

end Sys2Proof.Machine
end

