-- ==== Sys2Proof/Proofs/FpRestore.lean ====
section
/-!
SUPPORT. FRESTORE (42_fp_instructions.md R281, R293; 43_fp_exceptions.md R341).
-/
namespace Sys2Proof.Machine

/-! ### The header of a frame -/

theorem longAt_header (s : State) (a : Long) :
    (s.longAt a).extractLsb' 24 8 = s.byteAt a ∧ (s.longAt a).extractLsb' 16 8 = s.byteAt (a + 1) := by
  constructor
  · refine BitVec.eq_of_getLsbD_eq fun i hi => ?_
    simp only [State.longAt, BitVec.getLsbD_extractLsb', BitVec.getLsbD_append]
    interval_cases i <;> rfl
  · refine BitVec.eq_of_getLsbD_eq fun i hi => ?_
    simp only [State.longAt, BitVec.getLsbD_extractLsb', BitVec.getLsbD_append]
    interval_cases i <;> rfl

theorem fpuVersion_ne_zero : Config.fpuVersion ≠ 0 := by
  rw [Config.fpuVersion]
  split
  · decide
  · assumption

theorem idleSize_ne : Config.idleSize ≠ 0x28 ∧ Config.idleSize ≠ 0x60 := by
  rw [Config.idleSize]
  split
  case isTrue => decide
  case isFalse h => exact not_or.mp h

section header
variable {h : Long} {version : Byte} {size : Nat} (hv : h.extractLsb' 24 8 = version) (hs : (h.extractLsb' 16 8).toNat = size)
include hv hs

theorem kindOfHeader_eq : kindOfHeader h =
    if version = 0 then some .null
    else if version ≠ Config.fpuVersion then none
    else if size = 0x28 then some .unimp
    else if size = 0x60 then some .busy
    else if size = Config.idleSize then some .idle
    else none := by
  subst hv hs
  rfl

theorem kindOfHeader_null (h0 : version = 0) : kindOfHeader h = some .null := by rw [kindOfHeader_eq hv hs, if_pos h0]

theorem kindOfHeader_version (hn : version = Config.fpuVersion) : kindOfHeader h =
    if size = 0x28 then some .unimp else if size = 0x60 then some .busy else if size = Config.idleSize then some .idle else none := by
  rw [kindOfHeader_eq hv hs, if_neg (hn ▸ fpuVersion_ne_zero), if_neg (not_not.mpr hn)]

theorem kindOfHeader_idle (hn : version = Config.fpuVersion) (hi : size = Config.idleSize) : kindOfHeader h = some .idle := by
  obtain ⟨h28, h60⟩ := idleSize_ne
  rw [kindOfHeader_version hv hs hn, if_neg (hi ▸ h28), if_neg (hi ▸ h60), if_pos hi]

theorem kindOfHeader_none (h0 : version ≠ 0) (hn : version ≠ Config.fpuVersion ∨ size ∉ [0x28, 0x60, Config.idleSize]) :
    kindOfHeader h = none := by
  by_cases hversion : version = Config.fpuVersion
  · have hsize := hn.resolve_left (not_not.mpr hversion)
    simp only [List.mem_cons, List.not_mem_nil, or_false, not_or] at hsize
    obtain ⟨h28, h60, hi⟩ := hsize
    rw [kindOfHeader_version hv hs hversion, if_neg h28, if_neg h60, if_neg hi]
  · rw [kindOfHeader_eq hv hs, if_neg h0, if_pos hversion]

end header

/-! ### The instruction, by the kind of the frame -/

/-- The state with the address register of (An)+ past a frame. -/
def State.restored (s : State) (ea : Ea) (v : Long) : State :=
  match ea with
  | .postInc r => s.setA r v
  | _ => s

theorem restoreStep_eq (ea : Ea) (v : Long) (s : State) : restoreStep ea v s = .ok () (s.restored ea v) := by
  cases ea <;> rfl

theorem State.restored_withUnit (s u : State) (ea : Ea) (v : Long) : (s.withUnit u).restored ea v = (s.restored ea v).withUnit u := by
  cases ea with
  | postInc r => exact applyStep_withUnit (some (r, v)) s u
  | _ => rfl

theorem State.restored_eq (s : State) (ea : Ea) (v : Long) : ∃ regs, s.restored ea v = { s with regs := regs } := by
  cases ea with
  | postInc r =>
    obtain ⟨regs, h, -⟩ := setA_eq r v s
    exact ⟨regs, h⟩
  | _ => exact ⟨s.regs, rfl⟩

/-- The unit with the fields of a frame. -/
def Fpu.loaded (u : Fpu) (k : FrameKind) (ls : List Long) : Fpu :=
  { loadFields (layoutOf k) ls (frameFieldsOf k) u with mode := if k = .unimp then .unimp else .idle, pending := none }

/-- The state once the fields of a frame are loaded. -/
def State.frameLoaded (s : State) (ea : Ea) (a : Long) (k : FrameKind) : State :=
  { s.restored ea (addrPlus a (4 + bodySize k)) with fpu := s.fpu.loaded k (s.longsAt (addrPlus a 4) (bodySize k / 4)) }

section frestore
variable {s : State} {ea : Ea} {l : Located} {a : Long} (hplain : s.plain) (hs : srS s.sr = true)
  (hl : locate ea 0 (addrPlus s.pc 2) s = .ok l s) (ha : l.place = .mem a)
include hplain hs hl ha

theorem exec_frestore_null (hk : kindOfHeader (s.longAt a) = some .null) : exec (.frestore ea) s =
    .next (s.goOn (eaLength 0 ea) .seq
      ((s.restored ea (addrPlus a Config.nullFrameBytes)).withUnit
        { resetFpu s.freeCount s with freeCount := s.freeCount + resetFpuDraws })) := by
  have hread : readData a .long s = .ok (s.longAt a) s := readData_plain hplain a .long
  have hext : addrPlus s.pc (2 + 2 * 0) = addrPlus s.pc 2 := rfl
  unfold exec
  refine (runInstr_supervisor _ _ hs).trans (runInstr_of_seq ?_)
  simp only [bind_eq, extAddr, fetch_eq, hext, hl, ha, placeAddr, hread, hk, update_eq, restoreStep_eq, pure_eq]
  rw [← State.restored_withUnit]
  rfl

theorem exec_frestore_none (hk : kindOfHeader (s.longAt a) = none) : exec (.frestore ea) s =
    .next (s.takeException s.pc s.regs { vector := 14, cls := .restart, stackedPc := s.pc, format := .zero }) := by
  have hread : readData a .long s = .ok (s.longAt a) s := readData_plain hplain a .long
  have hext : addrPlus s.pc (2 + 2 * 0) = addrPlus s.pc 2 := rfl
  unfold exec
  refine (runInstr_supervisor _ _ hs).trans (runInstr_of_exc ?_)
  simp only [bind_eq, extAddr, fetch_eq, hext, hl, ha, placeAddr, hread, hk, raise_eq]

theorem exec_frestore_frame {k : FrameKind} (hk : kindOfHeader (s.longAt a) = some k) (hn : k ≠ .null) {t : State}
    (ht : (if k = .busy then afterBusy else pure ()) (s.frameLoaded ea a k) = .ok () t) :
    exec (.frestore ea) s = .next (s.goOn (eaLength 0 ea) .seq t) := by
  have hread : readData a .long s = .ok (s.longAt a) s := readData_plain hplain a .long
  have hext : addrPlus s.pc (2 + 2 * 0) = addrPlus s.pc 2 := rfl
  obtain ⟨regs, hregs⟩ := s.restored_eq ea (addrPlus a (4 + bodySize k))
  unfold exec
  refine (runInstr_supervisor _ _ hs).trans (runInstr_of_seq ?_)
  have hfpu : (s.restored ea (addrPlus a (4 + bodySize k))).fpu = s.fpu := by rw [hregs]
  have hdone (m : M Unit) (hm : m (s.frameLoaded ea a k) = .ok () t) :
      (m >>= fun _ => pure Flow.seq) (s.frameLoaded ea a k) = .ok .seq t := by
    rw [bind_eq, hm]
    rfl
  have hloaded := hdone _ ht
  rw [State.frameLoaded, ← hfpu] at hloaded
  simp only [bind_eq, extAddr, fetch_eq, hext, hl, ha, placeAddr, hread, hk]
  cases k with
  | null => exact absurd rfl hn
  | busy | unimp | idle =>
    simp only [readLongs_plain hplain, restoreStep_eq, update_eq]
    exact hloaded

end frestore

/-! ### The exception that a busy frame makes pending -/

theorem namesPacked_iff (cw : Word) : namesPacked cw = true ↔
    (cw.extractLsb' 13 3 ∈ [2, (3 : BitVec 3)] ∧ cw.extractLsb' 10 3 = 3) ∨ (cw.extractLsb' 13 3 = 3 ∧ cw.extractLsb' 10 3 = 7) := by
  unfold namesPacked
  generalize cw.extractLsb' 13 3 = opclass
  generalize cw.extractLsb' 10 3 = format
  revert opclass format
  decide

/-- The unit holds an operand of an unimplemented data type (43_fp_exceptions.md R341). -/
def Fpu.dataType (u : Fpu) : Prop :=
  u.e1 = true ∧ (u.stag ∈ [4, (5 : BitVec 3)] ∨ u.dtag ∈ [4, (5 : BitVec 3)] ∨
    (u.cmdreg1b.extractLsb' 13 3 ∈ [2, (3 : BitVec 3)] ∧ u.cmdreg1b.extractLsb' 10 3 = 3) ∨
    (u.cmdreg1b.extractLsb' 13 3 = 3 ∧ u.cmdreg1b.extractLsb' 10 3 = 7))

theorem dataType_iff (u : Fpu) : (u.e1 && ((u.stag == tagUnnormal || u.stag == tagDenormal) ||
    (u.dtag == tagUnnormal || u.dtag == tagDenormal) || namesPacked u.cmdreg1b)) = true ↔ u.dataType := by
  rw [Fpu.dataType, ← namesPacked_iff]
  simp only [Bool.and_eq_true, Bool.or_eq_true, beq_iff_eq, tagUnnormal, tagDenormal, List.mem_cons, List.not_mem_nil, or_false,
    or_assoc]

/-- Whether an exception bit is set and traps. -/
def trapsAt (fpsr fpcr : Long) (cw : Word) (bit : Nat) : Bool :=
  fpsr.getLsbD bit && (fpcr.getLsbD bit || bit == 12 || bit == 11 ||
    ((bit == 14 || bit == 13) && cw.extractLsb' 13 3 == 3 && [0, 4, (6 : BitVec 3)].contains (cw.extractLsb' 10 3)))

theorem trapsAt_bit (fpsr fpcr : Long) (cw : Word) (x : FpExc) :
    trapsAt fpsr fpcr cw x.bit = (excSet fpsr x && trapsOf fpcr cw x) := by
  have hformat : [0, 4, (6 : BitVec 3)].contains (cw.extractLsb' 10 3) =
      (cw.extractLsb' 10 3 == 0 || cw.extractLsb' 10 3 == 4 || cw.extractLsb' 10 3 == 6) := by
    generalize cw.extractLsb' 10 3 = f
    revert f
    decide
  rw [trapsAt, hformat, excSet, trapsOf, trapEnabled, movesOutInteger]
  cases x <;> rfl

/-- The exception bits with their vectors, in their order. -/
def excOrder : List (Nat × Byte) := [(15, 48), (14, 54), (13, 52), (12, 53), (11, 51), (10, 50), (9, 49), (8, 49)]

theorem trapVector_of_dataType {u : Fpu} (h : u.dataType) (fpsr fpcr : Long) : trapVector u fpsr fpcr = some 55 :=
  if_pos ((dataType_iff u).mpr h)

theorem trapVector_of_not_dataType {u : Fpu} (h : ¬ u.dataType) (fpsr fpcr : Long) :
    trapVector u fpsr fpcr = (excOrder.find? fun x => trapsAt fpsr fpcr u.cmdreg1b x.1).map (·.2) := by
  have horder : excOrder = fpExcOrder.map fun x => (x.bit, x.vector) := rfl
  have hpred : (fun x : FpExc => trapsAt fpsr fpcr u.cmdreg1b x.bit) = fun x => excSet fpsr x && trapsOf fpcr u.cmdreg1b x :=
    funext (trapsAt_bit fpsr fpcr u.cmdreg1b)
  rw [horder, List.find?_map, Option.map_map]
  refine (if_neg fun hd => h ((dataType_iff u).mp hd)).trans ?_
  show _ = (fpExcOrder.find? fun x => trapsAt fpsr fpcr u.cmdreg1b x.bit).map _
  rw [hpred]
  cases fpExcOrder.find? fun x => excSet fpsr x && trapsOf fpcr u.cmdreg1b x <;> rfl

/-- The exception pending after a busy frame with E1 or E3 set. -/
def Fpu.pends (u : Fpu) (vector : Option Byte) : Fpu :=
  { u with pending := vector.map fun v => { vector := v, unit := if u.e3 then .e3 else .e1, post := false } }

theorem afterBusy_of_exception {t : State} (h : t.fpu.e1 = true ∨ t.fpu.e3 = true) :
    afterBusy t = .ok () { t with fpu := t.fpu.pends (trapVector t.fpu t.fp.fpsr t.fp.fpcr) } := by
  have hany : (t.fpu.e1 || t.fpu.e3) = true := Bool.or_eq_true_iff.mpr h
  unfold afterBusy
  simp only [bind_eq, fetch_eq, hany, if_true, update_eq, Fpu.pends]
  cases trapVector t.fpu t.fp.fpsr t.fp.fpcr <;> rfl

/-! ### The instruction that a busy frame completes -/

theorem opOfCmd_of_arithmetic {i : Instr} {op : FpOp} {form : Option Prec} {cmd : BitVec 7} {src : FpSrc} {dst : RegNo}
    (h : fpArithmetic i = some (op, form, cmd, src, dst)) : opOfCmd cmd = some (op, form) ∧ cmd ≠ 5 := by
  unfold fpArithmetic at h
  split at h <;> cases h <;> exact ⟨rfl, by decide⟩

/-- The arithmetic instructions. -/
def arithmeticForms : List (FpSrc → RegNo → Instr) :=
  [.fmove, .fsmove, .fdmove, .fabs, .fsabs, .fdabs, .fneg, .fsneg, .fdneg, .fsqrt, .fssqrt, .fdsqrt, .fadd, .fsadd, .fdadd, .fsub,
    .fssub, .fdsub, .fmul, .fsmul, .fdmul, .fdiv, .fsdiv, .fddiv, .fcmp, .ftst]

/-- The command bits of an instruction that CMDREG1B's stand for: $05 for FSQRT's $04 (42_fp_instructions.md R284). -/
def instrCmd (cmd : BitVec 7) : BitVec 7 := if cmd = 5 then 4 else cmd

theorem arithmetic_of_opOfCmd : ∀ cmd : BitVec 7, ∀ r ∈ opOfCmd cmd,
    ∃ i ∈ arithmeticForms, fpArithmetic (i (.reg 0) 0) = some (r.1, r.2, instrCmd cmd, .reg 0, 0) := by decide

theorem opclass0x0_iff (cw : Word) : opclass0x0 cw = true ↔
    cw.extractLsb' 13 3 = 0 ∨ (cw.extractLsb' 13 3 = 2 ∧ cw.extractLsb' 10 3 ≠ 7) := by
  simp only [opclass0x0, Bool.or_eq_true, Bool.and_eq_true, beq_iff_eq, bne_iff_ne]

/-- Whether a unit with neither E1 nor E3 set completes an instruction with some command bits. -/
def Fpu.continues (u : Fpu) (cmd : BitVec 7) : Prop :=
  u.t = false ∧ u.cuSavepc = Config.cuSavepcContinue ∧
    (u.cmdreg1b.extractLsb' 13 3 = 0 ∨ (u.cmdreg1b.extractLsb' 13 3 = 2 ∧ u.cmdreg1b.extractLsb' 10 3 ≠ 7)) ∧
    (u.cmdreg1b.extractLsb' 0 7 = cmd ∨ (cmd = 4 ∧ u.cmdreg1b.extractLsb' 0 7 = 5))

/-- The job of that instruction. -/
def Fpu.job (u : Fpu) (op : FpOp) (form : Option Prec) (cmd : BitVec 7) : FpJob :=
  { ia := u.fpiarcu, cw := (u.cmdreg1b &&& 0xFF80) ||| cmd.setWidth 16, op := op, src := operandOf u.etemp,
    dst := u.cmdreg1b.extractLsb' 7 3, dval := u.fptemp, form := form }

theorem commandWord_instrCmd (cw : Word) :
    (if cw.extractLsb' 0 7 = 5 then cw ^^^ 1 else cw) = (cw &&& 0xFF80) ||| (instrCmd (cw.extractLsb' 0 7)).setWidth 16 := by
  have hlow (k : Nat) (hk : k < 7) : (cw.extractLsb' 0 7).getLsbD k = cw.getLsbD k := by
    rw [BitVec.getLsbD_extractLsb', decide_eq_true hk, Bool.true_and, Nat.zero_add]
  have hmask (k : Nat) (hk : k < 16) : (0xFF80 : Word).getLsbD k = decide (7 ≤ k) := by
    interval_cases k <;> rfl
  refine BitVec.eq_of_getLsbD_eq fun k hk => ?_
  rw [BitVec.getLsbD_or, BitVec.getLsbD_and, hmask k hk, BitVec.getLsbD_setWidth, decide_eq_true hk, Bool.true_and, instrCmd]
  split
  case isTrue h5 =>
    rw [h5] at hlow
    rw [BitVec.getLsbD_xor]
    rcases Nat.lt_or_ge k 7 with h | h
    · rw [← hlow k h, decide_eq_false (by omega), Bool.and_false, Bool.false_or]
      interval_cases k <;> rfl
    · rw [decide_eq_true h, Bool.and_true, BitVec.getLsbD_of_ge (4 : BitVec 7) k h, Bool.or_false]
      interval_cases k <;> exact Bool.xor_false _
  case isFalse =>
    rcases Nat.lt_or_ge k 7 with h | h
    · rw [hlow k h, decide_eq_false (by omega), Bool.and_false, Bool.false_or]
    · rw [decide_eq_true h, Bool.and_true, BitVec.getLsbD_of_ge _ k h, Bool.or_false]

section continued
variable {u : Fpu} (h1 : u.e1 = false) (h3 : u.e3 = false)
include h1 h3

theorem continuedJob_eq : continuedJob u =
    if u.t = false ∧ u.cuSavepc = Config.cuSavepcContinue ∧ opclass0x0 u.cmdreg1b = true then
      (opOfCmd (u.cmdreg1b.extractLsb' 0 7)).map fun r => u.job r.1 r.2 (instrCmd (u.cmdreg1b.extractLsb' 0 7))
    else none := by
  unfold continuedJob
  have hcond : (u.e1 || u.e3 || u.t || !opclass0x0 u.cmdreg1b || u.cuSavepc != Config.cuSavepcContinue) = true ↔
      ¬ (u.t = false ∧ u.cuSavepc = Config.cuSavepcContinue ∧ opclass0x0 u.cmdreg1b = true) := by
    rw [h1, h3]
    cases u.t <;> cases opclass0x0 u.cmdreg1b <;> simp
  by_cases hc : u.t = false ∧ u.cuSavepc = Config.cuSavepcContinue ∧ opclass0x0 u.cmdreg1b = true
  · rw [if_neg (by rw [hcond]; exact not_not.mpr hc), if_pos hc]
    dsimp only
    cases opOfCmd (u.cmdreg1b.extractLsb' 0 7) with
    | none => rfl
    | some r =>
      dsimp only [Option.map_some, Fpu.job]
      rw [commandWord_instrCmd]
  · rw [if_pos (hcond.mpr hc), if_neg hc]

theorem continuedJob_of_continues {i : Instr} {op : FpOp} {form : Option Prec} {cmd : BitVec 7} {src : FpSrc} {dst : RegNo}
    (hi : fpArithmetic i = some (op, form, cmd, src, dst)) (hc : u.continues cmd) : continuedJob u = some (u.job op form cmd) := by
  obtain ⟨ht, hcu, hop, hbits⟩ := hc
  obtain ⟨hcmd, hne⟩ := opOfCmd_of_arithmetic hi
  rw [continuedJob_eq h1 h3, if_pos ⟨ht, hcu, (opclass0x0_iff _).mpr hop⟩]
  rcases hbits with hb | ⟨rfl, hb⟩
  · rw [hb, hcmd, instrCmd, if_neg hne]
    rfl
  · rw [hb, show opOfCmd 5 = opOfCmd 4 from rfl, hcmd]
    rfl

theorem continuedJob_of_not_continues (hc : ∀ i op form cmd src dst, fpArithmetic i = some (op, form, cmd, src, dst) → ¬ u.continues cmd) :
    continuedJob u = none := by
  rw [continuedJob_eq h1 h3]
  split
  case isFalse => rfl
  case isTrue h =>
    obtain ⟨ht, hcu, hop⟩ := h
    cases ho : opOfCmd (u.cmdreg1b.extractLsb' 0 7) with
    | none => rfl
    | some r =>
      obtain ⟨i, -, hi⟩ := arithmetic_of_opOfCmd _ r ho
      refine absurd ⟨ht, hcu, (opclass0x0_iff _).mp hop, ?_⟩ (hc _ _ _ _ _ _ hi)
      rw [instrCmd]
      split
      case isTrue h5 => exact .inr ⟨rfl, h5⟩
      case isFalse => exact .inl rfl

end continued

theorem afterBusy_of_job {t : State} (h1 : t.fpu.e1 = false) (h3 : t.fpu.e3 = false) {j : FpJob} (hj : continuedJob t.fpu = some j) :
    afterBusy t = runJob j t := by
  unfold afterBusy
  simp only [bind_eq, fetch_eq, h1, h3, Bool.or_false, Bool.false_eq_true, if_false, hj]

theorem afterBusy_of_no_job {t : State} (h1 : t.fpu.e1 = false) (h3 : t.fpu.e3 = false) (hj : continuedJob t.fpu = none) :
    afterBusy t = .ok () t := by
  unfold afterBusy
  simp only [bind_eq, fetch_eq, h1, h3, Bool.or_false, Bool.false_eq_true, if_false, hj, pure_eq]

theorem Fpu.loaded_busy (u : Fpu) (ls : List Long) :
    u.loaded .busy ls = { loadFields Config.busyLayout ls Config.busyFields u with mode := .idle, pending := none } := rfl

theorem Fpu.loaded_unimp (u : Fpu) (ls : List Long) :
    u.loaded .unimp ls = { loadFields Config.unimpLayout ls Config.unimpFields u with mode := .unimp, pending := none } := rfl

theorem Fpu.loaded_idle (u : Fpu) (ls : List Long) : u.loaded .idle ls = { u with mode := .idle, pending := none } := rfl

/-- Settles O59: the header names the kind of the frame, and a busy one is followed up by its exception (`trapVector_of_dataType`,
`trapVector_of_not_dataType`) or its instruction (`continuedJob_of_continues`). -/
theorem frestoreReadsFrame : Obligations.FrestoreReadsFrame := by
  unfold Obligations.FrestoreReadsFrame
  intro s ea l a hplain hs hl ha version size body stepped goes
  obtain ⟨hv, hb⟩ := longAt_header s a
  have hsize : ((s.longAt a).extractLsb' 16 8).toNat = size := congrArg BitVec.toNat hb
  have hstepped (n : Nat) : stepped n = s.restored ea (addrPlus a n) := by cases ea <;> rfl
  have hframe {k : FrameKind} (hk : kindOfHeader (s.longAt a) = some k) (hn : k ≠ .null) {t : State}
      (ht : (if k = .busy then afterBusy else pure ()) (s.frameLoaded ea a k) = .ok () t) : goes t :=
    exec_frestore_frame hplain hs hl ha hk hn ht
  have hloaded (k : FrameKind) : s.frameLoaded ea a k = { stepped (4 + bodySize k) with fpu := s.fpu.loaded k (body (bodySize k)) } := by
    rw [hstepped]
    rfl
  refine ⟨fun h0 => ?_, fun hn hi => ?_, fun hn hi => ?_, fun hn hi => ?_, fun h0 hn => ?_⟩
  · have hnull := exec_frestore_null hplain hs hl ha (kindOfHeader_null hv hsize h0)
    rw [← hstepped] at hnull
    exact ⟨_, hnull, rfl, rfl, rfl⟩
  · refine hframe (kindOfHeader_idle hv hsize hn hi) (by decide) ?_
    rw [hloaded, Fpu.loaded_idle]
    rfl
  · have hk : kindOfHeader (s.longAt a) = some .unimp := by rw [kindOfHeader_version hv hsize hn, if_pos hi]
    refine hframe hk (by decide) ?_
    rw [hloaded, Fpu.loaded_unimp]
    rfl
  · have hk : kindOfHeader (s.longAt a) = some .busy := by
      rw [kindOfHeader_version hv hsize hn, if_neg (by rw [hi]; decide), if_pos hi]
    intro u loaded opclass format dataType traps order pends
    have hload : s.frameLoaded ea a .busy = loaded := by
      rw [hloaded, Fpu.loaded_busy]
      rfl
    have hbusy {t : State} (ht : afterBusy loaded = .ok () t) : goes t := by
      refine hframe hk (by decide) ?_
      rw [hload, if_pos rfl]
      exact ht
    have hfp : loaded.fp = s.fp := by
      obtain ⟨regs, hregs⟩ := s.restored_eq ea (addrPlus a 0x64)
      show (stepped 0x64).fp = s.fp
      rw [hstepped, hregs]
    clear_value u
    refine ⟨fun he => ⟨fun hd => ?_, fun hd => ?_⟩, fun h1 h3 => ⟨fun i op form cmd src dst t hi hc ht => ?_, fun hc => ?_⟩⟩
    · refine hbusy ((afterBusy_of_exception he).trans ?_)
      rw [trapVector_of_dataType (u := loaded.fpu) hd]
      rfl
    · refine hbusy ((afterBusy_of_exception he).trans ?_)
      rw [trapVector_of_not_dataType (u := loaded.fpu) hd, hfp]
      rfl
    · exact hbusy ((afterBusy_of_job h1 h3 (continuedJob_of_continues h1 h3 hi hc)).trans ht)
    · exact hbusy (afterBusy_of_no_job h1 h3 (continuedJob_of_not_continues h1 h3 hc))
  · exact exec_frestore_none hplain hs hl ha (kindOfHeader_none hv hsize h0 hn)

end Sys2Proof.Machine
end

