-- ==== Sys2Proof/Proofs/Masks.lean ====
section
/-!
SUPPORT. Registers some of whose bits do not exist (10_state.md R23, R35, R36; 41_system_instructions.md R207): what the writes of
SR, FPCR and FPSR keep of that.
-/
namespace Sys2Proof.Machine

/-- A value with no bit outside a mask. -/
def Within {w : Nat} (m v : BitVec w) : Prop := v &&& ~~~m = 0

section within
variable {w : Nat} {m : BitVec w}

theorem within_iff {v : BitVec w} : Within m v ↔ ∀ i, v.getLsbD i = true → m.getLsbD i = true := by
  constructor
  · intro h i hv
    have hbit := congrArg (BitVec.getLsbD · i) h
    have hi := BitVec.lt_of_getLsbD hv
    simpa [hv, hi] using hbit
  · intro h
    refine BitVec.eq_of_getLsbD_eq fun i hi => ?_
    cases hv : v.getLsbD i with
    | false => simp [hv]
    | true => simp [hv, hi, h i hv]

theorem within_or {u v : BitVec w} (hu : Within m u) (hv : Within m v) : Within m (u ||| v) := by
  simp only [within_iff, BitVec.getLsbD_or, Bool.or_eq_true] at *
  exact fun i h => h.elim (hu i) (hv i)

theorem within_and {u : BitVec w} (hu : Within m u) (v : BitVec w) : Within m (u &&& v) := by
  simp only [within_iff, BitVec.getLsbD_and, Bool.and_eq_true] at *
  exact fun i h => hu i h.1

theorem within_and_right {v : BitVec w} (u : BitVec w) (hv : Within m v) : Within m (u &&& v) :=
  BitVec.and_comm u v ▸ within_and hv u

theorem within_self : Within m m := BitVec.and_not_self m

end within

/-! ### SR -/

theorem within_enterSupervisor {sr : Word} (h : Within srMask sr) : Within srMask (enterSupervisor sr) :=
  within_and (within_or h (by decide : _ = _)) _

theorem within_interruptSr {sr : Word} (h : Within srMask sr) (level : BitVec 3) : Within srMask (interruptSr sr level) :=
  within_or (within_and (within_enterSupervisor h) _) ((by decide : ∀ l : BitVec 3, (l.setWidth 16 <<< 8) &&& ~~~srMask = 0) level)

theorem withNzvc_eq (sr : Word) (n z v c : Bool) : withNzvc sr n z v c =
    (sr &&& 0xFFF0) ||| (0#12 ++ BitVec.ofBool n ++ BitVec.ofBool z ++ BitVec.ofBool v ++ BitVec.ofBool c) := by
  refine BitVec.eq_of_getLsbD_eq fun i hi => ?_
  simp only [withNzvc, BitVec.getLsbD_or, BitVec.getLsbD_and, BitVec.getLsbD_append, BitVec.getLsbD_extractLsb']
  interval_cases i <;> simp

theorem within_withNzvc {sr : Word} (h : Within srMask sr) (n z v c : Bool) : Within srMask (withNzvc sr n z v c) := by
  rw [withNzvc_eq]
  exact within_or (within_and h _) ((by decide : ∀ n z v c : Bool,
    (0#12 ++ BitVec.ofBool n ++ BitVec.ofBool z ++ BitVec.ofBool v ++ BitVec.ofBool c) &&& ~~~srMask = 0) n z v c)

theorem withNzvc_upper (sr : Word) (n z v c : Bool) : (withNzvc sr n z v c).extractLsb' 8 8 = sr.extractLsb' 8 8 := by
  refine BitVec.eq_of_getLsbD_eq fun i hi => ?_
  simp only [withNzvc, BitVec.getLsbD_append, BitVec.getLsbD_extractLsb']
  interval_cases i <;> simp

/-- SR with the condition codes of an instruction of `exec_other`. -/
def withCcr (sr : Word) (v : Byte) : Word := (sr &&& 0xFFE0) ||| (v.setWidth 16 &&& 0x001F)

theorem within_withCcr {sr : Word} (h : Within srMask sr) (v : Byte) : Within srMask (withCcr sr v) :=
  within_or (within_and h _) (within_and_right _ (by decide : _ = _))

theorem withCcr_upper (sr : Word) (v : Byte) : (withCcr sr v).extractLsb' 8 8 = sr.extractLsb' 8 8 := by
  refine BitVec.eq_of_getLsbD_eq fun i hi => ?_
  simp only [withCcr, BitVec.getLsbD_extractLsb', BitVec.getLsbD_or, BitVec.getLsbD_and, BitVec.getLsbD_setWidth]
  interval_cases i <;> simp

theorem srS_of_upper {v w : Word} (h : v.extractLsb' 8 8 = w.extractLsb' 8 8) : srS v = srS w := by
  simpa [srS] using congrArg (BitVec.getLsbD · 5) h

/-! ### FPSR -/

theorem within_excBits {f : Long} (h : Within fpsrMask f) (x : FpExc) : Within fpsrMask (excBits x f) := by
  refine within_or h ?_
  unfold Within
  cases x <;> decide

theorem within_withFpcc {f : Long} (h : Within fpsrMask f) (n z i nan : Bool) : Within fpsrMask (withFpcc f n z i nan) := by
  rw [within_iff] at h ⊢
  intro k hk
  rw [withFpcc_getLsbD] at hk
  by_cases hcc : k = 27 ∨ k = 26 ∨ k = 25 ∨ k = 24
  · rcases hcc with rfl | rfl | rfl | rfl <;> rfl
  · obtain ⟨h27, h26, h25, h24⟩ : k ≠ 27 ∧ k ≠ 26 ∧ k ≠ 25 ∧ k ≠ 24 := by omega
    rw [if_neg h27, if_neg h26, if_neg h25, if_neg h24] at hk
    exact h k hk

theorem within_accrueBits {f : Long} (h : Within fpsrMask f) : Within fpsrMask (accrueBits f) := by
  rw [within_iff] at h ⊢
  intro k hk
  rw [accrueBits_getLsbD, Bool.or_eq_true] at hk
  rcases hk with hk | hk
  · exact h k hk
  · unfold accruedBit at hk
    split at hk <;> first | rfl | exact absurd hk Bool.false_ne_true

end Sys2Proof.Machine
end

