-- ==== Sys2Proof/Proofs/Lawful.lean ====
section
/-!
SUPPORT. What every part of every instruction keeps: the invariant but for the program counter and the trace that is due, and in
user mode the supervisor's state (10_state.md section 3; 41_system_instructions.md R209).
-/
namespace Sys2Proof.Machine

/-- The invariant but for the program counter and the trace that is due. -/
structure State.Sound (s : State) : Prop where
  mem : s.memOk
  sr : srOk s
  ctl : ctlOk s
  fp : fpOk s
  pending : pendingOk s

/-- The supervisor's state is the same: control registers, supervisor stack pointers, the upper byte of SR. -/
structure State.SupervisorSame (s t : State) : Prop where
  ctl : t.ctl = s.ctl
  msp : t.regs.msp = s.regs.msp
  isp : t.regs.isp = s.regs.isp
  upper : t.sr.extractLsb' 8 8 = s.sr.extractLsb' 8 8

theorem State.SupervisorSame.refl (s : State) : s.SupervisorSame s := ⟨rfl, rfl, rfl, rfl⟩

theorem State.SupervisorSame.trans {s t u : State} (h : s.SupervisorSame t) (h' : t.SupervisorSame u) : s.SupervisorSame u :=
  ⟨h'.ctl.trans h.ctl, h'.msp.trans h.msp, h'.isp.trans h.isp, h'.upper.trans h.upper⟩

theorem State.SupervisorSame.user {s t : State} (h : s.SupervisorSame t) : srS t.sr = srS s.sr := srS_of_upper h.upper

/-- One state leads to another as the parts of instructions may: the other is sound if the first is, and in user mode the
supervisor's state is the same. -/
structure Lawful (s t : State) : Prop where
  sound : s.Sound → t.Sound
  user : srS s.sr = false → s.SupervisorSame t

/-- In supervisor mode soundness is all that is to keep. -/
theorem lawful_of_supervisor {s t : State} (hs : srS s.sr = true) (h : s.Sound → t.Sound) : Lawful s t :=
  ⟨h, fun hu => absurd (hs.symm.trans hu) (by decide)⟩

theorem lawful_relates : Relates Lawful where
  refl s := ⟨id, fun _ => .refl s⟩
  trans _ _ _ h h' := ⟨h'.sound ∘ h.sound, fun hu => (h.user hu).trans (h'.user ((h.user hu).user.trans hu))⟩

/-! ### Updates -/

/-- Registers, memory and the record of written bytes changed, SR and all but the supervisor's stack pointers at liberty. -/
theorem lawful_of_machine {s t : State} (hmem : s.memOk → t.memOk)
    (hregs : srS s.sr = false → t.regs.msp = s.regs.msp ∧ t.regs.isp = s.regs.isp) (hsr : t.sr = s.sr) (hctl : t.ctl = s.ctl) (hfp : t.fp = s.fp) (hfpu : t.fpu = s.fpu) : Lawful s t where
  sound h := by
    refine ⟨hmem h.mem, ?_, ?_, ?_, ?_⟩
    · rw [srOk, hsr]; exact h.sr
    · rw [ctlOk, hctl]; exact h.ctl
    · rw [fpOk, hfp]; exact h.fp
    · rw [pendingOk, hfpu]; exact h.pending
  user hu := ⟨hctl, (hregs hu).1, (hregs hu).2, by rw [hsr]⟩

/-- In user mode A7 is the user stack pointer: a write of an address register leaves the others. -/
theorem setA_user {s : State} (hu : srS s.sr = false) (n : RegNo) (v : Long) :
    (s.setA n v).regs.msp = s.regs.msp ∧ (s.setA n v).regs.isp = s.regs.isp := by
  unfold State.setA
  split
  case h_8 => simp [State.setSp, activeStack, hu, State.setStack]
  all_goals exact ⟨rfl, rfl⟩

theorem lawful_operates : Operates Lawful where
  toRelates := lawful_relates
  bus s l := lawful_of_machine (fun h => ⟨State.busMove_wf h.1 l, h.2⟩) (fun _ => ⟨rfl, rfl⟩) rfl rfl rfl rfl
  count s n := lawful_of_machine id (fun _ => ⟨rfl, rfl⟩) rfl rfl rfl rfl
  write s ws := lawful_of_machine (fun h => State.writeBytes_wf h.1 h.2 ws) (fun _ => ⟨rfl, rfl⟩) rfl rfl rfl rfl
  setD s n v := lawful_of_machine id (fun _ => ⟨rfl, rfl⟩) rfl rfl rfl rfl
  setA s n v := lawful_of_machine (fun h => by simpa [State.memOk] using h) (fun hu => setA_user hu n v) (by simp) (by simp) (by simp) (by simp)

/-- SR changed below its upper byte. -/
theorem lawful_sr {s : State} {v : Word} (hv : Within srMask s.sr → Within srMask v) (hu : v.extractLsb' 8 8 = s.sr.extractLsb' 8 8) :
    Lawful s { s with sr := v } :=
  ⟨fun h => ⟨h.mem, hv h.sr, h.ctl, h.fp, h.pending⟩, fun _ => ⟨rfl, rfl, rfl, hu⟩⟩

theorem lawful_setNzvc (n z v c : Bool) (s : State) : Lawful s (s.setNzvc n z v c) :=
  lawful_sr (within_withNzvc · n z v c) (withNzvc_upper s.sr n z v c)

/-- The floating-point unit changed. -/
theorem lawful_unit {s u : State} (hfp : fpOk s → fpOk u) (hp : pendingOk s → pendingOk u) : Lawful s (s.withUnit u) :=
  ⟨fun h => ⟨h.mem, h.sr, h.ctl, hfp h.fp, hp h.pending⟩, fun _ => ⟨rfl, rfl, rfl, rfl⟩⟩

end Sys2Proof.Machine
end

