-- ==== Sys2Proof/Proofs/Entered.lean ====
section
/-!
SUPPORT. What every exception, interrupt and reset leaves: a sound state in supervisor mode with T1 and T0 clear and no trace due
(60_exceptions.md R400, R401, R405, R420, R445).
-/
namespace Sys2Proof.Machine

/-- SR as exception processing leaves it: S set, T1 and T0 clear. -/
structure SupervisorSr (sr : Word) : Prop where
  s : srS sr = true
  t1 : srT1 sr = false
  t0 : srT0 sr = false

theorem supervisorSr_enter (sr : Word) : SupervisorSr (enterSupervisor sr) := by
  constructor <;> simp [enterSupervisor, srS, srT1, srT0]

theorem supervisorSr_interrupt (sr : Word) (level : BitVec 3) : SupervisorSr (interruptSr sr level &&& 0xEFFF) := by
  constructor <;> simp [interruptSr, enterSupervisor, srS, srT1, srT0]

/-- What exception processing leaves. -/
structure State.Entered (t : State) : Prop where
  supervisor : srS t.sr = true
  pc : pcOk t
  trace : traceOk t

/-- A state that runs in supervisor mode with T1 and T0 clear, or does not run at all. -/
theorem entered_of_sr {t : State} (hsr : SupervisorSr t.sr) (hrun : t.run = .running ∨ t.run = .halted) (ht : t.tracePending = false) :
    t.Entered := by
  refine ⟨hsr.s, fun hr _ => ?_, ht⟩
  have hrunning : t.run = .running := by
    rcases hrun with h | h
    · exact h
    · simp [h] at hr
  exact ⟨hrunning, hsr.s, hsr.t1, hsr.t0⟩

/-! ### The accesses of exception processing -/

/-- What bus transfers keep. -/
structure State.Quietly (s t : State) : Prop where
  lawful : Lawful s t
  pc : t.pc = s.pc
  sr : t.sr = s.sr
  run : t.run = s.run
  trace : t.tracePending = s.tracePending

theorem buses_quietly : Buses State.Quietly where
  refl s := ⟨lawful_relates.refl s, rfl, rfl, rfl, rfl⟩
  trans _ _ _ h h' := ⟨lawful_relates.trans _ _ _ h.lawful h'.lawful, h'.pc.trans h.pc, h'.sr.trans h.sr, h'.run.trans h.run,
    h'.trace.trans h.trace⟩
  bus s l := ⟨lawful_operates.bus s l, rfl, rfl, rfl, rfl⟩
  count s n := ⟨lawful_operates.count s n, rfl, rfl, rfl, rfl⟩

/-! ### Updates -/

theorem sound_setStack {s : State} (h : s.Sound) (k : StackSel) (v : Long) : (s.setStack k v).Sound := by
  cases k <;> exact ⟨h.mem, h.sr, h.ctl, h.fp, h.pending⟩

theorem sound_flowChanged {s : State} (h : s.Sound) : s.flowChanged.Sound :=
  ⟨⟨h.mem.1, State.flowChanged_wf h.mem.2⟩, h.sr, h.ctl, h.fp, h.pending⟩

theorem sound_sr {s : State} (h : s.Sound) {v : Word} (hv : Within srMask v) : State.Sound { s with sr := v } :=
  ⟨h.mem, hv, h.ctl, h.fp, h.pending⟩

theorem sound_setStacks {s : State} (h : s.Sound) (frames : List Frame) :
    (frames.foldl (fun t f => t.setStack f.stack f.addr) s).Sound := by
  induction frames generalizing s with
  | nil => exact h
  | cons f fs ih => exact ih (sound_setStack h _ _)

theorem setStacks_sr (s : State) (frames : List Frame) : (frames.foldl (fun t f => t.setStack f.stack f.addr) s).sr = s.sr := by
  induction frames generalizing s with
  | nil => rfl
  | cons f fs ih => exact (ih _).trans (State.setStack_sr _ _ _)

theorem sound_enter {s : State} (h : s.Sound) (frames : List Frame) (e : Entry) : (s.enter frames e).Sound := by
  have h2 := sound_setStacks ((lawful_operates.write s e.bytes).sound h) frames
  exact sound_flowChanged (s := { frames.foldl (fun t f => t.setStack f.stack f.addr) (s.writeBytes e.bytes) with
    pc := _, tracePending := false, run := .running }) ⟨h2.mem, h2.sr, h2.ctl, h2.fp, h2.pending⟩

theorem entered_enter {s : State} (hs : SupervisorSr s.sr) (frames : List Frame) (e : Entry) : (s.enter frames e).Entered := by
  refine entered_of_sr ?_ (.inl rfl) rfl
  rw [show (s.enter frames e).sr = s.sr from setStacks_sr (s.writeBytes e.bytes) frames]
  exact hs

theorem sound_halt {s : State} (h : s.Sound) : s.halt.Sound := by
  have h1 := sound_sr h (within_enterSupervisor h.sr)
  exact sound_setStack (s := { s with sr := enterSupervisor s.sr, pc := _, run := .halted, tracePending := false, freeCount := _ })
    ⟨h1.mem, h1.sr, h1.ctl, h1.fp, h1.pending⟩ _ _

theorem entered_halt (s : State) : s.halt.Entered := by
  refine entered_of_sr ?_ (.inr ?_) ?_
  · rw [State.halt, State.setSp_sr]
    exact supervisorSr_enter s.sr
  · rw [State.halt, State.setSp_run]
  · rw [State.halt, State.setSp_tracePending]

/-! ### Exceptions -/

/-- An attempt ends, faulted or not, soundly; one that has not faulted is entered. -/
theorem attempt_cases {s : State} (hs : SupervisorSr s.sr) (frames : List Frame) (vector : Byte) :
    (∃ u t, s.attempt frames vector = .ok (u, t) ∧ u.Entered ∧ (s.Sound → u.Sound) ∧ (s.Sound → t.Sound)) ∨
      ∃ f t, s.attempt frames vector = .error (f, t) ∧ (s.Sound → t.Sound) := by
  have hplan := through_planEntry buses_quietly frames vector
  cases h : s.attempt frames vector with
  | ok r =>
    obtain ⟨u, t⟩ := r
    obtain ⟨e, he, rfl⟩ := attempt_ok h
    have hq := hplan.ok he
    exact .inl ⟨_, t, rfl, entered_enter (hq.sr ▸ hs) frames e, fun h => sound_enter (hq.lawful.sound h) frames e, hq.lawful.sound⟩
  | error r =>
    obtain ⟨f, t⟩ := r
    exact .inr ⟨f, t, rfl, (hplan.error (attempt_error h)).lawful.sound⟩

/-- The state that an exception at `s` leaves. -/
structure State.Takes (s t : State) : Prop where
  entered : t.Entered
  sound : s.Sound → t.Sound

theorem takes_enterOrHalt {s : State} (hs : SupervisorSr s.sr) (frames : List Frame) (vector : Byte) :
    s.Takes (State.enterOrHalt (s.attempt frames vector)) := by
  rcases attempt_cases hs frames vector with ⟨u, t, h, hu, hsu, hst⟩ | ⟨f, t, h, hst⟩
  · rw [h, State.enterOrHalt]
    split
    · exact ⟨entered_halt t, sound_halt ∘ hst⟩
    · exact ⟨hu, hsu⟩
  · rw [h]
    exact ⟨entered_halt t, sound_halt ∘ hst⟩

theorem takes_takeAddressError (s : State) (pc target : Long) : s.Takes (s.takeAddressError pc target) := by
  have h := takes_enterOrHalt (s := { s with sr := enterSupervisor s.sr }) (supervisorSr_enter s.sr)
    [s.frameOf { vector := 3, cls := .address, stackedPc := pc, format := .two (target &&& 0xFFFFFFFE) }] 3
  exact ⟨h.entered, fun hs => h.sound (sound_sr hs (within_enterSupervisor hs.sr))⟩

theorem takes_takeAccessFault (s : State) (image : Word) (pc : Long) (f : AccessFault) : s.Takes (s.takeAccessFault image pc f) := by
  have h := takes_enterOrHalt (s := { s with sr := enterSupervisor s.sr, freeCount := s.freeCount + 10 }) (supervisorSr_enter s.sr)
    [({ s with sr := enterSupervisor s.sr, freeCount := s.freeCount + 10 } : State).frameBelow (activeStack (enterSupervisor s.sr))
      (accessFrame image pc f s.freeCount)] 2
  exact ⟨h.entered, fun hs => h.sound ⟨hs.mem, within_enterSupervisor hs.sr, hs.ctl, hs.fp, hs.pending⟩⟩

theorem takes_takeAccessFault_of_sound {s t : State} (h : s.Sound → t.Sound) (image : Word) (pc : Long) (f : AccessFault) :
    s.Takes (t.takeAccessFault image pc f) :=
  ⟨(takes_takeAccessFault t image pc f).entered, (takes_takeAccessFault t image pc f).sound ∘ h⟩

theorem takes_takeException (s : State) (ia : Long) (regs0 : Regs) (e : Exc) : s.Takes (s.takeException ia regs0 e) := by
  have hsound (h : s.Sound) := sound_sr h (within_enterSupervisor h.sr)
  rw [State.takeException, State.tryException]
  rcases attempt_cases (s := { s with sr := enterSupervisor s.sr }) (supervisorSr_enter s.sr) [s.frameOf e] e.vector with
    ⟨u, t, h, hu, hsu, hst⟩ | ⟨f, t, h, hst⟩
  · rw [h]
    dsimp only
    split
    · exact ⟨entered_halt t, fun hs => sound_halt (hst (hsound hs))⟩
    · exact ⟨hu, hsu ∘ hsound⟩
  · rw [h]
    have back (hs : s.Sound) : State.Sound { t with sr := s.sr } := sound_sr (hst (hsound hs)) hs.sr
    have restart (hs : s.Sound) : State.Sound { t with sr := s.sr, regs := regs0 } :=
      ⟨(back hs).mem, (back hs).sr, (back hs).ctl, (back hs).fp, (back hs).pending⟩
    dsimp only
    cases e.cls with
    | address => exact ⟨entered_halt t, fun hs => sound_halt (hst (hsound hs))⟩
    | trace | unimp | post | keep => exact takes_takeAccessFault_of_sound back _ _ _
    | restart => exact takes_takeAccessFault_of_sound restart _ _ _

/-! ### Interrupts and reset -/

theorem takes_takeInterrupt (s : State) (level : BitVec 3) (answer : IackAnswer) : s.Takes (s.takeInterrupt level answer) := by
  let s1 : State := { s.emit (.interruptAcknowledge level) with
    sr := interruptSr s.sr level &&& 0xEFFF, irq := { s.irq with nmiLatch := s.irq.nmiLatch && level != 7 } }
  have hs1 (h : s.Sound) : s1.Sound := ⟨h.mem, within_and (within_interruptSr h.sr level) _, h.ctl, h.fp, h.pending⟩
  have htry : (s.emit (.interruptAcknowledge level)).tryInterrupt level (iackVector level answer) =
    s1.attempt ((s.emit (.interruptAcknowledge level)).interruptFrames (iackVector level answer)) (iackVector level answer) := rfl
  rw [State.takeInterrupt, htry]
  rcases attempt_cases (s := s1) (supervisorSr_interrupt s.sr level)
    ((s.emit (.interruptAcknowledge level)).interruptFrames (iackVector level answer)) (iackVector level answer) with
    ⟨u, t, h, hu, hsu, -⟩ | ⟨f, t, h, hst⟩
  · rw [h]
    exact ⟨hu, hsu ∘ hs1⟩
  · rw [h]
    have back (hs : s.Sound) : State.Sound { t with sr := s.sr, irq := s.irq } :=
      ⟨(hst (hs1 hs)).mem, hs.sr, (hst (hs1 hs)).ctl, (hst (hs1 hs)).fp, (hst (hs1 hs)).pending⟩
    exact takes_takeAccessFault_of_sound back _ _ _

theorem sound_resetRegisters {s : State} (h : s.memOk) : s.resetRegisters.Sound where
  mem := h
  sr := within_or (m := srMask) (by decide : _ = _) (within_and_right _ (by decide : _ = _))
  ctl := by
    have tt (v : Long) : v &&& Config.ttrMask &&& 0xFFFF7FFF &&& ~~~Config.ttrMask = 0 :=
      within_and (within_and_right v within_self) _
    have rp (v : Long) : v &&& Config.rpMask &&& ~~~Config.rpMask = 0 := within_and_right v within_self
    exact ⟨(by decide : (0x4000 : Word) &&& 0x3FFF = 0), (by decide : (0 : Long) &&& 0x7FFF7FFF = 0), tt _, tt _, tt _, tt _, rp _, rp _⟩
  fp := ⟨within_and_right _ within_self, within_and_right _ within_self⟩
  pending := nofun

theorem supervisorSr_reset (w : Word) : SupervisorSr (0x2700 ||| (w &&& 0x001F)) := by
  constructor <;> simp [srS, srT1, srT0]

theorem takes_resetException (s : State) : s.Takes s.resetException := by
  have hsr : SupervisorSr s.resetRegisters.sr := supervisorSr_reset (Config.freeWord s.freeCount)
  have hload (a : Long) := through_load buses_quietly (supervisorAccess a .long false)
  have halted {t : State} (h1 : s.Sound → t.Sound) (h2 : SupervisorSr t.sr) (h3 : t.tracePending = false) :
      s.Takes { t with run := .halted } :=
    ⟨entered_of_sr h2 (.inr rfl) h3, fun h => ⟨(h1 h).mem, (h1 h).sr, (h1 h).ctl, (h1 h).fp, (h1 h).pending⟩⟩
  rw [State.resetException]
  cases h : load (supervisorAccess 0 .long false) s.resetRegisters with
  | error f t =>
    have hq := (hload 0).error h
    exact halted (fun hs => hq.lawful.sound (sound_resetRegisters hs.mem)) (hq.sr ▸ hsr) hq.trace
  | ok isp t =>
    have hq := (hload 0).ok h
    have ht (hs : s.Sound) := sound_setStack (hq.lawful.sound (sound_resetRegisters hs.mem)) .isp isp
    dsimp only
    cases h' : load (supervisorAccess 4 .long false) (t.setStack .isp isp) with
    | error f u =>
      have hq' := (hload 4).error h'
      exact halted (hq'.lawful.sound ∘ ht) (hq'.sr ▸ hq.sr ▸ hsr) (hq'.trace.trans hq.trace)
    | ok pc u =>
      have hq' := (hload 4).ok h'
      have hu := hq'.lawful.sound ∘ ht
      dsimp only
      split
      · exact halted hu (hq'.sr ▸ hq.sr ▸ hsr) (hq'.trace.trans hq.trace)
      · refine ⟨entered_of_sr (hq'.sr ▸ hq.sr ▸ hsr) (.inl (hq'.run.trans hq.run)) (hq'.trace.trans hq.trace), fun hs => ?_⟩
        have h1 := hu hs
        exact sound_flowChanged (s := { u with pc := pc }) ⟨h1.mem, h1.sr, h1.ctl, h1.fp, h1.pending⟩

end Sys2Proof.Machine
end

