-- ==== Sys2Proof/Proofs/Passes.lean ====
section
/-!
SUPPORT. What an instruction ends in, from what its body keeps: the rules of the instruction monad for lawful bodies, the check of
privilege, the end of an instruction (60_exceptions.md R410, R425, R435).
-/
namespace Sys2Proof.Machine

/-! ### Lawful bodies -/

theorem through_mono {R Q : State → State → Prop} (h : ∀ s t, R s t → Q s t) {ε α : Type} {m : EStateM ε State α} (hm : Through R m) :
    Through Q m := fun s => h _ _ (hm s)

theorem lawful_bind {ε α β : Type} {m : EStateM ε State α} {f : α → EStateM ε State β} (hm : Through Lawful m)
    (hf : ∀ a, Through Lawful (f a)) : Through Lawful (m >>= f) := through_bind lawful_relates hm hf

theorem lawful_pure {ε α : Type} (a : α) : Through Lawful (pure a : EStateM ε State α) := through_pure lawful_relates a

theorem lawful_fetch {α : Type} (f : State → α) : Through Lawful (fetch f) := through_fetch lawful_relates f

theorem lawful_raise {α : Type} (e : Exc) : Through Lawful (raise e : M α) := through_raise lawful_relates e

theorem lawful_draw {α : Type} (f : Nat → α) : Through Lawful (draw f) := through_draw lawful_operates.toBuses f

theorem lawful_update {f : State → State} (hf : ∀ s, Lawful s (f s)) : Through Lawful (update f) := through_update f hf

/-! ### What supervisor mode keeps -/

/-- Soundness is kept. -/
def KeepsSound (s t : State) : Prop := s.Sound → t.Sound

theorem sound_operates : Operates KeepsSound where
  refl _ := id
  trans _ _ _ h h' := h' ∘ h
  bus s l := (lawful_operates.bus s l).sound
  count s n := (lawful_operates.count s n).sound
  write s ws := (lawful_operates.write s ws).sound
  setD s n v := (lawful_operates.setD s n v).sound
  setA s n v := (lawful_operates.setA s n v).sound

theorem sound_relates : Relates KeepsSound := sound_operates.toRelates

theorem sound_of_lawful {ε α : Type} {m : EStateM ε State α} (h : Through Lawful m) : Through KeepsSound m :=
  through_mono (fun _ _ => Lawful.sound) h

/-- A privileged instruction does nothing in user mode, and in supervisor mode only soundness is at stake. -/
theorem lawful_privileged {α : Type} {f : Unit → M α} (h : Through KeepsSound (f ())) :
    Through Lawful (requireSupervisor >>= f) := fun s => by
  unfold after
  cases hs : srS s.sr with
  | false =>
    rw [requireSupervisor_bind_user hs]
    exact lawful_relates.refl s
  | true =>
    rw [bind_eq, show requireSupervisor s = .ok () s from if_pos hs]
    exact lawful_of_supervisor hs (h s)

/-! ### The end of an instruction -/

/-- What the state that an instruction at `s` ends in has of the invariant, and of user mode's limits. -/
structure State.Passes (s t : State) : Prop where
  sound : s.Sound → t.Sound
  pc : s.pc.getLsbD 0 = false → pcOk t
  user : srS s.sr = false → srS t.sr = false → s.SupervisorSame t

/-- An instruction with a next state passes to it. -/
def Ends (s : State) (o : Host.Outcome State Fault Refusal) : Prop := ∀ t, o = .next t → s.Passes t

theorem pcOk_of_even {t : State} (h : t.pc.getLsbD 0 = false) : pcOk t := fun _ hodd => absurd (h.symm.trans hodd) (by decide)

theorem passes_of_takes {s u t : State} (h : s.Sound → u.Sound) (ht : u.Takes t) : s.Passes t where
  sound := ht.sound ∘ h
  pc _ := ht.entered.pc
  user _ hu := absurd (ht.entered.supervisor.symm.trans hu) (by decide)

theorem State.Passes.after {s u t : State} (h : s.Quietly u) (ht : u.Passes t) : s.Passes t where
  sound := ht.sound ∘ h.lawful.sound
  pc hpc := ht.pc (h.pc ▸ hpc)
  user hu hu' := (h.lawful.user hu).trans (ht.user ((h.lawful.user hu).user.trans hu) hu')

/-- A state with another program counter and another trace due. -/
theorem passes_goOn {s u : State} (h : Lawful s u) {pc : Long} (hpc : s.pc.getLsbD 0 = false → pc.getLsbD 0 = false) (trace : Bool) :
    s.Passes { u with pc := pc, tracePending := trace } :=
  ⟨fun hs => ⟨(h.sound hs).mem, (h.sound hs).sr, (h.sound hs).ctl, (h.sound hs).fp, (h.sound hs).pending⟩,
    fun hs => pcOk_of_even (hpc hs), fun hu _ => ⟨(h.user hu).ctl, (h.user hu).msp, (h.user hu).isp, (h.user hu).upper⟩⟩

theorem passes_flowChanged {s t : State} (h : s.Passes t) : s.Passes t.flowChanged :=
  ⟨sound_flowChanged ∘ h.sound, h.pc, fun hu hu' => ⟨(h.user hu hu').ctl, (h.user hu hu').msp, (h.user hu hu').isp, (h.user hu hu').upper⟩⟩

theorem passes_complete {s u : State} (h : Lawful s u) {next : Long} (hnext : s.pc.getLsbD 0 = false → next.getLsbD 0 = false) (f : Flow) :
    s.Passes (u.complete s.pc next s.sr s.regs f) := by
  cases f with
  | seq => exact passes_goOn h hnext _
  | srChange => exact passes_flowChanged (passes_goOn h hnext _)
  | jump target =>
    rw [State.complete]
    split
    · exact passes_of_takes h.sound (takes_takeException _ _ _ _)
    · next htarget => exact passes_flowChanged (passes_goOn h (fun _ => by simpa using htarget) _)

theorem next_even (pc : Long) (n : Nat) : (pc + BitVec.ofNat 32 (2 * n)).getLsbD 0 = pc.getLsbD 0 := by
  simp only [← BitVec.testBit_toNat, Nat.testBit_zero, BitVec.toNat_add, BitVec.toNat_ofNat]
  exact decide_eq_decide.mpr (by omega)

theorem ends_aborted {s u : State} (h : s.Sound → u.Sound) (ia : Long) (regs0 : Regs) (a : Abort) : Ends s (u.aborted ia regs0 a) := by
  intro t ht
  cases a with
  | access f => cases ht; exact passes_of_takes h (takes_takeAccessFault _ _ _ _)
  | exc e => cases ht; exact passes_of_takes h (takes_takeException _ _ _ _)
  | refused r => cases ht
  | fault f => cases ht

/-- An instruction with a lawful body. -/
theorem ends_runInstr {n : Nat} {body : Long → M Flow} (h : ∀ next, Through Lawful (body next)) (s : State) : Ends s (runInstr n body s) := by
  intro t ht
  unfold runInstr at ht
  cases e : body (s.pc + BitVec.ofNat 32 (2 * n)) s with
  | ok f u =>
    simp only [e] at ht
    cases ht
    exact passes_complete ((h _).ok e) (fun hpc => (next_even s.pc n).trans hpc) f
  | error a u =>
    simp only [e] at ht
    exact ends_aborted ((h _).error e).sound _ _ _ t ht

end Sys2Proof.Machine
end

