-- ==== Sys2Proof/Proofs/PassTraps.lean ====
section
/-!
SUPPORT. The trap instructions, the instructions of the system and the transfers end in what the invariant and user mode allow
(40_trap_instructions.md, 41_system_instructions.md).
-/
namespace Sys2Proof.Machine

/-! ### The trap instructions -/

theorem ends_trapIf (n : Nat) (vector : Byte) (cond : State → Bool) (s : State) :
    Ends s (runInstr n (fun next => trapIf vector next cond) s) :=
  ends_runInstr (fun _ => lawful_bind (lawful_fetch _) fun _ => lawful_bind (lawful_fetch _) fun _ =>
    through_ite (lawful_raise _) (lawful_pure _)) s

theorem ends_trap (n : BitVec 4) (s : State) : Ends s (execTrap n s) := ends_runInstr (fun _ => lawful_raise _) s

/-- ILLEGAL, and the A-line and F-line words: a read of the program counter, then the exception. -/
theorem ends_raise (n : Nat) (e : Long → Exc) (s : State) :
    Ends s (runInstr n (fun _ => do let ia ← fetch State.pc; raise (e ia)) s) :=
  ends_runInstr (fun _ => lawful_bind (lawful_fetch _) fun _ => lawful_raise _) s

theorem lawful_emit (o : Output) (s : State) : Lawful s (s.emit o) :=
  lawful_of_machine id (fun _ => ⟨rfl, rfl⟩) rfl rfl rfl rfl

theorem ends_bkpt (n : RegNo) (s : State) : Ends s (execBkpt n s) :=
  ends_runInstr (fun _ => lawful_bind (lawful_update (lawful_emit _)) fun _ => lawful_bind (lawful_fetch _) fun _ => lawful_raise _) s

theorem ends_chk (sz : Size) (ea : Ea) (dn : RegNo) (s : State) : Ends s (chk sz ea dn s) := by
  refine ends_runInstr (fun _ => ?_) s
  refine lawful_bind (lawful_fetch _) fun _ => lawful_bind (through_readOperand lawful_operates _ _ _) fun _ =>
    lawful_bind (lawful_fetch _) fun _ => lawful_bind (lawful_fetch _) fun _ => lawful_bind (lawful_draw _) fun _ =>
    lawful_bind (lawful_draw _) fun _ => lawful_bind (lawful_draw _) fun _ => lawful_bind (lawful_draw _) fun _ => ?_
  refine through_ite ?_ (through_ite ?_ ?_)
  · exact lawful_bind (lawful_update (lawful_setNzvc _ _ _ _)) fun _ => lawful_raise _
  · exact lawful_bind (lawful_update (lawful_setNzvc _ _ _ _)) fun _ => lawful_raise _
  · exact lawful_bind (lawful_update (lawful_setNzvc _ _ _ _)) fun _ => lawful_pure _

theorem ends_chk2 (sz : Size) (ea : Ea) (rn : Reg) (s : State) : Ends s (execChk2 sz ea rn s) := by
  refine ends_runInstr (fun _ => ?_) s
  exact lawful_bind (lawful_fetch _) fun _ => lawful_bind (through_locate lawful_operates _ _ _) fun _ =>
    lawful_bind (through_readPlace lawful_operates _ _) fun _ => lawful_bind (through_readPlace lawful_operates _ _) fun _ =>
    lawful_bind (lawful_fetch _) fun _ => lawful_bind (lawful_fetch _) fun _ => lawful_bind (lawful_draw _) fun _ =>
    lawful_bind (lawful_draw _) fun _ => lawful_bind (lawful_draw _) fun _ =>
    lawful_bind (lawful_update (lawful_setNzvc _ _ _ _)) fun _ => through_ite (lawful_raise _) (lawful_pure _)

theorem lawful_divideByZero (next : Long) : Through Lawful (divideByZero next) :=
  lawful_bind (lawful_draw _) fun _ => lawful_bind (lawful_draw _) fun _ => lawful_bind (lawful_draw _) fun _ =>
    lawful_bind (lawful_fetch _) fun _ => lawful_bind (lawful_update fun s => lawful_setNzvc _ _ _ _ s) fun _ => lawful_raise _

theorem lawful_divideOverflow : Through Lawful divideOverflow :=
  lawful_bind (lawful_draw _) fun _ => lawful_bind (lawful_draw _) fun _ =>
    lawful_bind (lawful_update (lawful_setNzvc _ _ _ _)) fun _ => lawful_pure _

theorem ends_divideWord (signed : Bool) (ea : Ea) (dn : RegNo) (s : State) : Ends s (divideWord signed ea dn s) := by
  refine ends_runInstr (fun _ => ?_) s
  refine lawful_bind (lawful_fetch _) fun _ => lawful_bind (through_readOperand lawful_operates _ _ _) fun _ =>
    lawful_bind (lawful_fetch _) fun _ => through_ite (lawful_divideByZero _) (through_ite ?_ lawful_divideOverflow)
  exact lawful_bind (lawful_update fun s => lawful_relates.trans _ _ _ (lawful_operates.setD s _ _) (lawful_setNzvc _ _ _ _ _))
    fun _ => lawful_pure _

theorem lawful_ite {c : Prop} [Decidable c] {s t u : State} (ht : Lawful s t) (hu : Lawful s u) : Lawful s (if c then t else u) := by
  split
  · exact ht
  · exact hu

theorem ends_divideLong (signed wide : Bool) (ea : Ea) (dq dr : RegNo) (s : State) : Ends s (divideLong signed wide ea dq dr s) := by
  refine ends_runInstr (fun _ => ?_) s
  refine lawful_bind (lawful_fetch _) fun _ => lawful_bind (through_readOperand lawful_operates _ _ _) fun _ =>
    lawful_bind (lawful_fetch _) fun _ => lawful_bind (lawful_fetch _) fun _ =>
    through_ite (lawful_divideByZero _) (through_ite ?_ lawful_divideOverflow)
  refine lawful_bind (lawful_update fun s => ?_) fun _ => lawful_pure _
  have remainder (v : Long) : Lawful s (if dr = dq then s else s.setD dr v) :=
    lawful_ite (lawful_relates.refl s) (lawful_operates.setD s dr v)
  exact lawful_relates.trans _ _ _ (lawful_relates.trans _ _ _ (remainder _) (lawful_operates.setD _ _ _)) (lawful_setNzvc _ _ _ _ _)

/-! ### The privileged instructions -/

/-- A privileged instruction whose body keeps soundness. -/
theorem ends_privileged {n : Nat} {body : M Flow} (h : Through KeepsSound body) (s : State) :
    Ends s (runInstr n (fun _ => do requireSupervisor; body) s) :=
  ends_runInstr (fun _ => lawful_privileged h) s

theorem sound_bind {ε α β : Type} {m : EStateM ε State α} {f : α → EStateM ε State β} (hm : Through KeepsSound m)
    (hf : ∀ a, Through KeepsSound (f a)) : Through KeepsSound (m >>= f) := through_bind sound_relates hm hf

theorem sound_pure {ε α : Type} (a : α) : Through KeepsSound (pure a : EStateM ε State α) := through_pure sound_relates a

theorem sound_fetch {α : Type} (f : State → α) : Through KeepsSound (fetch f) := through_fetch sound_relates f

theorem sound_raise {α : Type} (e : Exc) : Through KeepsSound (raise e : M α) := through_raise sound_relates e

theorem sound_update {f : State → State} (hf : ∀ s, s.Sound → (f s).Sound) : Through KeepsSound (update f) := through_update f hf

theorem sound_writeSr {s : State} (h : s.Sound) (v : Word) : (s.writeSr v).Sound := sound_sr h (within_and_right v within_self)

theorem sound_setSp {s : State} (h : s.Sound) (v : Long) : (s.setSp v).Sound := sound_setStack h _ v

theorem sound_setR {s : State} (h : s.Sound) (r : Reg) (v : Long) : (s.setR r v).Sound := by
  cases r with
  | d n => exact sound_operates.setD s n v h
  | a n => exact sound_operates.setA s n v h

theorem sound_popFrame (bytes : Nat) (image : Word) : Through KeepsSound (popFrame bytes image) :=
  sound_update fun _ h => sound_writeSr (sound_setSp h _) _

theorem sound_memRead (acc : Access) : Through KeepsSound (memRead acc) := through_memRead sound_operates.toBuses acc

theorem sound_postVector : Through KeepsSound postVector := by
  refine sound_bind (sound_fetch _) fun p => ?_
  cases p with
  | some p => exact sound_pure _
  | none => exact sound_bind (through_draw sound_operates.toBuses _) fun _ => sound_pure _

theorem sound_rteFrame7 (image : Word) (pc : Long) : Through KeepsSound (rteFrame7 image pc) := by
  refine sound_bind (sound_fetch _) fun _ => sound_bind (sound_fetch _) fun _ => sound_bind (sound_memRead _) fun _ =>
    sound_bind (sound_memRead _) fun ssw => ?_
  cases frame7Of (ssw.setWidth 16) with
  | none => exact through_refuse sound_relates _
  | some k =>
    refine sound_bind (sound_popFrame _ _) fun _ => ?_
    cases k with
    | plain => exact sound_pure _
    | movem => exact sound_bind (sound_update fun _ h => ⟨h.mem, h.sr, h.ctl, h.fp, h.pending⟩) fun _ => sound_pure _
    | trace | unimp => exact sound_raise _
    | post => exact sound_bind sound_postVector fun _ => sound_raise _

theorem sound_rteLoop (ia : Long) (fuel : Nat) : Through KeepsSound (rteLoop ia fuel) := by
  induction fuel with
  | zero => exact fun s h => h
  | succ fuel ih =>
    refine sound_bind (sound_fetch _) fun _ => sound_bind (sound_fetch _) fun _ => sound_bind (sound_memRead _) fun _ =>
      sound_bind (sound_memRead _) fun _ => sound_bind (sound_memRead _) fun fv => ?_
    dsimp only
    split
    · exact sound_bind (sound_popFrame _ _) fun _ => sound_pure _
    · exact sound_bind (sound_popFrame _ _) fun _ => ih
    · exact sound_bind (sound_popFrame _ _) fun _ => sound_pure _
    · exact sound_bind (sound_popFrame _ _) fun _ => sound_pure _
    · exact sound_rteFrame7 _ _
    · exact sound_raise _

theorem ends_rte (s : State) : Ends s (execRte s) :=
  ends_privileged (sound_bind (sound_fetch _) fun _ => sound_rteLoop _ _) s

theorem ends_stop (imm : Word) (s : State) : Ends s (execStop imm s) := by
  refine ends_privileged (sound_bind (sound_fetch _) fun _ => sound_bind (sound_update fun _ h => sound_writeSr h _) fun _ =>
    through_ite (sound_pure _) (sound_bind (sound_update fun _ h => ?_) fun _ => sound_pure _)) s
  exact ⟨h.mem, h.sr, h.ctl, h.fp, h.pending⟩

/-- A privileged instruction that makes one update. -/
theorem ends_privileged_update {n : Nat} {f : State → State} (hf : ∀ s, s.Sound → (f s).Sound) (flow : Flow) (s : State) :
    Ends s (runInstr n (fun _ => do requireSupervisor; update f; pure flow) s) :=
  ends_privileged (sound_bind (sound_update hf) fun _ => sound_pure _) s

theorem ends_reset (s : State) : Ends s (execReset s) :=
  ends_privileged_update (fun s => (lawful_emit .resetOut s).sound) _ s

theorem ends_nop (s : State) : Ends s (execNop s) := ends_runInstr (fun _ => lawful_pure _) s

theorem ends_modifySr (f : Word → Word) (s : State) : Ends s (modifySr f s) :=
  ends_privileged_update (fun _ h => sound_writeSr h _) _ s

theorem ends_moveToSr (ea : Ea) (s : State) : Ends s (execMoveToSr ea s) :=
  ends_privileged (sound_bind (sound_fetch _) fun _ => sound_bind (through_readOperand sound_operates _ _ _) fun _ =>
    sound_bind (sound_update fun _ h => sound_writeSr h _) fun _ => sound_pure _) s

theorem ends_moveFromSr (ea : Ea) (s : State) : Ends s (execMoveFromSr ea s) :=
  ends_privileged (sound_bind (sound_fetch _) fun _ => sound_bind (sound_fetch _) fun _ =>
    sound_bind (through_writeOperand sound_operates _ _ _ _) fun _ => sound_pure _) s

theorem ends_moveToUsp (an : RegNo) (s : State) : Ends s (execMoveToUsp an s) :=
  ends_privileged_update (fun _ h => sound_setStack h _ _) _ s

theorem ends_moveFromUsp (an : RegNo) (s : State) : Ends s (execMoveFromUsp an s) :=
  ends_privileged_update (fun s h => sound_operates.setA s _ _ h) _ s

theorem ends_movecFrom (rc : BitVec 12) (rn : Reg) (s : State) : Ends s (execMovecFrom rc rn s) := by
  refine ends_privileged (sound_bind (sound_fetch _) fun v => sound_bind (sound_fetch _) fun _ => ?_) s
  cases v with
  | none => exact sound_raise _
  | some v => exact sound_bind (sound_update fun _ h => sound_setR h _ _) fun _ => sound_pure _

theorem sound_writeControl {rc : BitVec 12} {v : Long} {s t : State} (h : s.Sound) (ht : writeControl rc v s = some t) : t.Sound := by
  obtain ⟨hm, hs, ⟨htc, hcacr, hi0, hi1, hd0, hd1, hurp, hsrp⟩, hf, hp⟩ := h
  have masked (m : Long) : v &&& m &&& ~~~m = 0 := within_and_right v within_self
  unfold writeControl at ht
  split at ht
  case h_1 | h_2 | h_9 | h_10 | h_11 | h_12 | h_13 => cases ht; exact ⟨hm, hs, ⟨htc, hcacr, hi0, hi1, hd0, hd1, hurp, hsrp⟩, hf, hp⟩
  case h_3 => cases ht; exact ⟨hm, hs, ⟨htc, masked 0x80008000, hi0, hi1, hd0, hd1, hurp, hsrp⟩, hf, hp⟩
  case h_4 =>
    cases ht
    exact ⟨hm, hs, ⟨within_and_right (m := 0xC000) (v.setWidth 16) within_self, hcacr, hi0, hi1, hd0, hd1, hurp, hsrp⟩, hf, hp⟩
  case h_5 => cases ht; exact ⟨hm, hs, ⟨htc, hcacr, masked _, hi1, hd0, hd1, hurp, hsrp⟩, hf, hp⟩
  case h_6 => cases ht; exact ⟨hm, hs, ⟨htc, hcacr, hi0, masked _, hd0, hd1, hurp, hsrp⟩, hf, hp⟩
  case h_7 => cases ht; exact ⟨hm, hs, ⟨htc, hcacr, hi0, hi1, masked _, hd1, hurp, hsrp⟩, hf, hp⟩
  case h_8 => cases ht; exact ⟨hm, hs, ⟨htc, hcacr, hi0, hi1, hd0, masked _, hurp, hsrp⟩, hf, hp⟩
  case h_14 => cases ht; exact ⟨hm, hs, ⟨htc, hcacr, hi0, hi1, hd0, hd1, masked _, hsrp⟩, hf, hp⟩
  case h_15 => cases ht; exact ⟨hm, hs, ⟨htc, hcacr, hi0, hi1, hd0, hd1, hurp, masked _⟩, hf, hp⟩
  case h_16 => cases ht

theorem ends_movecTo (rc : BitVec 12) (rn : Reg) (s : State) : Ends s (execMovecTo rc rn s) := by
  refine ends_privileged (fun s h => ?_) s
  simp only [after, bind_eq, fetch_eq]
  cases hw : writeControl rc (s.getR rn) s with
  | none => exact h
  | some t => exact sound_writeControl h hw

theorem ends_movesLoad (sz : Size) (ea : Ea) (rn : Reg) (s : State) : Ends s (execMovesLoad sz ea rn s) := by
  refine ends_privileged (sound_bind (sound_fetch _) fun _ => sound_bind (through_locate sound_operates _ _ _) fun _ =>
    sound_bind (sound_fetch _) fun _ => sound_bind (sound_memRead _) fun _ =>
    sound_bind (through_commit sound_operates _) fun _ => ?_) s
  cases rn with
  | d r => exact sound_bind (sound_update fun s h => sound_operates.setD s _ _ h) fun _ => sound_pure _
  | a r => exact sound_bind (sound_update fun s h => sound_operates.setA s _ _ h) fun _ => sound_pure _

theorem ends_movesStore (sz : Size) (rn : Reg) (ea : Ea) (s : State) : Ends s (execMovesStore sz rn ea s) :=
  ends_privileged (sound_bind (sound_fetch _) fun _ => sound_bind (through_locate sound_operates _ _ _) fun _ =>
    sound_bind (sound_fetch _) fun _ => sound_bind (sound_fetch _) fun _ => sound_bind (through_memWrite sound_operates _ _) fun _ =>
    sound_bind (through_commit sound_operates _) fun _ => sound_pure _) s

/-! ### Cache and translation-cache maintenance -/

theorem sound_recordAct {s : State} (h : s.Sound) (act : Byte) (c : Nat → Bool) : (s.recordAct act c).Sound :=
  ⟨⟨h.mem.1, State.recordAct_wf h.mem.2 act c⟩, h.sr, h.ctl, h.fp, h.pending⟩

theorem ends_cinv (caches scope : BitVec 2) (an : RegNo) (s : State) : Ends s (execCinv caches scope an s) := by
  refine ends_privileged_update (fun s h => ?_) _ s
  have he := (lawful_emit (.cacheInvalidate caches scope (s.getA an)) s).sound h
  rw [State.invalidateCode]
  split
  · exact sound_recordAct he _ _
  · exact he

theorem ends_cpush (caches scope : BitVec 2) (an : RegNo) (s : State) : Ends s (execCpush caches scope an s) := by
  refine ends_privileged_update (fun s h => ?_) _ s
  have he := (lawful_emit (.cachePush caches scope (s.getA an)) s).sound h
  rw [State.pushCode]
  split
  · exact sound_recordAct he _ _
  · exact he

theorem ends_pflush (op : BitVec 2) (an : RegNo) (s : State) : Ends s (execPflush op an s) := by
  refine ends_privileged_update (fun _ h => ?_) _ s
  exact ⟨h.mem, h.sr, h.ctl, h.fp, h.pending⟩

theorem ends_ptest (read : Bool) (an : RegNo) (s : State) : Ends s (execPtest read an s) := by
  refine ends_privileged_update (fun _ h => ?_) _ s
  exact ⟨h.mem, h.sr, h.ctl, h.fp, h.pending⟩

end Sys2Proof.Machine
end

