-- ==== Sys2Proof/Proofs/PassTransfer.lean ====
section
/-!
SUPPORT. MOVEM, MOVE16 and the locked instructions end in what the invariant and user mode allow (41_system_instructions.md
R220-R224).
-/
namespace Sys2Proof.Machine

/-! ### MOVEM -/

theorem lawful_readData (a : Long) (sz : Size) : Through Lawful (readData a sz) := through_readData lawful_operates a sz

theorem lawful_writeData (a : Long) (sz : Size) (v : Long) : Through Lawful (writeData a sz v) := through_writeData lawful_operates a sz v

theorem lawful_locate (ea : Ea) (n : Nat) (ext : Long) : Through Lawful (locate ea n ext) := through_locate lawful_operates ea n ext

theorem lawful_commit (l : Located) : Through Lawful (commit l) := through_commit lawful_operates l

theorem lawful_setA (n : RegNo) (v : Long) : Through Lawful (update (State.setA n v)) := lawful_update fun s => lawful_operates.setA s n v

theorem lawful_setDLow (sz : Size) (n : RegNo) (v : Long) (s : State) : Lawful s (s.setDLow sz n v) := lawful_operates.setD s n _

theorem lawful_setR (r : Reg) (v : Long) (s : State) : Lawful s (s.setR r v) := by
  cases r with
  | d n => exact lawful_operates.setD s n v
  | a n => exact lawful_operates.setA s n v

theorem lawful_noRestart : Through Lawful (update fun s => { s with movemRestart := none }) :=
  lawful_update fun _ => lawful_of_machine id (fun _ => ⟨rfl, rfl⟩) rfl rfl rfl rfl

theorem lawful_withMovemEa {α : Type} (a : Long) {m : M α} (h : Through Lawful m) : Through Lawful (withMovemEa a m) := fun s => by
  have hs := h s
  unfold after at hs ⊢
  unfold withMovemEa
  cases e : m s with
  | ok v t => rw [e] at hs; exact hs
  | error x t =>
    rw [e] at hs
    cases x <;> exact hs

theorem lawful_movemStoreFrom (sz : Size) (step a : Long) (rs : List Reg) : Through Lawful (movemStoreFrom sz step a rs) := by
  induction rs generalizing a with
  | nil => exact lawful_pure _
  | cons r rs ih => exact lawful_bind (lawful_fetch _) fun _ => lawful_bind (lawful_writeData _ _ _) fun _ => ih _

theorem lawful_movemLoadFrom (base : Option Reg) (sz : Size) (a : Long) (rs : List Reg) : Through Lawful (movemLoadFrom base sz a rs) := by
  induction rs generalizing a with
  | nil => exact lawful_pure _
  | cons r rs ih =>
    exact lawful_bind (lawful_readData _ _) fun _ =>
      lawful_bind (lawful_update fun s => lawful_ite (lawful_relates.refl s) (lawful_setR r _ s)) fun _ => ih _

theorem lawful_movemLocate (ea : Ea) (sz : Size) (n : Nat) : Through Lawful (movemLocate ea sz n) := by
  refine lawful_bind (lawful_fetch _) fun restart => lawful_bind (lawful_fetch _) fun ext => ?_
  split
  · exact lawful_bind (lawful_fetch _) fun _ => lawful_bind lawful_noRestart fun _ => lawful_pure _
  · exact lawful_bind (lawful_fetch _) fun _ => lawful_bind lawful_noRestart fun _ => lawful_pure _
  · cases restart with
    | none => exact lawful_bind (lawful_locate _ _ _) fun _ => lawful_pure _
    | some a =>
      exact through_ite (lawful_bind lawful_noRestart fun _ => lawful_pure _)
        (lawful_bind (lawful_locate _ _ _) fun _ => lawful_bind lawful_noRestart fun _ => lawful_pure _)

theorem ends_movemStore (long : Bool) (mask : Word) (ea : Ea) (s : State) : Ends s (execMovemStore long mask ea s) := by
  refine ends_runInstr (fun _ => lawful_bind (lawful_movemLocate _ _ _) fun l => ?_) s
  obtain ⟨a, step⟩ := l
  refine lawful_bind (lawful_withMovemEa _ (lawful_movemStoreFrom _ _ _ _)) fun _ => ?_
  cases step with
  | none => exact lawful_pure _
  | some x => exact lawful_bind (lawful_setA _ _) fun _ => lawful_pure _

theorem ends_movemLoad (long : Bool) (mask : Word) (ea : Ea) (s : State) : Ends s (execMovemLoad long mask ea s) := by
  refine ends_runInstr (fun _ => lawful_bind (lawful_movemLocate _ _ _) fun l => ?_) s
  obtain ⟨a, step⟩ := l
  refine lawful_bind (lawful_withMovemEa _ (lawful_movemLoadFrom _ _ _ _)) fun _ => ?_
  cases step with
  | none => exact lawful_pure _
  | some x => exact lawful_bind (lawful_setA _ _) fun _ => lawful_pure _

/-! ### MOVE16 -/

theorem lawful_copyLine (src dst : Long) : Through Lawful (copyLine src dst) :=
  lawful_bind (lawful_fetch _) fun _ => lawful_bind (through_memReadBytes lawful_operates.toBuses _) fun _ =>
    through_memWriteBytes lawful_operates _ _

theorem ends_move16PostPost (ax ay : RegNo) (s : State) : Ends s (execMove16PostPost ax ay s) :=
  ends_runInstr (fun _ => lawful_bind (lawful_fetch _) fun _ => lawful_bind (lawful_fetch _) fun _ =>
    lawful_bind (lawful_copyLine _ _) fun _ => lawful_bind (lawful_update fun s =>
      lawful_relates.trans _ _ _ (lawful_operates.setA s _ _) (lawful_operates.setA _ _ _)) fun _ => lawful_pure _) s

/-- The forms that step their register. -/
theorem ends_move16Step (ay : RegNo) (src dst : Long → Long) (s : State) : Ends s (runInstr 3 (fun _ => do
    let a ← fetch (State.getA ay)
    copyLine (src a) (dst a)
    update (State.setA ay (addrPlus a 16))
    pure .seq) s) :=
  ends_runInstr (fun _ => lawful_bind (lawful_fetch _) fun _ => lawful_bind (lawful_copyLine _ _) fun _ =>
    lawful_bind (lawful_setA _ _) fun _ => lawful_pure _) s

/-- The forms that do not. -/
theorem ends_move16Stay (ay : RegNo) (src dst : Long → Long) (s : State) : Ends s (runInstr 3 (fun _ => do
    let a ← fetch (State.getA ay)
    copyLine (src a) (dst a)
    pure .seq) s) :=
  ends_runInstr (fun _ => lawful_bind (lawful_fetch _) fun _ => lawful_bind (lawful_copyLine _ _) fun _ => lawful_pure _) s

/-! ### TAS, CAS, CAS2 -/

theorem lawful_lockBus : Through Lawful lockBus := through_lockBus lawful_operates.toBuses

theorem lawful_readLocked (a : Long) (sz : Size) : Through Lawful (readLocked a sz) := through_readLocked lawful_operates a sz

theorem lawful_writeLocked (a : Long) (sz : Size) (v : Long) : Through Lawful (writeLocked a sz v) := through_writeLocked lawful_operates a sz v

theorem ends_tas (ea : Ea) (s : State) : Ends s (execTas ea s) := by
  refine ends_runInstr (fun _ => lawful_bind (lawful_fetch _) fun _ => lawful_bind (lawful_locate _ _ _) fun l => ?_) s
  have hend (b : Long) : Through Lawful (do
      commit l
      update (State.setNzvc (b.getLsbD 7) (b == 0) false false)
      pure Flow.seq : M Flow) :=
    lawful_bind (lawful_commit _) fun _ => lawful_bind (lawful_update (lawful_setNzvc _ _ _ _)) fun _ => lawful_pure _
  dsimp only
  split
  · exact lawful_bind lawful_lockBus fun _ => lawful_bind (lawful_readLocked _ _) fun b =>
      lawful_bind (lawful_writeLocked _ _ _) fun _ => hend b
  · exact lawful_bind (through_readPlace lawful_operates _ _) fun b =>
      lawful_bind (through_writePlace lawful_operates _ _ _) fun _ => hend b

theorem lawful_setSubFlags (sz : Size) (m d : Long) : Through Lawful (update (setSubFlags sz m d)) :=
  lawful_update fun s => lawful_setNzvc _ _ _ _ s

theorem ends_cas (sz : Size) (dc du : RegNo) (ea : Ea) (s : State) : Ends s (execCas sz dc du ea s) := by
  refine ends_runInstr (fun _ => ?_) s
  have hend (m c : Long) : Through Lawful (do update (setSubFlags sz m c); pure Flow.seq : M Flow) :=
    lawful_bind (lawful_setSubFlags _ _ _) fun _ => lawful_pure _
  refine lawful_bind (lawful_fetch _) fun _ => lawful_bind (lawful_locate _ _ _) fun _ => lawful_bind lawful_lockBus fun _ =>
    lawful_bind (lawful_readLocked _ _) fun m => lawful_bind (lawful_fetch _) fun c => lawful_bind (lawful_fetch _) fun _ =>
    through_ite ?_ ?_
  · exact lawful_bind (lawful_writeLocked _ _ _) fun _ => lawful_bind (lawful_commit _) fun _ => hend m c
  · exact lawful_bind (lawful_writeLocked _ _ _) fun _ => lawful_bind (lawful_commit _) fun _ =>
      lawful_bind (lawful_update (lawful_setDLow _ _ _)) fun _ => hend m c

theorem ends_cas2 (long : Bool) (rn1 : Reg) (dc1 du1 : RegNo) (rn2 : Reg) (dc2 du2 : RegNo) (s : State) :
    Ends s (execCas2 long rn1 dc1 du1 rn2 dc2 du2 s) := by
  refine ends_runInstr (fun _ => ?_) s
  have hend (sz : Size) (m1 c1 m2 c2 : Long) : Through Lawful (do
      if m1 = zextLong sz c1 then update (setSubFlags sz m2 c2) else update (setSubFlags sz m1 c1)
      pure Flow.seq : M Flow) :=
    through_ite (lawful_bind (lawful_setSubFlags _ _ _) fun _ => lawful_pure _)
      (lawful_bind (lawful_setSubFlags _ _ _) fun _ => lawful_pure _)
  refine lawful_bind (lawful_fetch _) fun _ => lawful_bind (lawful_fetch _) fun _ => lawful_bind lawful_lockBus fun _ =>
    lawful_bind (lawful_readLocked _ _) fun m1 => lawful_bind (lawful_readLocked _ _) fun m2 => lawful_bind (lawful_fetch _) fun c1 =>
    lawful_bind (lawful_fetch _) fun c2 => lawful_bind (lawful_fetch _) fun _ => lawful_bind (lawful_fetch _) fun _ => through_ite ?_ ?_
  · exact lawful_bind (lawful_writeLocked _ _ _) fun _ => lawful_bind (lawful_writeLocked _ _ _) fun _ => hend _ m1 c1 m2 c2
  · exact lawful_bind (lawful_update fun s => lawful_relates.trans _ _ _ (lawful_setDLow _ _ _ s) (lawful_setDLow _ _ _ _))
      fun _ => hend _ m1 c1 m2 c2

end Sys2Proof.Machine
end

