-- ==== Sys2Proof/Proofs/PassFp.lean ====
section
/-!
SUPPORT. The floating-point instructions end in what the invariant and user mode allow (42_fp_instructions.md, 43_fp_exceptions.md).
-/
namespace Sys2Proof.Machine

/-! ### Updates of the unit -/

theorem lawful_fpsr {s : State} {v : Long} (hv : Within fpsrMask s.fp.fpsr → Within fpsrMask v) :
    Lawful s { s with fp := { s.fp with fpsr := v } } :=
  lawful_unit (u := { s with fp := { s.fp with fpsr := v } }) (fun h => ⟨h.1, hv h.2⟩) id

theorem lawful_setExc (x : FpExc) : Through Lawful (update (State.setExc x)) :=
  lawful_update fun _ => lawful_fpsr (within_excBits · x)

theorem lawful_setFpcc (n z i nan : Bool) : Through Lawful (update (State.setFpcc n z i nan)) :=
  lawful_update fun _ => lawful_fpsr (within_withFpcc · n z i nan)

theorem lawful_accrue : Through Lawful (update State.accrue) := lawful_update fun _ => lawful_fpsr within_accrueBits

theorem lawful_setBsun : Through Lawful (update State.setBsun) :=
  lawful_update fun _ => lawful_fpsr (within_or · (by decide : _ = _))

theorem lawful_setFp (dst : RegNo) (x : FpReal) (s : State) : Lawful s (s.setFp dst x) := lawful_unit (u := s.setFp dst x) id id

/-- The internal state of the unit changed, but for what is pending. -/
theorem lawful_fpu {s : State} {u : Fpu} (hp : u.pending = s.fpu.pending) (n : Nat) : Lawful s { s with fpu := u, freeCount := n } :=
  lawful_unit (u := { s with fpu := u, freeCount := n }) id (fun h => by rw [pendingOk, hp]; exact h)

theorem lawful_fpAwake (s : State) : Lawful s s.fpAwake := by
  obtain ⟨m, h⟩ := s.fpAwake_eq
  rw [h]
  exact lawful_fpu (u := { s.fpu with mode := m }) rfl s.freeCount

/-- A vector that a pending exception can have. -/
def pendingVector (v : Byte) : Prop := 48 ≤ v.toNat ∧ v.toNat ≤ 55

theorem pendingVector_exc (x : FpExc) : pendingVector x.vector := by cases x <;> exact ⟨by decide, by decide⟩

theorem lawful_postExc (ia : Long) {vector : Byte} (hv : pendingVector vector) (unit : FpUnit) (post : Bool) (fill : Fpu → Fpu) :
    Through Lawful (postExc ia vector unit post fill) := by
  refine lawful_update fun s => lawful_unit (u := { s with fpu := _, freeCount := s.freeCount + 8 }) id fun _ p hp => ?_
  cases hp
  exact hv

/-! ### The steps of the operations -/

theorem lawful_fpCommon : Through Lawful fpCommon := fun s => by
  unfold after
  cases h : s.fpu.pending with
  | some p => rw [fpCommon_of_pending h]; exact lawful_relates.refl s
  | none => rw [fpCommon_of_none h]; exact lawful_fpAwake s

theorem lawful_fpBegin (ia : Long) : Through Lawful (fpBegin ia) :=
  lawful_update fun s => lawful_unit (u := s.fpBegun ia) (fun h => ⟨h.1, within_and h.2 _⟩) id

theorem lawful_freeFpcc : Through Lawful freeFpcc :=
  lawful_bind (lawful_draw _) fun _ => lawful_bind (lawful_draw _) fun _ => lawful_bind (lawful_draw _) fun _ =>
    lawful_bind (lawful_draw _) fun _ => lawful_setFpcc _ _ _ _

theorem lawful_setFpccOf (x : FpReal) (s : State) : Lawful s (setFpccOf x s) := lawful_fpsr (within_withFpcc · _ _ _ _)

theorem lawful_fpStore (dst : RegNo) (x : FpReal) : Through Lawful (fpStore dst x) :=
  lawful_update fun s => lawful_relates.trans _ _ _ (lawful_setFp dst x s) (lawful_setFpccOf x _)

theorem lawful_finish (ia : Long) (cw : Word) (unit : FpUnit) (sign : Bool) (v : Inter) (prec : Option Prec) (dst : RegNo) :
    Through Lawful (finish ia cw unit sign v prec dst) := by
  cases prec with
  | none => exact through_refuse lawful_relates .undefinedPrecision
  | some p =>
    have hend (fpcr : Long) (r : Rounded) (c : Bool) (fill : Fpu → Fpu) : Through Lawful (do
        if overflows p r.exp then do
          update (State.setExc .ovfl)
          postExc ia FpExc.ovfl.vector unit false fill
          freeFpcc
          update State.accrue
        else do
          fpStore dst { sign := sign, exp := exp15 r.exp, man := r.man }
          if c then do
            postExc ia FpExc.inex2.vector unit false (withCommand unit cw)
            update State.accrue
          else update State.accrue : M Unit) :=
      through_ite
        (lawful_bind (lawful_setExc _) fun _ => lawful_bind (lawful_postExc _ (pendingVector_exc _) _ _ _) fun _ =>
          lawful_bind lawful_freeFpcc fun _ => lawful_accrue)
        (lawful_bind (lawful_fpStore _ _) fun _ =>
          through_ite (lawful_bind (lawful_postExc _ (pendingVector_exc _) _ _ _) fun _ => lawful_accrue) lawful_accrue)
    refine lawful_bind (lawful_fetch _) fun fpcr => through_ite ?_ (through_ite ?_ ?_)
    · exact lawful_bind (lawful_setExc _) fun _ => lawful_bind (lawful_postExc _ (pendingVector_exc _) _ _ _) fun _ =>
        lawful_bind lawful_freeFpcc fun _ => lawful_accrue
    · exact lawful_bind (lawful_setExc _) fun _ => hend fpcr _ _ _
    · exact hend fpcr _ _ _

/-! ### The operations -/

section job
variable (j : FpJob)

theorem lawful_special (x : FpReal) : Through Lawful (special j x) := lawful_bind (lawful_fpStore _ _) fun _ => lawful_accrue

theorem lawful_finishJob (unit : FpUnit) (sign : Bool) (v : Inter) : Through Lawful (finishJob j unit sign v) :=
  lawful_bind (lawful_fetch _) fun _ => lawful_finish _ _ _ _ _ _ _

theorem lawful_deliver (x : FpReal) : Through Lawful (deliver j x) := by
  unfold deliver
  split
  · exact lawful_setFpcc _ _ _ _
  · exact lawful_update (lawful_setFpccOf x)
  · exact lawful_fpStore _ _

theorem lawful_postUnsupported : Through Lawful (postUnsupported j) := lawful_postExc _ ⟨by decide, by decide⟩ _ _ _

theorem lawful_doSnan (nan : FpReal) : Through Lawful (doSnan j nan) := by
  refine lawful_bind (lawful_setExc _) fun _ => lawful_bind (lawful_fetch _) fun fpcr => through_ite ?_ ?_
  · exact lawful_bind (lawful_postExc _ (pendingVector_exc _) _ _ _) fun _ =>
      lawful_bind (through_ite lawful_freeFpcc (lawful_deliver j _)) fun _ => lawful_accrue
  · exact lawful_bind (lawful_deliver j _) fun _ => lawful_accrue

theorem lawful_doOperr : Through Lawful (doOperr j) := by
  refine lawful_bind (lawful_setExc _) fun _ => lawful_bind (lawful_fetch _) fun fpcr => through_ite ?_ ?_
  · exact lawful_bind (lawful_postExc _ (pendingVector_exc _) _ _ _) fun _ => lawful_bind lawful_freeFpcc fun _ => lawful_accrue
  · exact lawful_bind (lawful_fpStore _ _) fun _ => lawful_accrue

theorem lawful_doDz (sign : Bool) : Through Lawful (doDz j sign) := by
  refine lawful_bind (lawful_setExc _) fun _ => lawful_bind (lawful_fetch _) fun fpcr => through_ite ?_ ?_
  · exact lawful_bind (lawful_postExc _ (pendingVector_exc _) _ _ _) fun _ => lawful_bind lawful_freeFpcc fun _ => lawful_accrue
  · exact lawful_bind (lawful_fpStore _ _) fun _ => lawful_accrue

theorem lawful_doMove (sign : Bool) : Through Lawful (doMove j sign) := through_ite (lawful_special j _) (lawful_finishJob j _ _ _)

theorem lawful_doAdd (x : FpReal) : Through Lawful (doAdd j x) := by
  refine through_ite (through_ite (lawful_doOperr j) (lawful_special j _)) ?_
  refine through_ite (lawful_special j _) (through_ite (lawful_special j _) (through_ite ?_ (lawful_finishJob j _ _ _)))
  exact lawful_bind (lawful_fetch _) fun _ => lawful_special j _

theorem lawful_doMul : Through Lawful (doMul j) :=
  through_ite (lawful_doOperr j) (through_ite (lawful_special j _) (through_ite (lawful_special j _) (lawful_finishJob j _ _ _)))

theorem lawful_doDiv : Through Lawful (doDiv j) :=
  through_ite (lawful_doOperr j) (through_ite (lawful_special j _) (through_ite (lawful_doDz j _)
    (through_ite (lawful_special j _) (lawful_finishJob j _ _ _))))

theorem lawful_doSqrt : Through Lawful (doSqrt j) :=
  through_ite (lawful_special j _) (through_ite (lawful_doOperr j) (through_ite (lawful_special j _) (lawful_finishJob j _ _ _)))

theorem lawful_operate : Through Lawful (operate j) := by
  unfold operate
  cases j.op with
  | move | abs | neg => exact lawful_doMove j _
  | sqrt => exact lawful_doSqrt j
  | add | sub => exact lawful_doAdd j _
  | mul => exact lawful_doMul j
  | div => exact lawful_doDiv j
  | cmp => exact lawful_bind (lawful_setFpcc _ _ _ _) fun _ => lawful_accrue
  | tst => exact lawful_bind (lawful_update (lawful_setFpccOf _)) fun _ => lawful_accrue

theorem lawful_runJob : Through Lawful (runJob j) :=
  lawful_bind (lawful_fpBegin _) fun _ => through_ite (lawful_postUnsupported j) (through_ite (lawful_doSnan j _)
    (through_ite (lawful_bind (lawful_deliver j _) fun _ => lawful_accrue) (lawful_operate j)))

end job

theorem ends_fpArith (op : FpOp) (form : Option Prec) (cmd : BitVec 7) (src : FpSrc) (dst : RegNo) (s : State) :
    Ends s (fpArith op form cmd src dst s) :=
  ends_runInstr (fun _ => lawful_bind lawful_fpCommon fun _ => lawful_bind (lawful_operates.fpSource _) fun _ =>
    lawful_bind (lawful_fetch _) fun _ => lawful_bind (lawful_fetch _) fun _ => lawful_bind (lawful_runJob _) fun _ => lawful_pure _) s

/-! ### The instructions left to software -/

theorem lawful_raiseUnimp (next : Long) (cw : Word) (address : Option Long) (e1 : Bool) {fill : Nat → Fpu → Fpu}
    (hf : ∀ n u, (fill n u).pending = u.pending) : Through Lawful (raiseUnimp next cw address e1 fill) :=
  lawful_bind (lawful_fetch _) fun ia => lawful_bind (lawful_draw _) fun _ =>
    lawful_bind (lawful_update fun s => lawful_fpu (u := { fill s.freeCount s.fpu with
      e1 := e1, cmdreg1b := cw, fpiarcu := ia, mode := .unimp }) (hf _ _) _) fun _ => lawful_raise _

theorem ends_fpUnimp (dyadic : Bool) (cmd : BitVec 7) (src : FpSrc) (dst : RegNo) (s : State) :
    Ends s (fpUnimp dyadic cmd src dst s) :=
  ends_runInstr (fun _ => lawful_bind lawful_fpCommon fun _ => lawful_bind (lawful_operates.fpSource _) fun _ =>
    lawful_bind (lawful_fetch _) fun _ => lawful_raiseUnimp _ _ _ _ (unimpOperands_pending _ _ _)) s

theorem ends_fmovecr (ofs : BitVec 7) (dst : RegNo) (s : State) : Ends s (execFmovecr ofs dst s) :=
  ends_runInstr (fun _ => lawful_bind lawful_fpCommon fun _ => lawful_raiseUnimp _ _ _ _
    (fill := fun n u => { u with etemp := Config.freeReal n, stag := (Config.freeByte n).setWidth 3 }) fun _ _ => rfl) s

/-! ### The conditional instructions -/

theorem lawful_fpCond (p : BitVec 5) : Through Lawful (fpCond p) := by
  refine lawful_bind lawful_fpCommon fun _ => lawful_bind (lawful_fetch _) fun _ => lawful_bind (lawful_fetch _) fun _ =>
    through_ite ?_ (lawful_fetch _)
  exact lawful_bind lawful_setBsun fun _ => lawful_bind (lawful_fetch _) fun _ =>
    through_ite (lawful_bind (lawful_raise _) fun _ => lawful_fetch _) (lawful_fetch _)

theorem lawful_branchTo (target : Long) (taken : Bool) : Through Lawful (branchTo target taken) :=
  lawful_bind (lawful_fetch _) fun _ => through_ite (lawful_pure _) (through_ite (lawful_raise _) (lawful_pure _))

theorem ends_fpBranch (words : Nat) (p : BitVec 5) (d : Long) (s : State) : Ends s (fpBranch words p d s) :=
  ends_runInstr (fun _ => lawful_bind (lawful_fpCond p) fun _ => lawful_bind (lawful_fetch _) fun _ => lawful_branchTo _ _) s

theorem ends_fnop (s : State) : Ends s (execFnop s) := ends_runInstr (fun _ => lawful_bind lawful_fpCommon fun _ => lawful_pure _) s

theorem ends_fscc (p : BitVec 5) (ea : Ea) (s : State) : Ends s (execFscc p ea s) :=
  ends_runInstr (fun _ => lawful_bind (lawful_fpCond p) fun _ => lawful_bind (lawful_fetch _) fun _ =>
    lawful_bind (through_writeOperand lawful_operates _ _ _ _) fun _ => lawful_pure _) s

theorem ends_fdbcc (p : BitVec 5) (dn : RegNo) (d : Word) (s : State) : Ends s (execFdbcc p dn d s) :=
  ends_runInstr (fun _ => lawful_bind (lawful_fpCond p) fun _ => lawful_bind (lawful_fetch _) fun _ =>
    through_ite (lawful_branchTo _ _) (lawful_bind (lawful_fetch _) fun _ =>
      lawful_bind (lawful_update (lawful_setDLow _ _ _)) fun _ => lawful_branchTo _ _)) s

theorem ends_fpTrap (words : Nat) (p : BitVec 5) (s : State) : Ends s (fpTrap words p s) :=
  ends_runInstr (fun _ => lawful_bind (lawful_fpCond p) fun _ => lawful_bind (lawful_fetch _) fun _ =>
    through_ite (lawful_raise _) (lawful_pure _)) s

end Sys2Proof.Machine
end

