-- ==== Sys2Proof/Proofs/PassFpMove.lean ====
section
/-!
SUPPORT. The moves out of the floating-point registers, those of the control registers, FSAVE and FRESTORE end in what the
invariant and user mode allow (42_fp_instructions.md R277-R293).
-/
namespace Sys2Proof.Machine

/-! ### Parts of instructions with a value that later parts rely on -/

/-- A lawful part of an instruction that, completed, gives a value of the kind told. -/
structure Yields {α : Type} (P : α → Prop) (m : M α) : Prop where
  lawful : Through Lawful m
  value : ∀ s a t, m s = .ok a t → P a

section gives
variable {α β : Type} {P : β → Prop}

theorem yields_pure {b : β} (h : P b) : Yields P (pure b : M β) := ⟨lawful_pure b, fun _ _ _ e => by cases e; exact h⟩

theorem yields_bind {m : M α} {f : α → M β} (hm : Through Lawful m) (hf : ∀ a, Yields P (f a)) : Yields P (m >>= f) :=
  ⟨lawful_bind hm fun a => (hf a).lawful, fun s b t e => by
    obtain ⟨a, u, -, h⟩ := bind_ok.mp e
    exact (hf a).value u b t h⟩

theorem yields_ite {c : Prop} [Decidable c] {m m' : M β} (h : Yields P m) (h' : Yields P m') : Yields P (if c then m else m') := by
  split
  · exact h
  · exact h'

theorem lawful_bind_yields {m : M β} {f : β → M α} (hm : Yields P m) (hf : ∀ b, P b → Through Lawful (f b)) : Through Lawful (m >>= f) := by
  intro s
  have hs := hm.lawful s
  unfold after at hs ⊢
  rw [bind_eq]
  cases e : m s with
  | ok b t =>
    rw [e] at hs
    exact lawful_relates.trans _ _ _ hs (hf b (hm.value s b t e) t)
  | error x t =>
    rw [e] at hs
    exact hs

end gives

/-! ### FMOVE FPn,ea -/

theorem lawful_writeLongs (a : Long) (vs : List Long) : Through Lawful (writeLongs a vs) := through_writeLongs lawful_operates a vs

theorem lawful_storeOut (fmt : FpOutFmt) (p : Place) (ls : List Long) : Through Lawful (storeOut fmt p ls) := by
  unfold storeOut
  split
  · split
    · exact lawful_writeData _ _ _
    · exact lawful_writeLongs _ _
  · split
    · exact through_writePlace lawful_operates _ _ _
    · exact lawful_pure _

theorem lawful_storeFree (fmt : FpOutFmt) (p : Place) : Through Lawful (storeFree fmt p) := by
  refine lawful_bind (lawful_bind (lawful_draw _) fun _ => lawful_bind (lawful_draw _) fun _ => ?_) fun _ => lawful_storeOut _ _ _
  cases fmt <;> exact lawful_pure _

theorem lawful_etemp (x : FpReal) : Through Lawful (update fun s => { s with fpu := { s.fpu with etemp := x } }) :=
  lawful_update fun s => lawful_fpu (u := { s.fpu with etemp := x }) rfl s.freeCount

theorem lawful_fptemp (x : FpReal) : Through Lawful (update fun s => { s with fpu := { s.fpu with fptemp := x } }) :=
  lawful_update fun s => lawful_fpu (u := { s.fpu with fptemp := x }) rfl s.freeCount

theorem lawful_wbtemp (x : WbTemp) : Through Lawful (update fun s => { s with fpu := { s.fpu with wbtemp := x } }) :=
  lawful_update fun s => lawful_fpu (u := { s.fpu with wbtemp := x }) rfl s.freeCount

/-- The exception that a move out takes, if any, is one that can be pending. -/
def OutEnd.pends (e : OutEnd) : Prop := ∀ v, e.vector = some v → pendingVector v

theorem pends_outPlain : outPlain.pends := nofun

theorem pends_of_vector {v : Byte} (h : pendingVector v) (fptemp wbtemp : Bool) :
    OutEnd.pends { vector := some v, fptemp := fptemp, wbtemp := wbtemp } := fun w hw => by
  cases hw
  exact h

theorem pends_outPost (x : FpExc) : (outPost x.vector).pends := pends_of_vector (pendingVector_exc x) _ _

theorem pends_ite {c : Prop} [Decidable c] {e e' : OutEnd} (h : e.pends) (h' : e'.pends) : (if c then e else e').pends := by
  split
  · exact h
  · exact h'

theorem pends_outInexact (fpcr : Long) (inexact : Bool) : (outInexact fpcr inexact).pends := pends_ite (pends_outPost _) pends_outPlain

theorem yields_outReal (fmt : FpOutFmt) (p : Place) (x : FpReal) : Yields OutEnd.pends (outReal fmt p x) := by
  have hend (fpcr : Long) (r : Rounded) : Yields OutEnd.pends (do
      if overflows (outPrec fmt) r.exp then do
        update (State.setExc .ovfl)
        update fun s => { s with fpu := { s.fpu with etemp := { sign := x.sign, exp := exp15 r.exp, man := r.man } } }
        storeFree fmt p
        pure (outPost FpExc.ovfl.vector)
      else do
        storeOut fmt p (packLongs fmt x.sign r.exp r.man)
        pure (outInexact fpcr r.inexact) : M OutEnd) :=
    yields_ite (yields_bind (lawful_setExc _) fun _ => yields_bind (lawful_etemp _) fun _ =>
      yields_bind (lawful_storeFree _ _) fun _ => yields_pure (pends_outPost _))
      (yields_bind (lawful_storeOut _ _ _) fun _ => yields_pure (pends_outInexact _ _))
  refine yields_bind (lawful_fetch _) fun fpcr => yields_ite ?_ (yields_ite ?_ (yields_ite ?_ (yields_ite ?_ (yields_ite ?_ ?_))))
  · exact yields_bind (lawful_setExc _) fun _ => yields_bind (lawful_storeOut _ _ _) fun _ =>
      yields_bind (lawful_etemp _) fun _ => yields_pure (pends_ite (pends_outPost _) pends_outPlain)
  · exact yields_bind (lawful_storeOut _ _ _) fun _ => yields_pure pends_outPlain
  · exact yields_bind (lawful_storeOut _ _ _) fun _ => yields_pure pends_outPlain
  · exact yields_bind (lawful_setExc _) fun _ => yields_bind (lawful_fptemp _) fun _ =>
      yields_bind (lawful_storeFree _ _) fun _ => yields_pure (pends_of_vector (pendingVector_exc _) _ _)
  · exact yields_bind (lawful_setExc _) fun _ => hend fpcr _
  · exact hend fpcr _

theorem yields_outInteger (fmt : FpOutFmt) (p : Place) (x : FpReal) : Yields OutEnd.pends (outInteger fmt p x) := by
  have hend (fpcr : Long) (r : Int × Bool) : Yields OutEnd.pends (do
      update fun s => { s with fpu := { s.fpu with wbtemp := Config.packInteger r.1 } }
      if 2 ^ (outIntBits fmt - 1) - 1 < r.1 ∨ r.1 ≤ -2 ^ (outIntBits fmt - 1) then do
        update (State.setExc .operr)
        storeFree fmt p
        pure { vector := some FpExc.operr.vector, fptemp := false, wbtemp := true }
      else do
        storeOut fmt p [BitVec.ofInt 32 r.1]
        pure (outInexact fpcr r.2) : M OutEnd) :=
    yields_bind (lawful_wbtemp _) fun _ => yields_ite
      (yields_bind (lawful_setExc _) fun _ => yields_bind (lawful_storeFree _ _) fun _ => yields_pure (pends_of_vector (pendingVector_exc _) _ _))
      (yields_bind (lawful_storeOut _ _ _) fun _ => yields_pure (pends_outInexact _ _))
  refine yields_bind (lawful_fetch _) fun fpcr => yields_ite ?_ (yields_ite ?_ (yields_ite ?_ (yields_ite ?_ ?_)))
  · exact yields_bind (lawful_setExc _) fun _ => yields_bind (lawful_storeFree _ _) fun _ =>
      yields_bind (lawful_etemp _) fun _ => yields_pure (pends_outPost _)
  · exact yields_bind (lawful_setExc _) fun _ => yields_bind (lawful_storeFree _ _) fun _ => yields_pure (pends_outPost _)
  · exact yields_bind (lawful_storeOut _ _ _) fun _ => yields_pure pends_outPlain
  · exact yields_bind (lawful_setExc _) fun _ => hend fpcr _
  · exact hend fpcr _

theorem yields_outBody (fmt : FpOutFmt) (p : Place) (x : FpReal) : Yields OutEnd.pends (outBody fmt p x) := by
  have unsupported : Yields OutEnd.pends (pure (outPost 55) : M OutEnd) := yields_pure (pends_of_vector ⟨by decide, by decide⟩ _ _)
  refine yields_ite unsupported ?_
  cases fmt with
  | pStatic | pDynamic => exact unsupported
  | b | w | l => exact yields_outInteger _ _ _
  | s | d | x => exact yields_outReal _ _ _

theorem lawful_raisePost (next : Long) {vector : Byte} (hv : pendingVector vector) (e : OutEnd) (a : Option Long) :
    Through Lawful (raisePost next vector e a) :=
  lawful_bind (lawful_fetch _) fun _ => lawful_bind (lawful_fetch _) fun _ => lawful_bind (lawful_postExc _ hv _ _ _) fun _ =>
    lawful_bind (lawful_draw _) fun _ => lawful_raise _

theorem ends_fmoveOut (fmt : FpOutFmt) (src : RegNo) (k : BitVec 7) (ea : Ea) (s : State) : Ends s (execFmoveOut fmt src k ea s) := by
  refine ends_runInstr (fun _ => ?_) s
  refine lawful_bind lawful_fpCommon fun _ => lawful_bind (lawful_fetch _) fun ia => lawful_bind (lawful_fpBegin _) fun _ =>
    lawful_bind (lawful_fetch _) fun _ => lawful_bind (lawful_locate _ _ _) fun l => lawful_bind (lawful_fetch _) fun x =>
    lawful_bind (lawful_update fun s => lawful_fpu (u := { s.fpu with
      cmdreg1b := moveOutWord fmt src k, etemp := x, stag := tagOf x, fpiarcu := ia }) rfl s.freeCount) fun _ =>
    lawful_bind_yields (yields_outBody _ _ _) fun e he => lawful_bind (lawful_commit _) fun _ => lawful_bind lawful_accrue fun _ => ?_
  cases hv : e.vector with
  | none => exact lawful_pure _
  | some v => exact lawful_raisePost _ (he v hv) _ _

/-! ### Control registers and data registers -/

theorem lawful_readLongs (a : Long) (n : Nat) : Through Lawful (readLongs a n) := through_readLongs lawful_operates a n

theorem lawful_setCr (r : FpCr) (v : Long) (s : State) : Lawful s (setCr r v s) := by
  cases r with
  | fpcr => exact lawful_unit (u := setCr .fpcr v s) (fun h => ⟨within_and_right v within_self, h.2⟩) id
  | fpsr => exact lawful_unit (u := setCr .fpsr v s) (fun h => ⟨h.1, within_and_right v within_self⟩) id
  | fpiar => exact lawful_unit (u := setCr .fpiar v s) id id

theorem lawful_setCrs (rs : List FpCr) (vs : List Long) (s : State) : Lawful s (setCrs rs vs s) := by
  induction rs generalizing vs s with
  | nil => exact lawful_relates.refl s
  | cons r rs ih =>
    cases vs with
    | nil => exact lawful_relates.refl s
    | cons v vs => exact lawful_relates.trans _ _ _ (lawful_setCr r v s) (ih vs _)

theorem ends_fmoveToCr (sel : BitVec 3) (ea : Ea) (s : State) : Ends s (execFmoveToCr sel ea s) := by
  refine ends_runInstr (fun _ => ?_) s
  have hend (l : Located) (rs : List FpCr) (vs : List Long) : Through Lawful (do
      commit l
      update (setCrs rs vs)
      pure Flow.seq : M Flow) :=
    lawful_bind (lawful_commit l) fun _ => lawful_bind (lawful_update (lawful_setCrs rs vs)) fun _ => lawful_pure _
  refine lawful_bind lawful_fpCommon fun _ => lawful_bind (lawful_fetch _) fun _ => lawful_bind (lawful_locate _ _ _) fun l => ?_
  dsimp only
  cases l.place with
  | mem a => exact lawful_bind (lawful_readLongs _ _) fun vs => hend l _ vs
  | imm ws => exact hend l _ _
  | d _ | a _ => exact lawful_bind (lawful_fetch _) fun vs => hend l _ vs

theorem ends_fmoveFromCr (sel : BitVec 3) (ea : Ea) (s : State) : Ends s (execFmoveFromCr sel ea s) := by
  refine ends_runInstr (fun _ => ?_) s
  have hend (l : Located) : Through Lawful (do commit l; pure Flow.seq : M Flow) :=
    lawful_bind (lawful_commit l) fun _ => lawful_pure _
  refine lawful_bind lawful_fpCommon fun _ => lawful_bind (lawful_fetch _) fun _ => lawful_bind (lawful_locate _ _ _) fun l =>
    lawful_bind (lawful_fetch _) fun vs => ?_
  split
  · exact lawful_bind (lawful_writeLongs _ _) fun _ => hend l
  · exact lawful_bind (lawful_update fun s => lawful_operates.setD s _ _) fun _ => hend l
  · exact lawful_bind (lawful_setA _ _) fun _ => hend l
  · exact hend l

theorem lawful_fmovemRead (a : Long) (n : Nat) : Through Lawful (fmovemRead a n) := by
  induction n generalizing a with
  | zero => exact lawful_pure _
  | succ n ih => exact lawful_bind (lawful_readLongs _ _) fun _ => lawful_bind (ih _) fun _ => lawful_pure _

theorem lawful_fmovemWrite (step a : Long) (rs : List RegNo) : Through Lawful (fmovemWrite step a rs) := by
  induction rs generalizing a with
  | nil => exact lawful_pure _
  | cons r rs ih => exact lawful_bind (lawful_fetch _) fun _ => lawful_bind (lawful_writeLongs _ _) fun _ => ih _

theorem lawful_setFps (rs : List RegNo) (xs : List FpReal) (s : State) : Lawful s (setFps rs xs s) := by
  induction rs generalizing xs s with
  | nil => exact lawful_relates.refl s
  | cons r rs ih =>
    cases xs with
    | nil => exact lawful_relates.refl s
    | cons x xs => exact lawful_relates.trans _ _ _ (lawful_setFp r x s) (ih xs _)

theorem ends_fmovemLoad (ctl dyn : Bool) (list : Byte) (ea : Ea) (s : State) : Ends s (execFmovemLoad ctl dyn list ea s) :=
  ends_runInstr (fun _ => lawful_bind lawful_fpCommon fun _ => lawful_bind (lawful_fetch _) fun _ => lawful_bind (lawful_fetch _) fun _ =>
    lawful_bind (lawful_locate _ _ _) fun _ => lawful_bind (lawful_fmovemRead _ _) fun _ => lawful_bind (lawful_commit _) fun _ =>
    lawful_bind (lawful_update (lawful_setFps _ _)) fun _ => lawful_pure _) s

theorem ends_fmovemStore (ctl dyn : Bool) (list : Byte) (ea : Ea) (s : State) : Ends s (execFmovemStore ctl dyn list ea s) := by
  refine ends_runInstr (fun _ => ?_) s
  have hend (l : Located) : Through Lawful (do commit l; pure Flow.seq : M Flow) :=
    lawful_bind (lawful_commit l) fun _ => lawful_pure _
  exact lawful_bind lawful_fpCommon fun _ => lawful_bind (lawful_fetch _) fun _ => lawful_bind (lawful_fetch _) fun _ =>
    lawful_bind (lawful_locate _ _ _) fun l => through_ite (lawful_bind (lawful_fmovemWrite _ _ _) fun _ => hend l)
      (lawful_bind (lawful_fmovemWrite _ _ _) fun _ => hend l)

/-! ### FSAVE and FRESTORE -/

/-- The unit changed, nothing pending in it. -/
theorem sound_fpu {s : State} (h : s.Sound) {u : Fpu} (hp : u.pending = none) : State.Sound { s with fpu := u } :=
  ⟨h.mem, h.sr, h.ctl, h.fp, fun p hq => by cases hp.symm.trans hq⟩

theorem ends_fsave (ea : Ea) (s : State) : Ends s (execFsave ea s) :=
  ends_privileged (sound_bind (sound_fetch _) fun _ => sound_bind (through_draw sound_operates.toBuses _) fun _ =>
    sound_bind (through_draw sound_operates.toBuses _) fun _ => sound_bind (sound_fetch _) fun _ =>
    sound_bind (through_locate sound_operates _ _ _) fun _ => sound_bind (through_writeLongs sound_operates _ _) fun _ =>
    sound_bind (through_commit sound_operates _) fun _ => sound_bind (sound_update fun s h => sound_fpu (u := afterSave s.fpu) h rfl)
      fun _ => sound_pure _) s

theorem sound_resetFpu {s : State} (h : s.Sound) (n : Nat) : (resetFpu n s).Sound :=
  ⟨h.mem, h.sr, h.ctl, ⟨within_and_right _ within_self, within_and_right _ within_self⟩, nofun⟩

theorem sound_restoreStep (ea : Ea) (v : Long) : Through KeepsSound (restoreStep ea v) := by
  unfold restoreStep
  split
  · exact sound_update fun s h => sound_operates.setA s _ _ h
  · exact sound_pure _

theorem trapVector_pending {u : Fpu} {fpsr fpcr : Long} {v : Byte} (h : trapVector u fpsr fpcr = some v) : pendingVector v := by
  unfold trapVector at h
  dsimp only at h
  split at h
  · cases h; exact ⟨by decide, by decide⟩
  · split at h
    · cases h; exact pendingVector_exc _
    · cases h

theorem sound_afterBusy : Through KeepsSound afterBusy := by
  refine sound_bind (sound_fetch _) fun u => sound_bind (sound_fetch _) fun fp => through_ite ?_ ?_
  · refine sound_update fun s h => ⟨h.mem, h.sr, h.ctl, h.fp, fun p hp => ?_⟩
    dsimp only at hp
    split at hp
    · next v hv => cases hp; exact trapVector_pending hv
    · cases hp
  · split
    · exact sound_of_lawful (lawful_runJob _)
    · exact sound_pure _

theorem ends_frestore (ea : Ea) (s : State) : Ends s (execFrestore ea s) := by
  refine ends_privileged ?_ s
  refine sound_bind (sound_fetch _) fun _ => sound_bind (through_locate sound_operates _ _ _) fun l =>
    sound_bind (through_readData sound_operates _ _) fun h => sound_bind (sound_fetch _) fun _ => ?_
  have frame (k : FrameKind) : Through KeepsSound (do
      let ls ← readLongs (addrPlus (placeAddr l.place) 4) (bodySize k / 4)
      restoreStep ea (addrPlus (placeAddr l.place) (4 + bodySize k))
      update fun s =>
        { s with fpu := { loadFields (layoutOf k) ls (frameFieldsOf k) s.fpu with
                          mode := if k = .unimp then .unimp else .idle, pending := none } }
      if k = .busy then afterBusy
      pure Flow.seq : M Flow) := by
    refine sound_bind (through_readLongs sound_operates _ _) fun ls => sound_bind (sound_restoreStep _ _) fun _ =>
      sound_bind (sound_update fun s hs => sound_fpu (u := { loadFields (layoutOf k) ls (frameFieldsOf k) s.fpu with
        mode := if k = .unimp then .unimp else .idle, pending := none }) hs rfl) fun _ => through_ite ?_ (sound_pure _)
    exact sound_bind sound_afterBusy fun _ => sound_pure _
  cases kindOfHeader h with
  | none => exact sound_raise _
  | some k =>
    cases k with
    | null =>
      refine sound_bind (sound_update fun s hs => ?_) fun _ => sound_bind (sound_restoreStep _ _) fun _ => sound_pure _
      have hr := sound_resetFpu hs s.freeCount
      exact ⟨hr.mem, hr.sr, hr.ctl, hr.fp, hr.pending⟩
    | idle => exact frame .idle
    | unimp => exact frame .unimp
    | busy => exact frame .busy

end Sys2Proof.Machine
end

