-- ==== Sys2Proof/Proofs/StepLaws.lean ====
section
/-!
SUPPORT. What every step keeps: each instruction, the instructions of `exec_other`, fetch and decoding, the boundary, put together;
then the invariant and the isolation of user mode.
-/
namespace Sys2Proof.Machine

/-- Every instruction ends in what the invariant and user mode allow. -/
theorem ends_exec (i : Instr) (s : State) : Ends s (exec i s) := by
  cases i with
  | trap n => exact ends_trap n s
  | trapccW | trapccL | trapcc | trapv => exact ends_trapIf _ _ _ s
  | chkW | chkL => exact ends_chk _ _ _ s
  | chk2 => exact ends_chk2 _ _ _ s
  | divuW | divsW => exact ends_divideWord _ _ _ s
  | divuL | divuL64 | divsL | divsL64 => exact ends_divideLong _ _ _ _ _ s
  | bkpt n => exact ends_bkpt n s
  | illegal => exact ends_raise 1 illegalExc s
  | aLine => exact ends_raise 1 (fun ia => { vector := 10, cls := .restart, stackedPc := ia, format := .zero }) s
  | fLine => exact ends_raise 1 (fun ia => { vector := 11, cls := .restart, stackedPc := ia, format := .zero }) s
  | rte => exact ends_rte s
  | stop imm => exact ends_stop imm s
  | reset => exact ends_reset s
  | nop => exact ends_nop s
  | oriSr imm => exact ends_modifySr (fun v => v ||| imm) s
  | andiSr imm => exact ends_modifySr (fun v => v &&& imm) s
  | eoriSr imm => exact ends_modifySr (fun v => v ^^^ imm) s
  | moveToSr ea => exact ends_moveToSr ea s
  | moveFromSr ea => exact ends_moveFromSr ea s
  | moveToUsp an => exact ends_moveToUsp an s
  | moveFromUsp an => exact ends_moveFromUsp an s
  | movecFrom => exact ends_movecFrom _ _ s
  | movecTo => exact ends_movecTo _ _ s
  | movesLoad => exact ends_movesLoad _ _ _ s
  | movesStore => exact ends_movesStore _ _ _ s
  | cinv => exact ends_cinv _ _ _ s
  | cpush => exact ends_cpush _ _ _ s
  | pflush => exact ends_pflush _ _ s
  | ptest => exact ends_ptest _ _ s
  | movemStore => exact ends_movemStore _ _ _ s
  | movemLoad => exact ends_movemLoad _ _ _ s
  | move16PostPost => exact ends_move16PostPost _ _ s
  | move16PostAbs ay addr => exact ends_move16Step ay id (fun _ => addr) s
  | move16AbsPost addr ay => exact ends_move16Step ay (fun _ => addr) id s
  | move16IndAbs ay addr => exact ends_move16Stay ay id (fun _ => addr) s
  | move16AbsInd addr ay => exact ends_move16Stay ay (fun _ => addr) id s
  | tas ea => exact ends_tas ea s
  | cas => exact ends_cas _ _ _ _ s
  | cas2 => exact ends_cas2 _ _ _ _ _ _ _ s
  | fmove | fsmove | fdmove | fabs | fsabs | fdabs | fneg | fsneg | fdneg | fsqrt | fssqrt | fdsqrt | fadd | fsadd | fdadd | fsub
  | fssub | fdsub | fmul | fsmul | fdmul | fdiv | fsdiv | fddiv | fcmp | ftst => exact ends_fpArith _ _ _ _ _ s
  | fint | fsinh | fintrz | flognp1 | fetoxm1 | ftanh | fatan | fasin | fatanh | fsin | ftan | fetox | ftwotox | ftentox | flogn
  | flog10 | flog2 | fcosh | facos | fcos | fgetexp | fgetman | fmod | fsgldiv | frem | fscale | fsglmul | fsincos =>
    exact ends_fpUnimp _ _ _ _ s
  | fmovecr => exact ends_fmovecr _ _ s
  | fmoveOut => exact ends_fmoveOut _ _ _ _ s
  | fmoveToCr => exact ends_fmoveToCr _ _ s
  | fmoveFromCr => exact ends_fmoveFromCr _ _ s
  | fmovemLoad => exact ends_fmovemLoad _ _ _ _ s
  | fmovemStore => exact ends_fmovemStore _ _ _ _ s
  | fbccW | fbccL => exact ends_fpBranch _ _ _ s
  | fnop => exact ends_fnop s
  | fscc => exact ends_fscc _ _ s
  | fdbcc => exact ends_fdbcc _ _ _ s
  | ftrapccW | ftrapccL | ftrapcc => exact ends_fpTrap _ _ s
  | fsave ea => exact ends_fsave ea s
  | frestore ea => exact ends_frestore ea s

/-! ### Fetch and decoding -/

theorem quietly_fetchWord (a : Long) : Through State.Quietly (fetchWord a) := fun s =>
  after_fetchWord a s ▸ through_route buses_quietly (fetchAccess s.sr a) s

theorem quietly_fetchInstr (ia : Long) (fuel : Nat) (ws : List Word) : Through State.Quietly (fetchInstr ia fuel ws) := by
  induction fuel generalizing ws with
  | zero => exact through_pure buses_quietly.toRelates _
  | succ fuel ih =>
    unfold fetchInstr
    split
    · exact through_pure buses_quietly.toRelates _
    · exact through_pure buses_quietly.toRelates _
    · exact through_pure buses_quietly.toRelates _
    · exact through_bind buses_quietly.toRelates (quietly_fetchWord _) fun _ => ih _

/-! ### The instructions of `exec_other` -/

theorem lawful_runOther (p : OtherProg) : Through Lawful (runOther p) := by
  induction p with
  | done t flow => exact lawful_pure _
  | raise e => exact fun s => lawful_relates.refl s
  | load a sz k ih => exact lawful_bind (lawful_readData _ _) fun v => ih v
  | store a sz v k ih => exact lawful_bind (lawful_writeData _ _ _) fun _ => ih
  | setD n v k ih => exact lawful_bind (lawful_update fun s => lawful_operates.setD s n v) fun _ => ih
  | setA n v k ih => exact lawful_bind (lawful_setA n v) fun _ => ih
  | setCcr v k ih => exact lawful_bind (lawful_update fun s => lawful_sr (within_withCcr · v) (withCcr_upper s.sr v)) fun _ => ih

theorem lawful_runOtherFrom (a : Long) (ws : List Word) (o : OtherInstr) : Through Lawful (runOtherFrom a ws o) := by
  induction o generalizing a ws with
  | illegal => exact fun s => lawful_relates.refl s
  | word k ih =>
    cases ws with
    | nil => exact lawful_bind (through_mono (fun _ _ h => h.lawful) (quietly_fetchWord a)) fun w => ih w _ _
    | cons w ws => exact lawful_bind (lawful_pure w) fun w => ih w _ _
  | prog p => exact lawful_runOther p

theorem ends_runOtherInstr (s : State) (w : Word) (ws : List Word) : Ends s (s.runOtherInstr w ws) := by
  intro t ht
  have hrun := lawful_runOtherFrom (addrPlus s.pc 2) ws (execOther s s.pc w)
  unfold State.runOtherInstr at ht
  cases e : runOtherFrom (addrPlus s.pc 2) ws (execOther s s.pc w) s with
  | ok r u =>
    have hu := hrun.ok e
    simp only [e] at ht
    split at ht
    · cases ht
      exact passes_of_takes hu.sound (takes_takeException _ _ _ _)
    · next heven =>
      have heven' : s.pc.getLsbD 0 = false → r.1.getLsbD 0 = false := fun _ => by simpa using heven
      split at ht
      · cases ht
        exact passes_flowChanged (passes_goOn hu heven' _)
      · cases ht
        exact passes_goOn hu heven' _
  | error a u =>
    simp only [e] at ht
    exact ends_aborted (hrun.error e).sound _ _ _ t ht

/-! ### One instruction -/

/-- A state from which the next boundary goes on: what an instruction at `s` ends in, with no trace left due. -/
structure State.Leaves (s t : State) : Prop extends s.Passes t where
  trace : traceOk t

theorem leaves_of_takes {s u t : State} (h : s.Sound → u.Sound) (ht : u.Takes t) : s.Leaves t :=
  ⟨passes_of_takes h ht, ht.entered.trace⟩

theorem leaves_finishStep {s : State} {o : Host.Outcome State Fault Refusal} (h : Ends s o) (ia : Long) {t : State}
    (ht : finishStep ia o = .next t) : s.Leaves t := by
  cases o with
  | next u =>
    have hu := h u rfl
    cases htrace : u.tracePending with
    | true =>
      simp only [finishStep, htrace, if_true] at ht
      cases ht
      exact leaves_of_takes hu.sound (takes_takeException _ _ _ _)
    | false =>
      simp only [finishStep, htrace] at ht
      cases ht
      exact ⟨hu, htrace⟩
  | refused r => cases ht
  | fault f => cases ht

theorem leaves_aborted {s u : State} (h : s.Sound → u.Sound) {ia : Long} {regs0 : Regs} {a : Abort} {t : State}
    (ht : u.aborted ia regs0 a = .next t) : s.Leaves t := by
  cases a with
  | access f => cases ht; exact leaves_of_takes h (takes_takeAccessFault _ _ _ _)
  | exc e => cases ht; exact leaves_of_takes h (takes_takeException _ _ _ _)
  | refused r => cases ht
  | fault f => cases ht

theorem State.Leaves.after {s u t : State} (h : s.Quietly u) (ht : u.Leaves t) : s.Leaves t :=
  ⟨ht.toPasses.after h, ht.trace⟩

theorem leaves_executeWord {s t : State} {w : Word} (ht : s.executeWord w = .next t) : s.Leaves t := by
  unfold State.executeWord at ht
  split at ht
  · cases ht
    exact leaves_of_takes id (takes_takeException _ _ _ _)
  · have hfetch := quietly_fetchInstr s.pc (maxWords + 1) [w]
    cases e : fetchInstr s.pc (maxWords + 1) [w] s with
    | error a u =>
      simp only [e] at ht
      exact leaves_aborted (hfetch.error e).lawful.sound ht
    | ok f u =>
      have hu := hfetch.ok e
      simp only [e] at ht
      cases f with
      | illegal => cases ht; exact leaves_of_takes hu.lawful.sound (takes_takeException _ _ _ _)
      | other ws => exact (leaves_finishStep (ends_runOtherInstr u w ws) _ ht).after hu
      | instr i => exact (leaves_finishStep (ends_exec i u) _ ht).after hu

/-! ### A step -/

/-- What a step leads to. -/
structure State.Follows (s t : State) : Prop where
  inv : s.Inv → t.Inv
  user : srS s.sr = false → srS t.sr = false → s.SupervisorSame t

theorem State.Inv.sound {s : State} (h : s.Inv) : s.Sound := by
  obtain ⟨hm, hs, hc, hf, hp, -, -⟩ := h
  exact ⟨hm, hs, hc, hf, hp⟩

theorem inv_of_sound {s : State} (h : s.Sound) (hpc : pcOk s) (ht : traceOk s) : s.Inv :=
  ⟨h.mem, h.sr, h.ctl, h.fp, h.pending, hpc, ht⟩

theorem follows_of_takes {s t : State} (h : s.Takes t) : s.Follows t where
  inv hs := inv_of_sound (h.sound hs.sound) h.entered.pc h.entered.trace
  user _ hu := absurd (h.entered.supervisor.symm.trans hu) (by decide)

theorem State.Leaves.follows {s t : State} (h : s.Leaves t) (hpc : s.pc.getLsbD 0 = false) : s.Follows t where
  inv hs := inv_of_sound (h.sound hs.sound) (h.pc hpc) h.trace
  user := h.user

theorem follows_executeNext {s t : State} (ht : s.executeNext = .next t) : s.Follows t := by
  unfold State.executeNext at ht
  split at ht
  · cases ht
  · split at ht
    · cases ht
      exact follows_of_takes (takes_takeAddressError _ _ _)
    · next heven =>
      have hpc : s.pc.getLsbD 0 = false := by simpa using heven
      cases e : fetchWord s.pc s with
      | error a u =>
        simp only [e] at ht
        exact (leaves_aborted ((quietly_fetchWord s.pc).error e).lawful.sound ht).follows hpc
      | ok w u =>
        simp only [e] at ht
        exact ((leaves_executeWord ht).after ((quietly_fetchWord s.pc).ok e)).follows hpc

/-- A boundary at which nothing but the environment, the sampled level or the run state changes. -/
theorem State.Follows.before {s u t : State} (h : u.Follows t) (hinv : s.Inv → u.Inv) (hsame : s.SupervisorSame u) : s.Follows t :=
  ⟨h.inv ∘ hinv, fun hu hu' => hsame.trans (h.user (hsame.user.trans hu) hu')⟩

theorem follows_self (s : State) : s.Follows s := ⟨id, fun _ _ => .refl s⟩

theorem inv_sample {s : State} (h : s.Inv) (level : BitVec 3) : (s.sample level).Inv := h

theorem follows_boundary {s t : State} {i : BoundaryInput} (ht : s.boundary i = .next t) : s.Follows t := by
  refine State.Follows.before (u := s.sample i.ipl) ?_ (inv_sample · _) ⟨rfl, rfl, rfl, rfl⟩
  unfold State.boundary at ht
  dsimp only at ht
  split at ht
  · cases ht
    exact follows_of_takes (takes_takeInterrupt _ _ _)
  · split at ht
    · cases ht
      exact follows_self _
    · exact follows_executeNext ht

theorem inv_applyInput {s : State} (h : s.Inv) : s.applyInput.Inv := by
  obtain ⟨⟨hmem, hmod⟩, hrest⟩ := h
  exact ⟨⟨Memory.wf_writes hmem, hmod⟩, hrest⟩

theorem inv_inReset {s : State} (h : s.Inv) : State.Inv { s with run := .inReset } := by
  obtain ⟨hm, hs, hc, hf, hp, -, ht⟩ := h
  exact ⟨hm, hs, hc, hf, hp, fun hr => by simp at hr, ht⟩

theorem follows_step {s t : State} (ht : step s = .next t) : s.Follows t := by
  refine State.Follows.before (u := s.applyInput) ?_ inv_applyInput ⟨rfl, rfl, rfl, rfl⟩
  unfold step State.cycle at ht
  split at ht
  · cases ht
    exact ⟨inv_inReset, fun _ _ => ⟨rfl, rfl, rfl, rfl⟩⟩
  · split at ht
    · cases ht; exact follows_of_takes (takes_resetException _)
    · cases ht; exact follows_self _
    · exact follows_boundary ht
    · exact follows_boundary ht

/-- Settles O8: every exception, interrupt and reset enters a sound state (`State.Takes`), and every part of an instruction keeps
one (`Lawful`), so that a step does, however it ends. -/
theorem stepKeepsInv : Obligations.StepKeepsInv := fun _ _ hs ht => (follows_step ht).inv hs

/-- Settles O10: what ends in user mode has taken no exception, and no part of an instruction reaches the supervisor's state from
user mode, the privileged ones having none there. -/
theorem userModeIsolation : Obligations.UserModeIsolation := by
  intro s t hu ht hu'
  obtain ⟨hctl, hmsp, hisp, hupper⟩ := (follows_step ht).user hu hu'
  exact ⟨hctl, hmsp, hisp, hupper⟩

end Sys2Proof.Machine
end

