-- ==== Sys2Proof/Proofs/AccessFaults.lean ====
section
/-!
SUPPORT. The access fault: its format $7 frame (61_access_fault_recovery.md R500, R503, R520, R521), and the instructions that meet
one at their operand (60_exceptions.md R408, R422).
-/
namespace Sys2Proof.Machine

/-! ### The special status word -/

section ssw
variable (cp cu ct cm ma atc lk rw free : Bool) (sz tt : BitVec 2) (tm : BitVec 3)

/-- The special status word of its fields (R503). -/
def sswWord : Word :=
  BitVec.ofBool cp ++ BitVec.ofBool cu ++ BitVec.ofBool ct ++ BitVec.ofBool cm ++ BitVec.ofBool ma ++ BitVec.ofBool atc ++
    BitVec.ofBool lk ++ BitVec.ofBool rw ++ BitVec.ofBool free ++ sz ++ tt ++ tm

/-- The fields of the access. -/
theorem sswWord_access : (sswWord cp cu ct cm ma atc lk rw free sz tt tm).extractLsb' 0 3 = tm ∧
    (sswWord cp cu ct cm ma atc lk rw free sz tt tm).extractLsb' 3 2 = tt ∧
    (sswWord cp cu ct cm ma atc lk rw free sz tt tm).extractLsb' 5 2 = sz ∧
    (sswWord cp cu ct cm ma atc lk rw free sz tt tm).getLsbD 8 = rw ∧
    (sswWord cp cu ct cm ma atc lk rw free sz tt tm).getLsbD 9 = lk ∧
    (sswWord cp cu ct cm ma atc lk rw free sz tt tm).getLsbD 10 = atc ∧
    (sswWord cp cu ct cm ma atc lk rw free sz tt tm).getLsbD 11 = ma := by
  refine ⟨?_, ?_, ?_, ?_, ?_, ?_, ?_⟩
  case refine_1 | refine_2 | refine_3 =>
    refine BitVec.eq_of_getLsbD_eq fun k hk => ?_
    simp only [sswWord, BitVec.getLsbD_append, BitVec.getLsbD_extractLsb']
    interval_cases k <;> rfl
  all_goals
    simp only [sswWord, BitVec.getLsbD_append]
    simp

/-- The continuation bits. -/
theorem sswWord_continuation :
    (sswWord cp cu ct cm ma atc lk rw free sz tt tm).extractLsb' 12 4 =
      BitVec.ofBool cp ++ BitVec.ofBool cu ++ BitVec.ofBool ct ++ BitVec.ofBool cm ∧
    (sswWord cp cu ct cm ma atc lk rw free sz tt tm).extractLsb' 14 2 = BitVec.ofBool cp ++ BitVec.ofBool cu ∧
    (sswWord cp cu ct cm ma atc lk rw free sz tt tm).getLsbD 12 = cm := by
  refine ⟨?_, ?_, ?_⟩
  case refine_1 | refine_2 =>
    refine BitVec.eq_of_getLsbD_eq fun k hk => ?_
    simp only [sswWord, BitVec.getLsbD_append, BitVec.getLsbD_extractLsb']
    interval_cases k <;> rfl
  simp only [sswWord, BitVec.getLsbD_append]
  simp

end ssw

/-- What the special status word and the EA field tell of the continuation of a fault. -/
def Continuation.shown (c : Continuation) (ssw : Word) (ea : Long) : Prop :=
  match c with
  | .none => ssw.extractLsb' 12 4 = 0
  | .cm x => ssw.extractLsb' 12 4 = 1 ∧ ea = x
  | .ct x => ssw.extractLsb' 12 4 = 2 ∧ ea = x
  | .cu x => ssw.extractLsb' 14 2 = 1 ∧ ssw.getLsbD 12 = false ∧ ea = x
  | .cp x => ssw.extractLsb' 14 2 = 2 ∧ ssw.getLsbD 12 = false ∧ ea = x

theorem sswOf_access (f : AccessFault) (n : Nat) : (sswOf f n).extractLsb' 0 3 = f.acc.tm ∧ (sswOf f n).extractLsb' 3 2 = f.acc.tt ∧
    (sswOf f n).extractLsb' 5 2 = f.acc.size.code ∧ (sswOf f n).getLsbD 8 = !f.acc.write ∧ (sswOf f n).getLsbD 9 = f.acc.locked ∧
    (sswOf f n).getLsbD 10 = f.atc ∧ (sswOf f n).getLsbD 11 = f.ma :=
  sswWord_access _ _ _ _ _ _ _ _ _ _ _ _

theorem sswOf_shown (f : AccessFault) (n : Nat) : f.cont.shown (sswOf f n) (eaFieldOf f n) := by
  obtain ⟨acc, atc, ma, wb, cont⟩ := f
  have h (cp cu ct cm : Bool) := sswWord_continuation cp cu ct cm ma atc acc.locked (!acc.write) (Config.freeBit n)
    acc.size.code acc.tt acc.tm
  cases cont with
  | none => exact (h false false false false).1
  | cm x => exact ⟨(h false false false true).1, rfl⟩
  | ct x => exact ⟨(h false false true false).1, rfl⟩
  | cu x => exact ⟨(h false true (Config.freeBit (n + 1)) false).2.1, (h _ _ _ false).2.2, rfl⟩
  | cp x => exact ⟨(h true false (Config.freeBit (n + 1)) false).2.1, (h _ _ _ false).2.2, rfl⟩

/-! ### The frame -/

/-- What is in the write-back address field of the frame. -/
def wb1aOf (f : AccessFault) (n : Nat) : Long :=
  match f.wb with
  | .one _ => f.acc.addr
  | _ => Config.freeLong (n + 5)

/-- What is in the four push data fields of the frame. -/
def pushDataOf (f : AccessFault) (n : Nat) : Long × Long × Long × Long :=
  match f.wb with
  | .none => (Config.freeLong (n + 6), Config.freeLong (n + 7), Config.freeLong (n + 8), Config.freeLong (n + 9))
  | .one d => (d, Config.freeLong (n + 7), Config.freeLong (n + 8), Config.freeLong (n + 9))
  | .line d0 d1 d2 d3 => (d0, d1, d2, d3)

/-- What the write-back fields tell of a fault. -/
def AccessFault.writtenBack (f : AccessFault) (wb1s : Byte) (wb1a d0 d1 d2 d3 : Long) : Prop :=
  match f.wb with
  | .none => wb1s = 0
  | .one d => wb1s = 1#1 ++ f.acc.size.code ++ f.acc.tt ++ f.acc.tm ∧ wb1a = f.acc.addr ∧ d0 = d
  | .line x0 x1 x2 x3 => wb1s = 0 ∧ d0 = x0 ∧ d1 = x1 ∧ d2 = x2 ∧ d3 = x3

theorem writtenBack_of (f : AccessFault) (n : Nat) : f.writtenBack (wb1sOf f) (wb1aOf f n) (pushDataOf f n).1 (pushDataOf f n).2.1
    (pushDataOf f n).2.2.1 (pushDataOf f n).2.2.2 := by
  obtain ⟨acc, atc, ma, wb, cont⟩ := f
  cases wb with
  | none => rfl
  | one d => exact ⟨rfl, rfl, rfl⟩
  | line x0 x1 x2 x3 => exact ⟨rfl, rfl, rfl, rfl, rfl⟩

theorem accessFrame_eq (sr : Word) (pc : Long) (f : AccessFault) (n : Nat) : accessFrame sr pc f n = frameHead sr pc 7 2 ++
    [(.long, eaFieldOf f n), (.word, (sswOf f n).setWidth 32), (.word, (0 : Word).setWidth 32), (.word, (0 : Word).setWidth 32),
     (.word, (0#8 ++ wb1sOf f : Word).setWidth 32), (.long, f.acc.addr), (.long, Config.freeLong (n + 1)),
     (.long, Config.freeLong (n + 2)), (.long, Config.freeLong (n + 3)), (.long, Config.freeLong (n + 4)), (.long, wb1aOf f n),
     (.long, (pushDataOf f n).1), (.long, (pushDataOf f n).2.1), (.long, (pushDataOf f n).2.2.1),
     (.long, (pushDataOf f n).2.2.2)] := by
  have hbyte (b : Byte) : (0#8 ++ b : Word).setWidth 32 = b.setWidth 32 := by
    refine BitVec.eq_of_getLsbD_eq fun k hk => ?_
    simp only [BitVec.getLsbD_setWidth, BitVec.getLsbD_append, BitVec.getLsbD_zero]
    split
    · rfl
    · rw [BitVec.getLsbD_of_ge b k (by omega)]
  rw [hbyte]
  obtain ⟨acc, atc, ma, wb, cont⟩ := f
  cases wb <;> rfl

/-- The words of a format $7 frame (R500). -/
def accessWords (image : Word) (pc ea : Long) (ssw : Word) (wb1s : Byte) (fa wb3a wb3d wb2a wb2d wb1a d0 d1 d2 d3 : Long) : List Word :=
  [image] ++ longWords pc ++ [0x7008] ++ longWords ea ++ [ssw, 0, 0, 0#8 ++ wb1s] ++ longWords fa ++ longWords wb3a ++
    longWords wb3d ++ longWords wb2a ++ longWords wb2d ++ longWords wb1a ++ longWords d0 ++ longWords d1 ++ longWords d2 ++ longWords d3

theorem accessFrame_words (image : Word) (pc : Long) (f : AccessFault) (n : Nat) : frameBytes (accessFrame image pc f n) =
    bytesOfWords (accessWords image pc (eaFieldOf f n) (sswOf f n) (wb1sOf f) f.acc.addr (Config.freeLong (n + 1))
      (Config.freeLong (n + 2)) (Config.freeLong (n + 3)) (Config.freeLong (n + 4)) (wb1aOf f n) (pushDataOf f n).1
      (pushDataOf f n).2.1 (pushDataOf f n).2.2.1 (pushDataOf f n).2.2.2) := by
  rw [accessFrame_eq, frameHead_bytes]
  simp only [frameLong_bytes, frameWord_bytes, ← bytesOfWords_append, show frameBytes [] = bytesOfWords [] from rfl,
    show ((7 : BitVec 4) ++ 0#2 ++ (2 : Byte) ++ 0#2 : Word) = 0x7008 from rfl]
  simp only [accessWords, List.append_assoc, List.cons_append, List.nil_append, List.append_nil]

theorem accessFrame_size (image : Word) (pc : Long) (f : AccessFault) (n : Nat) : frameSize (accessFrame image pc f n) = 60 := by
  rw [accessFrame_eq]
  simp only [frameHead, List.cons_append, List.nil_append, frameSize, TSize.bytes]

/-- Exception processing of an access fault with its frame in memory. -/
theorem attempt_accessFault {s : State} (h : s.plain) (f : Frame) :
    ({ s with sr := enterSupervisor s.sr, freeCount := s.freeCount + 10 } : State).attempt [f] 2 =
      .ok (({ (s.writeBytes (framesWrites [f])).setStack f.stack f.addr with
        sr := enterSupervisor s.sr, pc := (s.writeBytes (framesWrites [f])).longAt (s.ctl.vbr + 8), tracePending := false,
        run := .running, freeCount := s.freeCount + 10 } : State).flowChanged,
        { s with sr := enterSupervisor s.sr, freeCount := s.freeCount + 10 }) := by
  refine (attempt_frame (s := { s with sr := enterSupervisor s.sr, freeCount := s.freeCount + 10 })
    (plain_of_eq h rfl rfl rfl) f 2).trans ?_
  generalize framesWrites [f] = ws
  cases f.stack <;> rfl

theorem accessFrame_below (s : State) (n : Nat) (image : Word) (pc : Long) (f : AccessFault) :
    ({ s with sr := enterSupervisor s.sr, freeCount := n } : State).frameBelow (activeStack (enterSupervisor s.sr))
      (accessFrame image pc f s.freeCount) =
    { stack := if srM s.sr then .msp else .isp, addr := s.getStack (if srM s.sr then .msp else .isp) - 60,
      fields := accessFrame image pc f s.freeCount } := by
  rw [State.frameBelow, accessFrame_size, activeStack_enter]
  cases srM s.sr <;> rfl

/-- An access fault where its own accesses reach memory. -/
theorem takeAccessFault_plain {s : State} (h : s.plain) (hw : s.memOk) (image : Word) (pc : Long) (f : AccessFault) :
    let k : StackSel := if srM s.sr then .msp else .isp
    let a := s.getStack k - 60
    ∃ m, Stored s m a (frameBytes (accessFrame image pc f s.freeCount)) ∧
      let v := m.longAt (s.ctl.vbr + 8)
      (v.getLsbD 0 = false → s.takeAccessFault image pc f = ({ m.setStack k a with
        sr := enterSupervisor s.sr, pc := v, tracePending := false, run := .running,
        freeCount := s.freeCount + 10 } : State).flowChanged) ∧
      (v.getLsbD 0 = true → (s.takeAccessFault image pc f).run = .halted ∧ (s.takeAccessFault image pc f).mem = s.mem) := by
  intro k a
  let frame : Frame := { stack := k, addr := a, fields := accessFrame image pc f s.freeCount }
  have hstored := stored_frame hw frame (by rw [accessFrame_size]; decide)
  have htake : s.takeAccessFault image pc f = State.enterOrHalt
      (({ s with sr := enterSupervisor s.sr, freeCount := s.freeCount + 10 } : State).attempt [frame] 2) := by
    rw [State.takeAccessFault]
    dsimp only
    rw [accessFrame_below]
  rw [attempt_accessFault h] at htake
  refine ⟨_, hstored, fun heven => htake.trans (if_neg ?_), fun hodd => ?_⟩
  · exact fun hodd => absurd (heven.symm.trans hodd) (by decide)
  · rw [htake.trans (if_pos hodd)]
    exact ⟨halt_run _, halt_mem _⟩

/-! ### An operand that faults -/

theorem bind_error {ε α β : Type} {m : EStateM ε State α} {f : α → EStateM ε State β} {s t : State} {e : ε} :
    (m >>= f) s = .error e t ↔ m s = .error e t ∨ ∃ a u, m s = .ok a u ∧ f a u = .error e t := by
  rw [bind_eq]
  cases h : m s <;> simp

/-- What an operand that faults leaves: the registers, SR, the control registers and the floating-point data registers. -/
structure State.Untouched (s t : State) : Prop where
  regs : t.regs = s.regs
  sr : t.sr = s.sr
  ctl : t.ctl = s.ctl
  fp : t.fp.fp = s.fp.fp

theorem buses_untouched : Buses State.Untouched where
  refl _ := ⟨rfl, rfl, rfl, rfl⟩
  trans _ _ _ h h' := ⟨h'.regs.trans h.regs, h'.sr.trans h.sr, h'.ctl.trans h.ctl, h'.fp.trans h.fp⟩
  bus _ _ := ⟨rfl, rfl, rfl, rfl⟩
  count _ _ := ⟨rfl, rfl, rfl, rfl⟩

/-- A store makes bus transfers and writes memory. -/
theorem Buses.storeBytes {R : State → State → Prop} (h : Buses R) (hw : ∀ (s : State) (ws : List (Long × Byte)), R s (s.writeBytes ws))
    (acc : Access) (bs : List Byte) : Through R (storeBytes acc bs) := fun s => by
  unfold Machine.storeBytes
  rw [after_withWriteBack]
  exact through_bind h.toRelates (through_overTransfers h acc (fun off as =>
      through_bind h.toRelates (through_busUpdate _ fun s => hw s _) fun _ => through_pure h.toRelates _) _)
    (fun _ => through_pure h.toRelates _) s

theorem untouched_writeData (a : Long) (sz : Size) (v : Long) : Through State.Untouched (writeData a sz v) :=
  through_bind buses_untouched.toRelates (through_fetch buses_untouched.toRelates _) fun _ =>
    through_access (buses_untouched.storeBytes (fun _ _ => ⟨rfl, rfl, rfl, rfl⟩) _ _)

theorem readOperand_untouched {ea : Ea} {sz : Size} {ext : Long} {s t : State} {e : Abort} (h : readOperand ea sz ext s = .error e t) :
    s.Untouched t := by
  rcases bind_error.mp h with h | ⟨l, u, hl, h⟩
  · exact (buses_untouched.locate _ _ _).error h
  · have hu := (buses_untouched.locate _ _ _).ok hl
    rcases bind_error.mp h with h | ⟨v, w, -, h⟩
    · exact buses_untouched.trans _ _ _ hu ((buses_untouched.readPlace _ _).error h)
    · rw [bind_eq, commit_eq] at h
      cases h

theorem writeOperand_untouched {ea : Ea} {sz : Size} {ext v : Long} {s t : State} {e : Abort}
    (h : writeOperand ea sz ext v s = .error e t) : s.Untouched t := by
  rcases bind_error.mp h with h | ⟨l, u, hl, h⟩
  · exact (buses_untouched.locate _ _ _).error h
  · have hu := (buses_untouched.locate _ _ _).ok hl
    rcases bind_error.mp h with h | ⟨_, w, -, h⟩
    · cases hp : l.place with
      | mem a =>
        rw [hp] at h
        exact buses_untouched.trans _ _ _ hu ((untouched_writeData _ _ _).error h)
      | d _ | a _ | imm _ =>
        rw [hp] at h
        cases h
    · rw [commit_eq] at h
      cases h

theorem Buses.readLongs {R : State → State → Prop} (h : Buses R) (a : Long) (n : Nat) : Through R (readLongs a n) := by
  induction n generalizing a with
  | zero => exact through_pure h.toRelates _
  | succ n ih =>
    exact through_bind h.toRelates (h.readData _ _) fun _ => through_bind h.toRelates (ih _) fun _ => through_pure h.toRelates _

theorem Buses.readFpLongs {R : State → State → Prop} (h : Buses R) (fmt : FpFmt) (p : Place) : Through R (readFpLongs fmt p) := by
  unfold Machine.readFpLongs
  cases p with
  | d _ | a _ => exact through_fetch h.toRelates _
  | mem a =>
    dsimp only
    split
    · exact h.readLongs _ _
    · exact h.readLongs _ _
    · exact through_bind h.toRelates (h.readData _ _) fun _ => through_pure h.toRelates _
  | imm ws =>
    dsimp only
    split <;> exact through_pure h.toRelates _

/-- Making an operand of its long words cannot fail. -/
theorem operandOfLongs_ok (fmt : FpFmt) (ls : List Long) (s : State) : ∃ o t, operandOfLongs fmt ls s = .ok o t := by
  have single (v : Long) : ∃ o t, fpOfSingle v s = .ok o t := by
    unfold fpOfSingle
    split_ifs <;> exact ⟨_, _, rfl⟩
  have double (hi lo : Long) : ∃ o t, fpOfDouble hi lo s = .ok o t := by
    unfold fpOfDouble
    split_ifs <;> exact ⟨_, _, rfl⟩
  unfold operandOfLongs
  split
  case h_4 v _ => exact single v
  case h_5 hi lo _ => exact double hi lo
  all_goals exact ⟨_, _, rfl⟩

theorem fpSource_untouched {src : FpSrc} {s t : State} {e : Abort} (h : fpSource src s = .error e t) : s.Untouched t := by
  cases src with
  | reg m => cases h
  | ea fmt ea =>
    rcases bind_error.mp h with h | ⟨ext, u, hext, h⟩
    · cases h
    · cases hext
      rcases bind_error.mp h with h | ⟨l, u, hl, h⟩
      · exact (buses_untouched.locate _ _ _).error h
      · have hu := (buses_untouched.locate _ _ _).ok hl
        rcases bind_error.mp h with h | ⟨ls, w, -, h⟩
        · exact buses_untouched.trans _ _ _ hu ((buses_untouched.readFpLongs _ _).error h)
        · rw [bind_eq, commit_eq] at h
          obtain ⟨o, v, ho⟩ := operandOfLongs_ok fmt ls (applyStep l.step w)
          simp only [bind_eq, ho, pure_eq] at h
          cases h

/-! ### The instructions that restart -/

section restarts
variable {s t : State} {f : AccessFault}

/-- An instruction whose operand faults stacks SR and its own address as they were. -/
theorem runInstr_restarts {words : Nat} {body : Long → M Flow} (hs : s.Untouched t)
    (h : body (s.pc + BitVec.ofNat 32 (2 * words)) s = .error (.access f) t) :
    runInstr words body s = .next (t.takeAccessFault s.sr s.pc f) := by
  rw [runInstr_of_access h, hs.sr]

theorem restarts_read {ea : Ea} {sz : Size} (n : Nat) (h : readOperand ea sz (addrPlus s.pc (2 + 2 * n)) s = .error (.access f) t)
    (words : Nat) (k : Long → Long → M Flow) : runInstr words (fun next => do
      let ext ← extAddr n
      let v ← readOperand ea sz ext
      k next v) s = .next (t.takeAccessFault s.sr s.pc f) :=
  runInstr_restarts (readOperand_untouched h) (by simp only [bind_eq, extAddr, fetch_eq, h])

theorem restarts_chk {sz : Size} {ea : Ea} (dn : RegNo) (h : readOperand ea sz (addrPlus s.pc 2) s = .error (.access f) t) :
    chk sz ea dn s = .next (t.takeAccessFault s.sr s.pc f) := by
  unfold chk
  exact restarts_read 0 h _ _

theorem restarts_divideWord (signed : Bool) {ea : Ea} (dn : RegNo)
    (h : readOperand ea .word (addrPlus s.pc 2) s = .error (.access f) t) :
    divideWord signed ea dn s = .next (t.takeAccessFault s.sr s.pc f) := by
  unfold divideWord
  exact restarts_read 0 h _ _

theorem restarts_divideLong (signed wide : Bool) {ea : Ea} (dq dr : RegNo)
    (h : readOperand ea .long (addrPlus s.pc 4) s = .error (.access f) t) :
    divideLong signed wide ea dq dr s = .next (t.takeAccessFault s.sr s.pc f) := by
  unfold divideLong
  exact restarts_read 1 h _ _

theorem restarts_moveToSr {ea : Ea} (hs : srS s.sr = true) (h : readOperand ea .word (addrPlus s.pc 2) s = .error (.access f) t) :
    exec (.moveToSr ea) s = .next (t.takeAccessFault s.sr s.pc f) := by
  unfold exec execMoveToSr
  exact (runInstr_supervisor _ _ hs).trans (restarts_read 0 h _ _)

theorem restarts_moveFromSr {ea : Ea} (hs : srS s.sr = true)
    (h : writeOperand ea .word (addrPlus s.pc 2) (s.sr.setWidth 32) s = .error (.access f) t) :
    exec (.moveFromSr ea) s = .next (t.takeAccessFault s.sr s.pc f) := by
  unfold exec execMoveFromSr
  refine (runInstr_supervisor _ _ hs).trans (runInstr_restarts (writeOperand_untouched h) ?_)
  simp only [bind_eq, extAddr, fetch_eq, h]

/-- What a floating-point operand leaves that faults. -/
theorem fpSource_awake {src : FpSrc} (h : fpSource src s.fpAwake = .error (.access f) t) : s.Untouched t := by
  obtain ⟨hregs, hsr, hctl, hfp⟩ := fpSource_untouched h
  rw [State.fpAwake_regs] at hregs
  rw [State.fpAwake_sr] at hsr
  rw [State.fpAwake_ctl] at hctl
  rw [State.fpAwake_fp] at hfp
  exact ⟨hregs, hsr, hctl, hfp⟩

section fp
variable {src : FpSrc} (hp : s.fpu.pending = none) (h : fpSource src s.fpAwake = .error (.access f) t)
include hp h

theorem restarts_fpArith (op : FpOp) (form : Option Prec) (cmd : BitVec 7) (dst : RegNo) :
    fpArith op form cmd src dst s = .next (t.takeAccessFault s.sr s.pc f) := by
  unfold fpArith
  refine runInstr_restarts (fpSource_awake h) ?_
  simp only [bind_eq, fpCommon_of_none hp, h]

theorem restarts_fpUnimp (dyadic : Bool) (cmd : BitVec 7) (dst : RegNo) :
    fpUnimp dyadic cmd src dst s = .next (t.takeAccessFault s.sr s.pc f) := by
  unfold fpUnimp
  refine runInstr_restarts (fpSource_awake h) ?_
  simp only [bind_eq, fpCommon_of_none hp, h]

end fp

end restarts

/-- Settles O14: the frame is written before the vector is read, whatever its ten free fields hold; and an operand that faults has
changed no register, for its mode's address register is written last. -/
theorem accessFaultFrame : Obligations.AccessFaultFrame := by
  refine ⟨fun s image pc f h hw => ?frame, fun s t f => ?restart⟩
  case frame =>
    obtain ⟨m, hm, heven, hodd⟩ := takeAccessFault_plain h hw image pc f
    rw [accessFrame_words] at hm
    exact ⟨m, _, _, _, _, _, _, _, _, _, _, _, _, hm, sswOf_access f s.freeCount, sswOf_shown f s.freeCount,
      writtenBack_of f s.freeCount, heven, hodd⟩
  case restart =>
    intro faults kept
    have keeps (hu : s.Untouched t) : kept := ⟨hu.regs, hu.sr, hu.ctl, hu.fp⟩
    refine ⟨fun ea h => ⟨keeps (readOperand_untouched h), fun dn i hi => ?word, fun hs => ?moveToSr⟩,
      fun ea dn h => ⟨keeps (readOperand_untouched h), restarts_chk dn h⟩,
      fun ea dq dr h => ⟨keeps (readOperand_untouched h), fun i hi => ?long⟩,
      fun ea h hs => ⟨keeps (writeOperand_untouched h), restarts_moveFromSr hs h⟩,
      fun src h hp => ⟨keeps (fpSource_awake h), fun i hi => ?fp⟩⟩
    case word =>
      obtain rfl | rfl | rfl : i = .chkW ea dn ∨ i = .divuW ea dn ∨ i = .divsW ea dn := by simpa using hi
      · exact restarts_chk dn h
      · exact restarts_divideWord false dn h
      · exact restarts_divideWord true dn h
    case moveToSr => exact restarts_moveToSr hs h
    case long =>
      obtain rfl | rfl | rfl | rfl : i = .divuL ea dq dr ∨ i = .divuL64 ea dq dr ∨ i = .divsL ea dq dr ∨ i = .divsL64 ea dq dr := by
        simpa using hi
      all_goals exact restarts_divideLong _ _ dq dr h
    case fp =>
      rcases hi with ⟨op, form, cmd, dst, hi⟩ | ⟨dyadic, cmd, dst, hi⟩
      · exact (exec_arithmetic hi s).trans (restarts_fpArith hp h _ _ _ _)
      · exact (exec_unimplemented hi s).trans (restarts_fpUnimp hp h _ _ _)

end Sys2Proof.Machine
end
